-- ==== Sys2Proof/Word.lean ====
section
/-! DEFINITION. The words of the machine and their plainest arithmetic. -/

namespace Sys2Proof

/-- A byte of memory or scratchpad (spec/00_scope.md R2). -/
abbrev Byte := BitVec 8
/-- A 16-bit half. -/
abbrev Half := BitVec 16
/-- A lane element, a uniform register, an instruction word (R6). -/
abbrev Word := BitVec 32
/-- A 64-bit value or address (R6). -/
abbrev DWord := BitVec 64
/-- A lane mask or a lane predicate: bit `l` belongs to lane `l` (R6, R168). -/
abbrev Mask := BitVec 64

/-- Lanes of a wave (R168). -/
def lanes : Nat := 64

/-- The lane numbers 0 to 63 in ascending order. -/
def laneList : List Nat := List.range 64

/-- Bits `[hi:lo]` of a natural number (R1). -/
def field (w hi lo : Nat) : Nat := (w >>> lo) % 2 ^ (hi - lo + 1)

/-- Bit `n` of a natural number (R1). -/
def bitAt (w n : Nat) : Bool := (w >>> n) % 2 == 1

/-- A Bool as a bit. -/
def bit (b : Bool) : Nat := if b then 1 else 0

/-- The signed reading of the low `n` bits of `x` (R28, R29). -/
def signed (x n : Nat) : Int :=
  let y := x % 2 ^ n
  if y < 2 ^ (n - 1) then (y : Int) else (y : Int) - (2 ^ n : Nat)

/-- The low `n` bits of an integer in two's complement. -/
def unsigned (x : Int) (n : Nat) : Nat := (x % ((2 ^ n : Nat) : Int)).toNat

end Sys2Proof
end

