-- ==== Sys2Proof/Syntax.lean ====
section
/-! DEFINITION. The steps of the part: one constructor for every row of spec/opcode_table.json. The first half are the
instruction words of Zauno (spec/02_instruction_words.md R45), the second half the steps of the other agents
(spec/95_what_each_step_holds.md). -/

namespace Sys2Proof

/-- A "vector or uniform" operand (R27, R218): `x[0]` chooses. -/
inductive Src where
  | v (n : Nat)
  | s (n : Nat)
  deriving DecidableEq, Repr

/-- Memory order codes (R40). -/
inductive MemOrder where
  | plain | acq | rel | ar
  deriving DecidableEq, Repr

/-- Scope codes (R40, R367). -/
inductive Scope where
  | wave | group | cluster | die | device | system
  deriving DecidableEq, Repr

/-- Integer compare conditions (R222). -/
inductive ICond where
  | eq | ne | lt | le | gt | ge | ltu | leu | gtu | geu
  deriving DecidableEq, Repr

/-- FP compare conditions (R222). -/
inductive FCond where
  | eq | ne | lt | le | gt | ge | un | ord
  deriving DecidableEq, Repr

/-- Atomic operations (R43). -/
inductive AtomOp where
  | add | fadd | min | max | umin | umax | and | or | xor | xchg | cas | fmin | fmax
  deriving DecidableEq, Repr

/-- SCAN and VRED operations (R241). -/
inductive ScanOp where
  | add | min | max | minu | maxu | and | or | xor | fadd | fmin | fmax
  deriving DecidableEq, Repr

/-- Conversion kinds of CVT (R234). -/
inductive CvtKind where
  | f32 | f16 | bf16 | i32 | u32 | e4m3 | e5m2 | e3m2 | e2m3 | e2m1 | i8 | u8 | i4
  deriving DecidableEq, Repr

/-- SHFL modes (R240). -/
inductive ShflMode where
  | wrap | clamp | own | zero
  deriving DecidableEq, Repr

/-- The four outstanding paths (R107). -/
inductive Path where
  | ld | st | cp | tl
  deriving DecidableEq, Repr

/-- QTRY forms (R142). -/
inductive QtryOp where
  | pop | push | query
  deriving DecidableEq, Repr

/-- VOTE modes (R243). -/
inductive VoteMode where
  | any | all | ballot
  deriving DecidableEq, Repr

/-- RQNT outputs (R236). -/
inductive RqKind where
  | i8 | u8 | i4
  deriving DecidableEq, Repr

/-- FMOV forms (R229). -/
inductive FmovOp where
  | copy | neg | abs | nabs
  deriving DecidableEq, Repr

/-- UIMASK operations (R443). -/
inductive MaskOp where
  | write | set | clr
  deriving DecidableEq, Repr

/-- FENCE kinds (R378). -/
inductive FenceKind where
  | acq | rel | full
  deriving DecidableEq, Repr

/-- MSOLV modes (R291). -/
inductive SolveMode where
  | chol | lu | lo | up
  deriving DecidableEq, Repr

/-- SLBIND modes (R311). -/
inductive BindMode where
  | bind | init | unbind
  deriving DecidableEq, Repr

/-- The condition of BRU and CALL: `pred` 0 to 3 with `n`, or always (R31). -/
inductive UCond where
  | always
  | k (n : Nat) (neg : Bool)
  deriving DecidableEq, Repr

/-- The memory extension word (R40). -/
structure MemExt where
  order  : MemOrder
  scope  : Scope
  sx     : Bool
  /-- The signed byte offset, as its 16 bits. -/
  offset : BitVec 16
  deriving DecidableEq, Repr

/-- The atomic extension word (R43). -/
structure AtomExt where
  order : MemOrder
  scope : Scope
  op    : AtomOp
  det   : Bool
  /-- 1 selects 64 bits. -/
  wide  : Bool
  deriving DecidableEq, Repr

/-- An access that another module or the host makes to this module's memory (R70, R486). -/
inductive RemoteAccess where
  | read (len : Nat)
  | write (bytes : List Byte)
  | atomic (op : AtomOp) (wide : Bool) (x y : DWord)
  deriving DecidableEq, Repr

/-- A buffer in host memory that a virtqueue's descriptors name: its address and its length in bytes (R478, R481). -/
abbrev Buf := Nat × Nat

/-- What a driver makes available on a virtqueue: commands, each with its completion buffer, and buffers (R477, R481). -/
structure Offer where
  cmds : List (Buf × Buf)
  bufs : List Buf
  deriving DecidableEq, Repr

/-- A part of an outstanding operation: the operation's number in its wave, and the part's place in it (R108, R363). -/
structure PartAt where
  seq : Nat
  idx : Nat
  deriving DecidableEq, Repr

/-- The steps of the machine. Register fields are numbers; WellFormed.lean says which each admits. -/
inductive Instr where
  -- 02, 07: no operation, control flow
  | nop
  | ifP (p : Nat) (n : Bool) (off : BitVec 17)
  | elseP (off : BitVec 17)
  | endif
  | loop
  | brk (p : Nat) (n : Bool) (off : BitVec 17)
  | cont (p : Nat) (n : Bool) (off : BitVec 17)
  | endloop (off : BitVec 17)
  | bru (c : UCond) (off : BitVec 17)
  | jmp (off : BitVec 17)
  | call (c : UCond) (off : BitVec 17)
  | ret (a : Nat)
  | hloop (a len : Nat)
  | hloopEndCheck
  | illegalInstructionWord (w : Word)
  | instructionFetchPageFault (second : Bool)
  | exit
  | wait (ld st cp tl : Nat)
  | waitp (a : Nat) (path : Path)
  | yield
  | sysc (d fn : Nat)
  | trap (code : Nat)
  | uret
  | uimask (d : Nat) (op : MaskOp) (bits : Nat)
  | csrr (d csr : Nat)
  | csrw (d csr : Nat)
  | fence (kind : FenceKind) (scope : Scope)
  | promote (d a bp : Nat) (wide : Bool)
  | rdclk (d : Nat)
  | spawn (node : Bool) (d a b : Nat)
  -- 09: integer vector instructions
  | iadd (d a : Nat) (b : Src)
  | isub (d a : Nat) (b : Src)
  | imul (d a : Nat) (b : Src)
  | imulh (d a : Nat) (b : Src) (u : Bool)
  | imad (d a : Nat) (b : Src)
  | imin (d a : Nat) (b : Src) (u : Bool)
  | imax (d a : Nat) (b : Src) (u : Bool)
  | iabs (d a : Nat)
  | andV (d a : Nat) (b : Src)
  | orV (d a : Nat) (b : Src)
  | xorV (d a : Nat) (b : Src)
  | andn (d a : Nat) (b : Src)
  | shl (d a : Nat) (b : Src)
  | shr (d a : Nat) (b : Src)
  | sar (d a : Nat) (b : Src)
  | popc (d a : Nat)
  | clz (d a : Nat)
  | bfx (d a : Nat) (b : Src) (sx : Bool)
  | bfi (d a : Nat) (b : Src)
  | icmp (c : ICond) (p a : Nat) (b : Src)
  | sel (d a pb : Nat) (n : Bool)
  | iaddsat (d a : Nat) (b : Src) (u : Bool)
  | hmix (d a : Nat) (b : Src)
  | itrit (d a : Nat) (b : Src)
  | mov (d a : Nat)
  | laneid (d : Nat)
  | iaddi (d a : Nat) (imm : BitVec 10)
  | imuli (d a : Nat) (imm : BitVec 10)
  | andi (d a : Nat) (imm : BitVec 10)
  | ori (d a : Nat) (imm : BitVec 10)
  | xori (d a : Nat) (imm : BitVec 10)
  | shli (d a sh : Nat)
  | shri (d a sh : Nat)
  | sari (d a sh : Nat)
  | icmpi (c : ICond) (p a : Nat) (imm : BitVec 10)
  | movi (d : Nat) (imm : BitVec 17)
  | movhi (d : Nat) (imm : BitVec 17)
  | limm (d : Nat) (imm : Word)
  -- 09: uniform instructions
  | uadd (d a b : Nat)
  | usub (d a b : Nat)
  | umul (d a b : Nat)
  | umulh (d a b : Nat) (u : Bool)
  | uand (d a b : Nat)
  | uor (d a b : Nat)
  | uxor (d a b : Nat)
  | ushl (d a b : Nat)
  | ushr (d a b : Nat)
  | usar (d a b : Nat)
  | umin (d a b : Nat) (u : Bool)
  | umax (d a b : Nat) (u : Bool)
  | ucmp (c : ICond) (k a b : Nat)
  | usel (d a kb : Nat) (n : Bool)
  | ulea (d a b scale : Nat)
  | umov (d a : Nat)
  | uaddi (d a : Nat) (imm : BitVec 10)
  | umovi (d : Nat) (imm : BitVec 17)
  | umovhi (d : Nat) (imm : BitVec 17)
  | ulimm (d : Nat) (imm : Word)
  | ucmpi (c : ICond) (k a : Nat) (imm : BitVec 10)
  -- 06: moves between the files
  | vbcast (d a : Nat)
  | vreadl (d a b : Nat)
  | vwritel (d a b : Nat)
  | vfirst (d a : Nat)
  | pget (d a : Nat) (m : Bool)
  | pset (d a : Nat)
  -- 09: floating point
  | fadd (d a : Nat) (b : Src)
  | fsub (d a : Nat) (b : Src)
  | fmul (d a : Nat) (b : Src)
  | ffma (d a : Nat) (b : Src) (np na : Bool)
  | fmin (d a : Nat) (b : Src)
  | fmax (d a : Nat) (b : Src)
  | fcmp (c : FCond) (p a : Nat) (b : Src)
  | fdiv (d a : Nat) (b : Src)
  | fsqrt (d a : Nat)
  | frcp (d a : Nat)
  | frsq (d a : Nat)
  | fexp2 (d a : Nat)
  | flog2 (d a : Nat)
  | fsin (d a : Nat)
  | fcos (d a : Nat)
  | ftanh (d a : Nat)
  | fclass (d a : Nat)
  | fscale (d a : Nat) (b : Src)
  | fmov (d a : Nat) (op : FmovOp)
  | pkadd (d a : Nat) (b : Src) (bf : Bool)
  | pkmul (d a : Nat) (b : Src) (bf : Bool)
  | pkfma (d a : Nat) (b : Src) (bf : Bool)
  -- 09: conversions
  | cvt (d a : Nat) (dk sk : CvtKind) (rtz : Bool)
  | rqnt (d a b : Nat) (k : RqKind)
  | unpk5 (d a pb byte : Nat)
  | pack5 (d a byte : Nat)
  | unpkps (d a : Nat) (b : Src) (byte : Nat)
  -- 09: cross-lane
  | shfl (d a : Nat) (b : Src) (m : ShflMode)
  | shflx (d a : Nat) (b : Src) (m : ShflMode)
  | scan (d a : Nat) (op : ScanOp) (ex : Bool)
  | vred (d a : Nat) (op : ScanOp)
  | vote (d pa : Nat) (m : VoteMode)
  | matchV (d a : Nat)
  | rng (d a b stream : Nat)
  -- 06: vector allocation
  | racq (t : Bool) (k n : Nat)
  | rrel (n : Nat)
  | wbase (b : Nat)
  -- 03, 04: memory and scratchpad
  | ldg (d a bp w : Nat)
  | stg (d a bp w : Nat)
  | lds (d a bp w : Nat)
  | sts (d a bp w : Nat)
  | ldu (d a bp w : Nat)
  | stu (d a bp w : Nat)
  | ldgX (d a bp w : Nat) (x : MemExt)
  | stgX (d a bp w : Nat) (x : MemExt)
  | ldsX (d a bp w : Nat) (x : MemExt)
  | stsX (d a bp w : Nat) (x : MemExt)
  | lduX (d a bp w : Nat) (x : MemExt)
  | stuX (d a bp w : Nat) (x : MemExt)
  | tmov (d a b : Nat)
  -- 17: atomics
  | atom (d a bp : Nat) (x : AtomExt)
  | atomu (d a bp : Nat) (x : AtomExt)
  | mred (d a bp : Nat) (x : AtomExt)
  -- 05: queues, barriers, phases
  | qpsh (q a : Nat)
  | qpop (d q : Nat)
  | qtry (op : QtryOp) (k a q : Nat)
  | qbind (unbind : Bool) (q a k : Nat)
  | bari (a : Nat)
  | barx (a b : Nat)
  | bara (a b : Nat)
  | barw (a b : Nat)
  | phbeg (k a : Nat)
  | phend (a : Nat)
  -- 10: tiles
  | tld (td va : Nat) (sd : Bool)
  | tst (ta va : Nat) (sd : Bool)
  | tzero (td : Nat) (acc : Bool)
  | tmma (ad ta tb vf : Nat) (z : Bool)
  | tmmas (ad ta tb vf tm : Nat) (z : Bool)
  | trdrow (vx ta : Nat) (side acc : Bool)
  | twrrow (td vx : Nat) (side acc : Bool)
  | ttrq (td ta : Nat)
  | tcvt (td ta : Nat) (ss ds : Bool)
  | trq (td aa vx : Nat) (ds : Bool)
  -- 12: small matrices
  | mld (md v rows cols : Nat)
  | mst (ma v : Nat)
  | mshape (md rows cols : Nat)
  | mmul (md ma mb : Nat)
  | mmad (md ma mb : Nat)
  | madd (md ma mb : Nat)
  | msub (md ma mb : Nat)
  | mtrn (md ma : Nat)
  | mscl (md ma : Nat) (v : Src)
  | mchol (md ma : Nat)
  | mlup (md ma v : Nat)
  | msolv (md ma mb v : Nat) (m : SolveMode)
  | minv (md ma : Nat) (chol : Bool)
  | mgete (v ma i j : Nat)
  | msete (md v i j : Nat)
  | mstat (v : Nat) (c : Bool)
  -- 14: the Slot Catalogue
  | slbind (m : BindMode) (k a : Nat)
  | slscor (d a b : Nat)
  | slfin (p a : Nat)
  | slropn (d a : Nat)
  | slst (d a : Nat) (acq : Bool)
  | slkvc (d a : Nat)
  | slemit (d : Nat)
  -- 16: the Fitting Engine
  | apxb (a : Nat)
  | apxe
  | fitcfg (d a : Nat)
  | fitinv (a : Nat) (free : Bool)
  | fitst (d a : Nat)
  | fitld (a b : Nat)
  | fitsv (a b : Nat)
  -- 23: quantum and store hash
  | qend
  | shrd (d : Nat)
  -- steps of the Milliner on a SYSC request (22 R440)
  | sysNull (req : Nat)
  | sysMap (req : Nat) (pages : List Nat)
  | sysUnmap (req : Nat)
  | sysResume (req : Nat)
  | sysSkip (req : Nat)
  | sysAbort (req : Nat)
  | sysSignal (req : Nat)
  | sysNotify (req : Nat)
  | sysInval (req : Nat)
  | sysCompletion (req : Nat)
  -- register blocks (06 R158, R160)
  | racqGrant (core : Nat)
  | racqTimeout (wave : Nat)
  -- memory path (03)
  | loadSectorReturn (wave seq idx : Nat)
  | storePerformed (wave seq : Nat)
  | memoryError (wave seq idx : Nat)
  | fabricError (wave seq idx : Nat)
  | pageWalk (die : Nat)
  | walkCompletion (die idx : Nat)
  | translationInvalidationComplete (inv : Nat)
  | tmovCompletion (wave seq : Nat)
  -- atomics (17)
  | atomicRequest (wave seq idx : Nat)
  | atomicResultReturn (wave : Nat) (part : PartAt)
  | collectionWindowClose (cluster : Nat)
  -- engines (05)
  | copyCommand (cluster engine : Nat)
  | rectangleCopyCommand (cluster engine : Nat)
  | gatherCommand (cluster : Nat)
  | scatterCommand (cluster : Nat)
  | engineCommandCompletion (cluster engine : Nat)
  | engineCommandFault (cluster engine written : Nat)
  -- units (10, 12, 16)
  | tileInstructionCompletion (wave : Nat)
  | smallMatrixCompletion (wave : Nat)
  | fitTransferCompletion (wave seq : Nat)
  | trainingStepBegin (cluster rid : Nat)
  | trainingStepCompletion (cluster rid : Nat)
  -- interrupts, scheduling, contexts (21, 22)
  | userInterrupt (wave : Nat)
  | starvationBoost (wave : Nat) (second vport : Bool)
  | ageingLimit (launch gang : Nat)
  | place (part : Nat)
  | preempt (launch gang : Nat)
  | restore (launch gang : Nat)
  | kill (launch : Nat)
  | ended (group : Nat)
  | saved (launch gang : Nat)
  | restored (launch gang : Nat)
  | fault (wave : Nat)
  | quantumEnd (wave : Nat)
  | roundCommit (launch : Nat)
  | nodeBatchTimer (launch node : Nat)
  | launchCompletion (launch : Nat)
  -- commands a Milliner thread takes from its rings (25 R479)
  | launch (lq : Nat)
  | inval (lq : Nat)
  | resume (lq : Nat)
  | skip (lq : Nat)
  | abort (lq : Nat)
  | signal (lq : Nat)
  | pcreate (lq : Nat)
  | premove (lq : Nat)
  | tcreate (lq : Nat)
  | tremove (lq : Nat)
  | fwload (lq : Nat)
  | mreset (lq : Nat)
  | attest (lq : Nat)
  -- host side (25)
  | queueNotify (dev vq off : Nat) (gives : Offer)
  | queueEnable (port dev vq : Nat)
  | lqWrite (dev vq lq : Nat)
  | virtqueueReset (dev vq : Nat)
  | deviceReset (dev : Nat)
  | psemWrite (port val : Nat)
  | psemBreak
  | recordPost (dev vq : Nat)
  | eolUpdate
  | moduleReset
  | bootImageVerify (module : Nat)
  | shadowStreamOut (core : Nat)
  | hostLinkLeavesL0 (port : Nat)
  | hostLinkReturnsToL0 (port : Nat)
  | hostDeviceMemoryAccess (tier pa : Nat) (acc : RemoteAccess)
  | fabricRemoteAccess (tier pa : Nat) (acc : RemoteAccess)
  | unknownOpcodeCommand (lq : Nat)
  | featureNegotiation (dev : Nat) (features : DWord)
  deriving DecidableEq, Repr

end Sys2Proof
end

