-- ==== Sys2Proof/WellFormed.lean ====
section
/-! DEFINITION. Which operands each instruction admits (spec/02_instruction_words.md R33, R38, and each entry). -/

namespace Sys2Proof

/-- A vector register name (R38). -/
def isV (n : Nat) : Bool := n < 128
/-- A uniform register name (R38). -/
def isS (n : Nat) : Bool := n < 64
/-- The even register of a uniform pair (R38). -/
def isPair (n : Nat) : Bool := n < 64 && n % 2 == 0
/-- A lane predicate name (R38). -/
def isP (n : Nat) : Bool := n < 8
/-- A uniform predicate name (R38). -/
def isK (n : Nat) : Bool := n < 4
/-- A bound queue name (R38, R119). -/
def isBq (n : Nat) : Bool := 8 ≤ n && n < 16
/-- A vector-or-uniform operand (R27). -/
def Src.wf : Src → Bool
  | .v n => isV n
  | .s n => isS n
/-- The registers a data run of memory width code `w` uses (R33). -/
def runLen (w : Nat) : Nat := if w = 3 then 2 else if w = 4 then 4 else 1
/-- A vector run of `n` registers from `d` (R33). -/
def runV (d n : Nat) : Bool := d + n ≤ 128
/-- A uniform run of `n` registers from `d` (R33). -/
def runS (d n : Nat) : Bool := d + n ≤ 64
/-- The base pair field (R32). -/
def isBp (n : Nat) : Bool := n < 8
/-- The width code of a memory instruction (R32). -/
def isW (n : Nat) : Bool := n < 5
/-- The condition of a uniform branch (R31). -/
def UCond.wf : UCond → Bool
  | .always => true
  | .k n _ => isK n
/-- R41 for a load: no release, sign-extension only below 32 bits. -/
def MemExt.loadOk (x : MemExt) (w : Nat) : Bool :=
  (x.order == .plain || x.order == .acq) && (!x.sx || w < 2)
/-- R41 for a store: no acquire, no sign-extension. -/
def MemExt.storeOk (x : MemExt) : Bool :=
  (x.order == .plain || x.order == .rel) && !x.sx
/-- R44: fadd, fmin and fmax are 32 bits wide. -/
def AtomExt.ok (x : AtomExt) : Bool :=
  !(x.wide && (x.op == .fadd || x.op == .fmin || x.op == .fmax))
/-- R44: what MRED excludes. -/
def AtomExt.mredOk (x : AtomExt) : Bool :=
  x.ok && x.op != .xchg && x.op != .cas && (x.order == .plain || x.order == .rel)
/-- Registers of an atomic's data run (R352). -/
def AtomExt.run (x : AtomExt) : Nat := (if x.wide then 2 else 1) * (if x.op == .cas then 2 else 1)
/-- An accumulator name in a 4-bit field (R35). -/
def isAcc (n : Nat) : Bool := n < 8
/-- A tile name in a 4-bit field (R35). -/
def isTile (n : Nat) : Bool := n < 16
/-- A matrix register name (R36). -/
def isM (n : Nat) : Bool := n < 8
/-- A shape dimension (R285). -/
def isDim (n : Nat) : Bool := 1 ≤ n && n ≤ 6
/-- An integer conversion kind (R234). -/
def CvtKind.isInt : CvtKind → Bool
  | .i32 | .u32 | .i8 | .u8 | .i4 => true
  | _ => false
/-- A queue QPSH may name (R119). -/
def qPush (q : Nat) : Bool := q == 0 || q == 2 || isBq q
/-- A queue QPOP may name (R119). -/
def qPop (q : Nat) : Bool := q == 1 || q == 3 || isBq q
/-- The uniform run of a queue instruction, where the fields fix its length (R120). -/
def qRun (q a : Nat) : Bool := if q < 4 then runS a 8 else isS a
/-- The operands of QTRY (R119, R120, R142). -/
def qtryOk (op : QtryOp) (a q : Nat) : Bool :=
  match op with
  | .pop => qPop q && qRun q a
  | .push => qPush q && qRun q a
  | .query => (q < 4 || isBq q) && runS a 2

/-- An instruction whose every field has a value that its entry admits. The steps of the other agents carry plain numbers
and are always well formed. -/
def Instr.wf : Instr → Bool
  | .ifP p _ _ | .brk p _ _ | .cont p _ _ => isP p
  | .bru c _ | .call c _ => c.wf
  | .ret a => isPair a
  | .hloop a len => isS a && 1 ≤ len && len ≤ 256
  | .wait ld st cp tl => ld < 16 && st < 16 && cp < 16 && tl < 16
  | .waitp a _ => isS a
  | .sysc d fn => runS d 8 && fn < 4096
  | .trap code => code < 65536
  | .uimask d _ bits => isS d && bits < 128
  | .csrr d csr | .csrw d csr => isS d && csr < 4096
  | .promote d a bp wide => (if wide then isPair d else isS d) && isS a && isBp bp
  | .rdclk d => isPair d
  | .spawn node d a b => if node then d == 0 && isV a && isS b else isBq d && isV a && b == 0
  | .iadd d a b | .isub d a b | .imul d a b | .imad d a b | .andV d a b | .orV d a b | .xorV d a b | .andn d a b
  | .shl d a b | .shr d a b | .sar d a b | .bfi d a b | .hmix d a b | .itrit d a b
  | .fadd d a b | .fsub d a b | .fmul d a b | .fmin d a b | .fmax d a b | .fdiv d a b | .fscale d a b =>
      isV d && isV a && b.wf
  | .imulh d a b _ | .imin d a b _ | .imax d a b _ | .bfx d a b _ | .iaddsat d a b _
  | .pkadd d a b _ | .pkmul d a b _ | .pkfma d a b _ => isV d && isV a && b.wf
  | .shfl d a b _ | .shflx d a b _ => isV d && isV a && b.wf
  | .ffma d a b _ _ => isV d && isV a && b.wf
  | .iabs d a | .popc d a | .clz d a | .mov d a | .fsqrt d a | .frcp d a | .frsq d a | .fexp2 d a | .flog2 d a
  | .fsin d a | .fcos d a | .ftanh d a | .fclass d a | .matchV d a => isV d && isV a
  | .fmov d a _ => isV d && isV a
  | .icmp _ p a b => isP p && isV a && b.wf
  | .fcmp _ p a b => isP p && isV a && b.wf
  | .sel d a pb _ => isV d && isV a && isP pb
  | .laneid d => isV d
  | .iaddi d a _ | .imuli d a _ | .andi d a _ | .ori d a _ | .xori d a _ => isV d && isV a
  | .shli d a sh | .shri d a sh | .sari d a sh => isV d && isV a && sh < 64
  | .icmpi _ p a _ => isP p && isV a
  | .movi d _ | .movhi d _ => isV d
  | .limm d _ => isV d
  | .uadd d a b | .usub d a b | .umul d a b | .uand d a b | .uor d a b | .uxor d a b | .ushl d a b | .ushr d a b
  | .usar d a b => isS d && isS a && isS b
  | .umulh d a b _ | .umin d a b _ | .umax d a b _ => isS d && isS a && isS b
  | .ucmp _ k a b => isK k && isS a && isS b
  | .usel d a kb _ => isS d && isS a && isK kb
  | .ulea d a b sc => isPair d && isPair a && isS b && sc < 4
  | .umov d a => isS d && isS a
  | .uaddi d a _ => isS d && isS a
  | .umovi d _ | .umovhi d _ => isS d
  | .ulimm d _ => isS d
  | .ucmpi _ k a _ => isK k && isS a
  | .vbcast d a => isV d && isS a
  | .vreadl d a b => isS d && isV a && isS b
  | .vwritel d a b => isV d && isS a && isS b
  | .vfirst d a => isS d && isV a
  | .pget d a m => isPair d && (if m then a == 0 else isP a)
  | .pset d a => isP d && isPair a
  | .cvt d a dk sk rtz => isV d && isV a && dk != sk && (!rtz || (dk.isInt && !sk.isInt))
  | .rqnt d a b _ => isV d && isV a && runS b 3
  | .unpk5 d a pb byte => runV d 5 && isV a && isP pb && byte < 4
  | .pack5 d a byte => isV d && runV a 5 && byte < 4
  | .unpkps d a b byte => isV d && isV a && b.wf && byte < 4
  | .scan d a _ _ => isV d && isV a
  | .vred d a _ => isS d && isV a
  | .vote d pa m => (if m == .ballot then isPair d else isK d) && isP pa
  | .rng d a b st => runV d 4 && isV a && isPair b && st < 4
  | .racq t k n => (if t then isK k else k == 0) && 1 ≤ n && n < 16
  | .rrel n => 1 ≤ n && n < 16
  | .wbase b => b < 16
  | .ldg d a bp w | .stg d a bp w | .lds d a bp w | .sts d a bp w => isW w && runV d (runLen w) && isV a && isBp bp
  | .ldu d a bp w | .stu d a bp w => isW w && runS d (runLen w) && isS a && isBp bp
  | .ldgX d a bp w x | .ldsX d a bp w x => isW w && runV d (runLen w) && isV a && isBp bp && x.loadOk w
  | .stgX d a bp w x | .stsX d a bp w x => isW w && runV d (runLen w) && isV a && isBp bp && x.storeOk
  | .lduX d a bp w x => isW w && runS d (runLen w) && isS a && isBp bp && x.loadOk w
  | .stuX d a bp w x => isW w && runS d (runLen w) && isS a && isBp bp && x.storeOk
  | .tmov d a b => isS d && isS a && isPair b
  | .atom d a bp x => runV d x.run && isV a && isBp bp && x.ok
  | .atomu d a bp x => runS d x.run && isS a && isBp bp && x.ok
  | .mred d a bp x => runV d (if x.wide then 2 else 1) && isV a && isBp bp && x.mredOk
  | .qpsh q a => qPush q && qRun q a
  | .qpop d q => qPop q && qRun q d
  | .qtry op k a q => isK k && qtryOk op a q
  | .qbind u q a k => isBq q && (if u then a == 0 && k == 0 else isS a && isK k)
  | .bari a => isS a
  | .barx a b | .bara a b | .barw a b => isS a && isS b
  | .phbeg k a => isK k && isS a
  | .phend a => isS a
  | .tld t va s | .tst t va s => isTile t && runV va (if s then 2 else 1)
  | .tzero t acc => if acc then isAcc t else isTile t
  | .tmma ad ta tb vf _ => isAcc ad && isTile ta && isTile tb && isV vf
  | .tmmas ad ta tb vf tm _ => isAcc ad && isTile ta && isTile tb && isV vf && isTile tm
  | .trdrow vx ta side acc => isV vx && (if acc then isAcc ta && !side else isTile ta)
  | .twrrow td vx side acc => runV vx 2 && (if acc then isAcc td && !side else isTile td)
  | .ttrq td ta => isTile td && isTile ta
  | .tcvt td ta _ _ => isTile td && isTile ta
  | .trq td aa vx _ => isTile td && isAcc aa && runV vx 3
  | .mld md v r c => isM md && isV v && isDim r && isDim c
  | .mst ma v => isM ma && isV v
  | .mshape md r c => isM md && isDim r && isDim c
  | .mmul d a b | .mmad d a b | .madd d a b | .msub d a b => isM d && isM a && isM b
  | .mtrn d a => isM d && isM a
  | .mscl d a v => isM d && isM a && v.wf
  | .mchol d a => isM d && isM a
  | .mlup d a v => isM d && isM a && isV v
  | .msolv d a b v m => isM d && isM a && isM b && (if m == .lu then isV v else v == 0)
  | .minv d a _ => isM d && isM a
  | .mgete v ma i j => isV v && isM ma && i < 6 && j < 6
  | .msete md v i j => isM md && isV v && i < 6 && j < 6
  | .mstat v _ => isV v
  | .slbind m k a => if m == .unbind then k == 0 && a == 0 else isK k && isS a
  | .slscor d a b => isV d && isV a && isV b
  | .slfin p a => isP p && isV a
  | .slropn d a | .slkvc d a => isV d && isV a
  | .slst d a _ => runV d 2 && isV a
  | .slemit d => isS d
  | .apxb a => isS a
  | .fitcfg d a => isS d && isPair a
  | .fitinv a _ => isS a
  | .fitst d a => runS d 4 && isS a
  | .fitld a b | .fitsv a b => isS a && isPair b
  | .shrd d => isS d
  | _ => true

end Sys2Proof
end

