-- ==== Sys2Proof/Decode.lean ====
section
/-! DEFINITION. From instruction words to instructions and back (spec/02_instruction_words.md R23-R50). The decoder takes
bytes, is total, and rejects by name; the encoder is written from the same encoding tables. -/

namespace Sys2Proof

/-- Why bytes are no instruction. -/
inductive DecodeError where
  /-- R47: opcode `0x00`, `0xFF` or reserved. -/
  | opcode
  /-- R48: a reserved field or code in the first word. -/
  | firstWord
  /-- R50 step 5: a reserved field or code in the second word. -/
  | secondWord
  /-- The bytes end inside the instruction. -/
  | short
  deriving DecidableEq, Repr

/-- What the first word of a two-word instruction fixes (R24). -/
inductive TwoWord where
  | limm (d : Nat)
  | ulimm (d : Nat)
  | mem (op d a bp w : Nat)
  | atomic (op d a bp : Nat)
  deriving DecidableEq, Repr

/-- What a first word says (R50 steps 2 and 3). -/
inductive FirstWord where
  | one (i : Instr)
  | two (k : TwoWord)
  | bad (e : DecodeError)
  deriving DecidableEq, Repr

/-- The result of decoding bytes. -/
inductive Decoded where
  | ok (i : Instr) (rest : List Byte)
  | bad (e : DecodeError)
  deriving DecidableEq, Repr

/-! ## Codes -/

def icondOf : Nat → Option ICond
  | 0 => some .eq | 1 => some .ne | 2 => some .lt | 3 => some .le | 4 => some .gt | 5 => some .ge
  | 6 => some .ltu | 7 => some .leu | 8 => some .gtu | 9 => some .geu | _ => none
def ICond.code : ICond → Nat
  | .eq => 0 | .ne => 1 | .lt => 2 | .le => 3 | .gt => 4 | .ge => 5 | .ltu => 6 | .leu => 7 | .gtu => 8 | .geu => 9
def fcondOf : Nat → Option FCond
  | 0 => some .eq | 1 => some .ne | 2 => some .lt | 3 => some .le | 4 => some .gt | 5 => some .ge
  | 6 => some .un | 7 => some .ord | _ => none
def FCond.code : FCond → Nat
  | .eq => 0 | .ne => 1 | .lt => 2 | .le => 3 | .gt => 4 | .ge => 5 | .un => 6 | .ord => 7
def orderOf : Nat → MemOrder
  | 0 => .plain | 1 => .acq | 2 => .rel | _ => .ar
def MemOrder.code : MemOrder → Nat
  | .plain => 0 | .acq => 1 | .rel => 2 | .ar => 3
def scopeOf : Nat → Option Scope
  | 0 => some .wave | 1 => some .group | 2 => some .cluster | 3 => some .die | 4 => some .device | 5 => some .system
  | _ => none
def Scope.code : Scope → Nat
  | .wave => 0 | .group => 1 | .cluster => 2 | .die => 3 | .device => 4 | .system => 5
def atomOpOf : Nat → Option AtomOp
  | 0 => some .add | 1 => some .fadd | 2 => some .min | 3 => some .max | 4 => some .umin | 5 => some .umax
  | 6 => some .and | 7 => some .or | 8 => some .xor | 9 => some .xchg | 10 => some .cas | 11 => some .fmin
  | 12 => some .fmax | _ => none
def AtomOp.code : AtomOp → Nat
  | .add => 0 | .fadd => 1 | .min => 2 | .max => 3 | .umin => 4 | .umax => 5 | .and => 6 | .or => 7 | .xor => 8
  | .xchg => 9 | .cas => 10 | .fmin => 11 | .fmax => 12
def scanOpOf : Nat → Option ScanOp
  | 0 => some .add | 1 => some .min | 2 => some .max | 3 => some .minu | 4 => some .maxu | 5 => some .and
  | 6 => some .or | 7 => some .xor | 8 => some .fadd | 9 => some .fmin | 10 => some .fmax | _ => none
def ScanOp.code : ScanOp → Nat
  | .add => 0 | .min => 1 | .max => 2 | .minu => 3 | .maxu => 4 | .and => 5 | .or => 6 | .xor => 7 | .fadd => 8
  | .fmin => 9 | .fmax => 10
def cvtKindOf : Nat → Option CvtKind
  | 0 => some .f32 | 1 => some .f16 | 2 => some .bf16 | 3 => some .i32 | 4 => some .u32 | 5 => some .e4m3
  | 6 => some .e5m2 | 7 => some .e3m2 | 8 => some .e2m3 | 9 => some .e2m1 | 10 => some .i8 | 11 => some .u8
  | 12 => some .i4 | _ => none
def CvtKind.code : CvtKind → Nat
  | .f32 => 0 | .f16 => 1 | .bf16 => 2 | .i32 => 3 | .u32 => 4 | .e4m3 => 5 | .e5m2 => 6 | .e3m2 => 7 | .e2m3 => 8
  | .e2m1 => 9 | .i8 => 10 | .u8 => 11 | .i4 => 12
def shflModeOf : Nat → ShflMode
  | 0 => .wrap | 1 => .clamp | 2 => .own | _ => .zero
def ShflMode.code : ShflMode → Nat
  | .wrap => 0 | .clamp => 1 | .own => 2 | .zero => 3
def pathOf : Nat → Option Path
  | 0 => some .ld | 1 => some .st | 2 => some .cp | 3 => some .tl | _ => none
def Path.code : Path → Nat
  | .ld => 0 | .st => 1 | .cp => 2 | .tl => 3
def qtryOf : Nat → Option QtryOp
  | 0 => some .pop | 1 => some .push | 2 => some .query | _ => none
def QtryOp.code : QtryOp → Nat
  | .pop => 0 | .push => 1 | .query => 2
def voteOf : Nat → Option VoteMode
  | 0 => some .any | 1 => some .all | 2 => some .ballot | _ => none
def VoteMode.code : VoteMode → Nat
  | .any => 0 | .all => 1 | .ballot => 2
def rqOf : Nat → Option RqKind
  | 0 => some .i8 | 1 => some .u8 | 2 => some .i4 | _ => none
def RqKind.code : RqKind → Nat
  | .i8 => 0 | .u8 => 1 | .i4 => 2
def fmovOf : Nat → FmovOp
  | 0 => .copy | 1 => .neg | 2 => .abs | _ => .nabs
def FmovOp.code : FmovOp → Nat
  | .copy => 0 | .neg => 1 | .abs => 2 | .nabs => 3
def maskOpOf : Nat → Option MaskOp
  | 0 => some .write | 1 => some .set | 2 => some .clr | _ => none
def MaskOp.code : MaskOp → Nat
  | .write => 0 | .set => 1 | .clr => 2
def fenceOf : Nat → Option FenceKind
  | 1 => some .acq | 2 => some .rel | 3 => some .full | _ => none
def FenceKind.code : FenceKind → Nat
  | .acq => 1 | .rel => 2 | .full => 3
def solveOf : Nat → SolveMode
  | 0 => .chol | 1 => .lu | 2 => .lo | _ => .up
def SolveMode.code : SolveMode → Nat
  | .chol => 0 | .lu => 1 | .lo => 2 | .up => 3
def bindOf : Nat → Option BindMode
  | 0 => some .bind | 1 => some .init | 2 => some .unbind | _ => none
def BindMode.code : BindMode → Nat
  | .bind => 0 | .init => 1 | .unbind => 2

/-- The condition of BRU and CALL from `pred` and `n` (R31). -/
def ucondOf (pred : Nat) (n : Bool) : Option UCond :=
  if pred < 4 then some (.k pred n) else if pred = 7 && !n then some .always else none

/-- The vector-or-uniform operand from b and x[0] (R27). -/
def srcOf (b : Nat) (u : Bool) : Src := if u then .s b else .v b
def Src.num : Src → Nat
  | .v n => n
  | .s n => n
def Src.uni : Src → Bool
  | .v _ => false
  | .s _ => true

/-- The memory extension word (R40): zero field and scope codes checked. -/
def memExtOf (w : Nat) : Option MemExt :=
  if field w 25 16 ≠ 0 then none else
  match scopeOf (field w 29 27) with
  | some sc => some { order := orderOf (field w 31 30), scope := sc, sx := bitAt w 26, offset := BitVec.ofNat 16 w }
  | none => none

/-- The atomic extension word (R43, R44). -/
def atomExtOf (w : Nat) : Option AtomExt :=
  if field w 19 0 ≠ 0 then none else
  match scopeOf (field w 29 27), atomOpOf (field w 26 23), field w 21 20 with
  | some sc, some op, 0 => some { order := orderOf (field w 31 30), scope := sc, op := op, det := bitAt w 22, wide := false }
  | some sc, some op, 1 => some { order := orderOf (field w 31 30), scope := sc, op := op, det := bitAt w 22, wide := true }
  | _, _, _ => none

/-- `i`, when the fields an entry marks zero are zero (R48). -/
def zeros (n : Nat) (i : Instr) : Option Instr := if n = 0 then some i else none

/-! ## One-word instructions -/

/-- The instruction that a one-word first word of an opcode says, before its register kinds are checked (R45, R46 and the
entries). -/
def candidateAt (op w : Nat) : Option Instr :=
  let d := field w 23 17; let a := field w 16 10; let b := field w 9 3
  let x21 := field w 2 1; let x0 := bitAt w 0; let x1 := bitAt w 1; let x2 := bitAt w 2
  let s := srcOf b x0
  let imm10 := BitVec.ofNat 10 w; let imm17 := BitVec.ofNat 17 w
  let p := field w 23 21; let n := bitAt w 20; let cc := field w 23 20; let cp := field w 19 17
  let dst := field w 23 20; let ta := field w 19 16; let tb := field w 15 12; let fv := field w 11 5
  let md := field w 23 21; let ma := field w 20 18; let mb := field w 17 15; let vv := field w 14 8
  match op with
  | 0x01 => zeros (field w 23 0) .nop
  | 0x02 => zeros (field w 19 17) (.ifP p n imm17)
  | 0x03 => zeros (field w 23 17) (.elseP imm17)
  | 0x04 => zeros (field w 23 0) .endif
  | 0x05 => zeros (field w 23 0) .loop
  | 0x06 => zeros (field w 19 17) (.brk p n imm17)
  | 0x07 => zeros (field w 19 17) (.cont p n imm17)
  | 0x08 => zeros (field w 23 17) (.endloop imm17)
  | 0x09 => (ucondOf p n).bind fun c => zeros (field w 19 17) (.bru c imm17)
  | 0x0A => if p = 7 then zeros (field w 20 17) (.jmp imm17) else none
  | 0x0B => (ucondOf p n).bind fun c => zeros (field w 19 17) (.call c imm17)
  | 0x0C => zeros (d + field w 9 0) (.ret a)
  | 0x0D => zeros (d + field w 9 8) (.hloop a (field w 7 0 + 1))
  | 0x0E => zeros (field w 23 0) .exit
  | 0x0F => zeros (field w 7 0) (.wait (field w 23 20) (field w 19 16) (field w 15 12) (field w 11 8))
  | 0x10 => (pathOf (field w 9 0)).bind fun q => zeros d (.waitp a q)
  | 0x11 => zeros (field w 23 0) .yield
  | 0x12 => zeros (field w 16 12) (.sysc d (field w 11 0))
  | 0x13 => zeros (field w 23 16) (.trap (field w 15 0))
  | 0x14 => zeros (field w 23 0) .uret
  | 0x15 => (maskOpOf (field w 9 8)).bind fun o => zeros a (.uimask d o (field w 7 0))
  | 0x16 => zeros (field w 16 12) (.csrr d (field w 11 0))
  | 0x17 => zeros (field w 16 12) (.csrw d (field w 11 0))
  | 0x18 => (fenceOf (field w 4 3)).bind fun k => (scopeOf (field w 2 0)).bind fun sc => zeros (field w 23 5) (.fence k sc)
  | 0x19 => match field w 6 4 with
    | 2 => zeros (field w 3 0) (.promote d a (field w 9 7) false)
    | 3 => zeros (field w 3 0) (.promote d a (field w 9 7) true)
    | _ => none
  | 0x1A => zeros (field w 16 0) (.rdclk d)
  | 0x1B => zeros (bit x2 + bit x0) (.spawn x1 d a b)
  | 0x20 => zeros x21 (.iadd d a s)
  | 0x21 => zeros x21 (.isub d a s)
  | 0x22 => zeros x21 (.imul d a s)
  | 0x23 => zeros (bit x2) (.imulh d a s x1)
  | 0x24 => zeros x21 (.imad d a s)
  | 0x25 => zeros (bit x2) (.imin d a s x1)
  | 0x26 => zeros (bit x2) (.imax d a s x1)
  | 0x27 => zeros (field w 9 0) (.iabs d a)
  | 0x28 => zeros x21 (.andV d a s)
  | 0x29 => zeros x21 (.orV d a s)
  | 0x2A => zeros x21 (.xorV d a s)
  | 0x2B => zeros x21 (.andn d a s)
  | 0x2C => zeros x21 (.shl d a s)
  | 0x2D => zeros x21 (.shr d a s)
  | 0x2E => zeros x21 (.sar d a s)
  | 0x2F => zeros (field w 9 0) (.popc d a)
  | 0x30 => zeros (field w 9 0) (.clz d a)
  | 0x31 => zeros (bit x2) (.bfx d a s x1)
  | 0x32 => zeros x21 (.bfi d a s)
  | 0x33 => (icondOf cc).bind fun c => zeros x21 (.icmp c cp a s)
  | 0x34 => zeros (bit x2 + bit x0) (.sel d a b x1)
  | 0x35 => zeros (bit x2) (.iaddsat d a s x1)
  | 0x36 => zeros x21 (.hmix d a s)
  | 0x37 => zeros x21 (.itrit d a s)
  | 0x38 => zeros (field w 9 0) (.mov d a)
  | 0x39 => zeros (field w 16 0) (.laneid d)
  | 0x40 => some (.iaddi d a imm10)
  | 0x41 => some (.imuli d a imm10)
  | 0x42 => some (.andi d a imm10)
  | 0x43 => some (.ori d a imm10)
  | 0x44 => some (.xori d a imm10)
  | 0x45 => zeros (field w 9 6) (.shli d a (field w 5 0))
  | 0x46 => zeros (field w 9 6) (.shri d a (field w 5 0))
  | 0x47 => zeros (field w 9 6) (.sari d a (field w 5 0))
  | 0x48 => (icondOf cc).map fun c => .icmpi c cp a imm10
  | 0x49 => some (.movi d imm17)
  | 0x4A => some (.movhi d imm17)
  | 0x50 => zeros (field w 2 0) (.uadd d a b)
  | 0x51 => zeros (field w 2 0) (.usub d a b)
  | 0x52 => zeros (field w 2 0) (.umul d a b)
  | 0x53 => zeros (bit x2 + bit x0) (.umulh d a b x1)
  | 0x54 => zeros (field w 2 0) (.uand d a b)
  | 0x55 => zeros (field w 2 0) (.uor d a b)
  | 0x56 => zeros (field w 2 0) (.uxor d a b)
  | 0x57 => zeros (field w 2 0) (.ushl d a b)
  | 0x58 => zeros (field w 2 0) (.ushr d a b)
  | 0x59 => zeros (field w 2 0) (.usar d a b)
  | 0x5A => zeros (bit x2 + bit x0) (.umin d a b x1)
  | 0x5B => zeros (bit x2 + bit x0) (.umax d a b x1)
  | 0x5C => (icondOf cc).bind fun c => zeros (bit (bitAt w 19) + field w 2 0) (.ucmp c (field w 18 17) a b)
  | 0x5D => zeros (bit x2 + bit x0) (.usel d a b x1)
  | 0x5E => zeros (bit x0) (.ulea d a b x21)
  | 0x5F => zeros (field w 9 0) (.umov d a)
  | 0x60 => some (.uaddi d a imm10)
  | 0x61 => some (.umovi d imm17)
  | 0x62 => some (.umovhi d imm17)
  | 0x64 => (icondOf cc).bind fun c => zeros (bit (bitAt w 19)) (.ucmpi c (field w 18 17) a imm10)
  | 0x68 => zeros (field w 9 0) (.vbcast d a)
  | 0x69 => zeros (field w 2 0) (.vreadl d a b)
  | 0x6A => zeros (field w 2 0) (.vwritel d a b)
  | 0x6B => zeros (field w 9 0) (.vfirst d a)
  | 0x6C => zeros (b + bit x2 + bit x0) (.pget d a x1)
  | 0x6D => zeros (field w 9 0) (.pset d a)
  | 0x70 => zeros x21 (.fadd d a s)
  | 0x71 => zeros x21 (.fsub d a s)
  | 0x72 => zeros x21 (.fmul d a s)
  | 0x73 => some (.ffma d a s x1 x2)
  | 0x74 => zeros x21 (.fmin d a s)
  | 0x75 => zeros x21 (.fmax d a s)
  | 0x76 => (fcondOf cc).bind fun c => zeros x21 (.fcmp c cp a s)
  | 0x77 => zeros x21 (.fdiv d a s)
  | 0x78 => zeros (field w 9 0) (.fsqrt d a)
  | 0x79 => zeros (field w 9 0) (.frcp d a)
  | 0x7A => zeros (field w 9 0) (.frsq d a)
  | 0x7B => zeros (field w 9 0) (.fexp2 d a)
  | 0x7C => zeros (field w 9 0) (.flog2 d a)
  | 0x7D => zeros (field w 9 0) (.fsin d a)
  | 0x7E => zeros (field w 9 0) (.fcos d a)
  | 0x7F => zeros (field w 9 0) (.ftanh d a)
  | 0x80 => zeros (field w 9 0) (.fclass d a)
  | 0x81 => zeros x21 (.fscale d a s)
  | 0x82 => zeros (b + bit x0) (.fmov d a (fmovOf x21))
  | 0x83 => zeros (bit x2) (.pkadd d a s x1)
  | 0x84 => zeros (bit x2) (.pkmul d a s x1)
  | 0x85 => zeros (bit x2) (.pkfma d a s x1)
  | 0x88 => (cvtKindOf (field w 9 6)).bind fun dk => (cvtKindOf (field w 5 2)).bind fun sk =>
      zeros (bit x0) (.cvt d a dk sk x1)
  | 0x89 => (rqOf x21).bind fun k => zeros (bit x0) (.rqnt d a b k)
  | 0x8A => zeros (bit x0) (.unpk5 d a b x21)
  | 0x8B => zeros (b + bit x0) (.pack5 d a x21)
  | 0x8C => some (.unpkps d a s x21)
  | 0x90 => some (.shfl d a s (shflModeOf x21))
  | 0x91 => some (.shflx d a s (shflModeOf x21))
  | 0x92 => (scanOpOf (field w 9 6)).bind fun o => zeros (field w 4 0) (.scan d a o (bitAt w 5))
  | 0x93 => (scanOpOf (field w 9 6)).bind fun o => zeros (field w 5 0) (.vred d a o)
  | 0x94 => (voteOf x21).bind fun m => zeros (b + bit x0) (.vote d a m)
  | 0x95 => zeros (field w 9 0) (.matchV d a)
  | 0x96 => zeros (bit x0) (.rng d a b x21)
  | 0x98 => zeros (a + field w 8 4) (.racq (bitAt w 9) d (field w 3 0))
  | 0x99 => zeros (field w 23 4) (.rrel (field w 3 0))
  | 0x9A => zeros (field w 23 4) (.wbase (field w 3 0))
  | 0xA0 => zeros (field w 3 0) (.ldg d a (field w 9 7) (field w 6 4))
  | 0xA1 => zeros (field w 3 0) (.stg d a (field w 9 7) (field w 6 4))
  | 0xA2 => zeros (field w 3 0) (.lds d a (field w 9 7) (field w 6 4))
  | 0xA3 => zeros (field w 3 0) (.sts d a (field w 9 7) (field w 6 4))
  | 0xA4 => zeros (field w 3 0) (.ldu d a (field w 9 7) (field w 6 4))
  | 0xA5 => zeros (field w 3 0) (.stu d a (field w 9 7) (field w 6 4))
  | 0xA6 => zeros (field w 2 0) (.tmov d a b)
  | 0xAC => zeros (field w 9 0) (.qpsh d a)
  | 0xAD => zeros (field w 9 0) (.qpop d a)
  | 0xAE => (qtryOf x21).bind fun o => zeros (bit x0) (.qtry o d a b)
  | 0xAF => zeros (bit x2 + bit x0) (.qbind x1 d a b)
  | 0xB0 => zeros (d + field w 9 0) (.bari a)
  | 0xB1 => zeros (d + field w 2 0) (.barx a b)
  | 0xB2 => zeros (d + field w 2 0) (.bara a b)
  | 0xB3 => zeros (d + field w 2 0) (.barw a b)
  | 0xB4 => zeros (field w 9 0) (.phbeg d a)
  | 0xB5 => zeros (d + field w 9 0) (.phend a)
  | 0xC0 => zeros (ta + tb + field w 4 1) (.tld dst fv x0)
  | 0xC1 => zeros (dst + tb + field w 4 1) (.tst ta fv x0)
  | 0xC2 => zeros (field w 19 1) (.tzero dst x0)
  | 0xC3 => zeros (field w 3 0) (.tmma dst ta tb fv (bitAt w 4))
  | 0xC4 => some (.tmmas dst ta tb fv (field w 3 0) (bitAt w 4))
  | 0xC5 => zeros (dst + tb + field w 4 2) (.trdrow fv ta x1 x0)
  | 0xC6 => zeros (ta + tb + field w 4 2) (.twrrow dst fv x1 x0)
  | 0xC7 => zeros (field w 15 0) (.ttrq dst ta)
  | 0xC8 => zeros (field w 15 2) (.tcvt dst ta x0 x1)
  | 0xC9 => zeros (tb + field w 4 1) (.trq dst ta fv x0)
  | 0xD0 => zeros (ma + mb + field w 1 0) (.mld md vv (field w 7 5) (field w 4 2))
  | 0xD1 => zeros (md + mb + field w 7 0) (.mst ma vv)
  | 0xD2 => zeros (field w 20 8 + field w 1 0) (.mshape md (field w 7 5) (field w 4 2))
  | 0xD3 => zeros (field w 14 0) (.mmul md ma mb)
  | 0xD4 => zeros (field w 14 0) (.mmad md ma mb)
  | 0xD5 => zeros (field w 14 0) (.madd md ma mb)
  | 0xD6 => zeros (field w 14 0) (.msub md ma mb)
  | 0xD7 => zeros (field w 17 0) (.mtrn md ma)
  | 0xD8 => zeros (mb + field w 7 1) (.mscl md ma (srcOf vv x0))
  | 0xD9 => zeros (field w 17 0) (.mchol md ma)
  | 0xDA => zeros (mb + field w 7 0) (.mlup md ma vv)
  | 0xDB => zeros (field w 7 2) (.msolv md ma mb vv (solveOf (field w 1 0)))
  | 0xDC => zeros (field w 17 1) (.minv md ma x0)
  | 0xDD => zeros (md + mb + field w 7 6) (.mgete vv ma (field w 5 3) (field w 2 0))
  | 0xDE => zeros (field w 20 15 + field w 7 6) (.msete md vv (field w 5 3) (field w 2 0))
  | 0xDF => zeros (field w 23 15 + field w 7 1) (.mstat vv x0)
  | 0xE0 => (bindOf x21).bind fun m => zeros (b + bit x0) (.slbind m d a)
  | 0xE1 => zeros (field w 2 0) (.slscor d a b)
  | 0xE2 => zeros (field w 9 0) (.slfin d a)
  | 0xE3 => zeros (field w 9 0) (.slropn d a)
  | 0xE4 => zeros (b + bit x2 + bit x0) (.slst d a x1)
  | 0xE5 => zeros (field w 9 0) (.slkvc d a)
  | 0xE6 => zeros (field w 16 0) (.slemit d)
  | 0xE8 => zeros (d + field w 9 0) (.apxb a)
  | 0xE9 => zeros (field w 23 0) .apxe
  | 0xEA => zeros (field w 9 0) (.fitcfg d a)
  | 0xEB => zeros (d + b + bit x2 + bit x0) (.fitinv a x1)
  | 0xEC => zeros (field w 9 0) (.fitst d a)
  | 0xED => zeros (d + field w 2 0) (.fitld a b)
  | 0xEE => zeros (d + field w 2 0) (.fitsv a b)
  | 0xF0 => zeros (field w 23 0) .qend
  | 0xF1 => zeros (field w 16 0) (.shrd d)
  | _ => none

/-- The instruction of a one-word first word. -/
def candidate (w : Nat) : Option Instr := candidateAt (field w 31 24) w

/-- The opcodes of the map (R45); every other is reserved. -/
def isOpcode (op : Nat) : Bool :=
  (1 ≤ op && op ≤ 0x1B) || (0x20 ≤ op && op ≤ 0x39) || (0x40 ≤ op && op ≤ 0x4B) || (0x50 ≤ op && op ≤ 0x64) ||
  (0x68 ≤ op && op ≤ 0x6D) || (0x70 ≤ op && op ≤ 0x85) || (0x88 ≤ op && op ≤ 0x8C) || (0x90 ≤ op && op ≤ 0x96) ||
  (0x98 ≤ op && op ≤ 0x9A) || (0xA0 ≤ op && op ≤ 0xA6) || (0xA8 ≤ op && op ≤ 0xAA) || (0xAC ≤ op && op ≤ 0xB5) ||
  (0xC0 ≤ op && op ≤ 0xC9) || (0xD0 ≤ op && op ≤ 0xE6) || (0xE8 ≤ op && op ≤ 0xEE) || (0xF0 ≤ op && op ≤ 0xF1)

/-- The plain form of a memory instruction by its opcode, used to check the first word of the extended form. -/
def memPlain (op d a bp w : Nat) : Option Instr :=
  match op with
  | 0xA0 => some (.ldg d a bp w) | 0xA1 => some (.stg d a bp w) | 0xA2 => some (.lds d a bp w)
  | 0xA3 => some (.sts d a bp w) | 0xA4 => some (.ldu d a bp w) | 0xA5 => some (.stu d a bp w) | _ => none

/-- The extended form of a memory instruction by its opcode. -/
def memExtended (op d a bp w : Nat) (x : MemExt) : Option Instr :=
  match op with
  | 0xA0 => some (.ldgX d a bp w x) | 0xA1 => some (.stgX d a bp w x) | 0xA2 => some (.ldsX d a bp w x)
  | 0xA3 => some (.stsX d a bp w x) | 0xA4 => some (.lduX d a bp w x) | 0xA5 => some (.stuX d a bp w x) | _ => none

/-- An atomic instruction by its opcode. -/
def atomicOf (op d a bp : Nat) (x : AtomExt) : Option Instr :=
  match op with
  | 0xA8 => some (.atom d a bp x) | 0xA9 => some (.atomu d a bp x) | 0xAA => some (.mred d a bp x) | _ => none

/-- The first word of a two-word instruction (R24, R46), its own fields checked. -/
def twoWord (w : Nat) : Option TwoWord :=
  let op := field w 31 24; let d := field w 23 17; let a := field w 16 10; let bp := field w 9 7; let wd := field w 6 4
  if op = 0x4B then (if field w 16 0 = 0 then some (.limm d) else none)
  else if op = 0x63 then (if field w 16 0 = 0 && isS d then some (.ulimm d) else none)
  else if 0xA0 ≤ op && op ≤ 0xA5 && bitAt w 3 then
    match memPlain op d a bp wd with
    | some i => if i.wf && field w 2 0 = 0 then some (.mem op d a bp wd) else none
    | none => none
  else if 0xA8 ≤ op && op ≤ 0xAA && bitAt w 3 then
    if wd = 0 && field w 2 0 = 0 && (if op = 0xA9 then isS d && isS a else isV d && isV a) then some (.atomic op d a bp) else none
  else none

/-- What the first word says: R50 steps 2 and 3. -/
def firstWord (w : Nat) : FirstWord :=
  if !isOpcode (field w 31 24) then .bad .opcode else
  match twoWord w with
  | some k => .two k
  | none =>
    match candidate w with
    | some i => if i.wf then .one i else .bad .firstWord
    | none => .bad .firstWord

/-- The instruction that a second word completes: R50 step 5. The second word of LIMM and ULIMM is taken raw (R59). -/
def secondWord (k : TwoWord) (w1 : Nat) : Option Instr :=
  match k with
  | .limm d => some (.limm d (BitVec.ofNat 32 w1))
  | .ulimm d => some (.ulimm d (BitVec.ofNat 32 w1))
  | .mem op d a bp w => (memExtOf w1).bind fun x => (memExtended op d a bp w x).bind fun i => if i.wf then some i else none
  | .atomic op d a bp => (atomExtOf w1).bind fun x => (atomicOf op d a bp x).bind fun i => if i.wf then some i else none

/-- A little-endian word at the head of a list of bytes (R2, R23). -/
def wordAt : List Byte → Option (Nat × List Byte)
  | b0 :: b1 :: b2 :: b3 :: rest =>
      some (b0.toNat + 2 ^ 8 * b1.toNat + 2 ^ 16 * b2.toNat + 2 ^ 24 * b3.toNat, rest)
  | _ => none

/-- The decoder: bytes as they stand in memory, lowest address first. -/
def decode (bs : List Byte) : Decoded :=
  match wordAt bs with
  | none => .bad .short
  | some (w0, rest) =>
    match firstWord w0 with
    | .bad e => .bad e
    | .one i => .ok i rest
    | .two k =>
      match wordAt rest with
      | none => .bad .short
      | some (w1, rest') =>
        match secondWord k w1 with
        | some i => .ok i rest'
        | none => .bad .secondWord

/-- The four bytes of a word, least significant first (R2). -/
def wordBytes (w : Nat) : List Byte :=
  [BitVec.ofNat 8 w, BitVec.ofNat 8 (w / 2 ^ 8), BitVec.ofNat 8 (w / 2 ^ 16), BitVec.ofNat 8 (w / 2 ^ 24)]

/-- The instruction the decoder reads from a table word: the first word is bits 31..0, a second word bits 63..32, and
every bit at or above `nbits` is 0. -/
def decodeTableWord (nbits w : Nat) : Option Instr :=
  let v := w % 2 ^ nbits
  match decode (wordBytes (v % 2 ^ 32) ++ wordBytes (v / 2 ^ 32 % 2 ^ 32)) with
  | .ok i _ => some i
  | .bad _ => none

/-! ## The encoder -/

/-- Format R (R27). -/
def encR (op d a b x : Nat) : Nat := op * 2 ^ 24 + d * 2 ^ 17 + a * 2 ^ 10 + b * 2 ^ 3 + x
/-- Format I (R28). -/
def encI (op d a imm : Nat) : Nat := op * 2 ^ 24 + d * 2 ^ 17 + a * 2 ^ 10 + imm
/-- Format L (R29). -/
def encL (op d imm : Nat) : Nat := op * 2 ^ 24 + d * 2 ^ 17 + imm
/-- Format J (R30). -/
def encJ (op pred n imm : Nat) : Nat := op * 2 ^ 24 + pred * 2 ^ 21 + n * 2 ^ 20 + imm
/-- Format M (R32). -/
def encM (op d a bp w e : Nat) : Nat := op * 2 ^ 24 + d * 2 ^ 17 + a * 2 ^ 10 + bp * 2 ^ 7 + w * 2 ^ 4 + e * 2 ^ 3
/-- Format T (R35). -/
def encT (op dst sa sb fv x5 : Nat) : Nat := op * 2 ^ 24 + dst * 2 ^ 20 + sa * 2 ^ 16 + sb * 2 ^ 12 + fv * 2 ^ 5 + x5
/-- Format Q (R36). -/
def encQ (op md ma mb v x8 : Nat) : Nat := op * 2 ^ 24 + md * 2 ^ 21 + ma * 2 ^ 18 + mb * 2 ^ 15 + v * 2 ^ 8 + x8
/-- A two-source vector word with its V/U operand (R218). -/
def encV (op d a : Nat) (b : Src) (x21 : Nat) : Nat := encR op d a b.num (2 * x21 + bit b.uni)
/-- The memory extension word (R40). -/
def encX (x : MemExt) : Nat :=
  x.order.code * 2 ^ 30 + x.scope.code * 2 ^ 27 + bit x.sx * 2 ^ 26 + x.offset.toNat
/-- The atomic extension word (R43). -/
def encA (x : AtomExt) : Nat :=
  x.order.code * 2 ^ 30 + x.scope.code * 2 ^ 27 + x.op.code * 2 ^ 23 + bit x.det * 2 ^ 22 + bit x.wide * 2 ^ 20
/-- The pred and n fields of a uniform condition (R31). -/
def encC (op : Nat) (c : UCond) (off : BitVec 17) : Nat :=
  match c with
  | .always => encJ op 7 0 off.toNat
  | .k n neg => encJ op n (bit neg) off.toNat

/-- The words of an instruction; none for a step of another agent. -/
def encode (i : Instr) : List Nat :=
  match i with
  | .nop => [encL 0x01 0 0]
  | .ifP p n off => [encJ 0x02 p (bit n) off.toNat]
  | .elseP off => [encJ 0x03 0 0 off.toNat]
  | .endif => [encR 0x04 0 0 0 0]
  | .loop => [encR 0x05 0 0 0 0]
  | .brk p n off => [encJ 0x06 p (bit n) off.toNat]
  | .cont p n off => [encJ 0x07 p (bit n) off.toNat]
  | .endloop off => [encJ 0x08 0 0 off.toNat]
  | .bru c off => [encC 0x09 c off]
  | .jmp off => [encJ 0x0A 7 0 off.toNat]
  | .call c off => [encC 0x0B c off]
  | .ret a => [encR 0x0C 0 a 0 0]
  | .hloop a len => [encI 0x0D 0 a (len - 1)]
  | .exit => [encR 0x0E 0 0 0 0]
  | .wait ld st cp tl => [0x0F * 2 ^ 24 + ld * 2 ^ 20 + st * 2 ^ 16 + cp * 2 ^ 12 + tl * 2 ^ 8]
  | .waitp a q => [encI 0x10 0 a q.code]
  | .yield => [encR 0x11 0 0 0 0]
  | .sysc d fn => [encL 0x12 d fn]
  | .trap code => [encL 0x13 0 code]
  | .uret => [encR 0x14 0 0 0 0]
  | .uimask d o bits => [encI 0x15 d 0 (o.code * 2 ^ 8 + bits)]
  | .csrr d csr => [encL 0x16 d csr]
  | .csrw d csr => [encL 0x17 d csr]
  | .fence k sc => [encI 0x18 0 0 (k.code * 2 ^ 3 + sc.code)]
  | .promote d a bp wide => [encM 0x19 d a bp (2 + bit wide) 0]
  | .rdclk d => [encR 0x1A d 0 0 0]
  | .spawn node d a b => [encR 0x1B d a b (2 * bit node)]
  | .iadd d a b => [encV 0x20 d a b 0]
  | .isub d a b => [encV 0x21 d a b 0]
  | .imul d a b => [encV 0x22 d a b 0]
  | .imulh d a b u => [encV 0x23 d a b (bit u)]
  | .imad d a b => [encV 0x24 d a b 0]
  | .imin d a b u => [encV 0x25 d a b (bit u)]
  | .imax d a b u => [encV 0x26 d a b (bit u)]
  | .iabs d a => [encR 0x27 d a 0 0]
  | .andV d a b => [encV 0x28 d a b 0]
  | .orV d a b => [encV 0x29 d a b 0]
  | .xorV d a b => [encV 0x2A d a b 0]
  | .andn d a b => [encV 0x2B d a b 0]
  | .shl d a b => [encV 0x2C d a b 0]
  | .shr d a b => [encV 0x2D d a b 0]
  | .sar d a b => [encV 0x2E d a b 0]
  | .popc d a => [encR 0x2F d a 0 0]
  | .clz d a => [encR 0x30 d a 0 0]
  | .bfx d a b sx => [encV 0x31 d a b (bit sx)]
  | .bfi d a b => [encV 0x32 d a b 0]
  | .icmp c p a b => [encV 0x33 (c.code * 8 + p) a b 0]
  | .sel d a pb n => [encR 0x34 d a pb (2 * bit n)]
  | .iaddsat d a b u => [encV 0x35 d a b (bit u)]
  | .hmix d a b => [encV 0x36 d a b 0]
  | .itrit d a b => [encV 0x37 d a b 0]
  | .mov d a => [encR 0x38 d a 0 0]
  | .laneid d => [encR 0x39 d 0 0 0]
  | .iaddi d a imm => [encI 0x40 d a imm.toNat]
  | .imuli d a imm => [encI 0x41 d a imm.toNat]
  | .andi d a imm => [encI 0x42 d a imm.toNat]
  | .ori d a imm => [encI 0x43 d a imm.toNat]
  | .xori d a imm => [encI 0x44 d a imm.toNat]
  | .shli d a sh => [encI 0x45 d a sh]
  | .shri d a sh => [encI 0x46 d a sh]
  | .sari d a sh => [encI 0x47 d a sh]
  | .icmpi c p a imm => [encI 0x48 (c.code * 8 + p) a imm.toNat]
  | .movi d imm => [encL 0x49 d imm.toNat]
  | .movhi d imm => [encL 0x4A d imm.toNat]
  | .limm d imm => [encL 0x4B d 0, imm.toNat]
  | .uadd d a b => [encR 0x50 d a b 0]
  | .usub d a b => [encR 0x51 d a b 0]
  | .umul d a b => [encR 0x52 d a b 0]
  | .umulh d a b u => [encR 0x53 d a b (2 * bit u)]
  | .uand d a b => [encR 0x54 d a b 0]
  | .uor d a b => [encR 0x55 d a b 0]
  | .uxor d a b => [encR 0x56 d a b 0]
  | .ushl d a b => [encR 0x57 d a b 0]
  | .ushr d a b => [encR 0x58 d a b 0]
  | .usar d a b => [encR 0x59 d a b 0]
  | .umin d a b u => [encR 0x5A d a b (2 * bit u)]
  | .umax d a b u => [encR 0x5B d a b (2 * bit u)]
  | .ucmp c k a b => [encR 0x5C (c.code * 8 + k) a b 0]
  | .usel d a kb n => [encR 0x5D d a kb (2 * bit n)]
  | .ulea d a b sc => [encR 0x5E d a b (2 * sc)]
  | .umov d a => [encR 0x5F d a 0 0]
  | .uaddi d a imm => [encI 0x60 d a imm.toNat]
  | .umovi d imm => [encL 0x61 d imm.toNat]
  | .umovhi d imm => [encL 0x62 d imm.toNat]
  | .ulimm d imm => [encL 0x63 d 0, imm.toNat]
  | .ucmpi c k a imm => [encI 0x64 (c.code * 8 + k) a imm.toNat]
  | .vbcast d a => [encR 0x68 d a 0 0]
  | .vreadl d a b => [encR 0x69 d a b 0]
  | .vwritel d a b => [encR 0x6A d a b 0]
  | .vfirst d a => [encR 0x6B d a 0 0]
  | .pget d a m => [encR 0x6C d a 0 (2 * bit m)]
  | .pset d a => [encR 0x6D d a 0 0]
  | .fadd d a b => [encV 0x70 d a b 0]
  | .fsub d a b => [encV 0x71 d a b 0]
  | .fmul d a b => [encV 0x72 d a b 0]
  | .ffma d a b np na => [encV 0x73 d a b (bit np + 2 * bit na)]
  | .fmin d a b => [encV 0x74 d a b 0]
  | .fmax d a b => [encV 0x75 d a b 0]
  | .fcmp c p a b => [encV 0x76 (c.code * 8 + p) a b 0]
  | .fdiv d a b => [encV 0x77 d a b 0]
  | .fsqrt d a => [encR 0x78 d a 0 0]
  | .frcp d a => [encR 0x79 d a 0 0]
  | .frsq d a => [encR 0x7A d a 0 0]
  | .fexp2 d a => [encR 0x7B d a 0 0]
  | .flog2 d a => [encR 0x7C d a 0 0]
  | .fsin d a => [encR 0x7D d a 0 0]
  | .fcos d a => [encR 0x7E d a 0 0]
  | .ftanh d a => [encR 0x7F d a 0 0]
  | .fclass d a => [encR 0x80 d a 0 0]
  | .fscale d a b => [encV 0x81 d a b 0]
  | .fmov d a o => [encR 0x82 d a 0 (2 * o.code)]
  | .pkadd d a b bf => [encV 0x83 d a b (bit bf)]
  | .pkmul d a b bf => [encV 0x84 d a b (bit bf)]
  | .pkfma d a b bf => [encV 0x85 d a b (bit bf)]
  | .cvt d a dk sk t => [encI 0x88 d a (dk.code * 2 ^ 6 + sk.code * 2 ^ 2 + 2 * bit t)]
  | .rqnt d a b k => [encR 0x89 d a b (2 * k.code)]
  | .unpk5 d a pb byte => [encR 0x8A d a pb (2 * byte)]
  | .pack5 d a byte => [encR 0x8B d a 0 (2 * byte)]
  | .unpkps d a b byte => [encV 0x8C d a b byte]
  | .shfl d a b m => [encV 0x90 d a b m.code]
  | .shflx d a b m => [encV 0x91 d a b m.code]
  | .scan d a o ex => [encI 0x92 d a (o.code * 2 ^ 6 + bit ex * 2 ^ 5)]
  | .vred d a o => [encI 0x93 d a (o.code * 2 ^ 6)]
  | .vote d pa m => [encR 0x94 d pa 0 (2 * m.code)]
  | .matchV d a => [encR 0x95 d a 0 0]
  | .rng d a b st => [encR 0x96 d a b (2 * st)]
  | .racq t k n => [encI 0x98 k 0 (bit t * 2 ^ 9 + n)]
  | .rrel n => [encI 0x99 0 0 n]
  | .wbase b => [encI 0x9A 0 0 b]
  | .ldg d a bp w => [encM 0xA0 d a bp w 0]
  | .stg d a bp w => [encM 0xA1 d a bp w 0]
  | .lds d a bp w => [encM 0xA2 d a bp w 0]
  | .sts d a bp w => [encM 0xA3 d a bp w 0]
  | .ldu d a bp w => [encM 0xA4 d a bp w 0]
  | .stu d a bp w => [encM 0xA5 d a bp w 0]
  | .ldgX d a bp w x => [encM 0xA0 d a bp w 1, encX x]
  | .stgX d a bp w x => [encM 0xA1 d a bp w 1, encX x]
  | .ldsX d a bp w x => [encM 0xA2 d a bp w 1, encX x]
  | .stsX d a bp w x => [encM 0xA3 d a bp w 1, encX x]
  | .lduX d a bp w x => [encM 0xA4 d a bp w 1, encX x]
  | .stuX d a bp w x => [encM 0xA5 d a bp w 1, encX x]
  | .tmov d a b => [encR 0xA6 d a b 0]
  | .atom d a bp x => [encM 0xA8 d a bp 0 1, encA x]
  | .atomu d a bp x => [encM 0xA9 d a bp 0 1, encA x]
  | .mred d a bp x => [encM 0xAA d a bp 0 1, encA x]
  | .qpsh q a => [encR 0xAC q a 0 0]
  | .qpop d q => [encR 0xAD d q 0 0]
  | .qtry o k a q => [encR 0xAE k a q (2 * o.code)]
  | .qbind u q a k => [encR 0xAF q a k (2 * bit u)]
  | .bari a => [encR 0xB0 0 a 0 0]
  | .barx a b => [encR 0xB1 0 a b 0]
  | .bara a b => [encR 0xB2 0 a b 0]
  | .barw a b => [encR 0xB3 0 a b 0]
  | .phbeg k a => [encR 0xB4 k a 0 0]
  | .phend a => [encR 0xB5 0 a 0 0]
  | .tld td va s => [encT 0xC0 td 0 0 va (bit s)]
  | .tst ta va s => [encT 0xC1 0 ta 0 va (bit s)]
  | .tzero td acc => [encT 0xC2 td 0 0 0 (bit acc)]
  | .tmma ad ta tb vf z => [encT 0xC3 ad ta tb vf (bit z * 2 ^ 4)]
  | .tmmas ad ta tb vf tm z => [encT 0xC4 ad ta tb vf (bit z * 2 ^ 4 + tm)]
  | .trdrow vx ta side acc => [encT 0xC5 0 ta 0 vx (2 * bit side + bit acc)]
  | .twrrow td vx side acc => [encT 0xC6 td 0 0 vx (2 * bit side + bit acc)]
  | .ttrq td ta => [encT 0xC7 td ta 0 0 0]
  | .tcvt td ta ss ds => [encT 0xC8 td ta 0 0 (bit ss + 2 * bit ds)]
  | .trq td aa vx ds => [encT 0xC9 td aa 0 vx (bit ds)]
  | .mld md v r c => [encQ 0xD0 md 0 0 v (r * 2 ^ 5 + c * 2 ^ 2)]
  | .mst ma v => [encQ 0xD1 0 ma 0 v 0]
  | .mshape md r c => [encQ 0xD2 md 0 0 0 (r * 2 ^ 5 + c * 2 ^ 2)]
  | .mmul d a b => [encQ 0xD3 d a b 0 0]
  | .mmad d a b => [encQ 0xD4 d a b 0 0]
  | .madd d a b => [encQ 0xD5 d a b 0 0]
  | .msub d a b => [encQ 0xD6 d a b 0 0]
  | .mtrn d a => [encQ 0xD7 d a 0 0 0]
  | .mscl d a v => [encQ 0xD8 d a 0 v.num (bit v.uni)]
  | .mchol d a => [encQ 0xD9 d a 0 0 0]
  | .mlup d a v => [encQ 0xDA d a 0 v 0]
  | .msolv d a b v m => [encQ 0xDB d a b v m.code]
  | .minv d a c => [encQ 0xDC d a 0 0 (bit c)]
  | .mgete v a i j => [encQ 0xDD 0 a 0 v (i * 2 ^ 3 + j)]
  | .msete d v i j => [encQ 0xDE d 0 0 v (i * 2 ^ 3 + j)]
  | .mstat v c => [encQ 0xDF 0 0 0 v (bit c)]
  | .slbind m k a => [encR 0xE0 k a 0 (2 * m.code)]
  | .slscor d a b => [encR 0xE1 d a b 0]
  | .slfin p a => [encR 0xE2 p a 0 0]
  | .slropn d a => [encR 0xE3 d a 0 0]
  | .slst d a acq => [encR 0xE4 d a 0 (2 * bit acq)]
  | .slkvc d a => [encR 0xE5 d a 0 0]
  | .slemit d => [encR 0xE6 d 0 0 0]
  | .apxb a => [encR 0xE8 0 a 0 0]
  | .apxe => [encR 0xE9 0 0 0 0]
  | .fitcfg d a => [encR 0xEA d a 0 0]
  | .fitinv a f => [encR 0xEB 0 a 0 (2 * bit f)]
  | .fitst d a => [encR 0xEC d a 0 0]
  | .fitld a b => [encR 0xED 0 a b 0]
  | .fitsv a b => [encR 0xEE 0 a b 0]
  | .qend => [encR 0xF0 0 0 0 0]
  | .shrd d => [encR 0xF1 d 0 0 0]
  | _ => []

/-- An instruction that has words of its own (R45); every other constructor is a step of another agent. -/
def Instr.isWord (i : Instr) : Bool := encode i != []

/-- The bytes of an instruction as they stand in memory. -/
def encodeBytes (i : Instr) : List Byte := (encode i).flatMap wordBytes

end Sys2Proof
end

