-- ==== Sys2Proof/Machine/Maps.lean ====
section
/-! DEFINITION. Sorted association lists by number: maps of records, and sparse files of values with a default. -/

namespace Sys2Proof.Machine

/-- The entry of a map under `k`. -/
def Map.find (xs : List (Nat × α)) (k : Nat) : Option α :=
  match xs with
  | [] => none
  | (j, x) :: r => if j = k then some x else Map.find r k

/-- A map with `x` under `k`, its keys rising. -/
def Map.put (xs : List (Nat × α)) (k : Nat) (x : α) : List (Nat × α) :=
  match xs with
  | [] => [(k, x)]
  | (j, y) :: r => if j < k then (j, y) :: Map.put r k x else if j = k then (k, x) :: r else (k, x) :: (j, y) :: r

/-- A map without `k`. -/
def Map.erase (xs : List (Nat × α)) (k : Nat) : List (Nat × α) := xs.filter (fun e => e.1 != k)

/-- A map with the entry under `k`, if any, changed. -/
def Map.modify (xs : List (Nat × α)) (k : Nat) (f : α → α) : List (Nat × α) :=
  match Map.find xs k with
  | some x => Map.put xs k (f x)
  | none => xs

/-- The values of a map in rising order of keys. -/
def Map.values (xs : List (Nat × α)) : List α := xs.map (·.2)

/-- What a sparse file holds at `k`: `d` where nothing is listed. -/
def Sparse.get (d : α) (xs : List (Nat × α)) (k : Nat) : α := (Map.find xs k).getD d

/-- A sparse file with entries `b` to `b + n - 1` replaced by `f 0` to `f (n - 1)`; no entry equals the default. -/
def Sparse.setRun [DecidableEq α] (d : α) (xs : List (Nat × α)) (b n : Nat) (f : Nat → α) : List (Nat × α) :=
  xs.filter (fun e => decide (e.1 < b)) ++
    ((List.range n).filterMap fun i => if f i = d then none else some (b + i, f i)) ++
    xs.filter (fun e => decide (b + n ≤ e.1))

/-- A sparse file with one entry replaced. -/
def Sparse.set [DecidableEq α] (d : α) (xs : List (Nat × α)) (k : Nat) (x : α) : List (Nat × α) :=
  Sparse.setRun d xs k 1 fun _ => x

/-- A sparse file with every entry of `b` to `b + n - 1` back at the default. -/
def Sparse.clear (xs : List (Nat × α)) (b n : Nat) : List (Nat × α) :=
  xs.filter fun e => decide (e.1 < b) || decide (b + n ≤ e.1)

/-- The canonical form: keys strictly rising, no entry equal to the default. -/
def Sparse.wf [DecidableEq α] (d : α) : List (Nat × α) → Bool
  | [] => true
  | [(_, x)] => decide (x ≠ d)
  | (j, x) :: (k, y) :: r => decide (x ≠ d) && decide (j < k) && Sparse.wf d ((k, y) :: r)

/-- Words of a list of bytes taken four at a time, little-endian (R2). -/
def wordOfBytes (bs : List Byte) : Nat := bs.foldr (fun b acc => b.toNat + 256 * acc) 0

/-- The `n` low bytes of a number, little-endian (R2). -/
def bytesOfNat (x n : Nat) : List Byte := (List.range n).map fun i => BitVec.ofNat 8 (x >>> (8 * i))

/-- `ys` with element `i` replaced. -/
def listSet (ys : List α) (i : Nat) (y : α) : List α := ys.set i y

/-- The lanes of a mask in ascending order. -/
def lanesOf (m : Mask) : List Nat := laneList.filter fun l => m.getLsbD l

/-- The mask of a list of lanes. -/
def maskOf (ls : List Nat) : Mask := ls.foldl (fun m l => m ||| ((1 : Mask) <<< l)) 0

/-- The mask of the lanes that satisfy `f`. -/
def maskBy (f : Nat → Bool) : Mask := maskOf (laneList.filter f)

/-- The lowest lane of a mask, 0 when it is empty. -/
def lowLane (m : Mask) : Nat := (lanesOf m).headD 0

end Sys2Proof.Machine
end

