-- ==== Sys2Proof/Config.lean ====
section
/-! DEFINITION. What the spec leaves to the implementation: values without a body, so that no proof can rest on one.
Each is named in notes/assumptions/2.md. -/

namespace Sys2Proof.Config

/-- A fresh 32-bit value for a result the spec does not state; the argument is the counter `tick` of State. -/
opaque freeWord : Nat → Word
/-- The months the Milliner's monitors predict for die `i` at hour `n` (R488): no rule gives the numbers. -/
opaque wear : Nat → Nat → BitVec 16
/-- Whether an ML-DSA-87 signature verifies against the security root's key (R485, R486), for an image's bytes: the
algorithm is named and not given by the spec, and the key is the device's own. -/
opaque signatureVerifies : List Byte → Bool
/-- Byte `i` of the ML-DSA-87 signature over a digest (R487). -/
opaque signatureByte : List Byte → Nat → Byte
/-- Bytes of the firmware image digest that ATTEST signs (R487), a function of the firmware version. -/
opaque firmwareDigest : DWord → Nat → Byte
/-- The version that a firmware image carries (R485): no rule gives an image's layout. -/
opaque imageVersion : List Byte → DWord
/-- One less than the queue_size of a virtqueue that the module offers (R475): the spec gives it no number. -/
opaque queueSize : Nat
/-- How a trap record's ADDR names a register and row of tile storage (R258, R435): kind (0 tile, 1 side array,
2 accumulator), register, row. No rule gives the layout. -/
opaque registerRow : Nat → Nat → Nat → DWord

end Sys2Proof.Config
end

