-- ==== Sys2Proof/Machine/State.lean ====
section
/-! DEFINITION. The state of the whole part as plain data, its stops and its reset. Sparse files list only what differs
from the value an unlisted entry reads as; Maps.lean gives the accessors. -/

namespace Sys2Proof.Machine

/-- Why a step cannot be taken at all. -/
inductive Fault where
  /-- Raised by an instruction word that is executed while the PC slot named by `cur` holds no fragment: no instruction of
  the spec runs without one (R172). Safe: the spec gives such a step no meaning. -/
  | noFragment
  deriving DecidableEq, Repr

/-- An instruction without a meaning in this model. -/
inductive Refusal where
  /-- Raised by an arm of `exec` whose instruction is not modelled. Safe: nothing is claimed of it. -/
  | notModelled (mnemonic : String)
  deriving DecidableEq, Repr

/-- The place of a byte: translated memory by tier and physical address, or a scratchpad allocation (R69, R95). -/
inductive Loc where
  /-- tier * 2^52 + physical address -/
  | mem (key : Nat)
  /-- a byte of an allocation; Memory.lean gives the keys -/
  | scr (key : Nat)
  deriving DecidableEq, Repr

/-- A leaf in a translation cache (R72). -/
structure Tlb where
  tenant : Nat
  /-- virtual page and log2 of the page size -/
  page : Nat
  size : Nat
  tier : Nat
  pa   : Nat
  rd   : Bool
  w    : Bool
  x    : Bool
  d    : Bool
  deriving DecidableEq, Repr

/-! ## Waves -/

/-- A live fragment (R172). -/
structure Frag where
  pc   : DWord
  mask : Mask
  /-- false: THEN side, true: ELSE side -/
  side : Bool := false
  /-- the mask the next instruction executes again with (R87) -/
  again : Option Mask := none
  /-- an instruction has just ended at a hardware loop's last word (R189) -/
  endPend : Bool := false
  deriving DecidableEq, Repr

/-- A level of the lane-mask stack (R174, R338). -/
inductive Level where
  /-- `loops`, `again` and `id` are the model's own: the hardware-loop depth when a fragment was suspended here (R178), the
  remaining mask that fragment's instruction executes again with (R87), and the number of the IF that pushed it (R83) -/
  | ifL (oside : Bool) (pc : DWord) (state : Nat) (other : Mask) (loops : Nat) (again : Option Mask) (id : Nat := 0)
  | loopMasks (b l : Mask)
  | loopAddr (endpc : DWord) (oside eknown : Bool) (looppc : DWord)
  | apxMasks (cap sub : Mask)
  /-- `inv` numbers the invocation in its region and `outs` are the result registers as named and as resolved (R492): the
  hardware's bits hold neither -/
  | apxAddr (endpc : DWord) (oside : Bool) (rid slot inv : Nat) (outs : List (Nat × Nat))
  deriving DecidableEq, Repr

/-- An active hardware loop (R189): body bounds and the stack depth at HLOOP. -/
structure HLoop where
  first : DWord
  last  : DWord
  depth : Nat
  /-- words held in the loop buffer, by their number in the body (R26) -/
  buf   : List (Nat × Nat) := []
  deriving DecidableEq, Repr

/-- What a held write goes to (R180). -/
inductive HDst where
  | s (n : Nat)
  | k (n : Nat)
  | csr (a : Nat)
  /-- SAT of ACCMODE, which an accumulation sets (R210) -/
  | sat
  deriving DecidableEq, Repr

/-- A write in the held-write buffer (R180): `level` is the number of stack levels up to the IF level that holds it; `seq`
is the operation whose data it waits for while `val` is none. -/
structure Held where
  dst : HDst
  val : Option Word
  level : Nat
  released : Bool := false
  seq : Nat := 0
  /-- which word of that operation's result -/
  idx : Nat := 0
  deriving DecidableEq, Repr

/-- One element of a load (R81): `dst` are the keys of vector words, or uniform register numbers when `uni`. -/
structure Elem where
  lane : Nat
  loc  : Loc
  va   : DWord
  n    : Nat
  dst  : List Nat
  sx   : Bool
  uni  : Bool
  deriving DecidableEq, Repr

/-- The bytes of a store that share one sector (R79) or one scratchpad word group. -/
structure StSec where
  va    : DWord
  lanes : Mask
  bytes : List (Loc × Byte)
  deriving DecidableEq, Repr

/-- One request of an atomic: a group of lanes (R353) or one entry (R355). -/
structure AReq where
  loc   : Loc
  va    : DWord
  /-- lane, operand, swap value, destination keys -/
  parts : List (Nat × DWord × DWord × List Nat)
  /-- the results of each part once its step is made -/
  res   : Option (List DWord) := none
  /-- waiting in the Cloakroom or for its next window (R357) -/
  admitted : Bool := false
  refused  : Bool := false
  /-- taken by the Order Gate (R468) -/
  gated : Bool := false
  /-- the cause of the error its step will meet, and whether it has met one (R361): the step is not performed -/
  bad : Option Nat := none
  failed : Bool := false
  /-- its results have been written (R363) -/
  back : Bool := false
  deriving DecidableEq, Repr

/-- What an outstanding operation is (R107). -/
inductive Op where
  | load (chunks : List (List Elem))
  | store (secs : List StSec)
  | atomic (op : AtomOp) (wide det uni ret : Bool) (reqs : List AReq)
  /-- places, shape, source address and issuing mask -/
  | tmov (dst src rows rowBytes spitch dpitch addr : Nat) (mask : Mask)
  | engine
  | fit (load : Bool) (cluster rid : Nat) (va : DWord) (pcs : List Loc)
  /-- what a tile instruction read at issue (R252): mask, descriptors, lanes of its vector run, places of its rows and scale
  rows by lane, the key of the register it writes, and MODE -/
  | tile (i : Instr) (mask : Mask) (desc : List Word) (fv : List (List Word)) (locs : List (Nat × Loc × Option Loc))
      (key : Nat) (sat : Bool)
  deriving DecidableEq, Repr

/-- Where in its wave's divergences an access was issued: the IFs it stood in, each with its side (R83). -/
abbrev Tag := List (Nat × Bool)

/-- An outstanding operation of a wave, in issue order (R108). -/
structure Out where
  seq  : Nat
  path : Path
  tag  : Tag
  acq  : Bool
  rel  : Bool
  done : Bool
  pc   : DWord
  /-- the wave's store hash when it issued (R467) -/
  hash : Word
  op   : Op
  /-- it counts on its path; false for a buffered MST (R279, R452) -/
  counted : Bool := true
  /-- the issuing slot and its active mask (R434, R435) -/
  second : Bool := false
  mask : Mask := 0
  /-- errors its parts will meet at the commit: cause and part (R88, R452) -/
  bad : List (Nat × Nat) := []
  /-- the scope at which a store performs before its count falls, or the scope of an atomic's order (R81, R354) -/
  scope : Scope := .wave
  /-- lanes whose address is a fabric address: their accesses are at system scope (R486, R487) -/
  sys : Mask := 0
  /-- a PROMOTE (R388) -/
  promote : Bool := false
  deriving DecidableEq, Repr

/-- A write that has performed at a scope and not yet at every wider one (R13): its wave and number, the writer's group, place in
it and core, the code of the scope reached, and its bytes. -/
structure Flight where
  wave  : Nat
  seq   : Nat
  group : Nat
  idx   : Nat
  core  : Nat
  scope : Nat
  bytes : List (Loc × Byte)
  deriving DecidableEq, Repr

/-- The fields of a trap (R434, R435). -/
structure Trap where
  cause   : Nat
  reason  : Nat := 0
  access  : Nat := 0
  precise : Bool := true
  second  : Bool := false
  pc      : DWord := 0
  addr    : DWord := 0
  paddr   : DWord := 0
  lmask   : Mask := 0
  rmask   : Mask := 0
  w12     : Word := 0
  w13     : Word := 0
  deriving DecidableEq, Repr

/-- Where a stopped wave's record is (R429, R436). -/
inductive Route where
  | unsent | queued | handler (group : Nat) | posting | notified | killing
  deriving DecidableEq, Repr

/-- A stopped wave's record and its fault identifier, 0 before the Curator has given one (R434). -/
structure Stop where
  trap  : Trap
  fid   : Nat := 0
  route : Route := .unsent
  /-- the instruction has retired (User Trap, R441) or trapped at a boundary (R427) -/
  retired : Bool := false
  /-- side of the slot that trapped -/
  side : Bool := false
  deriving DecidableEq, Repr

/-- A binding of q8 to q15 (R136, R138): the queue's header place and the send allowance. -/
structure Bind where
  queue : Nat
  allowance : Nat
  deriving DecidableEq, Repr

/-- What a suspended slot waits on, where the spec keeps it a place (R121, R147, R151, R158). -/
inductive WaitOn where
  | pop (q d : Nat)
  | push (q : Nat) (items : List (List Word))
  | record (q d : Nat)
  | racq (n since : Nat)
  | barw (place : Nat) (phase : Nat) (woken : Bool)
  | phend (place : Nat) (woken : Bool)
  /-- WAITP with the threshold it issued with (R118) -/
  | waitp (th : Nat)
  /-- a tile operation's wait for accumulator `a` (R253) -/
  | acc (a : Nat)
  deriving DecidableEq, Repr

/-- A waiting slot: the fragment of that side of that wave. -/
structure Waiter where
  wave : Nat
  side : Bool
  on   : WaitOn
  deriving DecidableEq, Repr

/-- A translation fault found by a walk for an access of a slot or an engine, until the access takes it (R74). Reason 6 is
the model's: the walk could not read the table entry at key `size` (R70, R71, log 13). -/
structure WalkFault where
  side   : Bool
  /-- the 4 KiB page walked -/
  page   : Nat
  reason : Nat
  /-- log2 of the size of the region the fault applies to (R86) -/
  size   : Nat
  /-- permission that the fresh walk lacks, for reason 1: 0 read, 1 write, 2 fetch -/
  need   : Nat
  deriving DecidableEq, Repr

/-- An engine command on its way (R122-R132). -/
structure Command where
  wave : Nat
  launch : Nat
  group : Nat
  tenant : Nat
  core : Nat
  gather : Bool
  words : List Word
  seqNo : Word
  out : Nat
  tag : Tag
  /-- dispatched, checked and moving -/
  started : Bool := false
  deriving DecidableEq, Repr

/-- An operation of a deterministic wave's quantum that is performed at the commit, in program order (R452): an outstanding
operation by its number, a barrier operation (0 BARI, 1 BARX, 2 BARA) on a place, an engine command, a FITINV, or the part
of an APXB or APXE that goes to the engine: its code's pages and lanes with their inputs, or lanes that arrive with their results
(R332, R346). -/
inductive QOp where
  | out (seq : Nat)
  | bar (op place count : Nat)
  | command (c : Command)
  | fitinv (rid : Nat) (free : Bool)
  | apxb (rid inv : Nat) (pc : DWord) (pages : List Nat) (xs : List (Nat × List Word))
  | apxe (rid inv : Nat) (xs : List (Nat × List Word))
  deriving DecidableEq, Repr

/-- How far a wave of a deterministic launch is in its quantum (R448, R452). -/
inductive QState where
  | running
  /-- ended; the instruction at its PC is presented at the commit when `some` (R452) -/
  | ended (deferred : Option Instr)
  deriving DecidableEq, Repr

/-- How far the commit of a round has come (R454, R307): the waves whose turns remain, the first of them in the last act of its
turn; the engine commands, TMOVs and FITLDs that remain after the turns; or the round's system calls. -/
inductive CommitAt where
  | turns (waves : List Nat)
  | late (ops : List (Nat × QOp))
  | calls
  deriving DecidableEq, Repr

/-- A wave (R168, R169, R153). -/
structure Wave where
  group  : Nat
  idx    : Nat := 0
  waveid : Word := 0
  first  : Option Frag := none
  second : Option Frag := none
  /-- innermost level first -/
  stack  : List Level := []
  /-- IFs executed that pushed a level -/
  nextIf : Nat := 0
  /-- spill depth D (R173) -/
  spill  : Nat := 0
  exited : Mask := 0
  held   : List Held := []
  /-- innermost loop first -/
  hloops : List HLoop := []
  /-- stack depth and hardware-loop depth at handler entry (R431) -/
  hdepth : Nat := 0
  hhloop : Nat := 0
  /-- base blocks, blocks held and window base (R156, R157) -/
  base   : Nat := 1
  blocks : Nat := 1
  wb     : Nat := 0
  /-- register files, sparse; unlisted reads 0 -/
  v : List (Nat × Word) := []
  s : List (Nat × Word) := []
  p : List (Nat × Mask) := []
  k : List (Nat × Bool) := []
  /-- small-matrix elements, unlisted 0; shapes rows * 8 + cols, unlisted 6 by 6; MSTS -/
  m : List (Nat × Word) := []
  shape : List (Nat × Nat) := []
  msts  : List (Nat × Word) := []
  matrix : Bool := false
  /-- CSRs (R164) -/
  frm : Word := 0
  fflags : Word := 0
  accmode : Word := 0
  subgrp : Word := 64
  mtol : Word := 0
  mtrapen : Word := 0
  u5trap : Word := 0
  lc0 : Word := 0
  lc1 : Word := 0
  lc2 : Word := 0
  uivec : Word := 0
  uicause : Word := 0
  uipc : Word := 0
  /-- UIMASKST: EN, IN, HSIDE, LOST (R433) -/
  en : Nat := 0
  inH : Bool := false
  hside : Bool := false
  lost : Nat := 0
  /-- pending user interrupts: source and payload (R433) -/
  pending : List (Nat × Nat) := []
  racqtmo : Word := 0x10000
  /-- outstanding operations in issue order, and the next sequence number -/
  outs : List Out := []
  nextSeq : Nat := 0
  /-- FP flags of issued small-matrix instructions not yet complete, in issue order (R209, R279) -/
  flagPend : List Word := []
  q1 : List (List Word) := []
  q3 : List (List Word) := []
  lost1 : Nat := 0
  lost3 : Nat := 0
  seq0 : Word := 0
  seq2 : Word := 0
  binds : List (Nat × Bind) := []
  cat : Option Nat := none
  /-- invocation counts (R333) -/
  ic : List (Nat × Word) := []
  /-- store hash (R464) -/
  hash : Word := 0
  /-- deterministic quantum (R448): retired in it, completed quanta, state -/
  qret : Nat := 0
  quanta : Nat := 0
  qstate : QState := .running
  /-- operations of the quantum that are performed at the commit, in program order (R452) -/
  qops : List QOp := []
  /-- the error that its deferred instruction will meet: cause and word (R309, R452) -/
  badWord : Option (Nat × Nat) := none
  /-- bytes that the wave's own buffered operations other than stores leave behind, as its later reads see them: the number
  its next operation had then, place and byte (R451) -/
  own : List (Nat × Loc × Byte) := []
  /-- CSR writes of the group that other waves see at the commit (R455) -/
  csrPend : List (Nat × Word) := []
  /-- age key (R423) -/
  age : Nat := 0
  /-- cycles since which each slot has been ready for its port, and the boosts: slot * 2 + port (R423) -/
  boosts : List Nat := []
  since : List (Nat × Nat) := []
  stop : Option Stop := none
  /-- errors that wait for a boundary (R88) -/
  errs : List Trap := []
  walkFaults : List WalkFault := []
  /-- leaves that walks have delivered to a slot's access, until it takes them (R74) -/
  walkLeaves : List (Bool × Tlb) := []
  /-- how many writes to memory the wave's fetch sees (R26) -/
  codeSeen : Nat := 0
  /-- an atomic of the slot whose requests the gate has not all taken (R468) -/
  gateWait : List (Bool × Nat) := []
  deriving DecidableEq, Repr

/-! ## Groups and launches -/

/-- Where a group is in its life (R419, R442, R444). -/
inductive Life where
  | placing | resident | stopping | saved | restoring | ending
  /-- ended while saved: it holds nothing on its core and waits for what its waves have issued (R132, R442) -/
  | retired
  deriving DecidableEq, Repr

/-- A group (R168, R398). -/
structure Group where
  launch : Nat
  grpid  : Nat := 0
  role   : Nat := 0
  gang   : Nat := 0
  /-- node batch number, when a node group (R407) -/
  node   : Option Nat := none
  /-- fault identifier a handler group serves (R436) -/
  fid    : Option Nat := none
  core   : Nat := 0
  life   : Life := .resident
  waves  : List Nat := []
  nwaves : Nat := 1
  regs   : Nat := 1
  tiles  : Nat := 0
  accs   : Nat := 0
  mats   : Nat := 0
  /-- core scratchpad allocation, rounded; spill bytes (R96) -/
  scratch : Nat := 0
  spill  : Nat := 0
  /-- tiles, side arrays and accumulators, sparse; unlisted 0 (R155) -/
  t    : List (Nat × Byte) := []
  side : List (Nat × Byte) := []
  a    : List (Nat × Word) := []
  tdesc : List (Nat × Word) := []
  adesc : List (Nat × Word) := []
  deriving DecidableEq, Repr

/-- A role of a launch block (R396). -/
structure Role where
  entry : Word := 0
  regs  : Nat := 1
  waves : Nat := 1
  groups : Nat := 1
  gpg   : Nat := 1
  oq    : Bool := false
  cap   : Nat := 2
  itemw : Nat := 1
  off   : Nat := 0
  deriving DecidableEq, Repr

/-- A node descriptor (R405). -/
structure Node where
  entry : Word := 0
  regs  : Nat := 1
  recw  : Nat := 1
  timer : Nat := 0
  backlog : Nat := 1
  scratch : Nat := 0
  mat   : Bool := false
  accs  : Nat := 0
  tiles : Nat := 0
  deriving DecidableEq, Repr

/-- A launch block (R395). -/
structure Block where
  spill : Nat := 0
  det   : Bool := false
  quantum : Nat := 1024
  code  : DWord := 0
  gx : Nat := 1
  gy : Nat := 1
  gz : Nat := 1
  mats : Nat := 0
  accs : Nat := 0
  tiles : Nat := 0
  scratch : Nat := 0
  clusz : Nat := 0
  diesz : Nat := 0
  nodesVA : DWord := 0
  nnode : Nat := 0
  span : Nat := 0
  roles : List Role := []
  nodes : List Node := []
  deriving DecidableEq, Repr

/-- The effective values of one record of an RCB chain (R392): `none` means no limit of its own. -/
structure Rcb where
  va : DWord := 0
  prio : Nat := 0
  pmin : Nat := 0
  pmax : Nat := 47
  notify : Bool := false
  handler : Option DWord := none
  cores : Option Nat := none
  corep : Option Nat := none
  clusp : Option Nat := none
  diesp : Option Nat := none
  memb  : Option Nat := none
  tiles : Option Nat := none
  accs  : Option Nat := none
  matw  : Option Nat := none
  deriving DecidableEq, Repr

/-- A node batch (R406): its node, records, and the cycle or round of its first record. -/
structure Batch where
  node : Nat
  recs : List (List Word)
  since : Nat
  launched : Bool := false
  /-- its number among the launch's launched batches (R407) -/
  num : Nat := 0
  deriving DecidableEq, Repr

/-- A gang that is not resident (R413): pending, or waiting with a target since a cycle (R416). -/
structure Pend where
  gang : Nat
  /-- cores of the target when waiting -/
  target : List Nat := []
  since : Option Nat := none
  /-- past the ageing limit (R418) -/
  aged : Bool := false
  /-- a saved gang returns to its own cores (R419) -/
  saved : Bool := false
  deriving DecidableEq, Repr

/-- A write of a launch's recorder: the wave whose step it tells of, with the PC of its atomic, the cluster, its virtual address,
and the number of `n` bytes (R466, R467). -/
structure LogWrite where
  who : Option (Nat × DWord)
  cluster : Nat
  va : DWord
  val : Nat
  n : Nat
  deriving DecidableEq, Repr

/-- The recorder or Order Gate of a launch (R466-R470). -/
structure Log where
  buf  : DWord := 0
  acap : Nat := 0
  ccap : Nat := 0
  naddr : Nat := 0
  nchunk : Nat := 0
  ovf  : Bool := false
  /-- element place, index -/
  elems : List (Nat × Nat) := []
  /-- open runs: element place, wave, run, hash -/
  runs : List (Nat × Word × Nat × Word) := []
  /-- the gate: element place and its chunks not yet consumed (wave, run, hash), and whether the first has begun -/
  gate : List (Nat × List (Word × Nat × Word) × Bool) := []
  /-- requests the gate holds, in order of arrival: wave, operation, request (R470) -/
  held : List (Nat × Nat × Nat) := []
  /-- the recorder's writes that are still to be made, oldest first: the first waits for its translation (R74) -/
  todo : List LogWrite := []
  /-- the open runs and the header have been written at the launch's end (R467) -/
  closed : Bool := false
  /-- replay has ended (R470) -/
  ended : Bool := false
  deriving DecidableEq, Repr

/-- A launch (R395-R404). -/
structure Launch where
  tenant : Nat
  /-- the command: device, ring and SEQ to complete (R478) -/
  ring : Nat × Nat := (0, 0)
  seq  : Word := 0
  block : Block := {}
  chain : List Rcb := []
  codeLen : Nat := 0
  recording : Bool := false
  replaying : Bool := false
  /-- age: cycle, port, logical queue, order of taking (R413) -/
  age : Nat × Nat × Nat × Nat := (0, 0, 0, 0)
  signature : List Byte := []
  pend : List Pend := []
  batches : List Batch := []
  nbatch : Nat := 0
  /-- the FID of the fault that killed it, or 0 for a tenant reset (R441, R446) -/
  killed : Option Nat := none
  log : Log := {}
  round : Nat := 0
  /-- how many writes to memory the launch's reads see: those up to the last commit (R451) -/
  seen : Nat := 0
  /-- the commit of the round, once begun -/
  commit : Option CommitAt := none
  /-- curve order of grid groups not yet retired (R459) -/
  curve : List Nat := []
  /-- fault records waiting for a handler group: FIDs (R436) -/
  handlerQueue : List Nat := []
  /-- the record a handler group starts with (R437) -/
  record : List Word := []
  /-- the launch whose fault this handler group serves (R437) -/
  handlerOf : Option Nat := none
  deriving DecidableEq, Repr

/-- A partition (R18, R19). -/
structure Part where
  clusters : List Nat
  counter : Nat := 0
  hash : List Byte := []
  deriving DecidableEq, Repr

/-- A page mapped by MAP: virtual page, its physical page and the RCB records it counts against (R440, R394). -/
structure Mapped where
  page : Nat
  tier : Nat
  pa   : Nat
  chain : List DWord
  deriving DecidableEq, Repr

/-- A tenant (R66, R474). -/
structure Tenant where
  part : Nat
  rootPA : Nat
  rootTier : Nat
  hport : Nat := 0
  nextFid : Nat := 1
  mapped : List Mapped := []
  /-- stream records in the intake: queue order (R320) -/
  intake : List (List Word) := []
  /-- a TREMOVE waits for the tenant's reset: device, ring and SEQ to complete (R479) -/
  removing : Option ((Nat × Nat) × Word) := none
  deriving DecidableEq, Repr

/-- A system call at the Milliner (R439). -/
structure Sysc where
  wave : Nat
  side : Bool
  tenant : Nat
  fn   : Nat
  d    : Nat
  args : List Word
  pc   : DWord
  mask : Mask
  /-- it was issued inside the wave's handler (R431) -/
  inH  : Bool := false
  status : Option Word := none
  result : Word := 0
  /-- the invalidation or event record it waits for -/
  inval : Option Nat := none
  posting : Bool := false
  deriving DecidableEq, Repr

/-! ## Translation -/

/-- A non-leaf entry in a die's walk cache (R72): level, index prefix, next table. -/
structure WalkEntry where
  tenant : Nat
  level : Nat
  pre : Nat
  tier : Nat
  pa : Nat
  deriving DecidableEq, Repr

/-- An access attached to a walk (R74): what it needs (0 read, 1 write, 2 fetch, 3 both, 4 no permission), and whose it is: a
slot's (wave and side), an engine command's (wave, number and cluster), or the recorder's of launch `log` for a cluster. -/
structure WalkFor where
  wave : Nat
  side : Bool
  need : Nat
  unit : Option (Nat × Nat) := none
  log : Option (Nat × Nat) := none
  deriving DecidableEq, Repr

/-- What a walk comes to: a leaf and the place of its entry, a fault and log2 of the size of the region it applies to, or an
entry that could not be read, at its key (R70, R71). -/
inductive WalkRes where
  | leaf (t : Tlb) (entry : Nat)
  | fault (reason size : Nat)
  | error (key : Nat)
  deriving DecidableEq, Repr

/-- A walk for a page, waiting or in flight: its result once begun. -/
structure Walk where
  tenant : Nat
  cluster : Nat
  page : Nat
  waiters : List WalkFor
  /-- an invalidation over its range began while it was in flight (R76) -/
  stale : Bool := false
  /-- none while waiting for a walker -/
  result : Option WalkRes := none
  deriving DecidableEq, Repr

/-- What the walks of an engine command have given it (R74, R126): its wave and number, faults and leaves in use. -/
structure UnitX where
  wave : Nat
  out : Nat
  faults : List WalkFault := []
  leaves : List Tlb := []
  deriving DecidableEq, Repr

/-- An invalidation in flight (R76): the operations that must perform first, and who is told. -/
structure Inval where
  tenant : Nat
  va  : DWord
  len : Nat
  /-- waves and sequence numbers of accesses issued before it -/
  waits : List (Nat × Nat)
  /-- walks in flight over the range: die and page -/
  walks : List (Nat × Nat)
  /-- accesses attached to those walks: wave, and the number of its next operation then -/
  slots : List (Nat × Nat) := []
  /-- engine commands that use a dropped entry: wave and number -/
  units : List (Nat × Nat) := []
  /-- the ranges of the dropped entries, and the range itself: first byte and the byte after the last -/
  ranges : List (Nat × Nat) := []
  /-- the command to complete: device, ring and SEQ -/
  cmd : Option ((Nat × Nat) × Word) := none
  deriving DecidableEq, Repr

/-! ## Units -/

/-- The live header of an active bound queue (R136). -/
structure Queue where
  /-- its controller: a cluster, or 16 plus a die -/
  ctl : Nat
  cap : Nat
  itemw : Nat
  head : Word
  tail : Word
  deriving DecidableEq, Repr

/-- A registered phase (R151): header place, identifier, entries (kind, target place, events left), domain. -/
structure Phase where
  phid : Nat
  entries : List (Nat × Nat × Nat)
  complete : Bool := false
  die : Nat := 0
  deriving DecidableEq, Repr

/-- An active catalogue (R304): live H0 to H8 and the scored set. -/
structure Cat where
  hdr : List Word
  scored : List Nat := []
  deriving DecidableEq, Repr

/-- A slot of a region's sample buffer (R334): 0 never reserved, 1 pending, 2 committed, 3 consumed or discarded; the
reservation number orders them. -/
structure Sample where
  state : Nat := 0
  order : Nat := 0
  deriving DecidableEq, Repr

/-- A region of a Fitting Engine (R325-R331). -/
structure Region where
  launch : Nat
  va : DWord
  desc : List Word
  state : Nat := 1
  weights : List Word := []
  trial : Nat := 0
  hold : Nat := 0
  steps : Nat := 0
  /-- steps completed in the present round -/
  round : Nat := 0
  committed : Nat := 0
  worst : Word := 0
  slots : List (Nat × Sample) := []
  orders : Nat := 1
  openInv : Nat := 0
  /-- buffer slots of each open invocation, by lane -/
  invs : List (Nat × List (Nat × Nat)) := []
  freePend : Bool := false
  /-- samples of the step in progress: inputs and results -/
  step : Option (List (List Word × List Word)) := none
  entry : Option DWord := none
  pages : List Nat := []
  deriving DecidableEq, Repr

/-- An entry in a Cloakroom row or refused (R357): issuer index (wave, lane, order) and where its request is. -/
structure CEntry where
  waveid : Nat
  lane : Nat
  order : Nat
  wave : Nat
  seq : Nat
  idx : Nat
  deriving DecidableEq, Repr

/-- A Cloakroom window of a home unit (R490): `launch` is none for the 64-cycle windows. -/
structure Window where
  unit : Nat
  launch : Option Nat
  /-- which 64 cycles, or which round, it covers (R356) -/
  n : Nat := 0
  rows : List (Nat × List CEntry) := []
  refused : List CEntry := []
  deriving DecidableEq, Repr

/-- A report of a Docent to the Curator (R421). -/
inductive Report where
  | ended (group : Nat)
  | saved (launch gang : Nat)
  | restored (launch gang : Nat)
  | fault (wave : Nat)
  deriving DecidableEq, Repr

/-! ## Host side -/

/-- A virtqueue of a device (R475-R483). -/
structure Vq where
  enabled : Bool := false
  port : Nat := 0
  lq : Nat := 0
  acc : Word := 0
  cmp : Word := 0
  post : Word := 0
  /-- commands available to the device, in ring order: the command's buffer and its completion buffer (R477, R478) -/
  avail : List (Buf × Buf) := []
  /-- accepted SEQs not yet completed, each with its completion buffer; none after a reset of the virtqueue (R483) -/
  running : List (Word × Option Buf) := []
  /-- accepted SEQs completed beyond CMP -/
  ahead : List Word := []
  /-- buffers given back, newest last: address and bytes written (R478, R481) -/
  used : List Buf := []
  /-- completions held until the driver makes buffers available again (R483) -/
  heldUsed : List (List Word) := []
  /-- driver-writable buffers available, for records or for held completions -/
  bufs : List Buf := []
  /-- records waiting in the Milliner, each with the FID of its fault or the number of its NOTIFY request -/
  recs : List (Nat × List Word) := []
  deriving DecidableEq, Repr

/-- A virtio device (R474): 0 to 31 tenant devices, 32 the management device. -/
structure Dev where
  failed : Bool := true
  features : DWord := 0
  vqs : List (Nat × Vq) := []
  deriving DecidableEq, Repr

/-- Who moves next (log 1): a PC slot, the slot that a core's selector picks for a port, a step of another agent, or the
passing of cycles. -/
inductive Turn where
  | slot (wave : Nat) (second : Bool)
  | port (core : Nat) (v : Bool)
  | event (i : Instr)
  | cycles (n : Nat)
  deriving DecidableEq, Repr

end Sys2Proof.Machine

namespace Sys2Proof.Machine

/-- The whole part. -/
structure State where
  -- the model's own fields (log 1, log 2)
  agenda : List Turn
  cur : Nat × Bool
  tick : Nat
  nextWave : Nat
  nextGroup : Nat
  nextLaunch : Nat
  nextReq : Nat
  -- hardware identity (R17, R484, R486)
  disabled : List Nat
  fwver : DWord
  staged : List Byte
  bootst : Nat
  moduleNo : Nat
  /-- the modules of the pod's link table, each with its BOOTST -/
  links : List (Nat × Nat)
  /-- the fabric links: for each module, the modules at the far ends of its ports, lower port first -/
  wires : List (Nat × List Nat)
  eol : List (BitVec 16)
  eolHour : Nat
  /-- the cycle of the last wear prediction (R488) -/
  eolAt : Nat
  -- memory (R69): bytes by tier * 2^52 + physical address; scratchpad allocations
  mem : List Host.Cell
  scratch : List Host.Cell
  /-- writes on their way to their home locations, in the order that the bytes' coherence orders take them (R13, R374) -/
  flight : List Flight
  /-- every write to memory that changed a byte: its number, the byte's key, and the byte before (R26) -/
  codeLog : List (Nat × Nat × Byte)
  codeCount : Nat
  /-- cycles since module reset (R193) -/
  cycle : Nat
  -- translation
  utlb : List (Nat × List Tlb)
  ctlb : List (Nat × List Tlb)
  wcache : List (Nat × List WalkEntry)
  /-- per die, oldest first -/
  walks : List (Nat × List Walk)
  invals : List (Nat × Inval)
  /-- per engine command in flight, what its walks have given it -/
  xunits : List UnitX
  /-- 64-byte sectors, by number, whose next read by the Curator, the Milliner, a page walk or an instruction fetch meets an
  uncorrectable error, or the error of a host port or of the fabric (R70, R88, R397) -/
  hostBad : List Nat
  -- waves, groups, launches
  waves : List (Nat × Wave)
  groups : List (Nat × Group)
  launches : List (Nat × Launch)
  parts : List (Nat × Part)
  tenants : List (Nat × Tenant)
  waiters : List Waiter
  syscs : List (Nat × Sysc)
  /-- shadow contexts in use per core: groups (R444) -/
  shadows : List (Nat × List Nat)
  /-- reports that the Curator has not yet acted on: cluster and report, in the order sent (R421) -/
  reports : List (Nat × Report)
  /-- groups that an ABORT has ended, whose KILL is still to be sent (R421, R441) -/
  kills : List Nat
  -- units
  intakes : List (Nat × List Command)
  engines : List (Nat × Command)
  queues : List (Nat × Queue)
  phases : List (Nat × Phase)
  cats : List (Nat × Cat)
  regions : List (Nat × Region)
  windows : List (Nat × Window)
  -- host
  devs : List (Nat × Dev)
  cursors : List (Nat × Nat)
  psem : Nat
  /-- PSEM when the present cycle began, and the writes of the cycle: port and value (R484) -/
  psemFrom : Nat
  psemWrites : List (Nat × Nat)
  /-- Milliner threads that a notify register has woken (R476) -/
  awake : List Nat
  /-- cycle since which each port's link is out of L0; none in L0 -/
  link0 : Option Nat
  link1 : Option Nat
  deriving DecidableEq, Repr

/-- The module right after reset: nothing placed, nothing bound, every file at the value INVENTORY.md gives. -/
def State.reset : State where
  agenda := []
  cur := (0, false)
  tick := 0
  nextWave := 0
  nextGroup := 0
  nextLaunch := 0
  nextReq := 0
  disabled := []
  fwver := 0
  staged := []
  bootst := 0
  moduleNo := 0
  links := []
  wires := []
  eol := (List.range 5).map (Config.wear 0)
  eolHour := 0
  eolAt := 0
  mem := []
  scratch := []
  flight := []
  codeLog := []
  codeCount := 0
  cycle := 0
  utlb := []
  ctlb := []
  wcache := []
  walks := []
  invals := []
  xunits := []
  hostBad := []
  waves := []
  groups := []
  launches := []
  parts := []
  tenants := []
  waiters := []
  syscs := []
  shadows := []
  reports := []
  kills := []
  intakes := []
  engines := []
  queues := []
  phases := []
  cats := []
  regions := []
  windows := []
  devs := [(32, { failed := false })]
  cursors := []
  psem := 0
  psemFrom := 0
  psemWrites := []
  awake := []
  link0 := none
  link1 := none

end Sys2Proof.Machine
end

