-- ==== Sys2Proof/Machine/Ops.lean ====
section
/-! DEFINITION. The named operations over waves, slots and registers, taking a trap and entering a handler
(spec/06_registers.md, spec/07_waves_and_control_flow.md, spec/22_traps_and_preemption.md). -/

namespace Sys2Proof.Machine

/-- The outcome of a step of this machine. -/
abbrev Res := Host.Outcome State Fault Refusal

/-- The issuing PC slot with what it belongs to. -/
structure Slot where
  h : Nat
  second : Bool
  w : Wave
  f : Frag
  g : Group
  l : Launch
  deriving DecidableEq, Repr

/-- The slot `second` of wave `h`, if it holds a fragment (R172). -/
def State.slotOf (s : State) (h : Nat) (second : Bool) : Option Slot :=
  match Map.find s.waves h with
  | none => none
  | some w =>
    match (if second then w.second else w.first), Map.find s.groups w.group with
    | some f, some g =>
      match Map.find s.launches g.launch with
      | some l => some ⟨h, second, w, f, g, l⟩
      | none => none
    | _, _ => none

/-- The slot that issues. -/
def State.slot (s : State) : Option Slot := s.slotOf s.cur.1 s.cur.2

/-- Runs an instruction's effect on the issuing slot. -/
def onSlot (s : State) (f : Slot → State) : Res :=
  match s.slot with
  | some k => .next (f k)
  | none => .fault .noFragment

/-- The active mask: the fragment's, or what is left of it after a fault (R87). -/
def Slot.mask (k : Slot) : Mask := k.f.again.getD k.f.mask
/-- The active lanes in ascending order. -/
def Slot.lanes (k : Slot) : List Nat := lanesOf k.mask
/-- Whether lane `l` is active. -/
def Slot.on (k : Slot) (l : Nat) : Bool := k.mask.getLsbD l
/-- The launch is deterministic (R447). -/
def Slot.det (k : Slot) : Bool := k.l.block.det
/-- The global index of the core (R8). -/
def Slot.core (k : Slot) : Nat := k.g.core
/-- The cluster and the die of the core (R8). -/
def Slot.cluster (k : Slot) : Nat := k.g.core / 192
def Slot.die (k : Slot) : Nat := k.g.core / 576
/-- Both slots of the wave hold a fragment. -/
def Wave.twoLive (w : Wave) : Bool := w.first.isSome && w.second.isSome
/-- The IFs a fragment of side `side` stands in, innermost first, each with the side it is on (R83): a level gives back the
side of the fragment that pushed it. -/
def divPath : List Level → Bool → Tag
  | [], _ => []
  | .ifL o _ _ _ _ _ i :: r, side => (i, side) :: divPath r o
  | .loopAddr _ o _ _ :: r, _ => divPath r o
  | .apxAddr _ o _ _ _ _ :: r, _ => divPath r o
  | .loopMasks _ _ :: r, side => divPath r side
  | .apxMasks _ _ :: r, side => divPath r side

/-- The order tag of what the slot issues; a deterministic wave's program order is total (R83, R450). -/
def Slot.tag (k : Slot) : Tag := if k.det then [] else divPath k.w.stack k.f.side

/-- A value the spec leaves open: nothing says which (log 2). -/
def State.draw (s : State) : State × Nat := ({ s with tick := s.tick + 1 }, (Config.freeWord s.tick).toNat)

/-- Stores the wave of handle `h`. -/
def State.setWave (s : State) (h : Nat) (w : Wave) : State := { s with waves := Map.put s.waves h w }
/-- Changes the wave of handle `h`, if it is there. -/
def State.modWave (s : State) (h : Nat) (f : Wave → Wave) : State := { s with waves := Map.modify s.waves h f }
/-- Changes the group of handle `g`. -/
def State.modGroup (s : State) (g : Nat) (f : Group → Group) : State := { s with groups := Map.modify s.groups g f }
/-- Changes the launch of handle `l`. -/
def State.modLaunch (s : State) (l : Nat) (f : Launch → Launch) : State :=
  { s with launches := Map.modify s.launches l f }

/-- The wave with the fragment of a slot replaced. -/
def Wave.setFrag (w : Wave) (second : Bool) (f : Option Frag) : Wave :=
  if second then { w with second := f } else { w with first := f }
/-- The fragment of a slot. -/
def Wave.frag (w : Wave) (second : Bool) : Option Frag := if second then w.second else w.first
/-- The fragment whose side bit is `side`, and its slot. -/
def Wave.bySide (w : Wave) (side : Bool) : Option (Bool × Frag) :=
  match w.first, w.second with
  | some f, some g => if g.side = side then some (true, g) else if f.side = side then some (false, f) else none
  | some f, none => if f.side = side then some (false, f) else none
  | none, some g => if g.side = side then some (true, g) else none
  | none, none => none

/-- The slot's waiting place is given up (R139). -/
def State.unwait (s : State) (h : Nat) (side : Bool) : State :=
  { s with waiters := s.waiters.filter fun x => !(x.wave == h && x.side == side) }
/-- Both slots' waiting places are given up. -/
def State.unwaitAll (s : State) (h : Nat) : State :=
  { s with waiters := s.waiters.filter fun x => x.wave != h }

/-- The wave's accesses leave the walks they are attached to: each walks again when its instruction executes again (R73). -/
def State.detach (s : State) (h : Nat) : State :=
  { s with walks := s.walks.map fun e => (e.1, e.2.map fun x =>
      { x with waiters := x.waiters.filter fun a => a.wave != h || a.unit.isSome }) }
/-- What walks have given a wave is let go. -/
def Wave.letGo (w : Wave) : Wave := { w with walkFaults := [], walkLeaves := [] }

/-! ## Vector registers (R156, R157) -/

/-- The key of lane 0 of register `j` in the wave's vector file. -/
def Wave.vkey (w : Wave) (j : Nat) : Nat := ((w.wb + j / 32) * 32 + j % 32) * 64
/-- Register `j` names a block the wave holds. -/
def Wave.vok (w : Wave) (j : Nat) : Bool := decide (w.wb + j / 32 < w.blocks)
/-- Element `l` of `vj`. -/
def Wave.vget (w : Wave) (j l : Nat) : Word := Sparse.get 0 w.v (w.vkey j + l)
/-- The elements of `vj` replaced by `f`. -/
def Wave.vputAll (w : Wave) (j : Nat) (f : Nat → Word) : Wave :=
  { w with v := Sparse.setRun 0 w.v (w.vkey j) 64 f }
/-- The elements of `vj` in the lanes of `m` replaced by `f` (R21). -/
def Wave.vput (w : Wave) (j : Nat) (m : Mask) (f : Nat → Word) : Wave :=
  w.vputAll j fun l => if m.getLsbD l then f l else w.vget j l
/-- The two registers that hold a 64-bit element, low word first. -/
def Wave.vget64 (w : Wave) (j l : Nat) : DWord := (w.vget (j + 1) l ++ w.vget j l : BitVec 64)

/-! ## Lane predicates -/

/-- `pj`. -/
def Wave.pget (w : Wave) (j : Nat) : Mask := Sparse.get 0 w.p j
/-- The bits of `pj` in the lanes of `m` replaced by those of `x` (R21). -/
def Wave.pput (w : Wave) (j : Nat) (m x : Mask) : Wave :=
  { w with p := Sparse.set 0 w.p j ((w.pget j &&& ~~~m) ||| (x &&& m)) }

/-! ## CSRs (R164) -/

/-- The CSRs a wave holds and a program may write. -/
def Wave.csr (w : Wave) (a : Nat) : Word :=
  match a with
  | 0x000 => w.frm
  | 0x001 => w.fflags
  | 0x002 => w.accmode
  | 0x003 => w.subgrp
  | 0x004 => w.mtol
  | 0x005 => w.mtrapen
  | 0x006 => w.u5trap
  | 0x008 => w.lc0
  | 0x009 => w.lc1
  | 0x00A => w.lc2
  | 0x010 => w.uivec
  | 0x011 => w.uicause
  | 0x012 => w.uipc
  | 0x013 => BitVec.ofNat 32 (w.lost * 2 ^ 24 + w.pending.length * 2 ^ 16 + bit w.hside * 512 + bit w.inH * 256 + w.en)
  | 0x018 => w.racqtmo
  | _ => 0

/-- A program's write of a wave's CSR; a write of UIMASKST writes EN only (R433). -/
def Wave.setCsr (w : Wave) (a : Nat) (x : Word) : Wave :=
  match a with
  | 0x000 => { w with frm := x }
  | 0x001 => { w with fflags := x }
  | 0x002 => { w with accmode := x }
  | 0x003 => { w with subgrp := x }
  | 0x004 => { w with mtol := x }
  | 0x005 => { w with mtrapen := x }
  | 0x006 => { w with u5trap := x }
  | 0x008 => { w with lc0 := x }
  | 0x009 => { w with lc1 := x }
  | 0x00A => { w with lc2 := x }
  | 0x010 => { w with uivec := x }
  | 0x011 => { w with uicause := x }
  | 0x012 => { w with uipc := x }
  | 0x013 => { w with en := x.toNat % 128 }
  | 0x018 => { w with racqtmo := x }
  | _ => w

/-- A write of any writable CSR, per wave or per group (R164). -/
def State.putCsr (s : State) (h a : Nat) (x : Word) : State :=
  if a < 0x100 then s.modWave h (·.setCsr a x)
  else match Map.find s.waves h with
    | none => s
    | some w =>
      s.modGroup w.group fun g =>
        if a < 0x220 then { g with tdesc := Sparse.set 0 g.tdesc (a - 0x200) x }
        else { g with adesc := Sparse.set 0 g.adesc (a - 0x220) x }

/-! ## The held-uniform-write rule (R180-R182) -/

/-- The write of one held entry. -/
def State.putDst (s : State) (h : Nat) (d : HDst) (x : Word) : State :=
  match d with
  | .s n => s.modWave h fun w => { w with s := Sparse.set 0 w.s n x }
  | .k n => s.modWave h fun w => { w with k := Sparse.set false w.k n (x != 0) }
  | .csr a => s.putCsr h a x
  | .sat => s.modWave h fun w => { w with accmode := w.accmode ||| 0x10000 }

/-- The register a held write goes to: SAT is a bit of ACCMODE (R164, R210). -/
def HDst.reg (d : HDst) : HDst :=
  match d with
  | .sat => .csr 0x002
  | d => d

/-- Applies the held writes that are released and have their data, in order; a released entry without data keeps back only
later entries of its own register (log 12). -/
def State.drainList (s : State) (h : Nat) : List Held → List Held → State
  | [], kept => s.modWave h fun w => { w with held := kept }
  | e :: r, kept =>
    match e.val with
    | some x =>
      if e.released && !(kept.any fun q => q.released && q.dst.reg == e.dst.reg) then (s.putDst h e.dst x).drainList h r kept
      else s.drainList h r (kept ++ [e])
    | none => s.drainList h r (kept ++ [e])

/-- Applies what can be applied of a wave's held writes (R180). -/
def State.drain (s : State) (h : Nat) : State :=
  match Map.find s.waves h with
  | none => s
  | some w => s.drainList h w.held []

/-- The held writes that wait for operation `seq`'s data have it (R180). -/
def State.fillHeld (s : State) (h seq : Nat) (ws : List Word) : State :=
  (s.modWave h fun w =>
    { w with held := w.held.map fun e => if e.seq == seq && e.val.isNone then { e with val := some (ws.getD e.idx 0) } else e }).drain h

/-- The held writes that wait for operation `seq`'s data are given up: it met an error (R88, R180). -/
def State.dropHeld (s : State) (h seq : Nat) : State :=
  (s.modWave h fun w => { w with held := w.held.filter fun e => !(e.seq == seq && e.val.isNone) }).drain h

/-- The value the second slot's own latest held write gives, if there is one with its data (R181, R491). A released write is
of a divergence that is over. -/
def Wave.heldVal (w : Wave) (d : HDst) : Option Word :=
  (w.held.reverse.find? fun e => e.dst == d && e.level == w.stack.length && !e.released && e.val.isSome).bind (·.val)

/-- A uniform read in source order (R181). -/
def Slot.read (k : Slot) (d : HDst) : Option Word := if k.second then k.w.heldVal d else none
/-- `sn` as the slot reads it. -/
def Slot.s (k : Slot) (n : Nat) : Word := (k.read (.s n)).getD (Sparse.get 0 k.w.s n)
/-- `sn:sn+1` as the slot reads it. -/
def Slot.s64 (k : Slot) (n : Nat) : DWord := (k.s (n + 1) ++ k.s n : BitVec 64)
/-- `kn` as the slot reads it. -/
def Slot.k (k : Slot) (n : Nat) : Bool := ((k.read (.k n)).map (· != 0)).getD (Sparse.get false k.w.k n)
/-- ACCMODE as the slot reads it: its own held writes, and its own settings of SAT, in order (R180, R181, R210). -/
def Slot.accmode (k : Slot) : Word :=
  if k.second then
    (k.w.held.filter fun e => e.level == k.w.stack.length && !e.released && e.val.isSome).foldl (fun m e => match e.dst with
      | .csr 2 => e.val.getD 0
      | .sat => m ||| 0x10000
      | _ => m) k.w.accmode
  else k.w.accmode
/-- A per-wave CSR as the slot reads it; a held write of UIMASKST is of EN only (R433). -/
def Slot.csr (k : Slot) (a : Nat) : Word :=
  if a = 0x002 then k.accmode
  else match k.read (.csr a) with
    | none => k.w.csr a
    | some x => if a = 0x013 then (k.w.csr a &&& 0xFFFFFF80) ||| (x &&& 0x7F) else x
/-- A vector-or-uniform operand in lane `l` (R27, R218). -/
def Slot.src (k : Slot) (b : Src) (l : Nat) : Word :=
  match b with
  | .v n => k.w.vget n l
  | .s n => k.s n

/-- Uniform writes of a slot: held for the second live slot, made at once otherwise (R180). -/
def State.write (s : State) (k : Slot) (ws : List (HDst × Word)) : State :=
  if k.second then
    s.modWave k.h fun w =>
      { w with held := w.held ++ ws.map fun e => { dst := e.1, val := some e.2, level := w.stack.length } }
  else ws.foldl (fun s e => s.putDst k.h e.1 e.2) s

/-- The held-write buffer has room for `n` more entries (R182). -/
def Slot.room (k : Slot) (n : Nat) : Bool := !k.second || decide (k.w.held.length + n ≤ 8)

/-! ## Taking a trap (R427-R435) -/

/-- A trap of the slot's instruction with the fields every cause shares (R434). -/
def Slot.trap (k : Slot) (cause : Nat) (reason : Nat := 0) : Trap :=
  { cause := cause, reason := reason, second := k.second, pc := k.f.pc, rmask := k.mask }

/-- The enable bit of an in-wave cause (R427, R433). -/
def enableBit (cause : Nat) : Option Nat :=
  match cause with
  | 0x12 => some 0
  | 0x11 => some 1
  | 0x03 => some 2
  | 0x06 => some 3
  | 0x07 => some 4
  | 0x08 => some 5
  | 0x0D => some 6
  | _ => none

/-- The first row of R429 applies: the wave's own handler takes the cause. -/
def Wave.ownHandler (w : Wave) (cause : Nat) : Bool :=
  match enableBit cause with
  | some b => w.uivec.getLsbD 0 && bitAt w.en b && !w.inH
  | none => false

/-- The handler's first address: CODE + (OFF << 2) (R431). -/
def handlerPC (code : DWord) (uivec : Word) : DWord := code + (uivec &&& 0xFFFFFFFC#32).zeroExtend 64

/-- Entry of the wave's own handler by slot `second`, in one step (R431). -/
def Wave.enter (w : Wave) (second : Bool) (f : Frag) (code ret : DWord) (cause reason info : Nat) : Wave :=
  { w with
    uipc := (ret - code).truncate 32
    uicause := BitVec.ofNat 32 (info * 2 ^ 16 + reason % 256 * 256 + cause)
    inH := true
    hside := f.side
    hdepth := w.stack.length
    hhloop := w.hloops.length }.setFrag second (some { f with pc := handlerPC code w.uivec, again := none, endPend := false })

/-- Taking a trap: the wave's own handler where R429's first row applies, else the wave stops with the record, which the
FAULT step routes, and its quantum, if it has one, ends at once (R449). `info` is the code of a User Trap; `retired` marks a trap after its instruction (R441). The state given
is the one the instruction leaves behind. -/
def State.raise (s : State) (h : Nat) (second : Bool) (code : DWord) (t : Trap) (info : Nat := 0)
    (retired : Bool := false) : State :=
  match Map.find s.waves h with
  | none => s
  | some w =>
    match w.frag second with
    | none => s
    | some f =>
      if w.stop.isSome then s
      else if w.ownHandler t.cause then
        let i := if t.cause = 0x11 then info else if t.lmask = 0 then 0 else lowLane t.lmask
        ((s.unwait h f.side).detach h).setWave h (w.letGo.enter second f code f.pc t.cause t.reason i)
      else
        ((s.unwaitAll h).detach h).setWave h
          { w.letGo with stop := some { trap := t, retired := retired, side := f.side }, qstate := .ended none }

/-- A precise trap of the slot's instruction: no other effect (R427). -/
def State.trap (s : State) (k : Slot) (t : Trap) : State := s.raise k.h k.second k.l.block.code t

/-! ## Hardware loops and the end of an instruction (R189, R190) -/

/-- The side bit a level gives back to the fragment that pushed it (R174, R338). -/
def Level.oside : Level → Option Bool
  | .ifL o _ _ _ _ _ _ => some o
  | .loopAddr _ o _ _ => some o
  | .apxAddr _ o _ _ _ _ => some o
  | .loopMasks _ _ => none
  | .apxMasks _ _ => none

/-- The slot's fragment is the one that runs the handler (R432): of the side that entered it, or beneath a level that side has
pushed since. -/
def Wave.isHandler (w : Wave) (f : Frag) : Bool :=
  w.inH &&
  (if w.hdepth < w.stack.length then (w.stack[w.stack.length - w.hdepth - 1]?.bind Level.oside) == some w.hside
   else if w.stack.length = w.hdepth then f.side == w.hside
   else !w.twoLive || f.side == w.hside)

/-- The hardware loops that bind a fragment: those frozen at a handler's entry do not bind the handler (R432). -/
def Wave.loopsOf (w : Wave) (f : Frag) : List HLoop :=
  if w.isHandler f then w.hloops.take (w.hloops.length - w.hhloop) else w.hloops

/-- An address inside every active body (R190). -/
def inBodies (ls : List HLoop) (pc : DWord) : Bool := ls.all fun b => decide (b.first ≤ pc) && decide (pc ≤ b.last)

/-- Reason 0 of Illegal Control Transfer, with the target where one exists (R179, R435). -/
def Slot.leaves (k : Slot) (target : DWord) : Trap := { k.trap 0x02 0 with addr := target }

/-- The checks of R190 before the instruction of `len` bytes has any effect: the fragment stands in every active body, and
a two-word instruction does not begin at a body's last word. -/
def Slot.placed (k : Slot) (len : Nat) : Bool :=
  let ls := k.w.loopsOf k.f
  inBodies ls k.f.pc && (len == 4 || ls.all fun b => k.f.pc != b.last)

/-- The instruction ends at the last word of a body, of one or of several active loops, and would leave the stack deeper than at
that loop's HLOOP (R190). -/
def Slot.deep (k : Slot) (len depth : Nat) : Bool :=
  (k.w.loopsOf k.f).any fun b => k.f.pc + BitVec.ofNat 64 len - 4 == b.last && decide (b.depth < depth)

/-- The fragment after an instruction of `len` bytes: the end check is due when it ended at a body's last word. -/
def Slot.after (k : Slot) (len : Nat) : Frag :=
  let pc := k.f.pc + BitVec.ofNat 64 len
  { k.f with
    pc := pc
    again := none
    endPend := match k.w.loopsOf k.f with
      | [] => false
      | b :: _ => pc == b.last + 4 }

/-- Counts a retired instruction of a deterministic wave's quantum (R448). -/
def Wave.count (w : Wave) : Wave := { w with qret := w.qret + 1 }

/-- The slot issued: its starvation wait starts again (R423). -/
def Wave.issued (w : Wave) (second : Bool) : Wave :=
  let b := if second then 2 else 0
  { w with since := w.since.filter fun e => e.1 / 2 * 2 != b, boosts := w.boosts.filter fun e => e / 2 * 2 != b }

/-- The instruction ends: the PC advances by `len`, any remaining mask is used up, and the slot leaves any waiting place. -/
def State.finish (s : State) (k : Slot) (len : Nat) : State :=
  (s.unwait k.h k.f.side).modWave k.h fun w => (w.setFrag k.second (some (k.after len))).count.issued k.second

/-- The advance by `len` bytes would leave an active body otherwise than by the innermost loop's end check (R190). -/
def Slot.strays (k : Slot) (len : Nat) : Bool :=
  match k.w.loopsOf k.f with
  | [] => false
  | b :: r => let pc := k.f.pc + BitVec.ofNat 64 len; pc != b.last + 4 && !inBodies (b :: r) pc

/-- Runs the effect of an instruction of `len` bytes that may set the PC itself, once the checks of R190 on its own place and
on the stack pass. -/
def issueJump (s : State) (len : Nat) (f : Slot → State) : Res :=
  onSlot s fun k =>
    if !k.placed len then s.trap k (k.leaves k.f.pc)
    else if k.deep len k.w.stack.length then s.trap k (k.leaves 0)
    else f k

/-- Runs the effect of an instruction of `len` bytes that goes on to the next one, once the checks of R190 pass. -/
def issue (s : State) (len : Nat) (f : Slot → State) : Res :=
  issueJump s len fun k => if k.strays len then s.trap k (k.leaves (k.f.pc + BitVec.ofNat 64 len)) else f k

/-- The end of a jump that is not taken: the next instruction, unless it stands outside an active body (R190). -/
def State.advance (s : State) (k : Slot) (len : Nat) : State :=
  if k.strays len then s.trap k (k.leaves (k.f.pc + BitVec.ofNat 64 len)) else s.finish k len

/-- As `issueJump`, for the instructions that change the stack and make the depth check themselves. -/
def issueFlow (s : State) (f : Slot → State) : Res :=
  onSlot s fun k => if !k.placed 4 then s.trap k (k.leaves k.f.pc) else f k

/-- Illegal Instruction at execution: the record's words are the instruction's (R435). -/
def Slot.illegal (k : Slot) (i : Instr) : Trap :=
  { k.trap 0x01 0 with
    w12 := BitVec.ofNat 32 ((encode i).headD 0)
    w13 := BitVec.ofNat 32 ((encode i).getD 1 0) }

/-! ## Register Window Fault (R154, R157, R435) -/

/-- Register Window Fault for the register `reg` named by field `fld`. -/
def Slot.windowTrap (k : Slot) (fld reg : Nat) : Trap :=
  { k.trap 0x0B with w12 := BitVec.ofNat 32 (reg * 256 + fld) }

/-- The first vector name that lies outside the allocation, in the order given: field code and register (R157). -/
def Wave.vbad (w : Wave) (names : List (Nat × Nat)) : Option (Nat × Nat) := names.find? fun e => !w.vok e.2

/-- A run of registers named by one field. -/
def runNames (fld d n : Nat) : List (Nat × Nat) := (List.range n).map fun i => (fld, d + i)

/-- The field of a vector-or-uniform operand. -/
def srcNames : Src → List (Nat × Nat)
  | .v n => [(2, n)]
  | .s _ => []

/-- Runs `f` when every named vector register is held. -/
def State.vnamed (s : State) (k : Slot) (names : List (Nat × Nat)) (f : State) : State :=
  match k.w.vbad names with
  | some e => s.trap k (k.windowTrap e.1 e.2)
  | none => f

/-- The tile and accumulator names: field, register, and whether it is an accumulator (R154). -/
def Group.bad (g : Group) (names : List (Nat × Nat × Bool)) : Option (Nat × Nat) :=
  (names.find? fun e => if e.2.2 then decide (g.accs ≤ e.2.1) else decide (g.tiles ≤ e.2.1)).map fun e => (e.1, e.2.1)

/-! ## Waits of a deterministic quantum (R452, R453) -/

/-- The quantum ends without the instruction's retiring (R453). -/
def State.endQuantum (s : State) (k : Slot) : State := s.modWave k.h fun w => { w with qstate := .ended none }

/-- A slot waits for another agent's step: a wait that needs a commit ends a deterministic quantum (R453). -/
def State.stall (s : State) (k : Slot) (needsCommit : Bool) : State :=
  if k.det && needsCommit && k.w.qstate = .running then s.endQuantum k else s

/-- An outstanding operation that completes at a commit of its deterministic launch, or after it (R452, R453). -/
def Out.atCommit (o : Out) : Bool :=
  match o.op with
  | .load _ => false
  | .tile i _ _ _ _ _ _ => match i with
    | .tst _ _ _ => true
    | _ => false
  | _ => true

end Sys2Proof.Machine
end

