-- ==== Sys2Proof/Machine/Memory.lean ====
section
/-! DEFINITION. Bytes of translated memory and of the scratchpads, page tables, walks and translation caches
(spec/03_device_memory.md), and scratchpad addresses (spec/04_scratchpads.md). -/

namespace Sys2Proof.Machine

/-! ## Bytes -/

/-- What a byte of memory reads as when nothing has written it (log 5). -/
def Memory.blank : Byte := 0

/-- The canonical form of memory: addresses rising, no entry that equals an unwritten byte. -/
def Memory.wf (m : List Host.Cell) : Bool := Sparse.wf Memory.blank m

/-- The key of a physical byte (R69). -/
def memKey (tier pa : Nat) : Nat := tier * 2 ^ 52 + pa
/-- The key of offset 0 of a group's core allocation (R95). -/
def coreKey (group : Nat) : Nat := (group * 4 + 1) * 2 ^ 27
/-- The key of offset 0 of a launch's allocation in a cluster (R95). -/
def clusterKey (launch cluster : Nat) : Nat := ((launch * 16 + cluster) * 4 + 2) * 2 ^ 27
/-- The key of offset 0 of a launch's allocation on a die (R95). -/
def dieKey (launch die : Nat) : Nat := ((launch * 16 + die) * 4 + 3) * 2 ^ 27

/-- The place `n` bytes on. -/
def Loc.add (x : Loc) (n : Nat) : Loc :=
  match x with
  | .mem k => .mem (k + n)
  | .scr k => .scr (k + n)

/-- The 64-byte sector or scratchpad word a byte is served in (R79, R106). -/
def Loc.sector (x : Loc) : Loc :=
  match x with
  | .mem k => .mem (k / 64 * 64)
  | .scr k => .scr (k / 4 * 4)

/-- One byte. -/
def State.byte (s : State) (x : Loc) : Byte :=
  match x with
  | .mem k => Sparse.get Memory.blank s.mem k
  | .scr k => Sparse.get 0 s.scratch k

/-- `n` bytes from `x`, lowest address first. -/
def State.bytes (s : State) (x : Loc) (n : Nat) : List Byte := (List.range n).map fun i => s.byte (x.add i)

/-- The little-endian number in `n` bytes from `x` (R2). -/
def State.num (s : State) (x : Loc) (n : Nat) : Nat := wordOfBytes (s.bytes x n)

/-- The word at `x`. -/
def State.word (s : State) (x : Loc) : Word := BitVec.ofNat 32 (s.num x 4)

/-- The words of a list of bytes (R2). -/
def wordsOfBytes : List Byte → List Word
  | a :: b :: c :: d :: r => BitVec.ofNat 32 (wordOfBytes [a, b, c, d]) :: wordsOfBytes r
  | _ => []

/-- A region goes INVALID: a step in progress is cancelled and open captures are dropped (R327, R331, R341). -/
def Region.invalid (r : Region) : Region := { r with state := 6, step := none, worst := 0, invs := [] }

/-- A write to code: every region recorded on the physical page becomes INVALID (R332). -/
def invalidateCode (rs : List (Nat × Region)) (key : Nat) : List (Nat × Region) :=
  rs.map fun e => if e.2.pages.contains (key / 4096) then (e.1, e.2.invalid) else e

/-- A write of one byte. -/
def State.poke (s : State) (x : Loc) (b : Byte) : State :=
  match x with
  | .mem k =>
    let old := Sparse.get Memory.blank s.mem k
    { s with
      mem := Sparse.set Memory.blank s.mem k b
      codeLog := if old = b then s.codeLog else s.codeLog ++ [(s.codeCount, k, old)]
      codeCount := if old = b then s.codeCount else s.codeCount + 1
      regions := if s.regions.any (fun e => e.2.pages.contains (k / 4096)) then invalidateCode s.regions k else s.regions }
  | .scr k => { s with scratch := Sparse.set 0 s.scratch k b }

/-- Writes of bytes, in order. -/
def State.pokes (s : State) (bs : List (Loc × Byte)) : State := bs.foldl (fun s e => s.poke e.1 e.2) s

/-- The bytes `bs` placed from `x`. -/
def placeBytes (x : Loc) (bs : List Byte) : List (Loc × Byte) := (List.range bs.length).map fun i => (x.add i, bs.getD i 0)

/-! ## Writes that have not reached their home (R13, R367, R374) -/

/-- The code of the widest scope at which a place is visible, where a write has reached everyone who can read it: cluster or die
for scratchpads (R42, R103), device for memory. -/
def Loc.widest : Loc → Nat
  | .mem _ => 4
  | .scr k => if k / 2 ^ 27 % 4 = 3 then 3 else 2

/-- A wave on a core shares the scope instance at which a write has performed (R367). -/
def Flight.seenBy (f : Flight) (w : Wave) (core : Nat) : Bool :=
  match f.scope with
  | 0 => w.group == f.group && w.idx == f.idx
  | 1 => w.group == f.group
  | 2 => core / 192 == f.core / 192
  | 3 => core / 576 == f.core / 576
  | _ => true

/-- The bytes of a write that `d` chooses by write and place. -/
def Flight.part (d : Flight → Loc → Bool) (f : Flight) : List (Loc × Byte) := f.bytes.filter fun b => d f b.1

/-- What stays in flight when the bytes that `d` chooses have gone home: bytes not chosen, and that no later write has overtaken
there. -/
def leftOver (d : Flight → Loc → Bool) : List Flight → List Flight
  | [] => []
  | f :: r =>
    let bs := f.bytes.filter fun b => !d f b.1 && !(r.any fun g => (g.part d).any fun e => e.1 == b.1)
    if bs.isEmpty then leftOver d r else { f with bytes := bs } :: leftOver d r

/-- The bytes in flight that `d` chooses reach their home, in coherence order: an earlier write in flight to one of them comes
before it in that order (R374), and is overtaken. -/
def State.bring (s : State) (d : Flight → Loc → Bool) : State :=
  { s.pokes (s.flight.flatMap (Flight.part d)) with flight := leftOver d s.flight }

/-- Everyone who can read a place sees a write to it. -/
def Flight.final (f : Flight) (x : Loc) : Bool := decide (x.widest ≤ f.scope)

/-- Writes that have performed for everyone reach their home. -/
def State.settle (s : State) : State := s.bring Flight.final

/-- Writes of `p` perform at scope `n`, where they have not performed at a wider one. -/
def State.widen (s : State) (n : Nat) (p : Flight → Bool) : State :=
  { s with flight := s.flight.map fun f => if p f then { f with scope := max f.scope n } else f }.settle

/-- Every write performs at system scope. -/
def State.performAll (s : State) : State := s.widen 5 fun _ => true

/-- A write performs at its scope. -/
def State.perform (s : State) (f : Flight) : State := { s with flight := s.flight ++ [f] }.settle

/-- The core of a wave's group. -/
def State.coreFor (s : State) (w : Wave) : Nat := ((Map.find s.groups w.group).map (·.core)).getD 0

/-- Bytes `[x, x + n)` and `[y, y + m)` of one kind of place have a byte in common. -/
def Loc.meets (x : Loc) (n : Nat) (y : Loc) (m : Nat) : Bool :=
  match x, y with
  | .mem a, .mem b => decide (a < b + m) && decide (b < a + n)
  | .scr a, .scr b => decide (a < b + m) && decide (b < a + n)
  | _, _ => false

/-- A release of wave `h` at scope code `n`: every write that the wave sees has performed there before it does (R373). -/
def State.relAt (s : State) (h n : Nat) : State :=
  match Map.find s.waves h with
  | none => s
  | some w => s.widen n (·.seenBy w (s.coreFor w))

/-- Wave `h`, or a unit or engine that acts for it (R368), acts on the bytes of the ranges `xs` at their home: the writes to
them that the wave sees are there (R374). -/
def State.reach (s : State) (h : Nat) (xs : List (Loc × Nat)) : State :=
  match Map.find s.waves h with
  | none => s
  | some w => s.bring fun f x => f.seenBy w (s.coreFor w) && xs.any fun e => e.1.meets e.2 x 1

/-- The byte at `x` of the latest write in flight that a wave sees there. -/
def State.inFlight (s : State) (w : Wave) (x : Loc) : Option Byte :=
  s.flight.reverse.findSome? fun f =>
    if f.seenBy w (s.coreFor w) then (f.bytes.reverse.find? fun e => e.1 == x).map (·.2) else none

/-- A write of the `n` low bytes of a number at `x`. -/
def State.putNum (s : State) (x : Loc) (v n : Nat) : State := s.pokes (placeBytes x (bytesOfNat v n))

/-- A byte as a wave's fetch sees it: writes numbered `seen` or later are not yet seen (R26). -/
def State.codeByte (s : State) (seen key : Nat) : Byte :=
  match s.codeLog.find? fun e => decide (seen ≤ e.1) && e.2.1 == key with
  | some e => e.2.2
  | none => Sparse.get Memory.blank s.mem key

/-! ## What a wave sees of its own pending writes (R83, R105, R451) -/

/-- Two order tags belong to accesses that program order relates: they are not on the two sides of one IF (R83). -/
def tagOrdered (a b : Tag) : Bool := !(a.any fun x => b.any fun y => x.1 == y.1 && x.2 != y.2)

/-- The byte that a pending store supplies at `x`, if it writes there: the last write wins (R80). -/
def Out.supplies (o : Out) (x : Loc) : Option Byte :=
  match o.op with
  | .store secs => ((secs.flatMap (·.bytes)).reverse.find? fun e => e.1 == x).map (·.2)
  | _ => none

/-- How many writes to memory the wave's reads see, in a quantum of a deterministic launch (R451). What is performed at the
commit reads memory as the turns before it have left it (R452, R454). -/
def State.detSeen (s : State) (w : Wave) : Option Nat :=
  match (Map.find s.groups w.group).bind fun g => Map.find s.launches g.launch with
  | some l => if l.block.det && l.commit.isNone then some l.seen else none
  | none => none

/-- The byte at `x` apart from the wave's own pending writes: of the latest write that has performed for the wave (R13, R375); in
a deterministic launch, as the last commit left it (R451). -/
def State.homeByte (s : State) (w : Wave) (x : Loc) : Byte :=
  match x, s.detSeen w with
  | .mem k, some n => s.codeByte n k
  | _, _ => (s.inFlight w x).getD (s.byte x)

/-- The latest pending store of the wave that an access of number `seq` and tag `tag` sees at `x`: its number and byte. -/
def Wave.stored (w : Wave) (seq : Nat) (tag : Tag) (x : Loc) : Option (Nat × Byte) :=
  (w.outs.reverse.filter fun o => decide (o.seq < seq) && !o.done && tagOrdered o.tag tag).findSome? fun o =>
    (o.supplies x).map fun b => (o.seq, b)

/-- The latest byte at `x` of the wave's own buffered operations that are no stores (R451). -/
def Wave.ownByte (w : Wave) (seq : Nat) (x : Loc) : Option (Nat × Byte) :=
  (w.own.reverse.find? fun e => decide (e.1 ≤ seq) && e.2.1 == x).map fun e => (e.1, e.2.2)

/-- The byte at `x` as an access of sequence number `seq` and tag `tag` of the wave reads it. -/
def State.view (s : State) (w : Wave) (seq : Nat) (tag : Tag) (x : Loc) : Byte :=
  match w.stored seq tag x, w.ownByte seq x with
  | some a, some b => if a.1 < b.1 then b.2 else a.2
  | some a, none => a.2
  | none, some b => b.2
  | none, none => s.homeByte w x

/-- `n` bytes as the access sees them. -/
def State.viewBytes (s : State) (w : Wave) (seq : Nat) (tag : Tag) (x : Loc) (n : Nat) : List Byte :=
  (List.range n).map fun i => s.view w seq tag (x.add i)

/-- Bytes that a buffered operation of the wave will leave behind, as its later reads see them (R451). -/
def Wave.note (w : Wave) (bs : List (Loc × Byte)) : Wave := { w with own := w.own ++ bs.map fun e => (w.nextSeq, e.1, e.2) }

/-- The number in `n` bytes as the slot's next access would see it. -/
def State.seenNum (s : State) (k : Slot) (x : Loc) (n : Nat) : Nat :=
  wordOfBytes (s.viewBytes k.w k.w.nextSeq k.tag x n)

/-! ## Translation (R61-R77) -/

/-- A canonical virtual address (R61). -/
def canonical (va : DWord) : Bool := va == (va.truncate 57).signExtend 64

/-- The capacity of a tier in bytes (R69). -/
def tierCapacity (tier : Nat) : Nat :=
  if tier = 0 then 768 * 10 ^ 9 else if tier = 1 then 1536 * 10 ^ 9 else if tier = 2 then 2 ^ 52 else 0

/-! ### Physical places (R69, R486, R487) -/

/-- The place a translated address names: a fabric address of this module itself is its own memory (R487). -/
def State.placeOf (s : State) (tier pa : Nat) : Loc :=
  if tier = 2 && bitAt pa 51 && field pa 50 45 == s.moduleNo && decide (field pa 43 0 < tierCapacity (field pa 44 44)) then
    .mem (memKey (field pa 44 44) (field pa 43 0))
  else .mem (memKey tier pa)

/-- A place on another module, or a fabric address that reaches nothing (R486, R487). -/
def Loc.onFabric : Loc → Bool
  | .mem k => decide (2 * 2 ^ 52 + 2 ^ 51 ≤ k)
  | .scr _ => false

/-- A fabric place reaches memory: a module in the link table whose BOOTST is 1, within its capacity (R487). -/
def State.fabricReaches (s : State) (x : Loc) : Bool :=
  match x with
  | .mem k =>
    let pa := k % 2 ^ 52
    (Map.find s.links (field pa 50 45) == some 1) && field pa 50 45 != s.moduleNo &&
      decide (field pa 43 0 < tierCapacity (field pa 44 44))
  | .scr _ => true

/-- A place in host memory, reached through a host port (R69). -/
def Loc.onHost (x : Loc) : Bool :=
  match x with
  | .mem k => decide (2 * 2 ^ 52 ≤ k) && !x.onFabric
  | .scr _ => false

/-- The link of a host port is in L0 (R485). -/
def State.linkUp (s : State) (port : Nat) : Bool := if port = 0 then s.link0.isNone else s.link1.isNone

/-- A tenant's access to a place can complete without an error (R70, R487): the host port's link is up and the fabric
reaches it. -/
def State.reaches (s : State) (tenant : Nat) (x : Loc) : Bool :=
  if x.onFabric then s.fabricReaches x
  else if x.onHost then s.linkUp (((Map.find s.tenants tenant).map (·.hport)).getD 0)
  else true

/-- The key of a place of memory. -/
def Loc.key : Loc → Nat
  | .mem k => k
  | .scr k => k

/-- The cause of an error at a place of memory: Fabric Error on the fabric, Memory Error elsewhere (R486). -/
def Loc.errorCause (x : Loc) : Nat := if x.onFabric then 0x21 else 0x20

/-! ### Leaves -/

/-- What an access needs of a leaf (R68): 0 read, 1 write, 2 fetch, 3 read and write, 4 no permission (R332). -/
def Tlb.permits (t : Tlb) (need : Nat) : Bool :=
  match need with
  | 0 => t.rd
  | 1 => t.w
  | 2 => t.x
  | 3 => t.rd && t.w
  | _ => true

/-- The access writes. -/
def needsWrite (need : Nat) : Bool := need == 1 || need == 3

/-- A leaf serves an access as it stands (R68, R73): a write needs its D bit set. -/
def Tlb.grants (t : Tlb) (need : Nat) : Bool := t.permits need && (t.d || !needsWrite need)

/-- A cached leaf covers a tenant's address. -/
def Tlb.covers (t : Tlb) (tenant : Nat) (va : DWord) : Bool := t.tenant == tenant && t.page == va.toNat / 2 ^ t.size

/-- The physical address a leaf gives. -/
def Tlb.phys (t : Tlb) (va : DWord) : Nat := t.pa + va.toNat % 2 ^ t.size

/-- The leaf of the translation caches on a core's path (R72, R74). -/
def State.cached (s : State) (core tenant : Nat) (va : DWord) : Option Tlb :=
  match ((Map.find s.utlb core).getD []).find? (·.covers tenant va) with
  | some t => some t
  | none => ((Map.find s.ctlb (core / 192)).getD []).find? (·.covers tenant va)

/-- What translating an address comes to. -/
inductive Xlate where
  | ok (tier pa : Nat)
  /-- reason, and log2 of the region it applies to -/
  | fault (reason size : Nat)
  | miss
  /-- a table entry, at its key, could not be read -/
  | error (key : Nat)
  deriving DecidableEq, Repr

/-- The translation a leaf gives (R68, R69). -/
def Tlb.xlate (t : Tlb) (va : DWord) : Xlate := if tierCapacity t.tier ≤ t.phys va then .fault 4 t.size else .ok t.tier (t.phys va)

/-- A fault or error of a fresh walk. -/
def WalkFault.xlate (f : WalkFault) : Xlate := if f.reason = 6 then .error f.size else .fault f.reason f.size

/-- A walk's fault stands for an address and a need: its own page only, and a permission only as it was asked for. -/
def WalkFault.hits (f : WalkFault) (va : DWord) (need : Nat) : Bool :=
  f.page == va.toNat / 4096 && (f.reason != 1 || f.need == need)

/-- The translation of an address for a slot of side `side` of wave `w` (R68, R73): a fault only from a fresh walk. -/
def State.xlate (s : State) (w : Wave) (side : Bool) (core tenant : Nat) (va : DWord) (need : Nat) : Xlate :=
  if !canonical va then .fault 3 12
  else
    match w.walkFaults.find? fun f => f.side == side && f.hits va need with
    | some f => f.xlate
    | none =>
      match w.walkLeaves.find? fun e => e.1 == side && e.2.covers tenant va && e.2.grants need with
      | some e => e.2.xlate va
      | none =>
        match s.cached core tenant va with
        | none => .miss
        | some t => if tierCapacity t.tier ≤ t.phys va then .fault 4 t.size else if t.grants need then t.xlate va else .miss

/-- Keeps the newest `n` entries (log 7). -/
def newest (n : Nat) (xs : List α) : List α := xs.drop (xs.length - n)

/-- A leaf enters a translation cache of `n` entries. -/
def tlbAdd (n : Nat) (xs : List Tlb) (t : Tlb) : List Tlb :=
  newest n (xs.filter (fun e => !(e.tenant == t.tenant && e.page == t.page && e.size == t.size)) ++ [t])

/-- Drops a cached leaf that covers an address from the caches on a core's path (R73). -/
def State.dropLeaf (s : State) (core tenant : Nat) (va : DWord) : State :=
  { s with
    utlb := Map.modify s.utlb core fun ts => ts.filter fun t => !t.covers tenant va
    ctlb := Map.modify s.ctlb (core / 192) fun ts => ts.filter fun t => !t.covers tenant va }

/-- A miss goes to the die's walkers: it attaches to a walk for the page or waits with one of its own (R74, R75). -/
def State.wantWalk (s : State) (cluster tenant : Nat) (va : DWord) (req : WalkFor) : State :=
  let die := cluster / 3
  let page := va.toNat / 4096
  let ws := (Map.find s.walks die).getD []
  let ws' :=
    if ws.any fun x => x.tenant == tenant && x.page == page then
      ws.map fun x =>
        if x.tenant == tenant && x.page == page && !x.waiters.contains req then { x with waiters := x.waiters ++ [req] } else x
    else ws ++ [{ tenant := tenant, cluster := cluster, page := page, waiters := [req] }]
  { s with walks := Map.put s.walks die ws' }

/-- A slot's misses: stale leaves are dropped and walks asked for (R73, R74). -/
def State.missAll (s : State) (k : Slot) (need : Nat) (vas : List DWord) : State :=
  vas.foldl (fun s va => (s.dropLeaf k.core k.l.tenant va).wantWalk k.cluster k.l.tenant va { wave := k.h, side := k.f.side, need := need }) s

/-! ### Page-table walks -/

/-- What examining one entry gives (R68). -/
inductive Entry where
  | next (tier pa : Nat)
  | leaf (t : Tlb)
  | fault (reason size : Nat)
  deriving DecidableEq, Repr

/-- The low bit of a level's index (R63). -/
def levelBit (level : Nat) : Nat := 48 - 9 * level

/-- An entry breaks its layout (R64), the contiguous rule apart. -/
def badEntry (e level : Nat) : Bool :=
  let leaf := bitAt e 1
  field e 63 52 != 0 || field e 11 10 != 0 || (leaf && level < 2) || (!leaf && level == 4) ||
  (bitAt e 5 && level != 4) || (!leaf && field e 4 2 != 0) ||
  (leaf && level == 2 && field e 29 12 != 0) || (leaf && level == 3 && field e 20 12 != 0)

/-- The next read of a place that is no operation's own meets an error (R70, R88). -/
def State.badRead (s : State) (x : Loc) : Bool := s.hostBad.contains (x.key / 64)

/-- That error has been met. -/
def State.metBad (s : State) (key : Nat) : State := { s with hostBad := s.hostBad.filter fun b => b != key / 64 }

/-- The sixteen entries of a contiguous group obey R65: a reserved or must-be-zero bit in any of them breaks the group (log 65). -/
def groupOk (es : List Nat) : Bool :=
  match es with
  | [] => false
  | e0 :: _ =>
    field e0 51 12 % 16 == 0 &&
    (List.range 16).all fun i =>
      let e := es.getD i 0
      bitAt e 0 && bitAt e 5 && bitAt e 1 && !badEntry e 4 && field e 7 6 == field e0 7 6 && field e 4 2 == field e0 4 2 &&
      field e 51 12 == field e0 51 12 + i

/-- Examines the entry `e` at `level` for page `page` (R68): `grp` are the entries of its group of sixteen. A fault carries
log2 of the size of the region it applies to (R86). -/
def examine (tenant page e level : Nat) (grp : List Nat) : Entry :=
  let sz := levelBit level
  let tier := field e 7 6
  let ppn := field e 51 12 * 4096
  let va := page * 4096
  if !bitAt e 0 then .fault 0 sz
  else if badEntry e level || (bitAt e 5 && !groupOk grp) then
    .fault 2 (if level == 4 && bitAt e 5 && bitAt e 1 then 16 else sz)
  else if tier == 3 then .fault 5 sz
  else if bitAt e 1 then
    let size := if bitAt e 5 then 16 else sz
    let base := if bitAt e 5 then field (grp.getD 0 0) 51 12 * 4096 else ppn
    if tierCapacity tier ≤ base + va % 2 ^ size then .fault 4 size
    else .leaf { tenant := tenant, page := va / 2 ^ size, size := size, tier := tier, pa := base, rd := bitAt e 2,
                 w := bitAt e 3, x := bitAt e 4, d := bitAt e 9 }
  else if tierCapacity tier ≤ ppn then .fault 4 sz
  else .next tier ppn

/-- A walk from `level` on, in the table at (tier, pa), a read of each entry by its place (R63, R67, R71): A is set on every
non-leaf entry passed; the leaf is only found. For a contiguous group it is the entry that the walk indexes, whose A and D
stand for the whole group (log 66). Levels left are counted by `fuel`. -/
def State.walkFrom (s : State) (tenant page level tier pa : Nat) : Nat → State × WalkRes × List WalkEntry
  | 0 => (s, .fault 2 12, [])
  | fuel + 1 =>
    let idx := field (page * 4096) (levelBit level + 8) (levelBit level)
    let at_ := s.placeOf tier (pa + 8 * idx)
    let e := s.num at_ 8
    let grp := (List.range 16).map fun i => s.num (s.placeOf tier (pa + 8 * (idx / 16 * 16 + i))) 8
    if !s.reaches tenant at_ then (s, .error at_.key, [])
    else if s.badRead at_ then (s.metBad at_.key, .error at_.key, [])
    else match examine tenant page e level (if level = 4 then grp else []) with
    | .fault r sz => (s, .fault r sz, [])
    | .next t p =>
      let s' := if bitAt e 8 then s else s.poke (at_.add 1) (BitVec.ofNat 8 (field e 15 8 ||| 1))
      let r := s'.walkFrom tenant page (level + 1) t p fuel
      (r.1, r.2.1, { tenant := tenant, level := level, pre := page * 4096 / 2 ^ levelBit level, tier := t, pa := p } :: r.2.2)
    | .leaf t => (s, .leaf t at_.key, [])

/-- A leaf's entry is used: A, and D for a write, are set by an atomic OR (R67). -/
def State.useLeaf (s : State) (entry : Nat) (write : Bool) : State :=
  let old := s.byte (.mem (entry + 1))
  let b := old ||| (if write then 3 else 1)
  if old = b then s else s.poke (.mem (entry + 1)) b

/-- The deepest cached non-leaf entry for a page (R72). -/
def bestEntry (ws : List WalkEntry) (tenant page : Nat) : Option WalkEntry :=
  ([3, 2, 1, 0].findSome? fun lv => ws.find? fun e =>
    e.tenant == tenant && e.level == lv && e.pre == page * 4096 / 2 ^ levelBit lv)

/-- A whole walk of a die for a tenant's page, using and filling the die's walk cache. -/
def State.walkPage (s : State) (die tenant page : Nat) : State × WalkRes :=
  match Map.find s.tenants tenant with
  | none => (s, .fault 0 12)
  | some t =>
    let ws := (Map.find s.wcache die).getD []
    let start := match bestEntry ws tenant page with
      | some e => (e.level + 1, e.tier, e.pa)
      | none => (0, t.rootTier, t.rootPA)
    let r := s.walkFrom tenant page start.1 start.2.1 start.2.2 5
    ({ r.1 with wcache := Map.put r.1.wcache die (newest 256 (ws ++ r.2.2)) }, r.2.1)

/-- A leaf enters the TLB of a cluster. -/
def State.fillCluster (s : State) (cluster : Nat) (t : Tlb) : State :=
  { s with ctlb := Map.put s.ctlb cluster (tlbAdd 4096 ((Map.find s.ctlb cluster).getD []) t) }

/-- The translation of a write of launch `l`'s recorder: what a walk has just given, a leaf of the cluster's TLB, or a walk to
wait for, as for an engine (R74, R75; log 13). -/
def State.unitXlate (s : State) (l cluster tenant : Nat) (va : DWord) (given : Option WalkRes) : State × Xlate :=
  if !canonical va then (s, .fault 3 12)
  else
    match given with
    | some (.error key) => (s, .error key)
    | some (.fault reason sz) => (s, .fault reason sz)
    | some (.leaf t _) => (s, t.xlate va)
    | none =>
      match ((Map.find s.ctlb cluster).getD []).find? fun t => t.covers tenant va && t.grants 1 with
      | some t => (s, t.xlate va)
      | none =>
        let s1 := { s with ctlb := Map.modify s.ctlb cluster fun ts => ts.filter fun t => !t.covers tenant va }
        (s1.wantWalk cluster tenant va { wave := 0, side := false, need := 1, log := some (l, cluster) }, .miss)

/-! ### Translation for an engine command (R74, R126) -/

/-- What walks have given command `out` of a wave. -/
def State.xunit (s : State) (wave out : Nat) : UnitX :=
  (s.xunits.find? fun u => u.wave == wave && u.out == out).getD { wave := wave, out := out }

/-- The command's translations let go. -/
def State.dropXunit (s : State) (wave out : Nat) : State :=
  { s with xunits := s.xunits.filter fun u => !(u.wave == wave && u.out == out) }

/-- Stores what walks have given a command. -/
def State.putXunit (s : State) (u : UnitX) : State :=
  { s with xunits := (s.dropXunit u.wave u.out).xunits ++ [u] }

/-- A translation for an engine command: a leaf it uses already, a fault its walk has found, a leaf of the cluster's TLB,
which it then uses, or a walk to wait for (R74, R75, R126). -/
def State.engXlate (s : State) (wave out cluster tenant : Nat) (va : DWord) (need : Nat) : State × Xlate :=
  if !canonical va then (s, .fault 3 12)
  else
    let u := s.xunit wave out
    match u.faults.find? fun f => f.hits va need with
    | some f => (s, f.xlate)
    | none =>
      match u.leaves.find? fun t => t.covers tenant va && t.grants need with
      | some t => (s, t.xlate va)
      | none =>
        match ((Map.find s.ctlb cluster).getD []).find? fun t => t.covers tenant va && t.grants need with
        | some t => (s.putXunit { u with leaves := u.leaves ++ [t] }, t.xlate va)
        | none =>
          let s1 := { s with ctlb := Map.modify s.ctlb cluster fun ts => ts.filter fun t => !t.covers tenant va }
          (s1.wantWalk cluster tenant va { wave := wave, side := false, need := need, unit := some (out, cluster) }, .miss)

/-! ## Scratchpad addresses (R94-R98) -/

/-- Rounds up to a multiple. -/
def roundUp (n m : Nat) : Nat := (n + m - 1) / m * m

/-- A group's waves are on its core (R95). -/
def Group.onCore (g : Group) : Bool :=
  match g.life with
  | .placing | .resident | .stopping | .ending => true
  | _ => false

/-- Whose allocations a scratchpad address means. -/
structure Ctx where
  launch : Nat
  group  : Nat
  core   : Nat
  deriving DecidableEq, Repr

/-- The allocations of the issuing slot. -/
def Slot.ctx (k : Slot) : Ctx := ⟨k.g.launch, k.w.group, k.g.core⟩

/-- The lowest-numbered group of a launch on a core (R95). -/
def State.peer (s : State) (launch core : Nat) : Option (Nat × Group) :=
  (s.groups.filter fun e => e.2.launch == launch && e.2.core == core && e.2.onCore).foldl
    (fun best e => match best with
      | none => some e
      | some b => if e.2.grpid < b.2.grpid then some e else some b) none

/-- The place a scratchpad address names, or the reason of Scratch Address Fault (R94, R95, R98). -/
def State.scr (s : State) (c : Ctx) (a : Nat) : Except Nat Nat :=
  let lv := field a 31 28
  if lv = 0 then
    if field a 27 18 ≠ 0 then .error 1
    else match Map.find s.groups c.group with
      | some g => if field a 17 0 < g.scratch then .ok (coreKey c.group + field a 17 0) else .error 3
      | none => .error 3
  else if lv = 1 then
    let idx := field a 27 20
    let core := c.core / 192 * 192 + idx
    if field a 19 18 ≠ 0 then .error 1
    else if 191 < idx then .error 2
    else if s.disabled.contains core then .error 2
    else match s.peer c.launch core with
      | none => .error 2
      | some (h, g) => if field a 17 0 < g.scratch then .ok (coreKey h + field a 17 0) else .error 3
  else if lv = 2 then
    if field a 27 25 ≠ 0 then .error 1
    else match Map.find s.launches c.launch with
      | some l => if field a 24 0 < roundUp l.block.clusz 65536 then .ok (clusterKey c.launch (c.core / 192) + field a 24 0)
                  else .error 3
      | none => .error 3
  else if lv = 3 then
    if bitAt a 27 || 0x6000000 ≤ field a 26 0 then .error 1
    else match Map.find s.launches c.launch with
      | some l => if field a 26 0 < roundUp l.block.diesz 65536 then .ok (dieKey c.launch (c.core / 576) + field a 26 0)
                  else .error 3
      | none => .error 3
  else .error 0

/-- The place of `n` bytes from a scratchpad address, all in its level's allocation; a range whose last byte does not lie in it
has reason 3, whatever address that byte would have (R94-R98; log 67). -/
def State.scrRange (s : State) (c : Ctx) (a n : Nat) : Except Nat Nat :=
  match s.scr c a with
  | .error r => .error r
  | .ok k =>
    if n ≤ 1 then .ok k
    else match s.scr c (a + n - 1) with
      | .ok k' => if k' = k + (n - 1) && field (a + n - 1) 31 28 = field a 31 28 then .ok k else .error 3
      | .error _ => .error 3

/-- Scratch Address Fault or Alignment of a scratchpad instruction (R99). -/
def Slot.scrTrap (k : Slot) (cause reason access addr : Nat) (lanes : Mask) : Trap :=
  { k.trap cause reason with access := access, addr := BitVec.ofNat 64 addr, lmask := lanes }

/-- Runs `f` with the place of a uniform-addressed object of `n` bytes, aligned to `al` (R99). -/
def State.withScr (s : State) (k : Slot) (a n al access : Nat) (f : Nat → State) : State :=
  if a % al ≠ 0 then s.trap k (k.scrTrap 0x06 0 access a k.mask)
  else match s.scrRange k.ctx a n with
    | .error r => s.trap k (k.scrTrap 0x05 r access a k.mask)
    | .ok key => f key

/-! ## Outstanding operations (R107-R110) -/

/-- The count of a path. -/
def Wave.pathCount (w : Wave) (p : Path) : Nat := (w.outs.filter fun o => o.counted && o.path == p).length

/-- The oldest completed operations of each path leave (R108). -/
def retireOuts : List Out → List Path → List Out
  | [], _ => []
  | o :: r, blocked =>
    if o.done && !blocked.contains o.path then retireOuts r blocked
    else o :: retireOuts r (o.path :: blocked)

/-- Completes operation `seq` (R108). -/
def Wave.complete (w : Wave) (seq : Nat) : Wave :=
  let os := w.outs.map fun o => if o.seq == seq then { o with done := true } else o
  { w with outs := retireOuts os [] }

/-- Changes what operation `seq` holds. -/
def Wave.setOp (w : Wave) (seq : Nat) (op : Op) : Wave :=
  { w with outs := w.outs.map fun o => if o.seq == seq then { o with op := op } else o }

/-- The operation `seq`, if it is outstanding and not complete. -/
def Wave.out (w : Wave) (seq : Nat) : Option Out := w.outs.find? fun o => o.seq == seq && !o.done

/-- A new outstanding operation of the slot. -/
def Slot.newOut (k : Slot) (p : Path) (acq rel : Bool) (op : Op) : Out :=
  { seq := k.w.nextSeq, path := p, tag := k.tag, acq := acq, rel := rel, done := false, pc := k.f.pc, hash := k.w.hash, op := op,
    second := k.second, mask := k.mask }

/-- The wave with an operation issued (R107). -/
def Wave.push (w : Wave) (o : Out) : Wave := { w with outs := w.outs ++ [o], nextSeq := w.nextSeq + 1 }

/-- The operation is an access: a load, store, atomic or PROMOTE, or a FITLD or FITSV, which read and write memory as plain
accesses of the wave (R345). -/
def Out.isAccess (o : Out) : Bool :=
  o.path == .ld || o.path == .st || (match o.op with
    | .fit _ _ _ _ _ => true
    | _ => false)

/-- An earlier access of an operation of tag `tag` and number `seq` has not performed (R84, R128). -/
def Wave.earlier (w : Wave) (seq : Nat) (tag : Tag) : Bool :=
  w.outs.any fun o => decide (o.seq < seq) && !o.done && tagOrdered o.tag tag && o.isAccess

/-- The slot has an earlier access that has not performed. -/
def Slot.busy (k : Slot) : Bool := k.w.earlier k.w.nextSeq k.tag

/-- An acquire of the slot holds back its later accesses (R84, R354). -/
def Slot.heldBack (k : Slot) : Bool :=
  k.w.outs.any fun o => o.acq && !o.done && tagOrdered o.tag k.tag

/-- The slot may issue an operation on a path: no acquire holds it back and the counter is below 63 (R84, R109). -/
def Slot.mayCount (k : Slot) (p : Path) : Bool := !k.heldBack && decide (k.w.pathCount p < 63)

/-- What walks have given a slot is used up (R74). -/
def Wave.clearFaults (w : Wave) (side : Bool) : Wave :=
  { w with walkFaults := w.walkFaults.filter fun f => f.side != side, walkLeaves := w.walkLeaves.filter fun e => e.1 != side }

end Sys2Proof.Machine
end

