-- ==== Sys2Proof/Machine/Operands.lean ====
section
/-! DEFINITION. The shapes of register-to-register instructions: how operands are read, lanes computed and results written
(spec/02_instruction_words.md R21, spec/09_vector_and_uniform.md R218, R219). -/

namespace Sys2Proof.Machine

/-- A vector instruction with one vector result: `f` gives the lane's element. -/
def vecOp (s : State) (names : List (Nat × Nat)) (d : Nat) (f : Slot → Nat → Word) : Res :=
  issue s 4 fun k => s.vnamed k names ((s.modWave k.h fun w => w.vput d k.mask (f k)).finish k 4)

/-- A vector instruction with a lane predicate for a result. -/
def predOp (s : State) (names : List (Nat × Nat)) (p : Nat) (f : Slot → Nat → Bool) : Res :=
  issue s 4 fun k => s.vnamed k names ((s.modWave k.h fun w => w.pput p k.mask (maskBy (f k))).finish k 4)

/-- An instruction of `len` bytes that writes the uniform side: it waits for room in the held-write buffer (R182). -/
def uniOp (s : State) (len : Nat) (names : List (Nat × Nat)) (n : Nat) (f : Slot → List (HDst × Word)) : Res :=
  issue s len fun k =>
    s.vnamed k names (if k.room n then (s.write k (f k)).finish k len else s)

/-- The names of a two-source vector instruction. -/
def names3 (d a : Nat) (b : Src) : List (Nat × Nat) := (0, d) :: (1, a) :: srcNames b
/-- The names of a one-source vector instruction. -/
def names2 (d a : Nat) : List (Nat × Nat) := [(0, d), (1, a)]

/-- A bit as a uniform predicate's word. -/
def wordOfBool (b : Bool) : Word := if b then 1 else 0

/-- An integer condition (R222). -/
def icond (c : ICond) (x y : Word) : Bool :=
  match c with
  | .eq => x == y
  | .ne => x != y
  | .lt => x.slt y
  | .le => x.sle y
  | .gt => y.slt x
  | .ge => y.sle x
  | .ltu => x.ult y
  | .leu => x.ule y
  | .gtu => y.ult x
  | .geu => y.ule x

/-- A shift amount: bits [5:0] (R221). -/
def shiftAmount (b : Word) : Nat := b.toNat % 64
/-- SHL (R221). -/
def shlW (a b : Word) : Word := a <<< shiftAmount b
/-- SHR (R221). -/
def shrW (a b : Word) : Word := a >>> shiftAmount b
/-- SAR (R221). -/
def sarW (a b : Word) : Word := a.sshiftRight (shiftAmount b)

/-- The high word of the 64-bit product, signed or unsigned (R223). -/
def mulhW (u : Bool) (a b : Word) : Word :=
  if u then BitVec.ofNat 32 (a.toNat * b.toNat / 2 ^ 32)
  else ((a.signExtend 64 * b.signExtend 64) >>> 32).truncate 32

/-- The smaller of two words. -/
def minW (u : Bool) (a b : Word) : Word := if (if u then b.ult a else b.slt a) then b else a
/-- The larger of two words. -/
def maxW (u : Bool) (a b : Word) : Word := if (if u then a.ult b else a.slt b) then b else a
/-- The absolute value; the most negative number gives itself (R223). -/
def absW (a : Word) : Word := if a.slt 0 then -a else a

/-- The number of 1 bits (R223). -/
def popcW (a : Word) : Word := BitVec.ofNat 32 ((List.range 32).countP fun i => a.getLsbD i)
/-- Leading zero bits (R223). -/
def clzW (a : Word) : Word := BitVec.ofNat 32 (((List.range 32).reverse.takeWhile fun i => !a.getLsbD i).length)

/-- An integer clipped to a range (R223). -/
def clip (lo hi x : Int) : Int := if x < lo then lo else if hi < x then hi else x

/-- IADDSAT (R223). -/
def addSatW (u : Bool) (a b : Word) : Word :=
  if u then BitVec.ofInt 32 (clip 0 (2 ^ 32 - 1) (a.toNat + b.toNat))
  else BitVec.ofInt 32 (clip (-(2 ^ 31)) (2 ^ 31 - 1) (a.toInt + b.toInt))

/-- The position and length of a bit field (R224). -/
def fieldPos (b : Word) : Nat := b.toNat % 32
def fieldLen (b : Word) : Nat := min (field b.toNat 13 8) 32

/-- BFX (R224). -/
def bfxW (sx : Bool) (a b : Word) : Word :=
  let len := fieldLen b
  let f := a.toNat / 2 ^ fieldPos b % 2 ^ len
  if sx && len > 0 then BitVec.ofInt 32 (signed f len) else BitVec.ofNat 32 f

/-- BFI (R224). -/
def bfiW (d a b : Word) : Word :=
  let m := BitVec.ofNat 32 ((2 ^ fieldLen b - 1) * 2 ^ fieldPos b)
  (d &&& ~~~m) ||| ((a <<< fieldPos b) &&& m)

/-- HMIX (R224). -/
def hmixW (a b : Word) : Word :=
  let h := (a ^^^ b) * 0x9B2F4E35#32
  let h := (h ^^^ (h >>> 15)) * 0xD16A7C5B#32
  h ^^^ (h >>> 13)

/-- MOVHI: bits [31:15] replaced (R225). -/
def movhiW (d : Word) (imm : BitVec 17) : Word := (imm.zeroExtend 32 <<< 15) ||| (d &&& 0x7FFF)

end Sys2Proof.Machine
end

