-- ==== Sys2Proof/Machine/Moves.lean ====
section
/-! DEFINITION. Moves between the register files, control and status registers, and the vector allocation
(spec/06_registers.md). -/

namespace Sys2Proof.Machine

/-- VBCAST (R163). -/
def execVbcast (d a : Nat) (s : State) : Res := vecOp s [(0, d)] d fun k _ => k.s a

/-- VREADL: any lane, active or not (R163). -/
def execVreadl (d a b : Nat) (s : State) : Res :=
  uniOp s 4 [(1, a)] 1 fun k => [(.s d, k.w.vget a ((k.s b).toNat % 64))]

/-- VWRITEL: one lane, when it is active (R163). -/
def execVwritel (d a b : Nat) (s : State) : Res :=
  vecOp s [(0, d)] d fun k l => if l = (k.s b).toNat % 64 then k.s a else k.w.vget d l

/-- VFIRST: the lowest active lane (R163). -/
def execVfirst (d a : Nat) (s : State) : Res := uniOp s 4 [(1, a)] 1 fun k => [(.s d, k.w.vget a (lowLane k.mask))]

/-- Two words written to a uniform pair. -/
def pairOf (d : Nat) (x : DWord) : List (HDst × Word) := [(.s d, x.truncate 32), (.s (d + 1), (x >>> 32).truncate 32)]

/-- PGET: all 64 bits of the predicate, or the active mask (R163). -/
def execPget (d a : Nat) (m : Bool) (s : State) : Res :=
  uniOp s 4 [] 2 fun k => pairOf d (if m then k.mask else k.w.pget a)

/-- PSET (R163). -/
def execPset (d a : Nat) (s : State) : Res :=
  issue s 4 fun k => (s.modWave k.h fun w => w.pput d k.mask (k.s64 a)).finish k 4

/-! ## Control and status registers (R164-R167) -/

/-- Enabled cores of a partition (R164, R17). -/
def State.enabledCores (s : State) (clusters : List Nat) : Nat :=
  (clusters.map fun c => ((List.range 192).filter fun i => !s.disabled.contains (c * 192 + i)).length).foldl (· + ·) 0

/-- DETCTL (R447): REC and RPL read 0 in a deterministic launch, RPL once replay has ended (R470). -/
def Launch.detctl (l : Launch) : Word :=
  BitVec.ofNat 32 (if l.block.det then 1 else bit l.recording * 2 + bit (l.replaying && !l.log.ended) * 4)

/-- A group's CSR as one of its waves reads it: its own write of the present quantum first (R455). -/
def Slot.groupCsr (k : Slot) (a : Nat) : Word :=
  match k.read (.csr a) with
  | some x => x
  | none =>
    match k.w.csrPend.reverse.find? fun e => e.1 == a with
    | some e => e.2
    | none => if a < 0x220 then Sparse.get 0 k.g.tdesc (a - 0x200) else Sparse.get 0 k.g.adesc (a - 0x220)

/-- The value a CSR reads as; none where the address is unassigned (R164). -/
def State.readCsr (s : State) (k : Slot) (a : Nat) : Option Word :=
  let part := (Map.find s.tenants k.l.tenant).bind fun t => Map.find s.parts t.part
  if a = 0x019 then some (BitVec.ofNat 32 k.w.wb)
  else if a = 0x01A then some (BitVec.ofNat 32 k.w.blocks)
  else if a = 0x020 then some k.w.waveid
  else if a = 0x021 then some (BitVec.ofNat 32 k.g.grpid)
  else if a = 0x028 then some (BitVec.ofNat 32 k.l.block.quantum)
  else if a = 0x029 then some k.l.detctl
  else if a ≤ 0x006 || (0x008 ≤ a && a ≤ 0x00A) || (0x010 ≤ a && a ≤ 0x013) || a = 0x018 then some (k.csr a)
  else if a = 0x100 then some (BitVec.ofNat 32 k.g.nwaves)
  else if a = 0x101 then some (BitVec.ofNat 32 k.g.tiles)
  else if a = 0x102 then some (BitVec.ofNat 32 k.g.accs)
  else if a = 0x103 then some (BitVec.ofNat 32 k.g.mats)
  else if (0x200 ≤ a && a ≤ 0x20F) || (0x220 ≤ a && a ≤ 0x227) then some (k.groupCsr a)
  else if a = 0x300 then some (BitVec.ofNat 32 k.core)
  else if a = 0x301 then some (BitVec.ofNat 32 k.cluster)
  else if a = 0x302 then some (BitVec.ofNat 32 k.die)
  else if a = 0x304 then some (BitVec.ofNat 32 ((part.map fun p => s.enabledCores p.clusters).getD 0))
  else if a = 0x305 then some (BitVec.ofNat 32 ((part.map fun p => p.clusters.length).getD 0))
  else if 0x310 ≤ a && a ≤ 0x31F then
    some (BitVec.ofNat 32 (wordOfBytes (((part.map (·.hash)).getD []).drop (4 * (a - 0x310)) |>.take 4)))
  else none

/-- Bytes of 32 elements of a kind (R246); 0 for a reserved kind. -/
def blockBytes (kind : Nat) : Nat :=
  match kind with
  | 0 | 1 | 5 | 6 | 7 => 32
  | 2 | 3 => 24
  | 4 | 8 => 16
  | 9 | 10 => 64
  | 11 => 128
  | _ => 0

/-- A tile descriptor word is zero or configured (R245, R246). -/
def tdescOk (x : Nat) : Bool :=
  let rb := field x 15 8
  let bb := blockBytes (field x 19 16)
  x == 0 ||
  (field x 31 20 == 0 && !bitAt x 7 && decide (1 ≤ field x 6 0) && decide (field x 6 0 ≤ 64) &&
    bb != 0 && rb != 0 && decide (rb ≤ 128) && rb % bb == 0)

/-- An accumulator descriptor word is zero or configured (R248). -/
def adescOk (x : Nat) : Bool :=
  let dim (n : Nat) : Bool := decide (1 ≤ n) && decide (n ≤ 64)
  x == 0 || (field x 31 17 == 0 && !bitAt x 15 && !bitAt x 7 && dim (field x 6 0) && dim (field x 14 8))

/-- CSRs a program may write (R164). -/
def writableCsr (a : Nat) : Bool :=
  a ≤ 0x006 || (0x008 ≤ a && a ≤ 0x00A) || (0x010 ≤ a && a ≤ 0x013) || a == 0x018 ||
  (0x200 ≤ a && a ≤ 0x20F) || (0x220 ≤ a && a ≤ 0x227)

/-- The value is allowed in the CSR (R166). -/
def csrValueOk (a x : Nat) : Bool :=
  match a with
  | 0x000 => decide (x < 16) && decide (x % 8 < 5)
  | 0x001 => decide (x < 32)
  | 0x002 => field x 31 17 == 0 && field x 15 1 == 0
  | 0x003 => x == 4 || x == 8 || x == 16 || x == 32 || x == 64
  | 0x005 => decide (x < 16)
  | 0x006 => decide (x < 2)
  | 0x010 => !bitAt x 1
  | 0x013 => !bitAt x 7
  | _ =>
    if 0x200 ≤ a && a ≤ 0x20F then tdescOk x
    else if 0x220 ≤ a && a ≤ 0x227 then adescOk x
    else true

/-- A tile instruction of floating point: one that may raise flags (R167, R209). -/
def tileFp (i : Instr) : Bool :=
  match i with
  | .tmma _ _ _ _ _ | .tmmas _ _ _ _ _ _ | .tcvt _ _ _ _ | .ttrq _ _ | .trq _ _ _ _ => true
  | _ => false

/-- Earlier instructions of the wave have flags still to merge (R167, R209). -/
def Wave.flagsDue (w : Wave) : Bool :=
  !w.flagPend.isEmpty || w.outs.any fun o => !o.done && (match o.op with
    | .tile i _ _ _ _ _ _ => tileFp i
    | _ => false)

/-- The slot waits until the counts of the paths `ps` are 0 (R160, R167, R453). -/
def State.drainPaths (s : State) (k : Slot) (ps : List Path) (f : State) : State :=
  let outs := k.w.outs.filter fun o => ps.contains o.path
  if outs.isEmpty then f else s.stall k (outs.any (·.atCommit))

/-- A write to a per-group CSR in a deterministic launch is seen by the other waves at the commit (R455). -/
def State.writeCsr (s : State) (k : Slot) (a : Nat) (x : Word) : State :=
  if k.det && 0x100 ≤ a then s.modWave k.h fun w => { w with csrPend := w.csrPend ++ [(a, x)] }
  else s.write k [(.csr a, x)]

/-- CSRR (R165, R167). -/
def execCsrr (d csr : Nat) (s : State) : Res :=
  issue s 4 fun k =>
    match s.readCsr k csr with
    | none => s.trap k (k.illegal (.csrr d csr))
    | some x =>
      if csr = 0x001 && k.w.flagsDue then s
      else if !k.room 1 then s
      else (s.write k [(.s d, x)]).finish k 4

/-- CSRW (R165, R166, R167). -/
def execCsrw (d csr : Nat) (s : State) : Res :=
  issue s 4 fun k =>
    if !writableCsr csr then s.trap k (k.illegal (.csrw d csr))
    else if csr = 0x001 && k.w.flagsDue then s
    else s.drainPaths k (if 0x200 ≤ csr then [.tl] else [])
      (if !csrValueOk csr (k.s d).toNat then s.trap k (k.illegal (.csrw d csr))
      else if !k.room 1 then s
      else (s.writeCsr k csr (k.s d)).finish k 4)

/-! ## The vector allocation (R156-R161) -/

/-- A group's registers are held on its core: from the placement to ENDED or SAVED (R422). -/
def Group.holds (g : Group) : Bool :=
  match g.life with
  | .placing | .resident | .stopping | .restoring | .ending => true
  | .saved | .retired => false

/-- The blocks a wave holds: an ended wave's are released once its LD, ST and TL counts are 0 (R191). -/
def Wave.heldBlocks (w : Wave) : Nat :=
  if w.first.isNone && w.second.isNone && !(w.outs.any fun o => o.counted && o.path != .cp) then 0 else w.blocks

/-- Vector blocks of a core that no wave holds (R153, R158). -/
def State.freeBlocks (s : State) (core : Nat) : Nat :=
  64 - ((s.waves.filter fun e => match Map.find s.groups e.2.group with
    | some g => g.core == core && g.holds
    | none => false).map fun e => e.2.heldBlocks).foldl (· + ·) 0

/-- The core of a wave. -/
def State.coreOf (s : State) (h : Nat) : Option Nat :=
  (Map.find s.waves h).bind fun w => (Map.find s.groups w.group).map (·.core)

/-- The RACQ waiters of a core with the cycle they began to wait, in the order of R158. -/
def State.racqWaiters (s : State) (core : Nat) : List (Waiter × Nat × Nat) :=
  (s.waiters.filterMap fun x => match x.on with
    | .racq n since => if s.coreOf x.wave = some core then some (x, n, since) else none
    | _ => none)

/-- A waiter is served before another: earlier cycle, then lower WAVEID (R158). -/
def State.racqBefore (s : State) (x y : Waiter × Nat × Nat) : Bool :=
  let id := fun (e : Waiter × Nat × Nat) => ((Map.find s.waves e.1.wave).map (·.waveid.toNat)).getD 0
  decide (x.2.2 < y.2.2) || (x.2.2 == y.2.2 && decide (id x < id y))

/-- The RACQ waiter that is served next. -/
def State.oldestRacq (s : State) (core : Nat) : Option (Waiter × Nat × Nat) :=
  (s.racqWaiters core).foldl (fun best e => match best with
    | none => some e
    | some b => if s.racqBefore e b then some e else some b) none

/-- `n` more blocks: they read zero, no block past the last holding anything (R155, R156). -/
def Wave.addBlocks (w : Wave) (n : Nat) : Wave := { w with blocks := w.blocks + n }

/-- The last `n` blocks leave with their contents (R160). -/
def Wave.dropBlocks (w : Wave) (n : Nat) : Wave :=
  { w with blocks := w.blocks - n, v := Sparse.clear w.v ((w.blocks - n) * 2048) (n * 2048) }

/-- RACQ (R158-R161). In a deterministic launch RACQ.try is illegal whatever it asks for (R452; log 59). -/
def execRacq (t : Bool) (kd n : Nat) (s : State) : Res :=
  issue s 4 fun k =>
    if k.second then s
    else if t && k.det then s.trap k (k.illegal (.racq t kd n))
    else if 16 < k.w.blocks + n then s.trap k (k.trap 0x0A 1)
    else
      let free := n ≤ s.freeBlocks k.core && (s.racqWaiters k.core).isEmpty
      if t then
        if free then ((s.modWave k.h (·.addBlocks n)).write k [(.k kd, 1)]).finish k 4
        else (s.write k [(.k kd, 0)]).finish k 4
      else if free then (s.modWave k.h (·.addBlocks n)).finish k 4
      else if s.waiters.any fun x => x.wave == k.h && x.side == k.f.side then s
      else { s with waiters := s.waiters ++ [⟨k.h, k.f.side, .racq n s.cycle⟩] }

/-- RACQ_GRANT: the oldest waiter of a core takes its blocks when all are free, and its RACQ ends (R158, R160). -/
def execRacqGrant (core : Nat) (s : State) : Res :=
  match s.oldestRacq core with
  | none => .next s
  | some (x, n, _) =>
    match (Map.find s.waves x.wave).bind (·.bySide x.side) with
    | none => .next s
    | some (second, _) =>
      match s.slotOf x.wave second with
      | none => .next s
      | some k =>
        if n ≤ s.freeBlocks core && k.g.life = .resident && k.w.stop.isNone then
          .next ((s.modWave k.h (·.addBlocks n)).finish k 4)
        else .next s

/-- RACQ_TIMEOUT: a waiter past RACQTMO takes Register Allocation Fault, reason 0 (R159, R160); not in a deterministic
launch (R452). -/
def execRacqTimeout (wave : Nat) (s : State) : Res :=
  match s.waiters.find? fun x => x.wave == wave && (match x.on with | .racq _ _ => true | _ => false) with
  | none => .next s
  | some x =>
    match x.on, (Map.find s.waves x.wave).bind (·.bySide x.side) with
    | .racq _ since, some (second, _) =>
      match s.slotOf x.wave second with
      | none => .next s
      | some k =>
        if k.w.racqtmo ≠ 0 && !k.det && k.w.stop.isNone && k.g.life = .resident && decide (since + k.w.racqtmo.toNat < s.cycle) then
          .next (s.trap k (k.trap 0x0A 0))
        else .next s
    | _, _ => .next s

/-- RREL (R160, R161). -/
def execRrel (n : Nat) (s : State) : Res :=
  issue s 4 fun k =>
    if k.second then s
    else if k.w.blocks - k.w.base < n then s.trap k (k.trap 0x0A 2)
    else s.drainPaths k [.ld, .tl] ((s.modWave k.h (·.dropBlocks n)).finish k 4)

/-- WBASE (R157, R160). -/
def execWbase (b : Nat) (s : State) : Res :=
  issue s 4 fun k => if k.second then s else (s.modWave k.h fun w => { w with wb := b }).finish k 4

end Sys2Proof.Machine
end

