-- ==== Sys2Proof/Machine/Queue.lean ====
section
/-! DEFINITION. Queue registers: completion records, bound queues, and commands to the engines
(spec/05_engines_queues_barriers.md R119-R121, R131-R143). -/

namespace Sys2Proof.Machine

/-! ## Holding back -/

/-- A part of an atomic is settled: performed, or failed. -/
def AReq.over (r : AReq) : Bool := r.res.isSome || r.failed

/-- An outstanding access touches a byte of `[x, x + n)` (R83, R105). -/
def Out.touches (o : Out) (x : Loc) (n : Nat) : Bool :=
  match o.op with
  | .load chunks => chunks.any fun c => c.any fun e => e.loc.meets e.n x n
  | .store secs => secs.any fun c => c.bytes.any fun e => e.1.meets 1 x n
  | .atomic _ wide _ _ _ reqs => reqs.any fun r => r.res.isNone && !r.failed && r.loc.meets (if wide then 8 else 4) x n
  | .fit _ _ _ _ locs => locs.any fun l => l.meets 4 x n
  | _ => false

/-- An earlier access of the wave to a byte of `[x, x + n)` has not performed, for an access of tag `tag` (R83, R105). -/
def Wave.conflicts (w : Wave) (seq : Nat) (tag : Tag) (x : Loc) (n : Nat) : Bool :=
  w.outs.any fun o => decide (o.seq < seq) && !o.done && tagOrdered o.tag tag && o.touches x n

/-- An earlier TST of a deterministic wave has not yet read its tile and will write a byte of `[x, x + n)`: a read of that byte
waits for what the TST buffers (R451, R452). -/
def Wave.tstDue (w : Wave) (seq : Nat) (x : Loc) (n : Nat) : Bool :=
  w.outs.any fun o => decide (o.seq < seq) && !o.done && (match o.op with
    | .tile (.tst _ _ _) _ desc _ locs _ _ =>
      locs.any fun e => e.2.1.meets (field (desc.getD 0 0).toNat 15 8) x n || (e.2.2.map fun y => y.meets 8 x n) == some true
    | _ => false)

/-- The same for the slot's next access. -/
def Slot.conflicts (k : Slot) (x : Loc) (n : Nat) : Bool := k.w.conflicts k.w.nextSeq k.tag x n

/-- Entries of an atomic that a Cloakroom has refused wait for its next window: in the window that is open, or, once that has closed,
in one of a later round (R357). -/
def State.refusedOf (s : State) (h seq : Nat) : Bool :=
  s.windows.any fun e =>
    let own := fun (x : CEntry) => x.wave == h && x.seq == seq
    e.2.refused.any own || ((match e.2.launch.bind (Map.find s.launches) with
      | some x => decide (x.round < e.2.n)
      | none => false) && e.2.rows.any fun r => r.2.any own)

/-- An access of wave `h` has not performed in a commit that has come to it: an atomic that is in the Cloakroom has, a refused
one has not, and FITLD reads after every turn (R452, R454; log 54). -/
def State.dueDet (s : State) (h : Nat) (o : Out) : Bool :=
  !o.done && (match o.op with
    | .atomic _ _ _ _ _ reqs => (reqs.any fun r => !r.over && !r.admitted) || s.refusedOf h o.seq
    | .fit _ _ _ _ _ => false
    | _ => o.path == .ld || o.path == .st)

/-- An access of the slot's wave has not performed; at a commit the round's own operations have been applied in turn. -/
def State.dueAt (s : State) (k : Slot) (o : Out) : Bool := if k.det then s.dueDet k.h o else !o.done && o.isAccess

/-- An earlier access of the slot has not performed, for an operation that waits for them all (R137, R306, R410). -/
def State.unperformed (s : State) (k : Slot) : Bool :=
  k.w.outs.any fun o => decide (o.seq < k.w.nextSeq) && tagOrdered o.tag k.tag && s.dueAt k o

/-- In a deterministic launch the instruction ends the quantum and is presented at the commit; it runs otherwise (R452). -/
def State.atCommit (s : State) (k : Slot) (i : Instr) (f : State) : State :=
  if k.det && k.w.qstate = .running then s.modWave k.h fun w => { w with qstate := .ended (some i) } else f

/-- The count of a path once everything that completes within the quantum has completed: a count falls in issue order (R108,
R453). -/
def Wave.commitCount (w : Wave) (p : Path) : Nat :=
  ((w.outs.filter fun o => o.counted && o.path == p).dropWhile fun o => !o.atCommit).length

/-- An issue stall on a full counter (R109, R453). -/
def State.full (s : State) (k : Slot) (p : Path) : State := s.stall k (decide (63 ≤ k.w.commitCount p))

/-- An instruction that an outstanding acquire of its slot holds back waits (R84, R354, R449). -/
def State.unheld (s : State) (k : Slot) (f : State) : State :=
  if k.heldBack then s.stall k (k.w.outs.any fun o => o.acq && !o.done && tagOrdered o.tag k.tag && o.atCommit) else f

/-- As `issue`, for an instruction that an outstanding acquire of its slot holds back. -/
def issueMem (s : State) (len : Nat) (f : Slot → State) : Res := issue s len fun k => s.unheld k (f k)

/-- The slot takes a waiting place, unless it has one (R121). -/
def State.await (s : State) (k : Slot) (on : WaitOn) : State :=
  if s.waiters.any fun x => x.wave == k.h && x.side == k.f.side then s
  else { s with waiters := s.waiters ++ [⟨k.h, k.f.side, on⟩] }

/-- A run of uniform registers. -/
def Slot.run (k : Slot) (a n : Nat) : List Word := (List.range n).map fun i => k.s (a + i)
/-- Writes to a run of uniform registers. -/
def runOf (d : Nat) (xs : List Word) : List (HDst × Word) := (List.range xs.length).map fun i => (.s (d + i), xs.getD i 0)

/-- The waiting slot, if it still stands. -/
def State.waiterSlot (s : State) (x : Waiter) : Option Slot :=
  ((Map.find s.waves x.wave).bind (·.bySide x.side)).bind fun e => s.slotOf x.wave e.1

/-! ## Completion records (R133, R134) -/

/-- A record enters a queue of 64, or is discarded: the queue and its LOST count after it (R134). -/
def enterRecord (q : List (List Word)) (lost : Nat) (r : List Word) : List (List Word) × Nat :=
  let status := fun (x : List Word) => (x.headD 0).toNat % 256
  let put := fun (q : List (List Word)) (n : Nat) =>
    (q ++ [(r.headD 0 ||| BitVec.ofNat 32 (min n 255 * 2 ^ 24)) :: r.drop 1], 0)
  if q.length < 64 then put q lost
  else if status r = 0 then (q, lost + 1)
  else match q.findIdx? (status · == 0) with
    | some i => put (q.eraseIdx i) (lost + 1)
    | none => (q, lost + 1)

/-- The records of q1 or q3. -/
def Wave.records (w : Wave) (q : Nat) : List (List Word) := if q = 1 then w.q1 else w.q3
/-- Those records replaced. -/
def Wave.setRecords (w : Wave) (q : Nat) (rs : List (List Word)) : Wave := if q = 1 then { w with q1 := rs } else { w with q3 := rs }

/-- The oldest slot of a wave that waits for a record takes it (R121, R140). -/
def State.serveRecord (s : State) (h q : Nat) : State :=
  match s.waiters.find? fun x => x.wave == h && (match x.on with | .record q' _ => q' == q | _ => false) with
  | none => s
  | some x =>
    match x.on, s.waiterSlot x with
    | .record _ d, some k =>
      match k.w.records q with
      | [] => s
      | r :: rs => if !k.room 8 then s else ((s.modWave h (·.setRecords q rs)).write k (runOf d r)).finish k 4
    | _, _ => s

/-- A wave has ended: no fragment of it is left (R191). -/
def Wave.over (w : Wave) : Bool := w.first.isNone && w.second.isNone

/-- An engine posts a record to q1 or q3; one to a wave that has exited is discarded (R129, R132). -/
def State.postRecord (s : State) (h q : Nat) (r : List Word) : State :=
  match Map.find s.waves h with
  | none => s
  | some w =>
    if w.over then s
    else
      let e := enterRecord (w.records q) (if q = 1 then w.lost1 else w.lost3) r
      let w' := w.setRecords q e.1
      (s.setWave h (if q = 1 then { w' with lost1 := e.2 } else { w' with lost3 := e.2 })).serveRecord h q

/-! ## Engine commands (R131) -/

/-- The key of a cluster's intake for copy or gather commands. -/
def intakeKey (cluster : Nat) (gather : Bool) : Nat := cluster * 2 + bit gather
/-- Commands in an intake. -/
def State.intake (s : State) (key : Nat) : List Command := (Map.find s.intakes key).getD []

/-- The command a slot pushes: its sequence number is the count of the wave's earlier commands (R131). -/
def Slot.command (k : Slot) (gather : Bool) (words : List Word) : Command :=
  { wave := k.h, launch := k.g.launch, group := k.w.group, tenant := k.l.tenant, core := k.core, gather := gather,
    words := words, seqNo := if gather then k.w.seq2 else k.w.seq0, out := k.w.nextSeq, tag := k.tag }

/-- A command counts on CP and enters the intake, or is kept for the commit of a deterministic launch (R131, R452). -/
def State.send (s : State) (k : Slot) (gather : Bool) (words : List Word) : State :=
  let c := k.command gather words
  let s' := s.modWave k.h fun w =>
    let w' := w.push (k.newOut .cp false false .engine)
    let w' := if gather then { w' with seq2 := w'.seq2 + 1 } else { w' with seq0 := w'.seq0 + 1 }
    if k.det then { w' with qops := w'.qops ++ [.command c] } else w'
  if k.det then s' else { s' with intakes := Map.put s'.intakes (intakeKey k.cluster gather) (s'.intake (intakeKey k.cluster gather) ++ [c]) }

/-- A push of a command would proceed: the intake has room and CP is below 63 (R131). -/
def State.intakeRoom (s : State) (k : Slot) (gather : Bool) : Bool :=
  k.det || decide ((s.intake (intakeKey k.cluster gather)).length < 256)

/-- An intake has room: the oldest slot of its cluster that waits to push to it is admitted (R121). -/
def State.admitCommand (s : State) (cluster : Nat) (gather : Bool) : State :=
  let q := if gather then 2 else 0
  match s.waiters.find? fun x =>
      (match x.on with | .push q' _ => q' == q | _ => false) && (s.coreOf x.wave).map (· / 192) == some cluster &&
      ((Map.find s.waves x.wave).map fun w => decide (w.pathCount .cp < 63)) == some true with
  | none => s
  | some x =>
    match x.on, s.waiterSlot x with
    | .push _ (c :: _), some k => if s.intakeRoom k gather then (s.send k gather c).finish k 4 else s
    | _, _ => s

/-! ## Bound queues (R135-R138) -/

/-- Items in a queue. -/
def Queue.fill (q : Queue) : Nat := (q.tail - q.head).toNat
/-- Free slots. -/
def Queue.free (q : Queue) : Nat := q.cap - q.fill
/-- The ring slot of an index. -/
def Queue.slotKey (q : Queue) (key : Nat) (i : Word) : Nat := key + 32 + 4 * q.itemw * (i.toNat % q.cap)

/-- The live state of a queue stored, and HEAD and TAIL written back (R136). Nothing else reads these bytes back while the queue
is active: a program's store to H0 to H2 changes them and not the live state (log 56). -/
def State.putQueue (s : State) (key : Nat) (q : Queue) : State :=
  { (s.putNum (.scr (key + 4)) q.head.toNat 4).putNum (.scr (key + 8)) q.tail.toNat 4 with queues := Map.put s.queues key q }

/-- One item appended at TAIL. -/
def State.appendItem (s : State) (key : Nat) (q : Queue) (item : List Word) : State :=
  ((List.range q.itemw).foldl (fun s i => s.putNum (.scr (q.slotKey key q.tail + 4 * i)) (item.getD i 0).toNat 4) s).putQueue
    key { q with tail := q.tail + 1 }

/-- The item at HEAD. -/
def State.headItem (s : State) (key : Nat) (q : Queue) : List Word :=
  (List.range q.itemw).map fun i => s.word (.scr (q.slotKey key q.head + 4 * i))

/-- The queue a wave's register is bound to. -/
def Wave.boundTo (w : Wave) (q : Nat) : Option Nat := (Map.find w.binds q).map (·.queue)

/-- A binding after it sent `n` items when `free` slots were free (R138). -/
def Bind.sent (b : Bind) (free n : Nat) : Bind := { b with allowance := (if b.allowance < n then free else b.allowance) - n }

/-- Items appended by a wave through its register `q`. -/
def State.appendItems (s : State) (h q key : Nat) (items : List (List Word)) : State :=
  let free := ((Map.find s.queues key).map (·.free)).getD 0
  let s' := s.modWave h fun w => { w with binds := Map.modify w.binds q (·.sent free items.length) }
  items.foldl (fun s it => match Map.find s.queues key with
    | some qu => s.appendItem key qu it
    | none => s) s'

/-- Who waits to pop from, or push to, the queue at `key`: the oldest such slot. -/
def State.queueWaiter (s : State) (key : Nat) (pop : Bool) : Option Waiter :=
  s.waiters.find? fun x =>
    let q := match x.on with
      | .pop q _ => if pop then some q else none
      | .push q _ => if pop then none else some q
      | _ => none
    match q, Map.find s.waves x.wave with
    | some q, some w => w.boundTo q == some key
    | _, _ => false

/-! ### Phase drain events (R151) -/

/-- The slots that wait for the phase at a place are woken. -/
def State.wakePhase (s : State) (place : Nat) : State :=
  { s with waiters := s.waiters.map fun x => match x.on with
      | .phend p _ => if p = place then { x with on := .phend p true } else x
      | _ => x }

/-- A phase's entries after one event of a kind at a target. -/
def Phase.count (p : Phase) (kind target : Nat) : Phase :=
  let es := p.entries.map fun e => if e.1 == kind && e.2.1 == target then (e.1, e.2.1, e.2.2 - 1) else e
  { p with entries := es, complete := p.complete || es.all fun e => e.2.2 == 0 }

/-- One qualifying event: every registered entry of its kind and target counts down (R151). -/
def State.phaseEvent (s : State) (kind target : Nat) : State :=
  let hit := s.phases.filter fun e => !e.2.complete && (e.2.count kind target).complete
  hit.foldl (fun s e => s.wakePhase e.1) { s with phases := s.phases.map fun e => (e.1, e.2.count kind target) }

/-- A push's whole effect, of SPAWN as of QPSH: items appended in order, and one event of drained phases, for the one operation
(R150, R151, R410; log 31). -/
def State.pushItems (s : State) (h q key : Nat) (items : List (List Word)) : State :=
  (s.appendItems h q key items).phaseEvent 1 key

/-- Hand-offs at a queue: the oldest pop waiter takes the item at HEAD, the oldest push waiter enters once its items fit
(R137, R411); a second slot that has no room for the item waits on (R182). -/
def State.serveQueue (key : Nat) : Nat → State → State
  | 0, s => s
  | fuel + 1, s =>
    match Map.find s.queues key with
    | none => s
    | some q =>
      match (if q.fill = 0 then none else s.queueWaiter key true), s.queueWaiter key false with
      | some x, _ =>
        match x.on, s.waiterSlot x with
        | .pop _ d, some k =>
          if !k.room q.itemw then s
          else (((s.putQueue key { q with head := q.head + 1 }).write k (runOf d (s.headItem key q))).finish k 4).serveQueue key fuel
        | _, _ => s
      | none, some x =>
        match x.on, s.waiterSlot x with
        | .push r items, some k =>
          if items.length ≤ q.free then ((s.pushItems k.h r key items).finish k 4).serveQueue key fuel
          else s
        | _, _ => s
      | none, none => s

/-- Every hand-off that is due at a queue. -/
def State.serve (s : State) (key : Nat) : State := s.serveQueue key (s.waiters.length + 1)

/-- A push to the queue at `key` would proceed at once: room, and nobody waits before it. -/
def State.pushable (s : State) (key n : Nat) : Bool :=
  (match Map.find s.queues key with
    | some q => decide (n ≤ q.free)
    | none => false) && (s.queueWaiter key false).isNone

/-- A binding ends; with the last one the header keeps the final HEAD and TAIL (R136, R143). -/
def State.unbind (s : State) (h q : Nat) : State :=
  match (Map.find s.waves h).bind (·.boundTo q) with
  | none => s
  | some key =>
    let s1 := s.modWave h fun w => { w with binds := Map.erase w.binds q }
    if s1.waves.any fun e => e.2.binds.any fun b => b.2.queue == key then s1
    else match Map.find s1.queues key with
      | some qu => { s1.putQueue key qu with queues := Map.erase s1.queues key }
      | none => s1

/-- The controller of a scratchpad address: the cluster's, or the die's for die scratchpad. -/
def Slot.controller (k : Slot) (a : Nat) : Nat := if field a 31 28 = 3 then 16 + k.die else k.cluster

/-! ## The instructions -/

/-- The queue a slot's register is bound to, with its live state. -/
def State.boundQueue (s : State) (k : Slot) (q : Nat) : Option (Nat × Queue) :=
  (k.w.boundTo q).bind fun key => (Map.find s.queues key).map fun qu => (key, qu)

/-- QPSH (R140, R141). -/
def execQpsh (q a : Nat) (s : State) : Res :=
  issueMem s 4 fun k =>
    if q < 8 then
      if 63 ≤ k.w.pathCount .cp then s.full k .cp
      else if s.intakeRoom k (q == 2) then (s.send k (q == 2) (k.run a 8)).finish k 4
      else s.await k (.push q [k.run a 8])
    else match s.boundQueue k q with
      | none => s.trap k (k.illegal (.qpsh q a))
      | some (key, qu) =>
        if 64 < a + qu.itemw then s.trap k (k.illegal (.qpsh q a))
        else s.atCommit k (.qpsh q a)
          (if s.unperformed k then s
          else if s.pushable key 1 then ((s.pushItems k.h q key [k.run a qu.itemw]).finish k 4).serve key
          else if k.det then s
          else s.await k (.push q [k.run a qu.itemw]))

/-- QPOP (R140, R141). -/
def execQpop (d q : Nat) (s : State) : Res :=
  issueMem s 4 fun k =>
    if q < 8 then
      s.atCommit k (.qpop d q)
        (if !k.room 8 then s
        else match k.w.records q with
          | r :: rs => ((s.modWave k.h (·.setRecords q rs)).write k (runOf d r)).finish k 4
          | [] => if k.det then s else s.await k (.record q d))
    else match s.boundQueue k q with
      | none => s.trap k (k.illegal (.qpop d q))
      | some (key, qu) =>
        if 64 < d + qu.itemw then s.trap k (k.illegal (.qpop d q))
        else s.atCommit k (.qpop d q)
          (if !k.room qu.itemw then s
          else if 0 < qu.fill then
            (((s.putQueue key { qu with head := qu.head + 1 }).write k (runOf d (s.headItem key qu))).finish k 4).serve key
          else if k.det then s
          else s.await k (.pop q d))

/-- QTRY's results: registers and the predicate. -/
def State.tryEnd (s : State) (k : Slot) (kd a : Nat) (xs : List Word) (ok : Bool) : State :=
  (s.write k (runOf a xs ++ [(.k kd, wordOfBool ok)])).finish k 4

/-- QTRY on q0 to q3 (R142). -/
def State.tryFixed (s : State) (k : Slot) (op : QtryOp) (kd a q : Nat) : State :=
  match op with
  | .pop =>
    match k.w.records q with
    | r :: rs => if k.room 9 then (s.modWave k.h (·.setRecords q rs)).tryEnd k kd a r true else s
    | [] => if k.room 1 then s.tryEnd k kd a [] false else s
  | .push =>
    if !k.room 1 then s
    else if k.w.pathCount .cp < 63 && s.intakeRoom k (q == 2) then (s.send k (q == 2) (k.run a 8)).tryEnd k kd a [] true
    else s.tryEnd k kd a [] false
  | .query =>
    let n := if q = 1 || q = 3 then (k.w.records q).length else 63 - k.w.pathCount .cp
    if k.room 3 then s.tryEnd k kd a [BitVec.ofNat 32 n, 0] (n != 0) else s

/-- QTRY on a bound queue (R142). -/
def State.tryBound (s : State) (k : Slot) (op : QtryOp) (kd a q key : Nat) (qu : Queue) : State :=
  match op with
  | .pop =>
    if 0 < qu.fill then
      if k.room (qu.itemw + 1) then
        ((s.putQueue key { qu with head := qu.head + 1 }).tryEnd k kd a (s.headItem key qu) true).serve key
      else s
    else if k.room 1 then s.tryEnd k kd a [] false else s
  | .push =>
    if !k.room 1 then s
    else if !s.unperformed k && s.pushable key 1 then
      ((s.pushItems k.h q key [k.run a qu.itemw]).tryEnd k kd a [] true).serve key
    else s.tryEnd k kd a [] false
  | .query =>
    let al := ((Map.find k.w.binds q).map (·.allowance)).getD 0
    if k.room 3 then s.tryEnd k kd a [BitVec.ofNat 32 qu.fill, BitVec.ofNat 32 al] (qu.fill != 0) else s

/-- QTRY never suspends on the queue (R142). -/
def execQtry (op : QtryOp) (kd a q : Nat) (s : State) : Res :=
  issueMem s 4 fun k =>
    let i := Instr.qtry op kd a q
    if q < 8 then s.atCommit k i (s.tryFixed k op kd a q)
    else match s.boundQueue k q with
      | none => s.trap k (k.illegal i)
      | some (key, qu) =>
        if op ≠ .query && 64 < a + qu.itemw then s.trap k (k.illegal i)
        else s.atCommit k i (s.tryBound k op kd a q key qu)

/-- A header obeys R135; a fill above CAP breaks it (log 55). -/
def headerOk (h : List Word) : Bool :=
  let cap := (h.getD 0 0).toNat % 2 ^ 16
  let itemw := field (h.getD 0 0).toNat 19 16
  let fill := (h.getD 2 0 - h.getD 1 0).toNat
  (h.getD 0 0).toNat / 2 ^ 20 == 0 && decide (1 ≤ itemw) && decide (itemw ≤ 8) &&
  ((List.range 12).any fun i => cap == 2 ^ (i + 1)) && decide (fill ≤ cap) && (h.drop 3).all (· == 0)

/-- Waiting places of a wave on register `q` that its new binding does not suit issue again: a run past the last register, an item
of another width, or a wider item than the held-write buffer has room for (R143, R182). A place that is kept stands where it stood
among the waiters (log 71). -/
def State.rebindWaiters (s : State) (h q itemw : Nat) : State :=
  { s with waiters := s.waiters.filter fun x =>
      !(x.wave == h && (match x.on with
        | .pop q' d => q' == q && (decide (64 < d + itemw) || !((s.waiterSlot x).any (·.room itemw)))
        | .push q' items => q' == q && items.any fun it => it.length != itemw
        | _ => false)) }

/-- A binding of `q` to the queue at `key`, loading its header if it is not active; who waits there is served after it (R136,
R143). -/
def State.bindQueue (s : State) (k : Slot) (q key ctl : Nat) (hdr : List Word) : State :=
  let s1 := if k.w.boundTo q = some key then s else s.unbind k.h q
  let qu : Queue := (Map.find s.queues key).getD
    { ctl := ctl, cap := (hdr.getD 0 0).toNat % 2 ^ 16, itemw := field (hdr.getD 0 0).toNat 19 16, head := hdr.getD 1 0, tail := hdr.getD 2 0 }
  let s2 := { s1 with queues := Map.put s1.queues key qu }
  (s2.modWave k.h fun w => { w with binds := Map.put w.binds q ⟨key, 0⟩ }).rebindWaiters k.h q qu.itemw

/-- QBIND (R143). An unbind drops the places of slots that wait on the register: their operations issue again, and trap as unbound
(log 71). -/
def execQbind (u : Bool) (q a kb : Nat) (s : State) : Res :=
  issueMem s 4 fun k =>
    let i := Instr.qbind u q a kb
    if u then
      s.atCommit k i (({ s with waiters := s.waiters.filter fun x => !(x.wave == k.h && (match x.on with
          | .pop q' _ => q' == q
          | .push q' _ => q' == q
          | _ => false)) }.unbind k.h q).finish k 4)
    else
      let at_ := (k.s a).toNat
      s.withScr k at_ 32 32 0 fun key => s.atCommit k i (
        let hdr := (List.range 8).map fun i => BitVec.ofNat 32 (s.seenNum k (.scr (key + 4 * i)) 4)
        let live := Map.find s.queues key
        let cap := (live.map (·.cap)).getD ((hdr.getD 0 0).toNat % 2 ^ 16)
        let itemw := (live.map (·.itemw)).getD (field (hdr.getD 0 0).toNat 19 16)
        s.withScr k at_ (32 + 4 * cap * itemw) 32 0 fun _ =>
          let ctl := k.controller at_
          let room := live.isSome || decide ((s.queues.filter fun e => e.2.ctl == ctl).length < 64)
          let ok := (live.isSome || headerOk hdr) && room
          if !k.room 1 then s
          else
            let t := ((if ok then s.bindQueue k q key ctl hdr else s).write k [(.k kb, wordOfBool ok)]).finish k 4
            if ok then t.serve key else t)

end Sys2Proof.Machine
end

