-- ==== Sys2Proof/Machine/Access.lean ====
section
/-! DEFINITION. Loads and stores of memory and scratchpads, their sectors, errors and page walks
(spec/03_device_memory.md R61-R93, spec/04_scratchpads.md R94-R118, spec/25_host_and_fabric.md R486, R487). -/

namespace Sys2Proof.Machine

/-! ## Whose a wave is, and errors at its boundary -/

/-- The launch of a wave. -/
def State.launchOf (s : State) (h : Nat) : Option (Nat × Launch) :=
  (Map.find s.waves h).bind fun w => (Map.find s.groups w.group).bind fun g =>
    (Map.find s.launches g.launch).map fun l => (g.launch, l)

/-- The launch of a wave is deterministic. -/
def State.detWave (s : State) (h : Nat) : Bool := ((s.launchOf h).map fun e => e.2.block.det) == some true
/-- The tenant of a wave. -/
def State.tenantOf (s : State) (h : Nat) : Nat := ((s.launchOf h).map fun e => e.2.tenant).getD 0

/-- An error is taken at the wave's next boundary: at once, or after the trap it has stopped for (R88). It is the issuing
slot's while that slot holds a fragment; a wave that has ended has no boundary left, and the report is dropped (log 51). -/
def State.imprecise (s : State) (h : Nat) (t : Trap) : State :=
  match Map.find s.waves h with
  | none => s
  | some w =>
    let second := t.second && w.second.isSome
    match w.frag second with
    | none => s
    | some f =>
      let t := { t with precise := false, second := second, rmask := f.again.getD f.mask }
      if w.stop.isSome then s.modWave h fun w => { w with errs := w.errs ++ [t] }
      else s.raise h second (((s.launchOf h).map fun e => e.2.block.code).getD 0) t

/-- The physical address of a place's sector; zero for a scratchpad (R88, R106). -/
def Loc.sectorPA (x : Loc) : DWord :=
  match x with
  | .mem k => BitVec.ofNat 64 (k / 64 * 64 % 2 ^ 52)
  | .scr _ => 0

/-- The address an error record carries: the failing sector's virtual address, or the scratchpad address. -/
def errAddr (va : DWord) (x : Loc) : DWord :=
  match x with
  | .mem _ => va &&& ~~~63
  | .scr _ => va

/-- The error of an operation's part at a place: its cause, address and lanes (R88, R434). -/
def Out.errorTrap (o : Out) (cause : Nat) (va : DWord) (x : Loc) (m : Mask) : Trap :=
  { cause := cause, second := o.second, pc := o.pc, addr := errAddr va x, paddr := x.sectorPA, lmask := m }

/-! ## Elements and registers -/

/-- The words of a value of `n` bytes. -/
def wordsOf (v n : Nat) : List Word := (List.range ((n + 3) / 4)).map fun i => BitVec.ofNat 32 (v >>> (32 * i))

/-- A loaded value extended to its register words (R90). -/
def loadWords (sx : Bool) (v n : Nat) : List Word :=
  if sx && decide (n < 4) then [BitVec.ofInt 32 (signed v (8 * n))] else wordsOf v n

/-- Data of operation `seq` reaches its registers: vector words by key, or uniform registers, held or not (R81, R180). -/
def State.land (s : State) (h seq : Nat) (uni : Bool) (dst : List Nat) (ws : List Word) : State :=
  if !uni then
    s.modWave h fun w =>
      { w with v := (List.range dst.length).foldl (fun v i => Sparse.set 0 v (dst.getD i 0) (ws.getD i 0)) w.v }
  else
    match Map.find s.waves h with
    | none => s
    | some w =>
      if w.held.any fun e => e.seq == seq && e.val.isNone then s.fillHeld h seq ws
      else (List.range dst.length).foldl (fun s i => s.putDst h (.s (dst.getD i 0)) (ws.getD i 0)) s

/-- Entries of the held-write buffer that wait for operation `seq`'s data (R180, R491). -/
def Slot.expect (k : Slot) (seq : Nat) (ds : List HDst) (w : Wave) : Wave :=
  if k.second then
    { w with held := w.held ++ (List.range ds.length).map fun i =>
        { dst := ds.getD i .sat, val := none, level := w.stack.length, seq := seq, idx := i } }
  else w

/-- Elements grouped by the sector that serves them, in the order sectors are first met (R79). -/
def addElem (cs : List (List Elem)) (e : Elem) : List (List Elem) :=
  match cs with
  | [] => [[e]]
  | c :: r => if (c.map (·.loc.sector)).contains e.loc.sector then (c ++ [e]) :: r else c :: addElem r e

/-- The sectors of a load. -/
def chunksOf (es : List Elem) : List (List Elem) := es.foldl addElem []

/-- Bytes of one lane, all in one sector, added to the sectors of a store. -/
def addBytes (ss : List StSec) (va : DWord) (l : Nat) (bs : List (Loc × Byte)) : List StSec :=
  match ss with
  | [] => [{ va := va, lanes := maskOf [l], bytes := bs }]
  | c :: r =>
    if (c.bytes.map (·.1.sector)).head? == (bs.map (·.1.sector)).head? then
      { c with lanes := c.lanes ||| maskOf [l], bytes := c.bytes ++ bs } :: r
    else c :: addBytes r va l bs

/-- A store's lanes in ascending order, so that the highest one supplies a byte (R80, R105). -/
def sectorsOf (xs : List (Nat × DWord × Loc)) (data : Nat → List Byte) : List StSec :=
  xs.foldl (fun ss e => addBytes ss e.2.1 e.1 (placeBytes e.2.2 (data e.1))) []

/-! ## The store hash (R464) -/

/-- One update of the store hash. -/
def hashStep (h a d : Word) : Word := h.rotateLeft 7 ^^^ a ^^^ d

/-- The hash after one element of `n` bytes at `a`. -/
def hashElem (h : Word) (a : DWord) (v n : Nat) : Word :=
  if n ≤ 4 then hashStep h (a.truncate 32) (BitVec.ofNat 32 (v % 2 ^ (8 * n)))
  else (List.range (n / 4)).foldl (fun h i => hashStep h ((a + BitVec.ofNat 64 (4 * i)).truncate 32) (BitVec.ofNat 32 (v >>> (32 * i)))) h

/-! ## Issue of global accesses (R78, R85-R87) -/

/-- Lanes and addresses that break the alignment to `n` bytes. -/
def unaligned (xs : List (Nat × DWord)) (n : Nat) : List (Nat × DWord) := xs.filter fun e => e.2.toNat % n != 0

/-- The trap for failing lanes, the address of the lowest. -/
def Slot.laneTrap (k : Slot) (cause reason access : Nat) (bad : List (Nat × DWord)) (uni : Bool) : Trap :=
  { k.trap cause reason with
    access := access
    addr := (bad.headD (0, 0)).2
    lmask := if uni then k.mask else maskOf (bad.map (·.1)) }

/-- The lanes that translated, with their places. -/
def State.translated (s : State) (xs : List (Nat × DWord × Xlate)) : List (Nat × DWord × Loc) :=
  xs.filterMap fun e => match e.2.2 with
    | .ok t p => some (e.1, e.2.1, s.placeOf t p)
    | _ => none

/-- The lanes that faulted: lane, address, reason, region size. -/
def faulted (xs : List (Nat × DWord × Xlate)) : List (Nat × DWord × Nat × Nat) :=
  xs.filterMap fun e => match e.2.2 with
    | .fault r sz => some (e.1, e.2.1, r, sz)
    | _ => none

/-- Page Fault for the faulting lanes (R86): page P is the region of the lowest lane's fault. -/
def Slot.pageTrap (k : Slot) (access : Nat) (fs : List (Nat × DWord × Nat × Nat)) (uni : Bool) : Trap :=
  let f := fs.headD (0, 0, 0, 12)
  let inPage := fs.filter fun e => e.2.1.toNat / 2 ^ f.2.2.2 == f.2.1.toNat / 2 ^ f.2.2.2
  { k.trap 0x04 f.2.2.1 with
    access := access
    addr := f.2.1
    lmask := if uni then k.mask else maskOf (inPage.map (·.1))
    rmask := if uni then k.mask else maskOf (fs.map (·.1)) }

/-- The lanes whose walk could not read a table entry: lane, address, key of the entry. -/
def unread (xs : List (Nat × DWord × Xlate)) : List (Nat × DWord × Nat) :=
  xs.filterMap fun e => match e.2.2 with
    | .error key => some (e.1, e.2.1, key)
    | _ => none

/-- A table entry that a walk could not read is an error of the lanes that wait for it (R70, R71, log 13). -/
def State.walkError (s : State) (k : Slot) (uni : Bool) (es : List (Nat × DWord × Nat)) : State :=
  (es.map (·.2.2)).eraseDups.foldl (fun s key =>
    let mine := es.filter (·.2.2 == key)
    s.imprecise k.h { k.trap (Loc.mem key).errorCause with
      addr := (mine.headD (0, 0, key)).2.1, paddr := (Loc.mem key).sectorPA
      lmask := if uni then k.mask else maskOf (mine.map (·.1)) }) s

/-- The lanes whose address is a fabric address (R486, R487). -/
def onFabricLanes (xs : List (Nat × DWord × Xlate)) : List Nat :=
  (xs.filter fun e => match e.2.2 with
    | .ok t p => t == 2 && bitAt p 51
    | _ => false).map (·.1)

/-- The lanes for which an access acts at system scope, `far` being those on the fabric: all of an access that is made once (R486). -/
def sysLanes (uni : Bool) (far : List Nat) : Mask := if far.isEmpty then 0 else if uni then BitVec.allOnes 64 else maskOf far

/-- The wave's outstanding operations after the first `n` are changed by `f`: what an instruction has just issued. -/
def Wave.marking (w : Wave) (n : Nat) (f : Out → Out) : Wave := { w with outs := w.outs.take n ++ (w.outs.drop n).map f }

/-- The operations issued after the first `n` access for the lanes `m` at system scope. -/
def Wave.atSystem (w : Wave) (n : Nat) (m : Mask) : Wave := w.marking n fun o => { o with sys := m }

/-- A global access of the lanes `xs` (address by lane): alignment first, then translation of every lane; lanes that
translate perform by `mk`, and the others, if any, end the instruction in a Page Fault that re-executes them (R85-R87). -/
def State.globalAccess (s : State) (k : Slot) (len n need access : Nat) (uni : Bool) (xs : List (Nat × DWord))
    (mk : List (Nat × DWord × Loc) → Wave → Wave) : State :=
  let bad := unaligned xs n
  if !bad.isEmpty then s.trap k (k.laneTrap 0x06 0 access bad uni)
  else
    let ts := xs.map fun e => (e.1, e.2, s.xlate k.w k.f.side k.core k.l.tenant e.2 need)
    let misses := (ts.filter fun e => e.2.2 == .miss).map (·.2.1)
    if !misses.isEmpty then s.missAll k need misses
    else
      let good := s.translated ts
      let fs := faulted ts
      let s1 := s.modWave k.h fun w => ((if good.isEmpty then w else mk good w).atSystem w.outs.length (sysLanes uni (onFabricLanes ts))).clearFaults k.f.side
      (if fs.isEmpty then s1.finish k len
      else
        (s1.modWave k.h fun w => if uni then w else w.setFrag k.second (some { k.f with again := some (maskOf (fs.map (·.1))) })).raise
          k.h k.second k.l.block.code (k.pageTrap access fs uni)).walkError k uni (unread ts)

/-- A scratchpad access of the lanes `xs`: alignment, whose record names the misaligned lanes alone (log 69), then R94 to R98, over all
of them; then every lane performs (R99). -/
def State.scratchAccess (s : State) (k : Slot) (len n access : Nat) (xs : List (Nat × DWord))
    (mk : List (Nat × DWord × Loc) → Wave → Wave) : State :=
  let bad := unaligned xs n
  if !bad.isEmpty then s.trap k (k.laneTrap 0x06 0 access bad false)
  else
    let rs := xs.map fun e => (e.1, e.2, s.scr k.ctx e.2.toNat)
    let fails := rs.filterMap fun e => match e.2.2 with
      | .error r => some (e.1, e.2.1, r)
      | .ok _ => none
    if !fails.isEmpty then
      s.trap k (k.laneTrap 0x05 (fails.headD (0, 0, 0)).2.2 access (fails.map fun e => (e.1, e.2.1)) false)
    else
      let good := rs.filterMap fun e => match e.2.2 with
        | .ok key => some (e.1, e.2.1, Loc.scr key)
        | .error _ => none
      (s.modWave k.h (mk good)).finish k len

/-- Bytes of an element of width code `w` (R33, R90). -/
def widthBytes (w : Nat) : Nat := 2 ^ w
/-- Registers of an element. -/
def widthRegs (w : Nat) : Nat := (2 ^ w + 3) / 4

/-- An order acquires, or releases. -/
def acquires (o : MemOrder) : Bool := o == .acq || o == .ar
def releases (o : MemOrder) : Bool := o == .rel || o == .ar

/-- The memory extension of an instruction of one word: plain, at wave scope (R40). -/
def plainExt : MemExt := ⟨.plain, .wave, false, 0⟩

/-- The wave with a vector load of the lanes `xs` issued. -/
def Slot.loadLanes (k : Slot) (d w : Nat) (x : MemExt) (xs : List (Nat × DWord × Loc)) (wv : Wave) : Wave :=
  wv.push (k.newOut .ld (acquires x.order) false (.load (chunksOf (xs.map fun e =>
    { lane := e.1, loc := e.2.2, va := e.2.1, n := widthBytes w, dst := (List.range (widthRegs w)).map fun i => k.w.vkey (d + i) + e.1,
      sx := x.sx, uni := false }))))

/-- A store issued, with its order and its scope (R40, R84). -/
def Slot.newStore (k : Slot) (x : MemExt) (op : Op) : Out := { k.newOut .st false (releases x.order) op with scope := x.scope }

/-- The value a lane stores: the low `w` bits of its registers (R90). -/
def Slot.storeValue (k : Slot) (d w l : Nat) : Nat :=
  ((List.range (widthRegs w)).foldl (fun v i => v + (k.w.vget (d + i) l).toNat * 2 ^ (32 * i)) 0) % 2 ^ (8 * widthBytes w)

/-- The wave with a vector store of the lanes `xs` issued, and its store hash updated (R464). -/
def Slot.storeLanes (k : Slot) (d w : Nat) (x : MemExt) (xs : List (Nat × DWord × Loc)) (wv : Wave) : Wave :=
  let o := k.newStore x
    (.store (sectorsOf xs fun l => bytesOfNat (k.storeValue d w l) (widthBytes w)))
  { (wv.push o) with
    hash := xs.foldl (fun h e => hashElem h e.2.1 (k.storeValue d w e.1) (widthBytes w)) wv.hash
    qops := if k.det then wv.qops ++ [.out o.seq] else wv.qops }

/-- The names of a vector access. -/
def memNames (d a w : Nat) : List (Nat × Nat) := runNames 0 d (widthRegs w) ++ [(1, a)]

/-- Global addresses of the active lanes (R90). -/
def Slot.eas (k : Slot) (a bp : Nat) (x : MemExt) : List (Nat × DWord) :=
  k.lanes.map fun l => (l, k.s64 (2 * bp) + (k.w.vget a l).zeroExtend 64 + x.offset.signExtend 64)

/-- Scratchpad addresses of the active lanes (R111). -/
def Slot.sas (k : Slot) (a bp : Nat) (x : MemExt) : List (Nat × DWord) :=
  k.lanes.map fun l => (l, (k.s (2 * bp) + k.w.vget a l + x.offset.signExtend 32).zeroExtend 64)

/-- A global vector load or store. -/
def globalVec (s : State) (len d a bp w : Nat) (x : MemExt) (store : Bool) : Res :=
  issueMem s len fun k =>
    let p := if store then .st else .ld
    if !k.mayCount p then s.full k p
    else s.vnamed k (memNames d a w)
      (s.globalAccess k len (widthBytes w) (bit store) (bit store) false (k.eas a bp x)
        (if store then k.storeLanes d w x else k.loadLanes d w x))

/-- A scratchpad vector load or store. -/
def scratchVec (s : State) (len d a bp w : Nat) (x : MemExt) (store : Bool) : Res :=
  issueMem s len fun k =>
    let p := if store then .st else .ld
    if !k.mayCount p then s.full k p
    else s.vnamed k (memNames d a w)
      (s.scratchAccess k len (widthBytes w) (bit store) (k.sas a bp x)
        (if store then k.storeLanes d w x else k.loadLanes d w x))

/-- The one address of a uniform access (R92). -/
def Slot.uea (k : Slot) (a bp : Nat) (x : MemExt) : DWord :=
  k.s64 (2 * bp) + (k.s a).zeroExtend 64 + x.offset.signExtend 64

/-- The wave with a uniform load issued: its registers are held for the second slot (R93). -/
def Slot.loadUni (k : Slot) (d n regs : Nat) (acq sx : Bool) (xs : List (Nat × DWord × Loc)) (wv : Wave) : Wave :=
  k.expect k.w.nextSeq ((List.range regs).map fun i => .s (d + i)) (wv.push (k.newOut .ld acq false (.load (chunksOf (xs.map fun e =>
    { lane := 64, loc := e.2.2, va := e.2.1, n := n, dst := (List.range regs).map (d + ·), sx := sx, uni := true })))))

/-- The value a uniform store writes. -/
def Slot.uniValue (k : Slot) (d w : Nat) : Nat :=
  ((List.range (widthRegs w)).foldl (fun v i => v + (k.s (d + i)).toNat * 2 ^ (32 * i)) 0) % 2 ^ (8 * widthBytes w)

/-- The wave with a uniform store issued; it counts as one lane of the store hash (R464). -/
def Slot.storeUni (k : Slot) (d w : Nat) (x : MemExt) (xs : List (Nat × DWord × Loc)) (wv : Wave) : Wave :=
  let o := k.newStore x
    (.store (xs.map fun e => { va := e.2.1, lanes := k.mask, bytes := placeBytes e.2.2 (bytesOfNat (k.uniValue d w) (widthBytes w)) }))
  { (wv.push o) with
    hash := xs.foldl (fun h e => hashElem h e.2.1 (k.uniValue d w) (widthBytes w)) wv.hash
    qops := if k.det then wv.qops ++ [.out o.seq] else wv.qops }

/-- LDU or STU (R92, R93). -/
def uniAccess (s : State) (len d a bp w : Nat) (x : MemExt) (store : Bool) : Res :=
  issueMem s len fun k =>
    let p := if store then .st else .ld
    if !k.mayCount p then s.full k p
    else if !store && !k.room (widthRegs w) then s
    else
      s.globalAccess k len (widthBytes w) (bit store) (bit store) true [(0, k.uea a bp x)]
        (if store then k.storeUni d w x else k.loadUni d (widthBytes w) (widthRegs w) (acquires x.order) x.sx)

/-- LDG (R90, R91). -/
def execLdg (d a bp w : Nat) (s : State) : Res := globalVec s 4 d a bp w plainExt false
/-- STG (R90, R91). -/
def execStg (d a bp w : Nat) (s : State) : Res := globalVec s 4 d a bp w plainExt true
/-- LDS (R111-R113). -/
def execLds (d a bp w : Nat) (s : State) : Res := scratchVec s 4 d a bp w plainExt false
/-- STS (R111-R113). -/
def execSts (d a bp w : Nat) (s : State) : Res := scratchVec s 4 d a bp w plainExt true
/-- LDU (R92, R93). -/
def execLdu (d a bp w : Nat) (s : State) : Res := uniAccess s 4 d a bp w plainExt false
/-- STU (R92, R93). -/
def execStu (d a bp w : Nat) (s : State) : Res := uniAccess s 4 d a bp w plainExt true
/-- LDG with an extension word (R40, R84, R90). -/
def execLdgX (d a bp w : Nat) (x : MemExt) (s : State) : Res := globalVec s 8 d a bp w x false
/-- STG with an extension word. -/
def execStgX (d a bp w : Nat) (x : MemExt) (s : State) : Res := globalVec s 8 d a bp w x true
/-- LDS with an extension word (R112). -/
def execLdsX (d a bp w : Nat) (x : MemExt) (s : State) : Res := scratchVec s 8 d a bp w x false
/-- STS with an extension word (R112). -/
def execStsX (d a bp w : Nat) (x : MemExt) (s : State) : Res := scratchVec s 8 d a bp w x true
/-- LDU with an extension word. -/
def execLduX (d a bp w : Nat) (x : MemExt) (s : State) : Res := uniAccess s 8 d a bp w x false
/-- STU with an extension word. -/
def execStuX (d a bp w : Nat) (x : MemExt) (s : State) : Res := uniAccess s 8 d a bp w x true

/-! ## Sectors landing and stores performing -/

/-- An earlier load, atomic, FITLD or FITSV of the wave to the same bytes has not performed (R83, R345). -/
def Wave.readsBefore (w : Wave) (seq : Nat) (tag : Tag) (x : Loc) (n : Nat) : Bool :=
  w.outs.any fun o => decide (o.seq < seq) && !o.done && tagOrdered o.tag tag && o.touches x n && (match o.op with
    | .atomic _ _ _ _ _ _ => true
    | .fit _ _ _ _ _ => true
    | _ => o.path == .ld)

/-- One element of a load arrives (R81, R90). -/
def State.arriveElem (s : State) (h : Nat) (o : Out) (e : Elem) : State :=
  match Map.find s.waves h with
  | none => s
  | some w => s.land h o.seq e.uni e.dst (loadWords e.sx (wordOfBytes (s.viewBytes w o.seq o.tag e.loc e.n)) e.n)

/-- The chunk `idx` of a load is served; the last one completes it (R81). -/
def State.dropChunk (s : State) (h seq idx : Nat) (chunks : List (List Elem)) : State :=
  let cs := chunks.eraseIdx idx
  s.modWave h fun w => if cs.isEmpty then (w.setOp seq (.load cs)).complete seq else w.setOp seq (.load cs)

/-- Every write that the waves of a tenant have performed at a narrower scope performs at device scope: PROMOTE has read (R388). -/
def State.promoted (s : State) (tenant : Nat) : State := s.widen 4 fun f => s.tenantOf f.wave == tenant

/-- LOAD_SECTOR_RETURN (R81, R83, R388): a sector's elements are written once earlier reads of its bytes have performed. -/
def execLoadSectorReturn (h seq idx : Nat) (s : State) : Res :=
  match (Map.find s.waves h).bind fun w => (w.out seq).map fun o => (w, o) with
  | none => .next s
  | some (w, o) =>
    match o.op with
    | .load chunks =>
      match chunks[idx]? with
      | none => .next s
      | some c =>
        if c.any fun e => !s.reaches (s.tenantOf h) e.loc then .next s
        else if if s.detWave h then c.any fun e => w.tstDue o.seq e.loc e.n else c.any fun e => w.readsBefore o.seq o.tag e.loc e.n then
          .next s
        else
          let s1 := (c.foldl (fun s e => s.arriveElem h o e) s).dropChunk h seq idx chunks
          .next (if o.promote then s1.promoted (s.tenantOf h) else s1)
    | _ => .next s

/-- A store's bytes may perform: a release has nothing before it, and no earlier access to its bytes is left (R83, R84). -/
def Wave.storeReady (w : Wave) (o : Out) (secs : List StSec) : Bool :=
  !(o.rel && w.earlier o.seq o.tag) &&
  !(secs.any fun c => c.bytes.any fun e => w.conflicts o.seq o.tag e.1 1)

/-- The code of the scope at which the access of the lanes `m` of an operation is, where `n` is the one it names: system scope
through a fabric address (R486, R487). -/
def Out.scopeAt (o : Out) (n : Nat) (m : Mask) : Nat := if m &&& o.sys ≠ 0 then 5 else n

/-- The bytes of a wave's store perform at scope `n`, in the coherence order's next place. -/
def State.sendBytes (s : State) (h : Nat) (o : Out) (n : Nat) (bs : List (Loc × Byte)) : State :=
  match Map.find s.waves h with
  | none => s
  | some w =>
    s.perform { wave := h, seq := o.seq, group := w.group, idx := w.idx, core := s.coreFor w, scope := n, bytes := bs }

/-- The sectors of a store perform: at the scope `n` it names, those through fabric addresses at system scope, each after every
write the wave sees where it releases (R373, R486). -/
def State.sendSecs (s : State) (h : Nat) (o : Out) (n : Nat) (secs : List StSec) : State :=
  let far := secs.filter fun c => o.scopeAt n c.lanes != n
  let near := secs.filter fun c => o.scopeAt n c.lanes == n
  let s1 := if o.rel then s.relAt h (if far.isEmpty then n else 5) else s
  let s2 := if near.isEmpty then s1 else s1.sendBytes h o n (near.flatMap (·.bytes))
  if far.isEmpty then s2 else s2.sendBytes h o 5 (far.flatMap (·.bytes))

/-- A store's bytes perform at scope `n`, and its count falls; for a release, every write that the wave sees performs there
first (R373). The parts in `bad`, by cause and number, meet an error: their bytes are written for a memory error and lost for a
fabric error (R88, R487; a TIER 2 error so by log 52). -/
def State.performStore (s : State) (h : Nat) (o : Out) (secs : List StSec) (n : Nat) (bad : List (Nat × Nat)) : State :=
  let lost := fun (i : Nat) => bad.any fun e => e.1 == 0x21 && e.2 == i
  let live := (List.range secs.length).filterMap fun i => if lost i then none else secs[i]?
  bad.foldl (fun s e => match secs[e.2]? with
    | some c => s.imprecise h (o.errorTrap e.1 c.va (c.bytes.headD (.mem 0, 0)).1 c.lanes)
    | none => s) ((s.sendSecs h o n live).modWave h (·.complete o.seq))

/-- STORE_PERFORMED (R13, R81, R83, R84): a store's bytes perform at its scope and its count falls. For a store that has done so,
its write goes on to the next wider scope. -/
def execStorePerformed (h seq : Nat) (s : State) : Res :=
  match (Map.find s.waves h).bind fun w => (w.out seq).map fun o => (w, o) with
  | none =>
    let mine := fun (f : Flight) => f.wave == h && f.seq == seq
    match s.flight.find? mine with
    | some f => .next (s.widen (f.scope + 1) mine)
    | none => .next s
  | some (w, o) =>
    match o.op with
    | .store secs =>
      if s.detWave h || !w.storeReady o secs then .next s
      else if secs.any fun c => c.bytes.any fun e => !s.reaches (s.tenantOf h) e.1 then .next s
      else .next (s.performStore h o secs o.scope.code [])
    | _ => .next s

/-! ## Errors (R88, R106, R361, R487) -/

/-- Part `idx` of an operation: the place that an error of it names, and its virtual address. A scratchpad load's part is an
element's first word, with the word's number in `idx` / 2^16: the record names that address, of the lane that the access serves
first, also where the word holds smaller elements or names of other lanes (R106; log 68). -/
def Out.part (o : Out) (idx : Nat) : Option (Loc × DWord) :=
  let n := idx / 2 ^ 16
  match o.op with
  | .load chunks => (chunks[idx % 2 ^ 16]?).bind fun c => c.head?.bind fun e => match e.loc with
    | .mem _ => if n = 0 then some (e.loc, e.va) else none
    | .scr _ => if n * 4 < max e.n 4 then some (e.loc.add (4 * n), e.va + BitVec.ofNat 64 (4 * n)) else none
  | .store secs => (secs[idx]?).bind fun c => c.bytes.head?.map fun b => (b.1, c.va)
  | .atomic _ _ _ _ _ reqs => (reqs[idx]?).map fun r => (r.loc, r.va)
  | .fit _ _ _ va locs => (locs[idx]?).map fun x => (x, va + BitVec.ofNat 64 (4 * idx))
  | _ => none

/-- A store's part can meet an error: its sector or word is partly written, or stands beyond a host port or the fabric, where
a link error or an error response may meet any access (R70, R88, R106, R487). -/
def StSec.mayFail (c : StSec) : Bool :=
  let x := (c.bytes.headD (.mem 0, 0)).1
  let n := match x with
    | .mem _ => 64
    | .scr _ => 4
  decide ((c.bytes.map (·.1)).eraseDups.length < n) || x.onHost || x.onFabric

/-- An error of `cause` on part `idx` of an operation: a load's lanes keep their elements, a store's bytes are written for a
memory error and lost for a fabric error, an atomic's step will not be performed (R88, R361, R487). What performs at a commit
meets its error there. -/
def State.accessError (s : State) (h seq idx cause : Nat) : State :=
  match (Map.find s.waves h).bind fun w => (w.out seq).map fun o => (w, o) with
  | none => s
  | some (w, o) =>
    match o.op, o.part idx with
    | .load chunks, some (x, va) =>
      let i := idx % 2 ^ 16
      let c := chunks.getD i []
      let uni := c.any (·.uni)
      let s1 := s.dropChunk h seq i chunks
      (if uni then s1.dropHeld h seq else s1).imprecise h (o.errorTrap cause va x (if uni then o.mask else maskOf (c.map (·.lane))))
    | .store secs, some (x, va) =>
      match secs[idx]? with
      | none => s
      | some c =>
        if !c.mayFail then s
        else if s.detWave h then
          s.modWave h fun w => { w with outs := w.outs.map fun p => if p.seq == seq then { p with bad := p.bad ++ [(cause, idx)] } else p }
        else if !w.storeReady o secs then s
        else
          let s1 := if cause = 0x20 then s.sendSecs h o o.scope.code [c] else s
          let rest := secs.eraseIdx idx
          (s1.modWave h fun w => if rest.isEmpty then (w.setOp seq (.store [])).complete seq else w.setOp seq (.store rest)).imprecise
            h (o.errorTrap cause va x c.lanes)
    | .atomic op wide det uni ret reqs, some _ =>
      match reqs[idx]? with
      | some r =>
        if r.res.isSome || r.failed then s
        else s.modWave h (·.setOp seq (.atomic op wide det uni ret (reqs.set idx { r with bad := some cause })))
      | none => s
    | _, _ => s

/-! ## Page walks (R74, R75, R67, R68) -/

/-- PAGE_WALK: the oldest waiting miss of a die gets a walker, if one of 512 is free (R74, R75). -/
def execPageWalk (die : Nat) (s : State) : Res :=
  let ws := (Map.find s.walks die).getD []
  match ws.findIdx? (·.result.isNone) with
  | none => .next s
  | some i =>
    match ws[i]? with
    | none => .next s
    | some x =>
      if 512 ≤ (ws.filter (·.result.isSome)).length then .next s
      else
        let r := s.walkPage die x.tenant x.page
        .next { r.1 with walks := Map.put r.1.walks die (ws.set i { x with result := some r.2 }) }

/-- An error of a recorder's write: nothing is written, and it is reported to the wave whose step is being recorded (R70; log
13). -/
def State.logError (s : State) (e : LogWrite) (key : Nat) : State :=
  match e.who with
  | some (h, pc) => s.imprecise h { cause := (Loc.mem key).errorCause, pc := pc, addr := errAddr e.va (.mem key), paddr := (Loc.mem key).sectorPA }
  | none => s

/-- The writes of launch `l`'s recorder are made in order, up to the first that has to wait for its translation; `given` is what
a walk has found for that one. A write that faults is lost (R466; log 13). -/
def State.pumpLog (l : Nat) : Nat → Option WalkRes → State → State
  | 0, _, s => s
  | fuel + 1, given, s =>
    match Map.find s.launches l with
    | none => s
    | some x =>
      match x.log.todo with
      | [] => s
      | e :: r =>
        let z := s.unitXlate l e.cluster x.tenant e.va given
        let s1 := z.1.modLaunch l fun x => { x with log := { x.log with todo := r } }
        match z.2 with
        | .miss => z.1
        | .fault _ _ => State.pumpLog l fuel none s1
        | .error key => State.pumpLog l fuel none (s1.logError e key)
        | .ok t p =>
          let y := s1.placeOf t p
          State.pumpLog l fuel none (if s1.reaches x.tenant y then s1.putNum y e.val e.n else s1.logError e y.key)

/-- The recorder's waiting writes go on. -/
def State.pump (s : State) (l : Nat) (given : Option WalkRes) : State :=
  State.pumpLog l ((((Map.find s.launches l).map (·.log.todo.length)).getD 0) + 1) given s

/-- What a walk comes to, for the recorder that waits for it. -/
def State.giveLog (s : State) (x : Walk) (l cluster : Nat) (r : WalkRes) : State :=
  match r with
  | .leaf t _ => (if x.stale then s else s.fillCluster cluster t).pump l (some r)
  | _ => s.pump l (some r)

/-- An access that takes the leaf of a stale walk may use it after the invalidation began: every invalidation that waits for the
walk waits for the access too, though it attached later (R76). -/
def State.heldUp (s : State) (x : Walk) (a : WalkFor) : State :=
  if !x.stale then s
  else
    let die := x.cluster / 3
    { s with invals := s.invals.map fun e =>
        if e.2.tenant == x.tenant && e.2.walks.contains (die, x.page) then
          (e.1, match a.unit with
            | some u => { e.2 with units := e.2.units ++ [(a.wave, u.1)] }
            | none => { e.2 with slots := e.2.slots ++ [(a.wave, ((Map.find s.waves a.wave).map (·.nextSeq)).getD 0)] })
        else e }

/-- A leaf that a walk delivers to an attached access: to the access itself, and to the caches on its path unless an
invalidation has begun meanwhile (R74, R76). -/
def State.giveLeaf (s : State) (x : Walk) (a : WalkFor) (t : Tlb) : State :=
  let s := s.heldUp x a
  match a.unit with
  | some (out, cluster) =>
    let u := s.xunit a.wave out
    let s1 := s.putXunit { u with leaves := u.leaves ++ [t] }
    if x.stale then s1 else s1.fillCluster cluster t
  | none =>
    match s.coreOf a.wave with
    | none => s
    | some core =>
      let s1 := if a.need = 2 then s else s.modWave a.wave fun w => { w with walkLeaves := w.walkLeaves ++ [(a.side, t)] }
      if x.stale then s1
      else { s1.fillCluster (core / 192) t with utlb := Map.put s1.utlb core (tlbAdd 64 ((Map.find s1.utlb core).getD []) t) }

/-- A fault that a walk delivers to an attached access. -/
def State.giveFault (s : State) (x : Walk) (a : WalkFor) (reason size : Nat) : State :=
  let f : WalkFault := ⟨a.side, x.page, reason, size, a.need⟩
  match a.unit with
  | some (out, _) => let u := s.xunit a.wave out; s.putXunit { u with faults := u.faults ++ [f] }
  | none => s.modWave a.wave fun w => { w with walkFaults := w.walkFaults ++ [f] }

/-- A walk's outcome reaches one attached access (R74). -/
def State.deliver (s : State) (x : Walk) (a : WalkFor) : State :=
  match x.result, a.log with
  | none, _ => s
  | some (.leaf t e), some (l, cluster) =>
    s.giveLog x l cluster (if t.permits a.need then .leaf t e else .fault 1 t.size)
  | some r, some (l, cluster) => s.giveLog x l cluster r
  | some (.error key), none => s.giveFault x a 6 key
  | some (.fault reason size), none => s.giveFault x a reason size
  | some (.leaf t _), none => if t.permits a.need then s.giveLeaf x a t else s.giveFault x a 1 t.size

/-- A walk that ends uses its leaf, if any access it serves may: A is set, and D for a write (R67). -/
def State.useWalk (s : State) (x : Walk) : State × Walk :=
  match x.result with
  | some (.leaf t entry) =>
    let d := x.waiters.any fun a => needsWrite a.need && t.permits a.need
    if x.waiters.any fun a => t.permits a.need then
      (s.useLeaf entry d, { x with result := some (.leaf { t with d := t.d || d } entry) })
    else (s, x)
  | _ => (s, x)

/-- WALK_COMPLETION: the walk `idx` in flight on a die ends (R74). -/
def execWalkCompletion (die idx : Nat) (s : State) : Res :=
  let ws := (Map.find s.walks die).getD []
  match (ws.filter (·.result.isSome))[idx]? with
  | none => .next s
  | some x =>
    let s1 := { s with walks := Map.put s.walks die (ws.filter fun y => !(y.tenant == x.tenant && y.page == x.page && y.result.isSome)) }
    let z := s1.useWalk x
    .next (z.2.waiters.foldl (fun s a => s.deliver z.2 a) z.1)

/-! ## Invalidation (R76) -/

/-- A range of addresses: first byte, and the byte after the last. -/
def overlaps (a b : Nat × Nat) : Bool := decide (a.1 < b.2) && decide (b.1 < a.2)

/-- The bytes a leaf maps. -/
def Tlb.range (t : Tlb) : Nat × Nat := (t.page * 2 ^ t.size, (t.page + 1) * 2 ^ t.size)

/-- An outstanding access used an address of one of the ranges. -/
def Out.uses (o : Out) (rs : List (Nat × Nat)) : Bool :=
  let hit := fun (va : DWord) (n : Nat) => rs.any (overlaps (va.toNat, va.toNat + n))
  match o.op with
  | .load chunks => chunks.any fun c => c.any fun e => hit e.va e.n
  | .store secs => secs.any fun c => hit (c.va &&& ~~~63) 64
  | .atomic _ _ _ _ _ reqs => reqs.any fun r => hit r.va 8
  | .fit _ _ _ va locs => hit va (4 * locs.length)
  | _ => false

/-- Every cached translation of a tenant that overlaps a range is dropped (R76); non-leaf entries go with it. -/
def State.dropRange (s : State) (tenant : Nat) (r : Nat × Nat) : State :=
  let hit := fun (t : Tlb) => t.tenant == tenant && overlaps t.range r
  { s with
    utlb := s.utlb.map fun e => (e.1, e.2.filter fun t => !hit t)
    ctlb := s.ctlb.map fun e => (e.1, e.2.filter fun t => !hit t)
    wcache := s.wcache.map fun e => (e.1, e.2.filter fun x => x.tenant != tenant) }

/-- A walk in flight over a range: for a page of it, or of a page whose leaf overlaps it. -/
def Walk.over (x : Walk) (tenant : Nat) (r : Nat × Nat) : Bool :=
  x.tenant == tenant && (match x.result with
    | none => false
    | some (.leaf t _) => overlaps t.range r
    | some _ => overlaps (x.page * 4096, (x.page + 1) * 4096) r)

/-- An invalidation begins: what must perform before it completes (R76). The number it gets is the second result. -/
def State.startInval (s : State) (tenant : Nat) (lo : DWord) (len : Nat) (cmd : Option ((Nat × Nat) × Word)) : State × Nat :=
  let r := (lo.toNat, lo.toNat + len)
  let dropped := ((s.utlb ++ s.ctlb).flatMap (·.2)).filter fun t => t.tenant == tenant && overlaps t.range r
  let ranges := (r :: dropped.map Tlb.range).eraseDups
  let mine := s.waves.filter fun e => s.tenantOf e.1 == tenant
  let waits := mine.flatMap fun e => (e.2.outs.filter fun o => !o.done && o.uses ranges).map fun o => (e.1, o.seq)
  let flying := s.walks.flatMap fun e => (e.2.filter (·.over tenant r)).map fun x => (e.1, x)
  let attached := flying.flatMap fun e => e.2.waiters
  let slots := (mine.filter fun e => (attached.any fun a => a.unit.isNone && a.log.isNone && a.wave == e.1) ||
    e.2.walkLeaves.any fun t => overlaps t.2.range r).map fun e => (e.1, e.2.nextSeq)
  let units := (attached.filterMap fun a => a.unit.map fun u => (a.wave, u.1)) ++
    (s.xunits.filter fun u => u.leaves.any fun t => t.tenant == tenant && overlaps t.range r).map fun u => (u.wave, u.out)
  let s1 := s.dropRange tenant r
  ({ s1 with nextReq := s1.nextReq + 1
             walks := s1.walks.map fun e => (e.1, e.2.map fun x => if x.over tenant r then { x with stale := true } else x)
             invals := Map.put s1.invals s1.nextReq
               { tenant := tenant, va := lo, len := len, waits := waits, walks := flying.map fun e => (e.1, e.2.page), slots := slots,
                 units := units, ranges := ranges, cmd := cmd } },
    s1.nextReq)

/-- What an invalidation waits for has performed. -/
def State.invalDone (s : State) (v : Inval) : Bool :=
  (v.waits.all fun e => ((Map.find s.waves e.1).bind (·.out e.2)).isNone) &&
  (v.walks.all fun e => !(((Map.find s.walks e.1).getD []).any fun x => x.tenant == v.tenant && x.page == e.2 && x.stale)) &&
  (v.slots.all fun e => match Map.find s.waves e.1 with
    | none => true
    | some w => !(w.walkLeaves.any fun t => v.ranges.any (overlaps t.2.range)) &&
        !(w.outs.any fun o => decide (e.2 ≤ o.seq) && !o.done && o.uses v.ranges)) &&
  (v.units.all fun e => !(s.xunits.any fun u => u.wave == e.1 && u.out == e.2))

/-! ## TMOV (R114-R116) -/

/-- The rows of two rectangles have a byte in common (R114). -/
def rowsMeet (d s rows rb dp sp : Nat) : Bool :=
  (List.range rows).any fun i => (List.range rows).any fun j =>
    decide (d + i * dp < s + j * sp + rb) && decide (s + j * sp < d + i * dp + rb)

/-- TMOV (R114, R116). For an overlap, and for rows that overlap in the destination, the failing rectangle of the record is the
destination's (log 53). -/
def execTmov (d a b : Nat) (s : State) : Res :=
  issueMem s 4 fun k =>
    let dst := (k.s d).toNat
    let src := (k.s a).toNat
    let rb := field (k.s b).toNat 15 0
    let n := field (k.s b).toNat 31 16
    let sp := field (k.s (b + 1)).toNat 15 0
    let dp := field (k.s (b + 1)).toNat 31 16
    let scrErr (reason addr : Nat) : State := s.trap k (k.scrTrap 0x05 reason 4 addr k.mask)
    if rb = 0 || n = 0 then s.finish k 4
    else if !k.mayCount .cp then s.full k .cp
    else if (dst % 4 + src % 4 + rb % 4 + sp % 4 + dp % 4) ≠ 0 then
      s.trap k (k.scrTrap 0x06 0 4 (if src % 4 ≠ 0 then src else if dst % 4 ≠ 0 then dst else src) k.mask)
    else match s.scrRange k.ctx src ((n - 1) * sp + rb), s.scrRange k.ctx dst ((n - 1) * dp + rb) with
      | .error r, _ => scrErr r src
      | .ok _, .error r => scrErr r dst
      | .ok sk, .ok dk =>
        if (decide (1 < n) && decide (dp < rb)) || rowsMeet dk sk n rb dp sp then scrErr 4 dst
        else
          (s.modWave k.h fun w =>
            let o := k.newOut .cp false false (.tmov dk sk n rb sp dp src k.mask)
            { (w.push o) with qops := if k.det then w.qops ++ [.out o.seq] else w.qops }).finish k 4

/-- The words of a rectangle moved, but for those whose source words, at `bad`, cannot be read (R106, R114). -/
def State.moveRows (s : State) (dst src rows rb sp dp : Nat) (bad : List Nat) : State :=
  (List.range rows).foldl (fun s i => (List.range (rb / 4)).foldl (fun s j =>
    if bad.contains (src + i * sp + 4 * j) then s
    else s.putNum (.scr (dst + i * dp + 4 * j)) (s.num (.scr (src + i * sp + 4 * j)) 4) 4) s) s

/-- A TMOV is performed: nothing is written for a word that it cannot read, whichever rows share it, and each such word is reported
(R106, R114). -/
def State.tmovDone (s : State) (h : Nat) (o : Out) : State :=
  match o.op with
  | .tmov dst src n rb sp dp addr mask =>
    let xs := ((o.bad.map (·.2)).map fun i => i / (rb / 4) * sp + 4 * (i % (rb / 4))).eraseDups
    xs.foldl (fun s x => s.imprecise h (o.errorTrap 0x20 (BitVec.ofNat 64 (addr + x)) (.scr 0) mask))
      ((s.moveRows dst src n rb sp dp (xs.map (src + ·))).modWave h (·.complete o.seq))
  | _ => s

/-- An earlier operation that TMOV waits for: every access and engine command of its slot (R115). -/
def Wave.beforeTmov (w : Wave) (seq : Nat) (tag : Tag) : Bool :=
  w.outs.any fun o => decide (o.seq < seq) && !o.done && tagOrdered o.tag tag &&
    (o.isAccess || (match o.op with | .engine => true | _ => false))

/-- TMOV_COMPLETION: the rectangle is moved, with the errors it has met, and CP falls (R106, R108, R115). -/
def execTmovCompletion (h seq : Nat) (s : State) : Res :=
  match (Map.find s.waves h).bind fun w => (w.out seq).map fun o => (w, o) with
  | none => .next s
  | some (w, o) =>
    match o.op with
    | .tmov _ _ _ _ _ _ _ _ => if s.detWave h || w.beforeTmov o.seq o.tag then .next s else .next (s.tmovDone h o)
    | _ => .next s

end Sys2Proof.Machine
end

