-- ==== Sys2Proof/Machine/Flags.lean ====
section
/-! DEFINITION. Floating-point flags and how instructions merge them (spec/08_number_formats.md R208, R209). -/

namespace Sys2Proof.Machine

/-- FFLAGS bits (R208). -/
def flagNX : Nat := 1
def flagUF : Nat := 2
def flagOF : Nat := 4
def flagDZ : Nat := 8
def flagNV : Nat := 16

/-- A result and the flags it raises. -/
abbrev Flagged := Nat × Nat

/-- The flags of all active lanes ORed (R209). -/
def orFlags (fs : List Nat) : Nat := fs.foldl (· ||| ·) 0

/-- FFLAGS with more flags set; setting is never held (R209). -/
def Wave.raiseFlags (w : Wave) (f : Nat) : Wave := { w with fflags := w.fflags ||| BitVec.ofNat 32 f }

/-- A vector instruction whose lanes give an element and flags; the flags merge when it retires (R209). -/
def fpOp (s : State) (names : List (Nat × Nat)) (d : Nat) (f : Slot → Nat → Flagged) : Res :=
  issue s 4 fun k =>
    let r := laneList.map fun l => if k.on l then f k l else (0, 0)
    s.vnamed k names
      ((s.modWave k.h fun w =>
        (w.vput d k.mask fun l => BitVec.ofNat 32 (r.getD l (0, 0)).1).raiseFlags (orFlags (r.map (·.2)))).finish k 4)

/-- A vector instruction whose lanes give a predicate bit and flags. -/
def fpPredOp (s : State) (names : List (Nat × Nat)) (p : Nat) (f : Slot → Nat → Bool × Nat) : Res :=
  issue s 4 fun k =>
    let r := laneList.map fun l => if k.on l then f k l else (false, 0)
    s.vnamed k names
      ((s.modWave k.h fun w =>
        (w.pput p k.mask (maskBy fun l => (r.getD l (false, 0)).1)).raiseFlags (orFlags (r.map (·.2)))).finish k 4)

end Sys2Proof.Machine
end

