-- ==== Sys2Proof/Machine/Float.lean ====
section
/-! DEFINITION. Number formats, rounding and arithmetic to the last bit (spec/08_number_formats.md): every operation forms
its exact value, or its value to far more bits than any rounding needs, and rounds once. -/

namespace Sys2Proof.Machine

/-- A floating-point format (R194): exponent bits, mantissa bits, bias, and its special encodings: 0 IEEE, 1 a NaN only
(E4M3), 2 none, 3 IEEE without signalling NaNs (E5M2, R196). -/
structure Fmt where
  eb : Nat
  mb : Nat
  bias : Nat
  special : Nat
  deriving DecidableEq, Repr

def fmtF32 : Fmt := ⟨8, 23, 127, 0⟩
def fmtF16 : Fmt := ⟨5, 10, 15, 0⟩
def fmtBF16 : Fmt := ⟨8, 7, 127, 0⟩
def fmtE4M3 : Fmt := ⟨4, 3, 7, 1⟩
def fmtE5M2 : Fmt := ⟨5, 2, 15, 3⟩
def fmtE3M2 : Fmt := ⟨3, 2, 3, 2⟩
def fmtE2M3 : Fmt := ⟨2, 3, 1, 2⟩
def fmtE2M1 : Fmt := ⟨2, 1, 1, 2⟩

/-- The value of an encoding: a finite value is (-1)^neg * m * 2^e. -/
inductive FVal where
  | nan (signalling : Bool)
  | inf (neg : Bool)
  | fin (neg : Bool) (m : Nat) (e : Int)
  deriving DecidableEq, Repr

/-- The biased exponent of all ones. -/
def Fmt.emax (f : Fmt) : Nat := 2 ^ f.eb - 1
/-- The exponent of the unit in the last place of subnormals. -/
def Fmt.qmin (f : Fmt) : Int := 1 - (f.bias : Int) - f.mb

/-- The value of the low bits of `x` in a format (R194). -/
def Fmt.decode (f : Fmt) (x : Nat) : FVal :=
  let m := x % 2 ^ f.mb
  let e := x / 2 ^ f.mb % 2 ^ f.eb
  let neg := x / 2 ^ (f.mb + f.eb) % 2 == 1
  if f.special % 3 = 0 && e = f.emax then (if m = 0 then .inf neg else .nan (f.special = 0 && m < 2 ^ (f.mb - 1)))
  else if f.special = 1 && e = f.emax && m = 2 ^ f.mb - 1 then .nan false
  else if e = 0 then .fin neg m f.qmin
  else .fin neg (2 ^ f.mb + m) ((e : Int) - f.bias - f.mb)

/-- The sign bit in place. -/
def Fmt.sign (f : Fmt) (neg : Bool) : Nat := if neg then 2 ^ (f.eb + f.mb) else 0
/-- The canonical NaN (R196). -/
def Fmt.nan (f : Fmt) : Nat :=
  if f.special = 1 then 0x7F else if f.special = 2 then 0 else f.emax * 2 ^ f.mb + 2 ^ (f.mb - 1)
/-- Infinity. -/
def Fmt.inf (f : Fmt) (neg : Bool) : Nat := f.sign neg + f.emax * 2 ^ f.mb
/-- The largest finite magnitude's encoding (R194). -/
def Fmt.maxFinite (f : Fmt) : Nat :=
  if f.special % 3 = 0 then f.emax * 2 ^ f.mb - 1
  else if f.special = 1 then 2 ^ (f.eb + f.mb) - 2
  else 2 ^ (f.eb + f.mb) - 1

/-- The number of bits of a natural number. -/
def bitLen (m : Nat) : Nat := if m = 0 then 0 else Nat.log2 m + 1

/-- A magnitude m * 2^e, a little above it when `sticky`, as a multiple of 2^q, rounded by mode `rm` (R203, R204), and
whether that is inexact. -/
def roundAt (rm : Nat) (neg : Bool) (m : Nat) (e : Int) (sticky : Bool) (q : Int) : Nat × Bool :=
  if q ≤ e then (m * 2 ^ (e - q).toNat, sticky)
  else
    let sh := (q - e).toNat
    let far := decide (bitLen m + 1 < sh)
    let r := if far then 0 else m / 2 ^ sh
    let low := if far then 0 else m % 2 ^ sh
    let half := if far then 1 else 2 ^ (sh - 1)
    let gt := decide (half < low) || (decide (low = half) && sticky)
    let eq := decide (low = half) && !sticky
    let inexact := (if far then decide (m ≠ 0) else decide (low ≠ 0)) || sticky
    let up :=
      match rm with
      | 0 => gt || (eq && r % 2 == 1)
      | 1 => false
      | 2 => neg && inexact
      | 3 => !neg && inexact
      | _ => gt || eq
    (if up then r + 1 else r, inexact)

/-- The exponent of the leading bit of m * 2^e. -/
def leadExp (m : Nat) (e : Int) : Int := e + bitLen m - 1

/-- The encoding of r * 2^q where r has at most one bit more than the mantissa holds and q is the quantum of its binade. -/
def Fmt.pack (f : Fmt) (r : Nat) (q : Int) : Nat := r + ((q - f.qmin).toNat * 2 ^ f.mb)

/-- Tiny (R208): rounded to the format's precision with unbounded exponent, below the least normal magnitude. -/
def Fmt.tiny (f : Fmt) (rm : Nat) (neg : Bool) (m : Nat) (e : Int) (sticky : Bool) : Bool :=
  let lead := leadExp m e
  let q := lead - f.mb
  let r := (roundAt rm neg m e sticky q).1
  decide (q + (bitLen r : Int) - 1 < 1 - (f.bias : Int))

/-- Rounds a nonzero exact magnitude m * 2^e to an IEEE format (R204, R208); FTZ replaces a subnormal result (R206). -/
def Fmt.round (f : Fmt) (rm : Nat) (ftz neg : Bool) (m : Nat) (e : Int) (sticky : Bool) : Flagged :=
  let lead := leadExp m e
  let overflow : Flagged :=
    (if rm = 0 || rm = 4 || (rm = 2 && neg) || (rm = 3 && !neg) then f.inf neg else f.sign neg + f.maxFinite, flagOF + flagNX)
  if (f.emax : Int) - f.bias ≤ lead then overflow
  else
    let q := max (lead - f.mb) f.qmin
    let r := roundAt rm neg m e sticky q
    let bits := f.pack r.1 q
    if f.emax * 2 ^ f.mb ≤ bits then overflow
    else if ftz && decide (bits < 2 ^ f.mb) && decide (bits ≠ 0) then (f.sign neg, flagUF + flagNX)
    else
      let uf := r.2 && f.tiny rm neg m e sticky
      (f.sign neg + bits, (if r.2 then flagNX else 0) + (if uf then flagUF else 0))

/-- The operand as an instruction under RM reads it: subnormals flushed when FTZ is 1 (R206). -/
def Fmt.operand (f : Fmt) (ftz : Bool) (x : Nat) : FVal :=
  match f.decode x with
  | .fin neg m e => if ftz && decide (m < 2 ^ f.mb) then .fin neg 0 e else .fin neg m e
  | v => v

/-- A signalling NaN (R196). -/
def FVal.signals : FVal → Bool
  | .nan b => b
  | _ => false
/-- A NaN. -/
def FVal.isNan : FVal → Bool
  | .nan _ => true
  | _ => false
/-- The value with its sign changed. -/
def FVal.negate : FVal → FVal
  | .nan b => .nan b
  | .inf n => .inf (!n)
  | .fin n m e => .fin (!n) m e

/-- NV for signalling operands. -/
def nvOf (vs : List FVal) : Nat := if vs.any FVal.signals then flagNV else 0

/-- The rounding mode and FTZ of an FRM value (R203). -/
structure Mode where
  rm : Nat
  ftz : Bool
  deriving DecidableEq, Repr

/-- The mode FRM gives. -/
def modeOf (frm : Word) : Mode := ⟨frm.toNat % 8, frm.getLsbD 3⟩
/-- RNE with subnormals kept: the mode of the units (R205). -/
def modeRNE : Mode := ⟨0, false⟩

/-- A signed exact value as mantissa and exponent. -/
def signedM (neg : Bool) (m : Nat) : Int := if neg then -(m : Int) else m

/-- The exact sum of two finite values: sign, mantissa, exponent. -/
def addExact (n1 : Bool) (m1 : Nat) (e1 : Int) (n2 : Bool) (m2 : Nat) (e2 : Int) : Bool × Nat × Int :=
  let e := min e1 e2
  let x := signedM n1 m1 * (2 ^ (e1 - e).toNat : Nat) + signedM n2 m2 * (2 ^ (e2 - e).toNat : Nat)
  (decide (x < 0), x.natAbs, e)

/-- Rounds a finite sum; an exact zero takes the sign of equal-signed zeros, else + (- under RDN). -/
def Fmt.finish (f : Fmt) (md : Mode) (zeroNeg neg : Bool) (m : Nat) (e : Int) : Flagged :=
  if m = 0 then (f.sign zeroNeg, 0) else f.round md.rm md.ftz neg m e false

/-- a + b on values. -/
def Fmt.addV (f : Fmt) (md : Mode) (a b : FVal) : Flagged :=
  match a, b with
  | .nan _, _ => (f.nan, nvOf [a, b])
  | _, .nan _ => (f.nan, nvOf [a, b])
  | .inf n, .inf n' => if n = n' then (f.inf n, 0) else (f.nan, flagNV)
  | .inf n, .fin _ _ _ => (f.inf n, 0)
  | .fin _ _ _, .inf n => (f.inf n, 0)
  | .fin n1 m1 e1, .fin n2 m2 e2 =>
    let r := addExact n1 m1 e1 n2 m2 e2
    f.finish md (if m1 = 0 && m2 = 0 && n1 = n2 then n1 else md.rm == 2) r.1 r.2.1 r.2.2

/-- a * b on values. -/
def Fmt.mulV (f : Fmt) (md : Mode) (a b : FVal) : Flagged :=
  match a, b with
  | .nan _, _ => (f.nan, nvOf [a, b])
  | _, .nan _ => (f.nan, nvOf [a, b])
  | .inf n, .inf n' => (f.inf (xor n n'), 0)
  | .inf n, .fin n' m _ => if m = 0 then (f.nan, flagNV) else (f.inf (xor n n'), 0)
  | .fin n' m _, .inf n => if m = 0 then (f.nan, flagNV) else (f.inf (xor n n'), 0)
  | .fin n1 m1 e1, .fin n2 m2 e2 => f.finish md (xor n1 n2) (xor n1 n2) (m1 * m2) (e1 + e2)

/-- a * b + c on values with one rounding (R229): 0 times infinity is NV whatever c is. -/
def Fmt.fmaV (f : Fmt) (md : Mode) (a b c : FVal) : Flagged :=
  let nan3 : Flagged := (f.nan, nvOf [a, b, c])
  let addInf (n : Bool) : Flagged :=
    match c with
    | .nan s => (f.nan, if s then flagNV else 0)
    | .inf n' => if n = n' then (f.inf n, 0) else (f.nan, flagNV)
    | .fin _ _ _ => (f.inf n, 0)
  match a, b with
  | .nan _, _ => nan3
  | _, .nan _ => nan3
  | .inf n, .inf n' => addInf (xor n n')
  | .inf n, .fin n' m _ => if m = 0 then (f.nan, flagNV) else addInf (xor n n')
  | .fin n' m _, .inf n => if m = 0 then (f.nan, flagNV) else addInf (xor n n')
  | .fin n1 m1 e1, .fin n2 m2 e2 =>
    match c with
    | .nan s => (f.nan, if s then flagNV else 0)
    | .inf n => (f.inf n, 0)
    | .fin n3 m3 e3 =>
      let pn := xor n1 n2
      let r := addExact pn (m1 * m2) (e1 + e2) n3 m3 e3
      f.finish md (if m1 * m2 = 0 && m3 = 0 && pn = n3 then pn else md.rm == 2) r.1 r.2.1 r.2.2

/-- a / b on values: the quotient to eighty bits beyond the mantissa, with the remainder's stickiness. -/
def Fmt.divV (f : Fmt) (md : Mode) (a b : FVal) : Flagged :=
  match a, b with
  | .nan _, _ => (f.nan, nvOf [a, b])
  | _, .nan _ => (f.nan, nvOf [a, b])
  | .inf _, .inf _ => (f.nan, flagNV)
  | .inf n, .fin n' _ _ => (f.inf (xor n n'), 0)
  | .fin n _ _, .inf n' => (f.sign (xor n n'), 0)
  | .fin n1 m1 e1, .fin n2 m2 e2 =>
    if m2 = 0 then (if m1 = 0 then (f.nan, flagNV) else (f.inf (xor n1 n2), flagDZ))
    else if m1 = 0 then (f.sign (xor n1 n2), 0)
    else
      let num := m1 * 2 ^ 80
      f.round md.rm md.ftz (xor n1 n2) (num / m2) (e1 - e2 - 80) (num % m2 ≠ 0)

/-- The root `r` made exact below bit `b`: the greatest whose square is at most `n`, one bit after another. -/
def rootFrom (n : Nat) : Nat → Nat → Nat
  | 0, r => r
  | b + 1, r => rootFrom n b (if (r + 2 ^ b) * (r + 2 ^ b) ≤ n then r + 2 ^ b else r)

/-- The integer square root, rounded down. -/
def root (n : Nat) : Nat := rootFrom n (n.log2 / 2 + 1) 0

/-- The square root on a value. -/
def Fmt.sqrtV (f : Fmt) (md : Mode) (a : FVal) : Flagged :=
  match a with
  | .nan s => (f.nan, if s then flagNV else 0)
  | .inf n => if n then (f.nan, flagNV) else (f.inf false, 0)
  | .fin n m e =>
    if m = 0 then (f.sign n, 0)
    else if n then (f.nan, flagNV)
    else
      let odd := e % 2 != 0
      let num := (if odd then m * 2 else m) * 2 ^ 100
      let r := root num
      f.round md.rm md.ftz false r ((if odd then e - 1 else e) / 2 - 50) (r * r ≠ num)

/-- 1 / sqrt a (R231): the integer root of 2^n / m, sticky when a remainder is left. -/
def Fmt.rsqV (f : Fmt) (md : Mode) (a : FVal) : Flagged :=
  match a with
  | .nan s => (f.nan, if s then flagNV else 0)
  | .inf n => if n then (f.nan, flagNV) else (f.sign false, 0)
  | .fin n m e =>
    if m = 0 then (f.inf n, flagDZ)
    else if n then (f.nan, flagNV)
    else
      let odd := e % 2 != 0
      let m' := if odd then m * 2 else m
      let e' := if odd then e - 1 else e
      let num := 2 ^ 200
      let r := root (num / m')
      f.round md.rm md.ftz false r (-100 - e' / 2) (r * r * m' ≠ num)

/-- Whether value a is less than value b, both no NaN; zeros are equal. -/
def FVal.lt (a b : FVal) : Bool :=
  match a, b with
  | .nan _, _ => false
  | _, .nan _ => false
  | .inf n, .inf n' => n && !n'
  | .inf n, .fin _ _ _ => n
  | .fin _ _ _, .inf n => !n
  | .fin n1 m1 e1, .fin n2 m2 e2 => let r := addExact n1 m1 e1 (!n2) m2 e2; r.1

/-- Equal as numbers. -/
def FVal.eq (a b : FVal) : Bool := !a.isNan && !b.isNan && !a.lt b && !b.lt a

/-- The sign of a value that is no NaN. -/
def FVal.neg : FVal → Bool
  | .nan _ => false
  | .inf n => n
  | .fin n _ _ => n

/-- The encoding of an operand's own value, NaNs made canonical. -/
def Fmt.own (f : Fmt) (v : FVal) (x : Nat) : Nat :=
  match v with
  | .nan _ => f.nan
  | .inf n => f.inf n
  | .fin n m _ => if m = 0 then f.sign n else x

/-- minimumNumber and maximumNumber (R230): -0 is less than +0. -/
def Fmt.minMax (f : Fmt) (md : Mode) (isMax : Bool) (x y : Nat) : Flagged :=
  let a := f.operand md.ftz x
  let b := f.operand md.ftz y
  let nv := nvOf [a, b]
  if a.isNan && b.isNan then (f.nan, nv)
  else if a.isNan then (f.own b y, nv)
  else if b.isNan then (f.own a x, nv)
  else
    let less := a.lt b || (a.eq b && a.neg && !b.neg)
    (if less != isMax then f.own a x else f.own b y, nv)

/-- Binary operations on encodings under a mode. -/
def Fmt.add (f : Fmt) (md : Mode) (x y : Nat) : Flagged := f.addV md (f.operand md.ftz x) (f.operand md.ftz y)
def Fmt.sub (f : Fmt) (md : Mode) (x y : Nat) : Flagged := f.addV md (f.operand md.ftz x) (f.operand md.ftz y).negate
def Fmt.mul (f : Fmt) (md : Mode) (x y : Nat) : Flagged := f.mulV md (f.operand md.ftz x) (f.operand md.ftz y)
def Fmt.div (f : Fmt) (md : Mode) (x y : Nat) : Flagged := f.divV md (f.operand md.ftz x) (f.operand md.ftz y)
def Fmt.sqrt (f : Fmt) (md : Mode) (x : Nat) : Flagged := f.sqrtV md (f.operand md.ftz x)
def Fmt.fma (f : Fmt) (md : Mode) (np na : Bool) (x y z : Nat) : Flagged :=
  let a := f.operand md.ftz x
  let c := f.operand md.ftz z
  f.fmaV md (if np then a.negate else a) (f.operand md.ftz y) (if na then c.negate else c)

/-- a * 2^b (R229, R232). -/
def Fmt.scale (f : Fmt) (md : Mode) (x : Nat) (b : Int) : Flagged :=
  match f.operand md.ftz x with
  | .nan s => (f.nan, if s then flagNV else 0)
  | .inf n => (f.inf n, 0)
  | .fin n m e => f.finish md n n m (e + b)

/-- The conditions of FCMP (R222, R231). -/
def fcompare (f : Fmt) (md : Mode) (c : FCond) (x y : Nat) : Bool × Nat :=
  let a := f.operand md.ftz x
  let b := f.operand md.ftz y
  let un := a.isNan || b.isNan
  let sig := a.signals || b.signals
  let nv := fun (q : Bool) => if sig || (q && un) then flagNV else 0
  match c with
  | .eq => (!un && a.eq b, nv false)
  | .ne => (un || !a.eq b, nv false)
  | .lt => (!un && a.lt b, nv true)
  | .le => (!un && !b.lt a, nv true)
  | .gt => (!un && b.lt a, nv true)
  | .ge => (!un && !a.lt b, nv true)
  | .un => (un, nv false)
  | .ord => (!un, nv false)

/-- FCLASS (R232). -/
def fclassMask (x : Nat) : Nat :=
  match fmtF32.decode x with
  | .nan s => if s then 256 else 512
  | .inf n => if n then 1 else 128
  | .fin n m _ =>
    if m = 0 then (if n then 8 else 16)
    else if m < 2 ^ 23 then (if n then 4 else 32)
    else (if n then 2 else 64)

/-! ## Functions without a closed form: fixed point of `fixW` bits -/

/-- Fraction bits of the fixed-point evaluations: far below any FP32 rounding boundary of these functions. -/
def fixW : Nat := 384
/-- ln 2 to `fixW` bits, rounded down. -/
def ln2Fix : Nat := 0xb17217f7d1cf79abc9e3b39803f2f6af40f343267298b62d8a0d175b8baafa2be7b876206debac98559552fb4afa1b10
/-- pi to `fixW` bits, rounded down. -/
def piFix : Nat := 0x3243f6a8885a308d313198a2e03707344a4093822299f31d0082efa98ec4e6c89452821e638d01377be5466cf34e90c6c
/-- What is taken off an approximation so that it lies below the true value. -/
def fixSlack : Nat := 2 ^ 16

/-- The sum of x^k / k! from term number k on, `t` being the term before: Taylor series of exp. -/
def expTail (x : Nat) : Nat → Nat → Nat → Nat
  | 0, _, _ => 0
  | n + 1, k, t => let t' := t * x / 2 ^ fixW / k; t' + expTail x n (k + 1) t'

/-- e^x for a fixed-point x in [0, 1). -/
def expFix (x : Nat) : Nat := 2 ^ fixW + expTail x 90 1 (2 ^ fixW)

/-- 2^f for a fixed-point f in [0, 1). -/
def exp2Fix (x : Nat) : Nat := expFix (x * ln2Fix / 2 ^ fixW)

/-- sum of z^(2i+1) / (2i+1): the series of artanh. -/
def artanhTail (z2 : Nat) : Nat → Nat → Nat → Nat
  | 0, _, _ => 0
  | n + 1, k, t => t / k + artanhTail z2 n (k + 2) (t * z2 / 2 ^ fixW)

/-- log2 x for a fixed-point x in [1, 2). -/
def log2Fix (x : Nat) : Nat :=
  let z := (x - 2 ^ fixW) * 2 ^ fixW / (x + 2 ^ fixW)
  2 * artanhTail (z * z / 2 ^ fixW) 130 1 z * 2 ^ fixW / ln2Fix

/-- The alternating series from term `t` on, each next term t * x2 / (k (k + 1)): sine and cosine. -/
def trigTail (x2 : Nat) : Nat → Nat → Nat → Int
  | 0, _, t => t
  | n + 1, k, t => (t : Int) - trigTail x2 n (k + 2) (t * x2 / 2 ^ fixW / (k * (k + 1)))

/-- sin x and cos x for a fixed-point x in [0, 1). -/
def sinFix (x : Nat) : Nat := (trigTail (x * x / 2 ^ fixW) 50 2 x).toNat
def cosFix (x : Nat) : Nat := (trigTail (x * x / 2 ^ fixW) 50 1 (2 ^ fixW)).toNat

/-- Rounds a fixed-point approximation of an irrational value. -/
def Fmt.roundFix (f : Fmt) (md : Mode) (neg : Bool) (x : Nat) (e : Int) : Flagged :=
  f.round md.rm md.ftz neg (x - fixSlack) (e - fixW) true

/-- 2^a (R231): integer arguments are exact. -/
def fexp2V (md : Mode) (a : FVal) : Flagged :=
  let f := fmtF32
  match a with
  | .nan s => (f.nan, if s then flagNV else 0)
  | .inf n => (if n then 0 else f.inf false, 0)
  | .fin n m e =>
    if m = 0 then (0x3F800000, 0)
    else if 12 ≤ leadExp m e then f.round md.rm md.ftz false 1 (if n then -1000 else 1000) false
    else
      -- a = x / 2^w exactly
      let w := (-e).toNat
      let x := signedM n (m * 2 ^ e.toNat)
      let i := x / (2 ^ w : Nat)
      let r := (x % (2 ^ w : Nat)).toNat
      if r = 0 then f.round md.rm md.ftz false 1 i false
      else f.roundFix md false (exp2Fix (r * 2 ^ (fixW - w))) i

/-- log2 a (R231): powers of two are exact. -/
def flog2V (md : Mode) (a : FVal) : Flagged :=
  let f := fmtF32
  match a with
  | .nan s => (f.nan, if s then flagNV else 0)
  | .inf n => if n then (f.nan, flagNV) else (f.inf false, 0)
  | .fin n m e =>
    if m = 0 then (f.inf true, flagDZ)
    else if n then (f.nan, flagNV)
    else
      let i := leadExp m e
      if m = 2 ^ (bitLen m - 1) then (if i = 0 then (0, 0) else f.round md.rm md.ftz (i < 0) i.natAbs 0 false)
      else
        let l := log2Fix (m * 2 ^ (fixW + 1 - bitLen m))
        if 0 ≤ i then f.roundFix md false (i.toNat * 2 ^ fixW + l) 0
        else f.roundFix md true (i.natAbs * 2 ^ fixW - l) 0

/-- The argument of a half-turn function modulo 2, as a fixed-point number. -/
def halfTurns (m : Nat) (e : Int) : Nat := if 0 ≤ e then m * 2 ^ e.toNat % 2 * 2 ^ fixW else m * 2 ^ (fixW - (-e).toNat) % 2 ^ (fixW + 1)

/-- sin(pi t) for a fixed-point t in (0, 1/2): below 1/4 by the sine, above by the cosine of the rest. -/
def sinPi (t : Nat) : Nat :=
  if t ≤ 2 ^ (fixW - 2) then sinFix (t * piFix / 2 ^ fixW) else cosFix ((2 ^ (fixW - 1) - t) * piFix / 2 ^ fixW)

/-- sin(pi t) for t in [0, 2) in quarters: an exact 0 or 1, or a rounded value. `zeroNeg` is the sign of an exact zero. -/
def trigRound (md : Mode) (neg zeroNeg : Bool) (t : Nat) : Flagged :=
  let f := fmtF32
  let neg' := if 2 ^ fixW ≤ t then !neg else neg
  let u := t % 2 ^ fixW
  let h := 2 ^ (fixW - 1)
  if u = 0 then (f.sign zeroNeg, 0)
  else if u = h then (f.sign neg' + 0x3F800000, 0)
  else f.roundFix md neg' (sinPi (if u < h then u else 2 ^ fixW - u)) 0

/-- sin(pi a) (R231). -/
def fsinV (md : Mode) (a : FVal) : Flagged :=
  match a with
  | .nan s => (fmtF32.nan, if s then flagNV else 0)
  | .inf _ => (fmtF32.nan, flagNV)
  | .fin n m e => if m = 0 then (fmtF32.sign n, 0) else trigRound md n n (halfTurns m e)

/-- cos(pi a) (R231): sin of a quarter turn more. -/
def fcosV (md : Mode) (a : FVal) : Flagged :=
  match a with
  | .nan s => (fmtF32.nan, if s then flagNV else 0)
  | .inf _ => (fmtF32.nan, flagNV)
  | .fin _ m e =>
    if m = 0 then (0x3F800000, 0) else trigRound md false false ((halfTurns m e + 2 ^ (fixW - 1)) % 2 ^ (fixW + 1))

/-- tanh a (R231): (E - 1) / (E + 1) with E = e^(2a); a tiny a is its own value less a little. -/
def ftanhV (md : Mode) (a : FVal) : Flagged :=
  let f := fmtF32
  match a with
  | .nan s => (f.nan, if s then flagNV else 0)
  | .inf n => (f.sign n + 0x3F800000, 0)
  | .fin n m e =>
    if m = 0 then (f.sign n, 0)
    else if leadExp m e < -40 then f.round md.rm md.ftz n (m * 2 ^ 64 - 1) (e - 64) true
    else if 6 ≤ leadExp m e then f.round md.rm md.ftz n (2 ^ 200 - 1) (-200) true
    else
      let x := m * 2 ^ ((fixW : Int) + 1 + e).toNat
      let y := x * 2 ^ fixW / ln2Fix
      let ex := exp2Fix (y % 2 ^ fixW) * 2 ^ (y / 2 ^ fixW)
      f.roundFix md n ((ex - 2 ^ fixW) * 2 ^ fixW / (ex + 2 ^ fixW)) 0

/-! ## Narrow kinds (R207) -/

/-- Conversion of a value into a narrow kind: RNE, saturating. -/
def Fmt.narrow (f : Fmt) (v : FVal) : Flagged :=
  match v with
  | .nan _ => (if f = fmtE5M2 then 0x7E else f.nan, flagNV)
  | .inf n => if f = fmtE5M2 then (f.inf n, 0) else (f.sign n + f.maxFinite, flagOF)
  | .fin n m e =>
    if m = 0 then (f.sign n, 0)
    else
      let lead := leadExp m e
      let q0 := lead - f.mb
      let r0 := roundAt 0 n m e false q0
      -- the input rounded with unbounded exponent against the largest finite value
      let top := f.decode f.maxFinite
      let ovf := match top with
        | .fin _ tm te => (FVal.fin false tm te).lt (.fin false r0.1 q0)
        | _ => false
      if ovf then (f.sign n + f.maxFinite, flagOF + flagNX)
      else
        let q := max q0 f.qmin
        let r := roundAt 0 n m e false q
        let uf := r.2 && f.tiny 0 n m e false
        (f.sign n + f.pack r.1 q, (if r.2 then flagNX else 0) + (if uf then flagUF else 0))

/-- A value rounded into an IEEE format under a mode (R204). -/
def Fmt.convert (f : Fmt) (md : Mode) (v : FVal) : Flagged :=
  match v with
  | .nan s => (f.nan, if s then flagNV else 0)
  | .inf n => (f.inf n, 0)
  | .fin n m e => f.finish md n n m e

/-- A value rounded to an integer by a mode, and whether that is inexact. -/
def toInteger (rm : Nat) (n : Bool) (m : Nat) (e : Int) : Int × Bool :=
  let r := roundAt rm n m e false 0
  (signedM n r.1, r.2)

end Sys2Proof.Machine
end

