-- ==== Sys2Proof/Machine/Stack.lean ====
section
/-! DEFINITION. The lane-mask stack: suspension and resumption of fragments, and what happens when a fragment reaches the
innermost level (spec/07_waves_and_control_flow.md R172-R178, R190). -/

namespace Sys2Proof.Machine

/-- The second slot's fragment moves to the first slot (R172). -/
def Wave.promoteSlot (w : Wave) : Wave :=
  { w with
    first := w.second
    second := none
    boosts := (w.boosts.filter (2 ≤ ·)).map (· - 2)
    since := (w.since.filter fun e => decide (2 ≤ e.1)).map fun e => (e.1 - 2, e.2) }

/-- The fragment of a slot leaves it; one that is left is the first slot's (R172). -/
def Wave.leave (w : Wave) (second : Bool) : Wave := if second then { w with second := none } else w.promoteSlot

/-- One fragment, alone. -/
def Wave.alone (w : Wave) (f : Frag) : Wave := { w with first := some f, second := none }

/-- The innermost IF level takes a suspended fragment (R176). -/
def suspendInto (f : Frag) (loops : Nat) : List Level → List Level
  | [] => []
  | .ifL o _ _ _ _ _ i :: r => .ifL o f.pc 2 f.mask loops f.again i :: r
  | x :: r => x :: suspendInto f loops r

/-- The second fragment is suspended into the innermost IF level, if there is one (R176). -/
def Wave.suspendSecond (w : Wave) : Wave :=
  match w.second with
  | none => w
  | some f => { w with second := none, stack := suspendInto f w.hloops.length w.stack }

/-- A fragment suspended in the innermost IF level resumes as the second slot once no loop started after its suspension is
running (R178). -/
def Wave.tryResume (w : Wave) : Wave :=
  match w.stack, w.first, w.second with
  | .ifL o pc 2 m n a i :: r, some _, none =>
    if w.hloops.length ≤ n then
      { w with
        second := if m = 0 then none else some { pc := pc, mask := m, side := true, again := a }
        stack := .ifL o pc 0 0 n none i :: r }
    else w
  | _, _, _ => w

/-- The held writes of the innermost level are released (R180): their entries carry the number of levels up to it. -/
def Wave.release (w : Wave) : Wave :=
  { w with held := w.held.map fun e => if e.level == w.stack.length then { e with released := true } else e }

/-- The lanes of `x` leave a level (R175). -/
def Level.without (x : Mask) : Level → Level
  | .ifL o pc st m n a i => .ifL o pc st (m &&& ~~~x) n (a.map (· &&& ~~~x)) i
  | .loopMasks b l => .loopMasks (b &&& ~~~x) (l &&& ~~~x)
  | .apxMasks c u => .apxMasks (c &&& ~~~x) (u &&& ~~~x)
  | .loopAddr a b c d => .loopAddr a b c d
  | .apxAddr a b c d e f => .apxAddr a b c d e f

/-- What reaching the innermost level leads to: the wave after it, the approximable-region levels closed on the way
(address level and captured lanes), and the address outside an active body, if one would be set or stored (R190). -/
structure Reached where
  w : Wave
  closed : List (Level × Mask) := []
  breach : Option DWord := none
  deriving DecidableEq, Repr

/-- The fragment continues alone at `e` + 4, `e` being an ENDIF, ENDLOOP or APXE: the check of R190, the loop end check if
`e` is a body's last word, and a resumption that the pop has made possible (R178). -/
def Wave.goOn (w : Wave) (ls : List HLoop) (e : DWord) (m : Mask) (side : Bool) (closed : List (Level × Mask)) : Reached :=
  let due := match ls with
    | b :: _ => e == b.last
    | [] => false
  let ok := match ls with
    | b :: _ => if due then decide (w.stack.length ≤ b.depth) else inBodies ls (e + 4)
    | [] => true
  { w := (w.alone { pc := e + 4, mask := m, side := side, endPend := due }).tryResume, closed := closed,
    breach := if ok then none else some (e + 4) }

/-- A fragment of mask `m` in slot `second` reaches the innermost level (R177): by arrival at the ENDIF `e`, or retired with
`m` = 0. Where the two sides name different ENDIFs, the merge goes on after the one the level stores (log 50). `ls` are the
hardware loops that bind it. Each turn of `fuel` passes one level or resumes one fragment. -/
def Wave.reach (ls : List HLoop) : Nat → Wave → Bool → Mask → DWord → List (Level × Mask) → Reached
  | 0, w, _, _, _, closed => { w := w, closed := closed }
  | fuel + 1, w, second, m, e, closed =>
    match w.stack with
    | .ifL o pc st other n a i :: r =>
      let w := if second then w else w.release
      let stored : Level := .ifL o e 1 m n none i
      let breach := if m ≠ 0 && !inBodies ls e then some e else none
      if w.twoLive then
        { w := { w with stack := if m = 0 then w.stack else stored :: r }.leave second, closed := closed, breach := breach }
      else if st = 2 then
        let w1 := { w with stack := (if m = 0 then .ifL o pc 0 0 n none i else stored) :: r }
        if breach.isSome then { w := w, closed := closed, breach := breach }
        else if other = 0 then w1.reach ls fuel false 0 0 closed
        else { w := w1.alone { pc := pc, mask := other, side := true, again := a }, closed := closed }
      else
        let w1 := { w with stack := r }
        let all := if st = 1 then m ||| other else m
        if all = 0 then w1.reach ls fuel false 0 0 closed
        else w1.goOn ls (if st = 1 then pc else e) all o closed
    | .loopMasks b l :: .loopAddr endpc o _ looppc :: r =>
      if l ≠ 0 then
        { w := w.alone { pc := looppc + 4, mask := l, side := o }, closed := closed,
          breach := if inBodies ls (looppc + 4) then none else some (looppc + 4) }
      else
        let w1 := { w with stack := r }
        if b = 0 then w1.reach ls fuel false 0 0 closed else w1.goOn ls endpc b o closed
    | .apxMasks cap sub :: .apxAddr endpc o rid slot inv outs :: r =>
      let w1 := { w with stack := r }
      let closed := closed ++ [(.apxAddr endpc o rid slot inv outs, cap)]
      let all := m ||| sub
      if all = 0 then w1.reach ls fuel false 0 0 closed else w1.goOn ls endpc all o closed
    | _ => { w := { w with stack := [] }.leave second, closed := closed }

/-- Fuel that `reach` cannot use up: every turn pops a level or uses up a suspended fragment. -/
def Wave.reachFuel (w : Wave) : Nat := 2 * w.stack.length + 2

end Sys2Proof.Machine
end

