-- ==== Sys2Proof/Machine/Fetch.lean ====
section
/-! DEFINITION. Fetching an instruction's words, the faults of R50 before execution, and the end check of a hardware loop. -/

namespace Sys2Proof.Machine

/-! ## The loop buffer (R26, R190) -/

/-- The loop buffer holds the word at `pc` once it has been fetched: the body is of at most 256 words. -/
def HLoop.holds (b : HLoop) (pc : DWord) : Bool := decide (b.first ≤ pc) && decide (pc ≤ b.last) && decide ((b.last - b.first).toNat / 4 < 256)

/-- The word of a running loop that its buffer holds. -/
def Wave.heldWord (w : Wave) (pc : DWord) : Option Nat :=
  w.hloops.findSome? fun b => if b.holds pc then Map.find b.buf ((pc - b.first).toNat / 4) else none

/-- A fetched word enters the buffer of every running loop whose body it stands in. -/
def Wave.keepWord (w : Wave) (pc : DWord) (x : Nat) : Wave :=
  { w with hloops := w.hloops.map fun b => if b.holds pc then { b with buf := Map.put b.buf ((pc - b.first).toNat / 4) x } else b }

/-! ## Fetch -/

/-- The word at a place as the fetch sees it. -/
def State.codeWord (s : State) (seen : Nat) (x : Loc) : Nat :=
  wordOfBytes ((List.range 4).map fun i => s.codeByte seen (x.add i).key)

/-- What fetching at a slot's PC comes to. -/
inductive Fetched where
  | ok (i : Instr)
  | bad (w0 w1 : Nat)
  | fault (va : DWord) (reason size : Nat)
  | miss (va : DWord)
  /-- the word, or a table entry, could not be read (R70) -/
  | error (va : DWord) (key : Nat)
  /-- the first word of a two-word instruction is a body's last word (R190) -/
  | cut
  deriving DecidableEq, Repr

/-- The translation of a code address (R26, R68). -/
def State.codeXlate (s : State) (k : Slot) (va : DWord) : Xlate := s.xlate k.w k.f.side k.core k.l.tenant va 2

/-- The word at a code address: from the loop buffer, or from memory. -/
def State.rawWord (s : State) (k : Slot) (va : DWord) : Except Fetched Nat :=
  match k.w.heldWord va with
  | some x => .ok x
  | none =>
    match s.codeXlate k va with
    | .fault r sz => .error (.fault va r sz)
    | .miss => .error (.miss va)
    | .error key => .error (.error va key)
    | .ok t p =>
      let x := s.placeOf t p
      if s.reaches k.l.tenant x && !s.badRead x then .ok (s.codeWord k.w.codeSeen x) else .error (.error va x.key)

/-- Fetch and decode at the slot's PC, in the order of R50. -/
def State.fetch (s : State) (k : Slot) : Fetched :=
  match s.rawWord k k.f.pc with
  | .error e => e
  | .ok w0 =>
    match firstWord w0 with
    | .bad _ => .bad w0 0
    | .one i => .ok i
    | .two c =>
      if (k.w.loopsOf k.f).any fun b => k.f.pc == b.last then .cut
      else match s.rawWord k (k.f.pc + 4) with
        | .error e => e
        | .ok w1 => match secondWord c w1 with
          | some i => .ok i
          | none => .bad w0 w1

/-- The words of a fetched instruction enter the loop buffer. -/
def State.keepWords (s : State) (k : Slot) (i : Instr) : State :=
  if k.w.hloops.isEmpty then s
  else (List.range (encode i).length).foldl (fun s n =>
    match s.rawWord k (k.f.pc + BitVec.ofNat 64 (4 * n)) with
    | .ok x => s.modWave k.h (·.keepWord (k.f.pc + BitVec.ofNat 64 (4 * n)) x)
    | .error _ => s) s

/-- The gang numbers of node batches begin here, above those of every grid (R397, R407). -/
def nodeGangs : Nat := 2 ^ 18

/-- A round of a deterministic launch may run: its commit is complete, and the node groups that begin in it are resident
(R449, R458). -/
def Launch.roundOpen (l : Launch) : Bool := l.commit.isNone && !(l.pend.any fun p => decide (nodeGangs ≤ p.gang) && !p.saved)

/-- The slot holds the right to issue: its group is resident, its wave not stopped, its quantum not ended, and no gated
atomic of it is held (R399, R429, R450, R452, R463, R468). -/
def Slot.mayIssue (k : Slot) : Bool :=
  decide (k.g.life = .resident) && k.w.stop.isNone &&
  !(k.second && (k.det || k.l.recording || k.l.replaying)) &&
  (!k.det || (decide (k.w.qstate = .running) && decide (k.w.qret < k.l.block.quantum) && k.l.roundOpen)) &&
  !(k.w.gateWait.any fun e => e.1 == k.f.side)

/-- ILLEGAL_INSTRUCTION_WORD (R47, R48, R50): Illegal Instruction with the words in W12 and W13 (R435). -/
def execIllegalInstructionWord (w : Word) (s : State) : Res :=
  onSlot s fun k =>
    match s.fetch k with
    | .bad w0 w1 =>
      if w0 = w.toNat && k.mayIssue then
        s.trap k { k.trap 0x01 0 with w12 := w, w13 := BitVec.ofNat 32 w1 }
      else s
    | _ => s

/-- INSTRUCTION_FETCH_PAGE_FAULT (R50, R86): Page Fault with access 3. -/
def execInstructionFetchPageFault (second : Bool) (s : State) : Res :=
  onSlot s fun k =>
    match s.fetch k with
    | .fault va r _ =>
      if k.second = second && k.mayIssue then
        (s.trap k { k.trap 0x04 r with access := 3, addr := va, lmask := k.mask }).modWave k.h (·.clearFaults k.f.side)
      else s
    | _ => s

/-- The counter of hardware-loop level `i` (R189). -/
def Wave.lc (w : Wave) (i : Nat) : Word := if i = 0 then w.lc0 else if i = 1 then w.lc1 else w.lc2
/-- A write of it. -/
def Wave.setLc (w : Wave) (i : Nat) (x : Word) : Wave :=
  if i = 0 then { w with lc0 := x } else if i = 1 then { w with lc1 := x } else { w with lc2 := x }

/-- The end check of the innermost loop that binds a slot's fragment, when one is due (R189): the counter decides between the
loop's first word and the word after its last. -/
def State.loopEnd (s : State) (k : Slot) : State :=
  if !k.f.endPend then s
  else match k.w.loopsOf k.f with
    | [] => s.modWave k.h fun w => w.setFrag k.second (some { k.f with endPend := false })
    | b :: r =>
      let i := k.w.hloops.length - 1
      let c := k.w.lc i
      if 1 < c.toNat then
        s.modWave k.h fun w => (w.setLc i (c - 1)).setFrag k.second (some { k.f with pc := b.first, endPend := false })
      else
        s.modWave k.h fun w =>
          let w1 := (w.setLc i 0).setFrag k.second
            (some { k.f with pc := b.last + 4, endPend := match r with
              | [] => false
              | b' :: _ => b'.last == b.last })
          ({ w1 with hloops := w1.hloops.tail }).tryResume

/-- Every end check that is due at a slot: at most three loops end at one word. -/
def State.settleLoops (s : State) (h : Nat) (second : Bool) : Nat → State
  | 0 => s
  | n + 1 =>
    match s.slotOf h second with
    | some k => if k.f.endPend then (s.loopEnd k).settleLoops h second n else s
    | none => s

/-- HLOOP_END_CHECK (R189). -/
def execHloopEndCheck (s : State) : Res := onSlot s fun k => if k.mayIssue then s.loopEnd k else s

end Sys2Proof.Machine
end

