-- ==== Sys2Proof/Machine/Gangs.lean ====
section
/-! DEFINITION. The gangs and GRPIDs of a launch's grid, and which of its waves are still to come
(spec/20_launches_and_work.md R398, R399, R401, R407). -/

namespace Sys2Proof.Machine

/-- The roles, each with its number and the first GRPID of its range (R398). -/
def roleRanges : Nat → Nat → List Role → List (Nat × Nat × Role)
  | _, _, [] => []
  | j, b, r :: rs => (j, b, r) :: roleRanges (j + 1) (b + r.groups) rs

/-- Groups of a role in each gang (R399). -/
def Role.inGang (r : Role) : Nat := if r.gpg = 0 then r.groups else r.gpg

/-- The number of gangs; none where the roles break R399. -/
def Block.gangs (b : Block) : Option Nat :=
  match b.roles with
  | [] => none
  | r :: rs =>
    let n := r.groups / r.inGang
    if (r :: rs).all fun x => x.groups % x.inGang == 0 && x.groups / x.inGang == n then some n else none

/-- GX·GY·GZ. -/
def Block.grid (b : Block) : Nat := b.gx * b.gy * b.gz

/-- The gang of a grid group, with its role (R399). -/
def Block.gangAt (b : Block) (grpid : Nat) : Option (Nat × Role) :=
  ((roleRanges 0 0 b.roles).find? fun e => decide (e.2.1 ≤ grpid) && decide (grpid < e.2.1 + e.2.2.groups)).map fun e =>
    ((grpid - e.2.1) / e.2.2.inGang, e.2.2)

/-- A WAVEID names a wave that a launch with fixed numbers has still to place (R401): one of a pending gang, or of a node batch
still to be launched (log 45). -/
def Launch.toCome (x : Launch) (id : Nat) : Bool :=
  let g := id / 16
  let waits := fun (gang : Nat) => x.pend.any fun p => !p.saved && p.gang == gang
  if g < x.block.grid then
    match x.block.gangAt g with
    | some (k, r) => decide (id % 16 < r.waves) && waits k
    | none => false
  else id % 16 == 0 && x.block.nnode != 0 && (decide (x.nbatch ≤ g - x.block.grid) || waits (nodeGangs + (g - x.block.grid)))

end Sys2Proof.Machine
end

