-- ==== Sys2Proof/Machine/Atomics.lean ====
section
/-! DEFINITION. Atomics and reductions at memory, the Cloakroom, recording and the Order Gate (spec/17_atomics.md R348-R364,
R490, spec/23_deterministic_execution.md R466-R470). -/

namespace Sys2Proof.Machine

/-! ## The operation (R351, R353) -/

/-- The new element for operand `x` (`y` the swap value of cas), as numbers of `b` bits (R351). -/
def atomStep (op : AtomOp) (b m x y : Nat) : Nat :=
  match op with
  | .add => (m + x) % 2 ^ b
  | .fadd => (fmtF32.add modeRNE m x).1
  | .min => if signed x b < signed m b then x else m
  | .max => if signed m b < signed x b then x else m
  | .umin => if x < m then x else m
  | .umax => if m < x then x else m
  | .and => m &&& x
  | .or => m ||| x
  | .xor => m ^^^ x
  | .xchg => x
  | .cas => if m = x then y else m
  | .fmin => (fmtF32.minMax modeRNE false m x).1
  | .fmax => (fmtF32.minMax modeRNE true m x).1

/-- A merged fadd: the fold of the lanes before each lane, and of all of them (R353). -/
def faddPrefixes : List Nat → List Nat × Nat
  | [] => ([], 0)
  | x :: r => r.foldl (fun acc y => (acc.1 ++ [acc.2], (fmtF32.add modeRNE acc.2 y).1)) ([], x)

/-- A group of lanes at its element: the values returned in lane order, and the element after (R353). -/
def groupStep (op : AtomOp) (b m : Nat) (xs : List (Nat × Nat)) : List Nat × Nat :=
  match op with
  | .fadd =>
    let p := faddPrefixes (xs.map (·.1))
    (m :: p.1.map fun c => (fmtF32.add modeRNE m c).1, (fmtF32.add modeRNE m p.2).1)
  | _ => xs.foldl (fun acc x => (acc.1 ++ [acc.2], atomStep op b acc.2 x.1 x.2)) ([], m)

/-- Bits of an element. -/
def atomBits (wide : Bool) : Nat := if wide then 64 else 32
/-- Bytes of an element. -/
def atomBytes (wide : Bool) : Nat := if wide then 8 else 4

/-- A request performed at its home unit: the element and the values returned (R350, R353). -/
def State.atomAt (s : State) (op : AtomOp) (wide : Bool) (r : AReq) : State × List DWord :=
  let m := s.num r.loc (atomBytes wide)
  let g := groupStep op (atomBits wide) m (r.parts.map fun p => (p.2.1.toNat, p.2.2.1.toNat))
  (s.putNum r.loc g.2 (atomBytes wide), g.1.map (BitVec.ofNat 64))

/-- An atomic's requests stored; an MRED whose last step has been applied completes (R363). -/
def Wave.setReqs (w : Wave) (seq : Nat) (op : AtomOp) (wide det uni ret : Bool) (reqs : List AReq) : Wave :=
  let w' := w.setOp seq (.atomic op wide det uni ret reqs)
  if !ret && reqs.all (·.over) then w'.complete seq else w'

/-! ## Home units (R349) -/

/-- The enabled clusters of the module (R17). -/
def State.enabledClusters (s : State) : List Nat :=
  (List.range 12).filter fun c => (List.range 192).any fun i => !s.disabled.contains (c * 192 + i)

/-- The home unit of a place: the cluster whose atomic unit it is; 12 and more for the units of the other modules, twelve to
each, whose count the spec does not give this one (R349, R486; log 79). -/
def State.homeUnit (s : State) (x : Loc) : Nat :=
  match x with
  | .mem k =>
    if x.onFabric then 12 + field (k % 2 ^ 52) 50 45 * 12 + field (k % 2 ^ 52) 43 0 / 64 % 12
    else let cs := s.enabledClusters; cs.getD (k % 2 ^ 52 / 64 % cs.length) 0
  | .scr _ => 0

/-- The home units there are. -/
def homeUnits : Nat := 12 + 64 * 12

/-- The key of an element. -/
def Loc.elem (x : Loc) (wide : Bool) : Nat :=
  match x with
  | .mem k => k * 2 + bit wide
  | .scr k => k * 2 + bit wide

/-! ## Recording (R466, R467) -/

/-- Who a write of the recorder is for: the wave whose step it tells of with its atomic's PC, and the cluster. -/
abbrev LogFor := Option (Nat × DWord) × Nat

/-- A number of `n` bytes, in one page, written at a virtual address by launch `l`'s recorder, after its earlier writes. -/
def State.unitPut (s : State) (l : Nat) (c : LogFor) (va : DWord) (v n : Nat) : State :=
  (s.modLaunch l fun x => { x with log := { x.log with todo := x.log.todo ++ [⟨c.1, c.2, va, v, n⟩] } }).pump l none

/-- The header's counts and OVF as the recorder has them (R466). -/
def State.writeLogHeader (s : State) (l : Nat) (c : LogFor) : State :=
  match Map.find s.launches l with
  | none => s
  | some x =>
    ((s.unitPut l c x.log.buf x.log.nchunk 4).unitPut l c (x.log.buf + 4) x.log.naddr 4).unitPut l c (x.log.buf + 8) (bit x.log.ovf) 4

/-- A chunk written, or OVF where there is no room (R466, R467). -/
def State.writeChunk (s : State) (l : Nat) (c : LogFor) (aidx : Nat) (wave : Word) (run : Nat) (hash : Word) : State :=
  match Map.find s.launches l with
  | none => s
  | some x =>
    if x.log.ovf then s
    else if x.log.nchunk < x.log.ccap then
      let at_ := x.log.buf + BitVec.ofNat 64 (64 + 8 * x.log.acap + 16 * x.log.nchunk)
      let s1 := (s.unitPut l c at_ aidx 4).unitPut l c (at_ + 4) wave.toNat 4
      let s2 := (s1.unitPut l c (at_ + 8) run 4).unitPut l c (at_ + 12) hash.toNat 4
      (s2.modLaunch l fun x => { x with log := { x.log with nchunk := x.log.nchunk + 1 } }).writeLogHeader l c
    else (s.modLaunch l fun x => { x with log := { x.log with ovf := true } }).writeLogHeader l c

/-- The index of an element in the address table, given at its first step (R467). -/
def State.logElem (s : State) (l : Nat) (c : LogFor) (elem : Nat) (va : DWord) : State × Option Nat :=
  match Map.find s.launches l with
  | none => (s, none)
  | some x =>
    if x.log.ovf then (s, none)
    else match Map.find x.log.elems elem with
      | some i => (s, some i)
      | none =>
        if x.log.naddr < x.log.acap then
          let i := x.log.naddr
          let s1 := s.unitPut l c (x.log.buf + BitVec.ofNat 64 (64 + 8 * i)) va.toNat 8
          ((s1.modLaunch l fun x => { x with log := { x.log with naddr := i + 1, elems := Map.put x.log.elems elem i } }).writeLogHeader
            l c, some i)
        else ((s.modLaunch l fun x => { x with log := { x.log with ovf := true } }).writeLogHeader l c, none)

/-- One recorded step of a wave on an element (R467). -/
def State.recordStep (s : State) (l : Nat) (c : LogFor) (elem : Nat) (va : DWord) (wave hash : Word) : State :=
  match s.logElem l c elem va with
  | (s1, none) => s1
  | (s1, some i) =>
    match (Map.find s1.launches l).bind fun x => Map.find x.log.runs i with
    | some (w, run, h) =>
      if w = wave then s1.modLaunch l fun x => { x with log := { x.log with runs := Map.put x.log.runs i (w, run + 1, h) } }
      else
        (s1.writeChunk l c i w run h).modLaunch l fun x =>
          { x with log := { x.log with runs := Map.put x.log.runs i (wave, 1, hash) } }
    | none => s1.modLaunch l fun x => { x with log := { x.log with runs := Map.put x.log.runs i (wave, 1, hash) } }

/-- The runs still open when a launch completes are written, and the header (R466, R467). -/
def State.flushLog (s : State) (l cluster : Nat) : State :=
  match Map.find s.launches l with
  | none => s
  | some x => (x.log.runs.foldl (fun s e => s.writeChunk l (none, cluster) e.1 e.2.1 e.2.2.1 e.2.2.2) s).writeLogHeader l (none, cluster)

/-! ## Performing requests -/

/-- A request whose step meets an error: memory and the destinations are unchanged, and the wave is told (R361). -/
def State.failReq (s : State) (h : Nat) (o : Out) (op : AtomOp) (wide det uni ret : Bool) (reqs : List AReq) (idx cause : Nat)
    (r : AReq) : State :=
  let s1 := s.modWave h (·.setReqs o.seq op wide det uni ret (reqs.set idx { r with failed := true, gated := true }))
  (if uni then s1.dropHeld h o.seq else s1).imprecise h
    (o.errorTrap cause r.va r.loc (if uni then o.mask else maskOf (r.parts.map (·.1))))

/-- Request `idx` of a wave's atomic is performed: every write that the wave sees before it where it releases, the element as the
wave sees it, the values, and a step in the log of a recording launch; or it meets an error, its own or that of a place that cannot
be reached (R361, R373, R374, R487). -/
def State.performReq (s : State) (h seq idx : Nat) : State :=
  match (Map.find s.waves h).bind fun w => (w.out seq).map fun o => (w, o) with
  | none => s
  | some (w, o) =>
    match o.op with
    | .atomic op wide det uni ret reqs =>
      match reqs[idx]? with
      | none => s
      | some r =>
        if r.over then s
        else match r.bad.or (if s.reaches (s.tenantOf h) r.loc then none else some r.loc.errorCause) with
        | some cause => s.failReq h o op wide det uni ret reqs idx cause r
        | none =>
          let far := o.scopeAt o.scope.code (maskOf (r.parts.map (·.1)))
          let p := ((if o.rel then s.relAt h far else s).reach h [(r.loc, atomBytes wide)]).atomAt op wide r
          let s1 := p.1.modWave h (·.setReqs seq op wide det uni ret (reqs.set idx { r with res := some p.2, gated := true }))
          match s.launchOf h with
          | some (l, x) =>
            if x.recording && !x.block.det then
              s1.recordStep l (some (h, o.pc), (s.coreOf h).getD 0 / 192) (r.loc.elem false) r.va w.waveid o.hash
            else s1
          | none => s1
    | _ => s

/-! ## The Cloakroom (R355-R358, R490) -/

/-- Issuer index order (R355). -/
def CEntry.before (x y : CEntry) : Bool :=
  decide (x.waveid < y.waveid) || (x.waveid == y.waveid &&
    (decide (x.lane < y.lane) || (x.lane == y.lane && decide (x.order < y.order))))

/-- An entry placed in ascending issuer index. -/
def insertEntry (e : CEntry) : List CEntry → List CEntry
  | [] => [e]
  | x :: r => if e.before x then e :: x :: r else x :: insertEntry e r

/-- Entries in ascending issuer index. -/
def sortEntries (es : List CEntry) : List CEntry := es.foldl (fun acc e => insertEntry e acc) []

/-- An entry presented to a window: admitted to its element's row, or refused (R357). -/
def Window.present (v : Window) (elem : Nat) (e : CEntry) : Window :=
  match Map.find v.rows elem with
  | some es => if es.length < 16 then { v with rows := Map.put v.rows elem (es ++ [e]) } else { v with refused := v.refused ++ [e] }
  | none => if v.rows.length < 64 then { v with rows := Map.put v.rows elem [e] } else { v with refused := v.refused ++ [e] }

/-- The element an entry names. -/
def State.entryElem (s : State) (e : CEntry) : Nat :=
  match (Map.find s.waves e.wave).bind (·.out e.seq) with
  | some o => match o.op with
    | .atomic _ wide _ _ _ reqs => ((reqs[e.idx]?).map (·.loc.elem wide)).getD 0
    | _ => 0
  | none => 0

/-- The key of a home unit's window: of its 64-cycle kind, or of a deterministic launch (R490). -/
def windowKey (unit : Nat) (launch : Option Nat) : Nat :=
  match launch with
  | none => unit
  | some l => (l + 1) * homeUnits + unit

/-- The entry of request `idx` (R355). -/
def Wave.entry (w : Wave) (h : Nat) (o : Out) (idx : Nat) (r : AReq) : CEntry :=
  { waveid := w.waveid.toNat, lane := (r.parts.map (·.1)).headD 0, order := o.seq, wave := h, seq := o.seq, idx := idx }

/-- A request marked as standing at its home unit. -/
def State.markAdmitted (s : State) (h seq idx : Nat) : State :=
  s.modWave h fun w => match (w.out seq).map (·.op) with
    | some (Op.atomic op wide det uni ret reqs) =>
      match reqs[idx]? with
      | some r => w.setOp seq (.atomic op wide det uni ret (reqs.set idx { r with admitted := true }))
      | none => w
    | _ => w

/-- The number of the window of its kind that new entries enter: the 64 cycles, or the launch's round (R356, R490). -/
def State.windowNow (s : State) (launch : Option Nat) : Nat :=
  match launch with
  | some l => ((Map.find s.launches l).map (·.round)).getD 0
  | none => s.cycle / 64

/-- A new entry reaches the window of a home unit that is open; one whose window has passed waits for its close, and one whose
window of the round has closed for the next round. -/
def State.arriveEntry (s : State) (unit : Nat) (launch : Option Nat) (e : CEntry) : State :=
  let n := s.windowNow launch
  let v := (Map.find s.windows (windowKey unit launch)).getD { unit := unit, launch := launch, n := n }
  if v.n ≠ n then s
  else
    { (s.markAdmitted e.wave e.seq e.idx) with
      windows := Map.put s.windows (windowKey unit launch) (v.present (s.entryElem e) e) }

/-- A window closes: its rows are applied, and refused entries open the next window of its kind (R357, R358, R490). That is there
at once, so that nothing more enters the one that has closed. -/
def State.closeWindow (s : State) (key : Nat) : State :=
  match Map.find s.windows key with
  | none => s
  | some v =>
    let s1 := v.rows.foldl (fun s row => (sortEntries row.2).foldl (fun s e => s.performReq e.wave e.seq e.idx) s) s
    let next := (sortEntries v.refused).foldl (fun (x : Window) e => x.present (s.entryElem e) e)
      { unit := v.unit, launch := v.launch, n := v.n + 1 }
    { s1 with windows := Map.put s1.windows key next }

/-- COLLECTION_WINDOW_CLOSE: the 64-cycle window of a home unit closes in its last cycle (R356, R490). -/
def execCollectionWindowClose (cluster : Nat) (s : State) : Res :=
  match Map.find s.windows cluster with
  | none => .next s
  | some v => if cluster < homeUnits && 64 * v.n + 63 ≤ s.cycle then .next (s.closeWindow cluster) else .next s

/-- The entries of a window. -/
def Window.entries (v : Window) : Nat := (v.rows.map (·.2.length)).foldl (· + ·) v.refused.length

/-- Every 64-cycle window of a home unit before window `n` closes; one without entries is gone (R490). -/
def State.closeBefore (s : State) (unit n : Nat) : Nat → State
  | 0 => s
  | fuel + 1 =>
    match Map.find s.windows unit with
    | none => s
    | some v =>
      if n ≤ v.n then s
      else if v.entries = 0 then { s with windows := Map.erase s.windows unit }
      else (s.closeWindow unit).closeBefore unit n fuel

/-- Cycles pass: every window whose last cycle is over has closed (R356, R490). -/
def State.pass (s : State) (n : Nat) : State :=
  let units := (s.windows.map (·.1)).filter (decide <| · < homeUnits)
  let s1 := units.foldl (fun s u =>
    s.closeBefore u ((s.cycle + n) / 64) ((((Map.find s.windows u).map Window.entries).getD 0) + 2)) s
  { s1 with cycle := s.cycle + n }

/-! ## The Order Gate (R468-R470) -/

/-- What the gate says to a request. -/
inductive Gate where
  | accept
  | hold
  | refuse (reason : Nat) (logged : Word)
  deriving DecidableEq, Repr

/-- A wave of a launch, by WAVEID, that has not ended. -/
def State.liveWave (s : State) (l : Nat) (id : Word) : Bool :=
  s.waves.any fun e => e.2.waveid == id && !e.2.over && (match Map.find s.groups e.2.group with
    | some g => g.launch == l
    | none => false)

/-- The gate at an element (R468, R469): a request waits for a chunk whose wave is there, or still to come. -/
def State.gateSays (s : State) (l : Nat) (log : Log) (elem : Nat) (wave hash : Word) : Gate :=
  match Map.find log.gate elem with
  | none => .refuse 1 0
  | some ([], _) => .refuse 1 0
  | some ((w, _, h) :: _, begun) =>
    if w = wave then (if !begun && h ≠ hash then .refuse 0 h else .accept)
    else if s.liveWave l w || ((Map.find s.launches l).map (·.toCome w.toNat)) == some true then .hold
    else .refuse 2 h

/-- A step accepted lowers the chunk's RUN (R468). -/
def Log.accept (x : Log) (elem : Nat) : Log :=
  match Map.find x.gate elem with
  | some ((w, n, h) :: r, _) =>
    { x with gate := Map.put x.gate elem (if n ≤ 1 then (r, false) else ((w, n - 1, h) :: r, true)) }
  | _ => x

/-- A request performs, or enters the Cloakroom (R353, R356). -/
def State.admitReq (s : State) (h seq idx : Nat) : State :=
  match (Map.find s.waves h).bind fun w => (w.out seq).map fun o => (w, o) with
  | none => s
  | some (w, o) =>
    match o.op with
    | .atomic _ _ det _ _ reqs =>
      match reqs[idx]? with
      | none => s
      | some r =>
        if r.over || r.admitted then s
        else if det then s.arriveEntry (s.homeUnit r.loc) none (w.entry h o idx r)
        else s.performReq h seq idx
    | _ => s

/-- Replay ends for the whole launch: held requests perform in the order they arrived, and nothing of it is gated any more
(R470). -/
def State.endReplay (s : State) (l : Nat) : State :=
  let held := ((Map.find s.launches l).map (·.log.held)).getD []
  let s1 := s.modLaunch l fun x => { x with log := { x.log with ended := true, held := [] } }
  let mine := fun (w : Wave) => ((Map.find s1.groups w.group).map (·.launch)) == some l
  let s2 := { s1 with waves := s1.waves.map fun e => if mine e.2 then (e.1, { e.2 with gateWait := [] }) else e }
  held.foldl (fun s e => s.admitReq e.1 e.2.1 e.2.2) s2

/-- A refusal: the requests not yet accepted are taken back, the slot stands at the atomic again with the lanes that have
not performed, and Replay Divergence is raised (R469, R435). -/
def State.divergence (s : State) (h seq l reason : Nat) (logged : Word) (va : DWord) : State :=
  match (Map.find s.waves h).bind fun w => (w.out seq).map fun o => (w, o) with
  | none => s
  | some (w, o) =>
    match o.op with
    | .atomic op wide det uni ret reqs =>
      let kept := reqs.filter (·.over)
      let rest := maskOf ((reqs.filter fun r => !r.over).flatMap fun r => r.parts.map (·.1))
      let side := ((w.gateWait.find? fun e => e.2 == seq).map (·.1)).getD false
      match w.bySide side with
      | none => s
      | some (second, f) =>
        let old := if f.pc = o.pc then f.again.getD 0 else 0
        let f' : Frag := { f with pc := o.pc, again := if uni then f.again else some (rest ||| old), endPend := false }
        let w1 := if kept.isEmpty then { w with outs := w.outs.filter fun x => x.seq != seq }
          else w.setReqs seq op wide det uni ret kept
        let t : Trap := { cause := 0x09, reason := reason, access := 2, second := second, pc := o.pc, addr := va,
                          rmask := if uni then f.mask else rest ||| old, w12 := logged, w13 := o.hash }
        (((s.setWave h (w1.setFrag second (some f'))).modLaunch l fun x =>
          { x with log := { x.log with held := x.log.held.filter fun e => !(e.1 == h && e.2.1 == seq) } }).raise h second
            (((Map.find s.launches l).map (·.block.code)).getD 0) t).endReplay l
    | _ => s

/-- The gate has accepted every request of an atomic: its slot issues again (R468). -/
def State.gateDone (s : State) (h seq : Nat) : State :=
  s.modWave h fun w =>
    let left := match (w.out seq).map (·.op) with
      | some (Op.atomic _ _ _ _ _ reqs) => reqs.any fun r => !r.over
      | _ => false
    if left then w else { w with gateWait := w.gateWait.filter fun e => e.2 != seq }

/-- A request of a launch in replay at the gate; a stopped wave's requests wait. -/
def State.gateReq (s : State) (h seq idx l : Nat) (x : Launch) (w : Wave) (o : Out) (r : AReq) : State :=
  match s.gateSays l x.log (r.loc.elem false) w.waveid o.hash with
  | .accept =>
    ((s.modLaunch l fun x => { x with log := { x.log.accept (r.loc.elem false) with
        held := x.log.held.filter (· != (h, seq, idx)) } }).performReq h seq idx).gateDone h seq
  | .hold =>
    if x.log.held.contains (h, seq, idx) then s
    else s.modLaunch l fun x => { x with log := { x.log with held := x.log.held ++ [(h, seq, idx)] } }
  | .refuse reason logged => if w.stop.isSome then s else s.divergence h seq l reason logged r.va

/-- An earlier access of the wave to a request's bytes has not performed; deterministic entries already in the Cloakroom are
ordered there (R83, R358, R364). -/
def Wave.atomicBlocked (w : Wave) (o : Out) (det : Bool) (x : Loc) (n : Nat) : Bool :=
  w.outs.any fun p => decide (p.seq < o.seq) && !p.done && tagOrdered p.tag o.tag && (match det, p.op with
    | true, .atomic _ wide true _ _ reqs =>
      reqs.any fun r => r.res.isNone && !r.failed && !r.admitted && r.loc.meets (atomBytes wide) x n
    | _, _ => p.touches x n)

/-- A request may reach its home unit: a release has nothing before it, its bytes are free of earlier accesses, and its place
is reached, unless the error of that is due (R83, R354, R361). -/
def State.atomicReady (s : State) (w : Wave) (tenant : Nat) (o : Out) (det wide : Bool) (r : AReq) : Bool :=
  !(o.rel && w.earlier o.seq o.tag) && !w.atomicBlocked o det r.loc (atomBytes wide) && (r.bad.isSome || s.reaches tenant r.loc)

/-- ATOMIC_REQUEST: request `idx` of a wave's atomic reaches its home unit (R349, R354, R356, R468). -/
def execAtomicRequest (h seq idx : Nat) (s : State) : Res :=
  match (Map.find s.waves h).bind fun w => (w.out seq).map fun o => (w, o), s.launchOf h with
  | some (w, o), some (l, x) =>
    match o.op with
    | .atomic _ wide det _ _ reqs =>
      match reqs[idx]? with
      | none => .next s
      | some r =>
        if r.over || r.admitted || x.block.det || !s.atomicReady w x.tenant o det wide r then .next s
        else if x.replaying && !x.log.ended then .next (s.gateReq h seq idx l x w o r)
        else .next (s.admitReq h seq idx)
    | _ => .next s
  | _, _ => .next s

/-- The values of one settled request reach their registers; the last completes the atomic, and its count falls (R363). -/
def State.returnAtomic (s : State) (h seq idx : Nat) : State :=
  match (Map.find s.waves h).bind (·.out seq) with
  | none => s
  | some o =>
    match o.op with
    | .atomic op wide det uni true reqs =>
      match reqs[idx]? with
      | none => s
      | some r =>
        if !r.over || r.back then s
        else
          let vs := r.res.getD []
          let parts := (List.range vs.length).map fun i => ((r.parts.getD i (0, 0, 0, [])).2.2.2, vs.getD i 0)
          let reqs' := reqs.set idx { r with back := true }
          (parts.foldl (fun s e => s.land h seq uni e.1 (wordsOf e.2.toNat (atomBytes wide))) s).modWave h fun w =>
            let w' := w.setOp seq (.atomic op wide det uni true reqs')
            if reqs'.all (·.back) then w'.complete seq else w'
    | _ => s

/-- ATOMIC_RESULT_RETURN (R363). -/
def execAtomicResultReturn (h : Nat) (part : PartAt) (s : State) : Res := .next (s.returnAtomic h part.seq part.idx)

/-! ## Issue (R363) -/

/-- Registers of the data run (R352). -/
def atomRun (x : AtomExt) : Nat := (if x.op = .cas then 2 else 1) * (if x.wide then 2 else 1)

/-- Requests grouped by effective address, lanes ascending (R353). -/
def addReq (rs : List AReq) (va : DWord) (loc : Loc) (part : Nat × DWord × DWord × List Nat) : List AReq :=
  match rs with
  | [] => [{ loc := loc, va := va, parts := [part] }]
  | r :: t => if r.va = va then { r with parts := r.parts ++ [part] } :: t else r :: addReq t va loc part

/-- The operand and swap value in a run of words. -/
def atomOperands (x : AtomExt) (ws : List Word) : DWord × DWord :=
  let at_ := fun (i : Nat) => ws.getD i 0
  if x.wide then (at_ 1 ++ at_ 0, at_ 3 ++ at_ 2) else ((at_ 0).zeroExtend 64, (at_ 1).zeroExtend 64)

/-- The wave with an atomic issued. -/
def Slot.pushAtomic (k : Slot) (x : AtomExt) (uni ret : Bool) (reqs : List AReq) (wv : Wave) : Wave :=
  let o := { k.newOut (if ret then .ld else .st) (acquires x.order) (releases x.order)
    (.atomic x.op x.wide (x.det || k.det) uni ret reqs) with scope := x.scope }
  { (wv.push o) with
    qops := if k.det then wv.qops ++ [.out o.seq] else wv.qops
    gateWait := if k.l.replaying && !k.l.log.ended && !k.det then wv.gateWait ++ [(k.f.side, o.seq)] else wv.gateWait }

/-- The lanes of an ATOM or MRED as requests: merged by address, or one entry each when deterministic (R353, R355). -/
def Slot.laneReqs (k : Slot) (d : Nat) (x : AtomExt) (ret : Bool) (xs : List (Nat × DWord × Loc)) : List AReq :=
  xs.foldl (fun rs e =>
    let ops := atomOperands x ((List.range (atomRun x)).map fun i => k.w.vget (d + i) e.1)
    let dst := if ret then (List.range (if x.wide then 2 else 1)).map fun i => k.w.vkey (d + i) + e.1 else []
    let part := (e.1, ops.1, ops.2, dst)
    if x.det || k.det then rs ++ [{ loc := e.2.2, va := e.2.1, parts := [part] }] else addReq rs e.2.1 e.2.2 part) []

/-- ATOM and MRED (R363). -/
def atomVec (s : State) (d a bp : Nat) (x : AtomExt) (ret : Bool) : Res :=
  issueMem s 8 fun k =>
    let p := if ret then Path.ld else .st
    if !k.mayCount p then s.full k p
    else s.vnamed k (runNames 0 d (atomRun x) ++ [(1, a)])
      (s.globalAccess k 8 (atomBytes x.wide) 3 2 false (k.eas a bp plainExt)
        fun xs w => k.pushAtomic x false ret (k.laneReqs d x ret xs) w)

/-- ATOM (R363). -/
def execAtom (d a bp : Nat) (x : AtomExt) (s : State) : Res := atomVec s d a bp x true

/-- MRED (R363). -/
def execMred (d a bp : Nat) (x : AtomExt) (s : State) : Res := atomVec s d a bp x false

/-- ATOMU: one access for the slot, the mask ignored (R363). -/
def execAtomu (d a bp : Nat) (x : AtomExt) (s : State) : Res :=
  issueMem s 8 fun k =>
    let regs := if x.wide then 2 else 1
    if !k.mayCount .ld then s.full k .ld
    else if !k.room regs then s
    else
      s.globalAccess k 8 (atomBytes x.wide) 3 2 true [(0, k.uea a bp plainExt)] fun xs w =>
        let ops := atomOperands x ((List.range (atomRun x)).map fun i => k.s (d + i))
        k.expect k.w.nextSeq ((List.range regs).map fun i => .s (d + i)) (k.pushAtomic x true true
          (xs.map fun e => { loc := e.2.2, va := e.2.1, parts := [(0, ops.1, ops.2, (List.range regs).map (d + ·))] }) w)

end Sys2Proof.Machine
end

