-- ==== Sys2Proof/Machine/Barrier.lean ====
section
/-! DEFINITION. Byte-counting barriers and drained phases (spec/05_engines_queues_barriers.md R144-R152). -/

namespace Sys2Proof.Machine

/-- A barrier word in parts (R144). -/
structure BarWord where
  armed : Bool
  overrun  : Bool
  phase : Nat
  pending : Word
  deriving DecidableEq, Repr

/-- A barrier word read. -/
def barOf (x : Nat) : BarWord := ⟨bitAt x 49, bitAt x 48, field x 47 32, BitVec.ofNat 32 x⟩
/-- A barrier word as a number; reserved bits are zero. -/
def BarWord.num (b : BarWord) : Nat := bit b.armed * 2 ^ 49 + bit b.overrun * 2 ^ 48 + b.phase % 2 ^ 16 * 2 ^ 32 + b.pending.toNat

/-- settle() (R145). -/
def BarWord.settle (b : BarWord) : BarWord :=
  if b.armed && decide (b.pending.toInt ≤ 0) then
    { b with overrun := b.overrun || decide (b.pending.toInt < 0), phase := (b.phase + 1) % 2 ^ 16, armed := false }
  else b
/-- arrive(c) (R145). -/
def BarWord.arrive (b : BarWord) (c : Nat) : BarWord := { b with pending := b.pending - BitVec.ofNat 32 c }.settle
/-- post(e) (R145). -/
def BarWord.post (b : BarWord) (e : Nat) : BarWord := { b with pending := b.pending + BitVec.ofNat 32 e, armed := true }.settle

/-- Slots waiting at a barrier for a phase that is not its present one are woken (R145, R148). -/
def State.wakeBarrier (s : State) (place phase : Nat) : State :=
  { s with waiters := s.waiters.map fun x => match x.on with
      | .barw p ph woken => if p = place then { x with on := .barw p ph (woken || ph != phase) } else x
      | _ => x }

/-- One indivisible operation on the barrier at a scratchpad place (R145). -/
def State.barrier (s : State) (place : Nat) (f : BarWord → BarWord) : State :=
  let b := f (barOf (s.num (.scr place) 8))
  (s.putNum (.scr place) b.num 8).wakeBarrier place b.phase

/-- What a barrier operation does to its word: 0 BARI, 1 BARX, 2 BARA (R148). -/
def barFn (op count : Nat) (b : BarWord) : BarWord :=
  match op with
  | 0 => ⟨false, false, 0, 0⟩
  | 1 => b.post count
  | _ => b.arrive count

/-- A barrier operation performed; an arrival by BARA is an event of drained phases (R151). -/
def State.barOp (s : State) (op place count : Nat) : State :=
  let s1 := s.barrier place (barFn op count)
  if op < 2 then s1 else s1.phaseEvent 3 place

/-- The three barrier operations that write: at once, or at the commit of a deterministic launch (R148, R452). -/
def State.barWrite (s : State) (k : Slot) (op a : Nat) (count : Option Nat) (i : Instr) : State :=
  s.withScr k (k.s a).toNat 8 8 1 fun key =>
    let c := (count.map fun b => (k.s b).toNat).getD 0
    if 2 ^ 31 ≤ c then s.trap k (k.illegal i)
    else if k.det && k.w.tstDue k.w.nextSeq (.scr key) 8 then s
    else if k.det then
      let b := barFn op c (barOf (s.seenNum k (.scr key) 8))
      (s.modWave k.h fun w =>
        { w.note (placeBytes (.scr key) (bytesOfNat b.num 8)) with qops := w.qops ++ [.bar op key c] }).finish k 4
    else if k.conflicts (.scr key) 8 then s
    else if op = 2 && k.busy then s
    else (s.barOp op key c).finish k 4

/-- BARI (R148). -/
def execBari (a : Nat) (s : State) : Res := issueMem s 4 fun k => s.barWrite k 0 a none (.bari a)

/-- BARX (R148). -/
def execBarx (a b : Nat) (s : State) : Res := issueMem s 4 fun k => s.barWrite k 1 a (some b) (.barx a b)

/-- BARA: a release; it waits for the slot's earlier accesses (R146, R148). -/
def execBara (a b : Nat) (s : State) : Res := issueMem s 4 fun k => s.barWrite k 2 a (some b) (.bara a b)

/-- The slot's own waiting place. -/
def State.place (s : State) (k : Slot) : Option WaitOn :=
  (s.waiters.find? fun x => x.wave == k.h && x.side == k.f.side).map (·.on)

/-- BARW (R147-R149). -/
def execBarw (a b : Nat) (s : State) : Res :=
  issueMem s 4 fun k =>
    match s.place k with
    | some (.barw place ph woken) =>
      if woken || (barOf (s.num (.scr place) 8)).phase != ph then s.finish k 4 else s.stall k true
    | _ =>
      let at_ := (k.s a).toNat
      s.withScr k at_ 8 8 0 fun key =>
        if if k.det then k.w.tstDue k.w.nextSeq (.scr key) 8 else k.conflicts (.scr key) 8 then s
        else
          let x := s.seenNum k (.scr key) 8
          let w := barOf x
          let p := (k.s b).toNat % 2 ^ 16
          if w.overrun then
            s.trap k { k.trap 0x08 with
              addr := BitVec.ofNat 64 at_, w12 := BitVec.ofNat 32 x, w13 := BitVec.ofNat 32 (x / 2 ^ 32) }
          else if w.phase ≠ p then s.finish k 4
          else (s.await k (.barw key p false)).stall k true

/-! ## Drained phases -/

/-- One entry of a phase header resolved: kind, target place, count; none where it breaks R150. A TARGET that is not aligned as
a queue header or a barrier word breaks nothing (log 57). -/
def State.phaseEntry (s : State) (k : Slot) (dieTree : Bool) (e0 e1 : Nat) : Option (Nat × Nat × Nat) :=
  let kind := field e1 31 28
  let count := field e1 27 0
  if kind = 0 || 3 < kind || count = 0 || (!dieTree && decide (field e0 31 28 = 3)) then none
  else match s.scr k.ctx e0 with
    | .ok place => some (kind, place, count)
    | .error _ => none

/-- A phase header read and checked (R150). -/
def State.phaseHeader (s : State) (k : Slot) (at_ key : Nat) : Option Phase :=
  let p0 := s.seenNum k (.scr key) 4
  let n := field p0 7 0
  let es := (List.range n).map fun j =>
    s.phaseEntry k (field at_ 31 28 = 3) (s.seenNum k (.scr (key + 8 + 8 * j)) 4) (s.seenNum k (.scr (key + 12 + 8 * j)) 4)
  if field p0 31 16 ≠ 0 || n = 0 || 15 < n || s.seenNum k (.scr (key + 4)) 4 ≠ 0 || es.any (·.isNone) then none
  else some { phid := field p0 15 8, entries := es.filterMap id, die := k.die }

/-- Active phases of a die's tree (R151). -/
def State.activePhases (s : State) (die : Nat) : Nat := (s.phases.filter fun e => e.2.die == die && !e.2.complete).length

/-- PHBEG (R152); its commit waits while the tree has no room (R452; log 54). -/
def execPhbeg (kd a : Nat) (s : State) : Res :=
  issueMem s 4 fun k =>
    let at_ := (k.s a).toNat
    s.withScr k at_ 8 8 0 fun key => s.atCommit k (.phbeg kd a) (
      let p0 := s.seenNum k (.scr key) 4
      s.withScr k at_ (8 + 8 * field p0 7 0) 8 0 fun _ =>
        let join := match Map.find s.phases key with
          | some p => !p.complete || p.phid == field p0 15 8
          | none => false
        if !k.room 1 then s
        else if join then (s.write k [(.k kd, 1)]).finish k 4
        else match s.phaseHeader k at_ key with
          | none => (s.write k [(.k kd, 0)]).finish k 4
          | some p =>
            if 16 ≤ s.activePhases k.die then s
            else ({ s with phases := Map.put s.phases key p }.write k [(.k kd, 1)]).finish k 4)

/-- PHEND (R152). -/
def execPhend (a : Nat) (s : State) : Res :=
  issueMem s 4 fun k =>
    match s.place k with
    | some (.phend _ true) => s.finish k 4
    | some (.phend _ false) => s.stall k true
    | _ =>
      s.withScr k (k.s a).toNat 8 8 0 fun key =>
        match Map.find s.phases key with
        | none => s.trap k (k.illegal (.phend a))
        | some p => if p.complete then s.finish k 4 else (s.await k (.phend key false)).stall k true

end Sys2Proof.Machine
end

