-- ==== Sys2Proof/Machine/Catalogue.lean ====
section
/-! DEFINITION. The Slot Catalogue: live headers, entries, the finalisation log and the seven slot instructions
(spec/14_slot_catalogue.md R297-R322). `bad` is a word that cannot be read (R309), numbered from the end of the header: two words
to an entry, and then one to two log words. -/

namespace Sys2Proof.Machine

/-! ## Headers (R300, R313) -/

/-- Word `i` of a header. -/
def hw (h : List Word) (i : Nat) : Nat := (h.getD i 0).toNat
/-- LEN. -/
def catLen (h : List Word) : Nat := field (hw h 0) 12 0
/-- MODE 1: event order. -/
def catEvent (h : List Word) : Bool := bitAt (hw h 0) 16
/-- PASS [7:0]. -/
def catPass (h : List Word) : Nat := hw h 3 % 256
/-- The bytes of a catalogue (R299). -/
def catSize (h : List Word) : Nat := (64 + 10 * catLen h + 7) / 8 * 8

/-- FP16 values: both numbers and a not less than b. -/
def f16ge (a b : Nat) : Bool :=
  let x := fmtF16.decode a
  let y := fmtF16.decode b
  !x.isNan && !y.isNan && !x.lt y
/-- An FP16 NaN. -/
def f16nan (a : Nat) : Bool := (fmtF16.decode a).isNan

/-- A header of sixteen words obeys R313, the unit's room apart. -/
def catOk (h : List Word) (init : Bool) : Bool :=
  let len := catLen h
  let finth := hw h 1 % 2 ^ 16
  let reopth := hw h 1 / 2 ^ 16
  let maxf := hw h 2 / 2 ^ 16
  let minf := hw h 2 % 2 ^ 16
  field (hw h 0) 31 17 == 0 && field (hw h 0) 15 13 == 0 && hw h 5 / 2 ^ 13 == 0 && hw h 6 / 2 ^ 13 == 0 && hw h 7 / 2 ^ 13 == 0 &&
  hw h 8 / 2 ^ 16 == 0 && (h.drop 9).all (· == 0) && decide (1 ≤ len) && decide (len ≤ 4096) && f16ge finth reopth &&
  decide (minf ≤ len) && decide (maxf ≤ len) && (maxf == 0 || decide (minf ≤ maxf)) &&
  (init || (decide (hw h 5 ≤ len) && decide (hw h 6 ≤ len) && decide (hw h 7 ≤ (if catEvent h then hw h 6 else hw h 5))))

/-! ## Entries (R301, R303) -/

/-- STATE. -/
def entState (e : Nat) : Nat := e % 4
/-- CONF. -/
def entConf (e : Nat) : Nat := field e 31 16
/-- An entry word. -/
def entOf (token conf pass kv state : Nat) : Nat :=
  token % 2 ^ 24 * 2 ^ 32 + conf % 2 ^ 16 * 2 ^ 16 + pass % 256 * 16 + kv * 4 + state
/-- A corrupt entry (R303). -/
def corrupt (e : Nat) : Bool :=
  entState e == 3 || e / 2 ^ 56 != 0 || field e 15 12 != 0 || bitAt e 3 || (bitAt e 2 && entState e != 2)
/-- Final and not corrupt. -/
def isFinal (e : Nat) : Bool := entState e == 2 && !corrupt e
/-- Final and KV-valid. -/
def emittable (e : Nat) : Bool := isFinal e && bitAt e 2

/-- Entry `q` of the catalogue at `key`; one that cannot be read is corrupt (R309). -/
def State.entry (s : State) (key : Nat) (bad : Option Nat) (q : Nat) : Nat :=
  if bad.map (· / 2) = some q then 3 else s.num (.scr (key + 64 + 8 * q)) 8
/-- Entry `q` replaced in one write (R305). -/
def State.putEntry (s : State) (key q e : Nat) : State := s.putNum (.scr (key + 64 + 8 * q)) e 8
/-- The place of log word `i`. -/
def logKey (key len i : Nat) : Nat := key + 64 + 8 * len + 2 * i

/-- The live header and scored set replaced, H3 to H7 written back (R304). A program's store to an active header changes its bytes,
which the unit does not look at while it is active (log 76). -/
def State.putCat (s : State) (key : Nat) (c : Cat) : State :=
  { (List.range 5).foldl (fun s i => s.putNum (.scr (key + 12 + 4 * i)) (hw c.hdr (i + 3)) 4) s with cats := Map.put s.cats key c }

/-- The cluster of a level 2 place. -/
def clusterOfKey (key : Nat) : Nat := key / 2 ^ 27 / 4 % 16
/-- Active catalogues of a cluster's unit. -/
def State.activeCats (s : State) (cluster : Nat) : Nat := (s.cats.filter fun e => clusterOfKey e.1 == cluster).length

/-- A wave's binding ends; with the last one the catalogue is no longer active (R304, R308). -/
def State.uncat (s : State) (h : Nat) : State :=
  match (Map.find s.waves h).bind (·.cat) with
  | none => s
  | some key =>
    let s1 := s.modWave h fun w => { w with cat := none }
    if s1.waves.any fun e => e.2.cat == some key then s1 else { s1 with cats := Map.erase s1.cats key }

/-! ## SLBIND (R312) -/

/-- The bytes from a header's place on zeroed. -/
def State.zeroScr (s : State) (key n : Nat) : State := { s with scratch := Sparse.clear s.scratch key n }

/-- A binding made (R312). -/
def State.bindCat (s : State) (h key : Nat) (init : Bool) (hdr : List Word) : State :=
  let s1 := s.uncat h
  let base : List Word := hdr.take 9
  let hdr' := if init then base.take 3 ++ List.replicate 5 0 ++ base.drop 8 else base
  let s2 := if init then (s1.zeroScr (key + 64) (catSize hdr - 64)).putCat key { hdr := hdr' }
    else { s1 with cats := Map.put s1.cats key ((Map.find s1.cats key).getD { hdr := hdr' }) }
  s2.modWave h fun w => { w with cat := some key }

/-- SLBIND's checks and effect on the header at place `key` (R312, R313). -/
def State.slbindAt (s : State) (k : Slot) (init : Bool) (at_ key : Nat) (done : Bool → State → State) : State :=
  let live := Map.find s.cats key
  let hdr := match live with
    | some c => c.hdr ++ List.replicate 7 0
    | none => (List.range 16).map fun i => BitVec.ofNat 32 (s.seenNum k (.scr (key + 4 * i)) 4)
  let ok := catOk hdr init && (live.isSome || decide (s.activeCats k.cluster < 16))
  if !ok then done false s
  else s.withScr k at_ (catSize hdr) 64 0 fun _ =>
    if init && live.isSome then done false s else done true (s.bindCat k.h key init hdr)

/-- The slot instruction waits for an earlier access of its slot (R306). At a commit it does not: it retires there, and an atomic that
a Cloakroom has refused is applied after it (R452; log 54). -/
def State.behind (s : State) (k : Slot) : Bool := !k.det && s.unperformed k

/-- SLBIND's effect at the header address (R312); `bad`: the header cannot be read, and nothing changes or is written (R309). -/
def State.slbind (s : State) (k : Slot) (m : BindMode) (kd a : Nat) (bad : Bool) : State :=
  let i := Instr.slbind m kd a
  let at_ := (k.s a).toNat
  let done := fun (ok : Bool) (s' : State) => if !k.room 1 then s else (s'.write k [(.k kd, wordOfBool ok)]).finish k 4
  match m with
  | .unbind => s.atCommit k i (if s.behind k then s else (s.uncat k.h).finish k 4)
  | _ =>
    if at_ % 64 ≠ 0 then s.trap k (k.scrTrap 0x06 0 0 at_ k.mask)
    else if field at_ 31 28 ≠ 2 then s.atCommit k i (if s.behind k then s else done false s)
    else s.withScr k at_ 64 64 0 fun key => s.atCommit k i
      (if s.behind k then s else if bad then s.finish k 4 else s.slbindAt k (m = .init) at_ key done)

/-- SLBIND (R312). -/
def execSlbind (m : BindMode) (kd a : Nat) (s : State) : Res := issueMem s 4 fun k => s.slbind k m kd a false

/-! ## The instructions on a bound catalogue -/

/-- The catalogue a slot's wave is bound to. -/
def State.catOf (s : State) (k : Slot) : Option (Nat × Cat) := k.w.cat.bind fun key => (Map.find s.cats key).map fun c => (key, c)

/-- Runs `f` on the bound catalogue: windows, then the binding (R311); then the commit has come, in a deterministic launch (R307),
and the slot's earlier accesses have performed (R306, R383). -/
def State.onCat (s : State) (k : Slot) (i : Instr) (names : List (Nat × Nat)) (f : Nat → Cat → State) : State :=
  s.vnamed k names
    (match s.catOf k with
    | none => s.trap k (k.illegal i)
    | some (key, c) => s.atCommit k i (if s.behind k then s else f key c))

/-- The position in a lane's element (R311). -/
def posOf (x : Word) : Nat := x.toNat % 2 ^ 16

/-- A status per active lane written to `vd`. -/
def State.putStatus (s : State) (k : Slot) (d : Nat) (st : List (Nat × Nat)) : State :=
  (s.modWave k.h fun w => w.vput d k.mask fun l => BitVec.ofNat 32 (((st.find? fun e => e.1 == l).map (·.2)).getD 0)).finish k 4

/-- The status a lane of SLSCOR has before lanes are compared (R314): none where the slot is to be scored. -/
def scoreStatus (len e q conf : Nat) : Option Nat :=
  if len ≤ q then some 2
  else if corrupt e then some 3
  else if entState e = 2 then some 1
  else if f16nan conf then some 5
  else none

/-- SLSCOR performed (R314). -/
def State.slscor (s : State) (k : Slot) (d a b key : Nat) (c : Cat) (bad : Option Nat) : State :=
  let q := fun (l : Nat) => posOf (k.w.vget a l)
  let conf := fun (l : Nat) => (k.w.vget a l).toNat / 2 ^ 16
  let st0 := k.lanes.map fun l => (l, scoreStatus (catLen c.hdr) (s.entry key bad (q l)) (q l) (conf l))
  let st := st0.map fun e =>
    (e.1, match e.2 with
      | some x => x
      | none => if st0.any fun y => decide (e.1 < y.1) && y.2.isNone && q y.1 == q e.1 then 4 else 0)
  let won := (st.filter fun e => e.2 == 0).map (·.1)
  let s1 := won.foldl (fun s l => s.putEntry key (q l) (entOf (k.w.vget b l).toNat (conf l) (catPass c.hdr) 0 1)) s
  let c1 := { c with scored := won.foldl (fun xs l => if xs.contains (q l) then xs else xs ++ [q l]) c.scored }
  ({ s1 with cats := Map.put s1.cats key c1 }).putStatus k d st

/-- A slot comes before another: higher confidence, then lower position (R315); a NaN comes last. -/
def slotBefore (x y : Nat × Nat) : Bool :=
  let a := fmtF16.decode x.2
  let b := fmtF16.decode y.2
  if a.isNan || b.isNan then (!a.isNan || (b.isNan && decide (x.1 < y.1)))
  else b.lt a || (!a.lt b && decide (x.1 < y.1))

/-- A slot placed in order. -/
def insertSlot (x : Nat × Nat) : List (Nat × Nat) → List (Nat × Nat)
  | [] => [x]
  | y :: r => if slotBefore x y then x :: y :: r else y :: insertSlot x r

/-- The slots SLFIN finalises, of the tentative scored ones with their confidences (R315). -/
def chosen (h : List Word) (ss : List (Nat × Nat)) : List Nat :=
  let maxf := hw h 2 / 2 ^ 16
  let minf := hw h 2 % 2 ^ 16
  let order := ss.foldl (fun acc x => insertSlot x acc) []
  let cands := order.filter fun x => f16ge x.2 (hw h 1 % 2 ^ 16)
  let f := if maxf = 0 then cands else cands.take maxf
  let rest := order.filter fun x => !f.contains x
  (f ++ rest.take (minf - f.length)).map (·.1)

/-- Numbers in ascending order. -/
def ascending (xs : List Nat) (bound : Nat) : List Nat := (List.range bound).filter (xs.contains ·)

/-- The final prefix (R300). -/
def State.finalPrefix (s : State) (key len : Nat) (bad : Option Nat) : Nat :=
  ((List.range len).takeWhile fun q => isFinal (s.entry key bad q)).length

/-- SLFIN's effect on the catalogue: the slots finalised (R315, R316). -/
def State.slfinCat (s : State) (key : Nat) (c : Cat) (bad : Option Nat) : State × List Nat :=
  let h := c.hdr
  let len := catLen h
  let ss := ((ascending c.scored len).map fun q => (q, s.entry key bad q)).filter fun x => entState x.2 == 1 && !corrupt x.2
  let f := ascending (chosen h (ss.map fun x => (x.1, entConf x.2))) len
  let fin := fun (s : State) (n q : Nat) =>
    let e := s.entry key bad q
    let s1 := s.putEntry key q (entOf (field e 55 32) (entConf e) (catPass h) 0 2)
    if n < len then s1.putNum (.scr (logKey key len n)) q 2 else s1
  let s1 := (List.range f.length).foldl (fun s i => fin s (hw h 6 + i) (f.getD i 0)) s
  let s2 := (ss.filter fun x => !f.contains x.1 && (fmtF16.decode (entConf x.2)).lt (fmtF16.decode (hw h 1 / 2 ^ 16))).foldl
    (fun s x => s.putEntry key x.1 (entOf 0 0 (catPass h) 0 0)) s1
  let h' := ((h.set 3 (h.getD 3 0 + 1)).set 5 (BitVec.ofNat 32 (s2.finalPrefix key len bad))).set 6
    (BitVec.ofNat 32 ((hw h 6 + f.length) % 2 ^ 13))
  (s2.putCat key { hdr := h', scored := [] }, f)

/-- SLFIN performed: each active lane learns whether its position became final. -/
def State.slfin (s : State) (k : Slot) (p a key : Nat) (c : Cat) (bad : Option Nat) : State :=
  let r := s.slfinCat key c bad
  (r.1.modWave k.h fun w => w.pput p k.mask (maskBy fun l => r.2.contains (posOf (k.w.vget a l)))).finish k 4

/-- Lanes act on entries one after another, each on the state it finds: `f` gives the status, the new entry and the new
catalogue. -/
def State.laneByLane (s : State) (k : Slot) (d a key : Nat) (c : Cat) (bad : Option Nat)
    (f : Nat → Nat → Cat → Nat × Option Nat × Cat) : State :=
  let r := k.lanes.foldl (fun (acc : State × Cat × List (Nat × Nat)) l =>
    let q := posOf (k.w.vget a l)
    if catLen c.hdr ≤ q then (acc.1, acc.2.1, acc.2.2 ++ [(l, 2)])
    else
      let e := acc.1.entry key bad q
      if corrupt e then (acc.1, acc.2.1, acc.2.2 ++ [(l, 3)])
      else
        let x := f q e acc.2.1
        ((match x.2.1 with
          | some e' => acc.1.putEntry key q e'
          | none => acc.1), x.2.2, acc.2.2 ++ [(l, x.1)])) (s, c, [])
  ({ r.1 with cats := Map.put r.1.cats key r.2.1 }).putStatus k d r.2.2

/-- SLROPN performed (R317). -/
def State.slropn (s : State) (k : Slot) (d a key : Nat) (c : Cat) (bad : Option Nat) : State :=
  s.laneByLane k d a key c bad fun q e c =>
    match entState e with
    | 1 => (0, some (entOf 0 0 (catPass c.hdr) 0 0), { c with scored := c.scored.filter (· != q) })
    | 2 => (1, none, c)
    | _ => (6, none, c)

/-- SLKVC performed, once every store of the wave has, from either slot (R319). -/
def State.slkvc (s : State) (k : Slot) (d a key : Nat) (c : Cat) (bad : Option Nat) : State :=
  if !k.det && k.w.outs.any fun o => o.path == .st && s.dueAt k o then s
  else s.laneByLane k d a key c bad fun _ e c =>
    if entState e ≠ 2 then (6, none, c) else if bitAt e 2 then (7, none, c) else (0, some (e + 4), c)

/-- SLST performed (R318). -/
def State.slst (s : State) (k : Slot) (d a key : Nat) (c : Cat) (bad : Option Nat) : State :=
  let e := fun (l : Nat) => let q := posOf (k.w.vget a l); if catLen c.hdr ≤ q then 3 else s.entry key bad q
  (s.modWave k.h fun w =>
    (w.vput d k.mask fun l => BitVec.ofNat 32 (e l)).vput (d + 1) k.mask fun l => BitVec.ofNat 32 (e l / 2 ^ 32)).finish k 4

/-- The slots eligible to be emitted, in order, at most 64 (R320). -/
def State.eligible (s : State) (key : Nat) (c : Cat) (bad : Option Nat) : List (Nat × Nat) :=
  let cur := hw c.hdr 7
  let slots := (List.range 64).map fun i =>
    if catEvent c.hdr then
      if hw c.hdr 6 ≤ cur + i || bad = some (2 * catLen c.hdr + (cur + i) / 2) then none
      else some (s.num (.scr (logKey key (catLen c.hdr) (cur + i))) 2 % 2 ^ 12)
    else some (cur + i)
  let es := slots.map fun q => match q with
    | some q => if q < catLen c.hdr then some (q, s.entry key bad q) else none
    | none => none
  (es.takeWhile fun x => match x with
    | some x => emittable x.2
    | none => false).filterMap id

/-- A stream record (R321). -/
def streamRecord (seq : Word) (catid q e : Nat) : List Word :=
  [seq, BitVec.ofNat 32 (catid * 2 ^ 16 + q), BitVec.ofNat 32 (field e 55 32), BitVec.ofNat 32 (entConf e * 2 ^ 16 + field e 11 4)]

/-- Free places of a tenant's stream intake (R481). -/
def State.streamFree (s : State) (tenant : Nat) : Nat := 256 - ((Map.find s.tenants tenant).map (·.intake.length)).getD 0

/-- SLEMIT performed (R307, R320): it waits while records are due and the intake has no place, or, at a commit, not enough. Outside a
commit an intake with some places takes as many records (R320, R323; log 77). -/
def State.slemit (s : State) (k : Slot) (d key : Nat) (c : Cat) (bad : Option Nat) : State :=
  let es := s.eligible key c bad
  let free := s.streamFree k.l.tenant
  let n := if k.det then es.length else min es.length free
  if !k.room 1 then s
  else if (if k.det then decide (free < n) else decide (0 < es.length) && n == 0) then s
  else
    let seq := c.hdr.getD 4 0
    let recs := (List.range n).map fun i => let x := es.getD i (0, 0); streamRecord (seq + BitVec.ofNat 32 i) (hw c.hdr 8) x.1 x.2
    let h' := (c.hdr.set 4 (seq + BitVec.ofNat 32 n)).set 7 (BitVec.ofNat 32 ((hw c.hdr 7 + n) % 2 ^ 13))
    let s1 := { s with tenants := Map.modify s.tenants k.l.tenant fun t => { t with intake := t.intake ++ recs } }
    ((s1.putCat key { c with hdr := h' }).write k [(.s d, BitVec.ofNat 32 n)]).finish k 4

/-- SLSCOR (R314). -/
def execSlscor (d a b : Nat) (s : State) : Res :=
  issueMem s 4 fun k => s.onCat k (.slscor d a b) [(0, d), (1, a), (2, b)] fun key c => s.slscor k d a b key c none

/-- SLFIN (R315). -/
def execSlfin (p a : Nat) (s : State) : Res :=
  issueMem s 4 fun k => s.onCat k (.slfin p a) [(1, a)] fun key c => s.slfin k p a key c none

/-- SLROPN (R317). -/
def execSlropn (d a : Nat) (s : State) : Res :=
  issueMem s 4 fun k => s.onCat k (.slropn d a) [(0, d), (1, a)] fun key c => s.slropn k d a key c none

/-- SLST (R318); its reads are made before the slot issues again, which is all an acquire asks (R84). -/
def execSlst (d a : Nat) (acq : Bool) (s : State) : Res :=
  issueMem s 4 fun k => s.onCat k (.slst d a acq) [(0, d), (0, d + 1), (1, a)] fun key c => s.slst k d a key c none

/-- SLKVC (R319). -/
def execSlkvc (d a : Nat) (s : State) : Res :=
  issueMem s 4 fun k => s.onCat k (.slkvc d a) [(0, d), (1, a)] fun key c => s.slkvc k d a key c none

/-- SLEMIT (R320, R383). -/
def execSlemit (d : Nat) (s : State) : Res :=
  issueMem s 4 fun k => s.onCat k (.slemit d) [] fun key c => s.slemit k d key c none

end Sys2Proof.Machine
end

