-- ==== Sys2Proof/Machine/Fp.lean ====
section
/-! DEFINITION. The vector floating-point instructions, opcodes 0x70 to 0x85 (spec/09_vector_and_uniform.md R229-R233). -/

namespace Sys2Proof.Machine

/-- The rounding mode a slot's vector instructions use (R205). -/
def Slot.mode (k : Slot) : Mode := modeOf (k.csr 0x000)

/-- A two-source FP32 instruction. -/
def fp2 (s : State) (d a : Nat) (b : Src) (f : Mode → Nat → Nat → Flagged) : Res :=
  fpOp s (names3 d a b) d fun k l => f k.mode (k.w.vget a l).toNat (k.src b l).toNat

/-- A one-source FP32 instruction on the operand's value (R206). -/
def fp1 (s : State) (d a : Nat) (f : Mode → FVal → Flagged) : Res :=
  fpOp s (names2 d a) d fun k l => f k.mode (fmtF32.operand k.mode.ftz (k.w.vget a l).toNat)

/-- FRCP: 1 / a (R229). -/
def frcpV (md : Mode) (a : FVal) : Flagged := fmtF32.divV md (.fin false 1 0) a

/-- FMOV: the sign bit only (R232). -/
def fmovW (op : FmovOp) (x : Word) : Word :=
  match op with
  | .copy => x
  | .neg => x ^^^ 0x80000000
  | .abs => x &&& 0x7FFFFFFF
  | .nabs => x ||| 0x80000000

/-- The kind of a packed instruction (R233). -/
def packedFmt (bf : Bool) : Fmt := if bf then fmtBF16 else fmtF16

/-- The two halves of a packed element: each with its own flags (R233). -/
def halves (f : Nat → Flagged) : Flagged :=
  let r0 := f 0
  let r1 := f 1
  (r1.1 % 2 ^ 16 * 2 ^ 16 + r0.1 % 2 ^ 16, r0.2 ||| r1.2)

/-- Half `h` of an element. -/
def half (x : Word) (h : Nat) : Nat := x.toNat / 2 ^ (16 * h) % 2 ^ 16

/-- FADD (R229). -/
def execFadd (d a : Nat) (b : Src) (s : State) : Res :=
  fp2 s d a b fmtF32.add

/-- FSUB (R229). -/
def execFsub (d a : Nat) (b : Src) (s : State) : Res :=
  fp2 s d a b fmtF32.sub

/-- FMUL (R229). -/
def execFmul (d a : Nat) (b : Src) (s : State) : Res :=
  fp2 s d a b fmtF32.mul

/-- FFMA: one rounding (R229). -/
def execFfma (d a : Nat) (b : Src) (np na : Bool) (s : State) : Res :=
  fpOp s (names3 d a b) d fun k l =>
    fmtF32.fma k.mode np na (k.w.vget a l).toNat (k.src b l).toNat (k.w.vget d l).toNat

/-- FMIN (R230). -/
def execFmin (d a : Nat) (b : Src) (s : State) : Res :=
  fp2 s d a b fun md x y => fmtF32.minMax md false x y

/-- FMAX (R230). -/
def execFmax (d a : Nat) (b : Src) (s : State) : Res :=
  fp2 s d a b fun md x y => fmtF32.minMax md true x y

/-- FCMP (R222, R231). -/
def execFcmp (c : FCond) (p a : Nat) (b : Src) (s : State) : Res :=
  fpPredOp s ((1, a) :: srcNames b) p fun k l =>
    fcompare fmtF32 k.mode c (k.w.vget a l).toNat (k.src b l).toNat

/-- FDIV (R229). -/
def execFdiv (d a : Nat) (b : Src) (s : State) : Res :=
  fp2 s d a b fmtF32.div

/-- FSQRT (R229, R231). -/
def execFsqrt (d a : Nat) (s : State) : Res :=
  fp1 s d a fmtF32.sqrtV

/-- FRCP (R229, R231). -/
def execFrcp (d a : Nat) (s : State) : Res :=
  fp1 s d a frcpV

/-- FRSQ (R231). -/
def execFrsq (d a : Nat) (s : State) : Res :=
  fp1 s d a fmtF32.rsqV

/-- FEXP2 (R231). -/
def execFexp2 (d a : Nat) (s : State) : Res :=
  fp1 s d a fexp2V

/-- FLOG2 (R231). -/
def execFlog2 (d a : Nat) (s : State) : Res :=
  fp1 s d a flog2V

/-- FSIN (R231). -/
def execFsin (d a : Nat) (s : State) : Res :=
  fp1 s d a fsinV

/-- FCOS (R231). -/
def execFcos (d a : Nat) (s : State) : Res :=
  fp1 s d a fcosV

/-- FTANH (R231). -/
def execFtanh (d a : Nat) (s : State) : Res :=
  fp1 s d a ftanhV

/-- FCLASS (R232). -/
def execFclass (d a : Nat) (s : State) : Res :=
  vecOp s (names2 d a) d fun k l => BitVec.ofNat 32 (fclassMask (k.w.vget a l).toNat)

/-- FSCALE: b is read as INT32 (R232). -/
def execFscale (d a : Nat) (b : Src) (s : State) : Res :=
  fpOp s (names3 d a b) d fun k l => fmtF32.scale k.mode (k.w.vget a l).toNat (k.src b l).toInt

/-- FMOV (R232). -/
def execFmov (d a : Nat) (op : FmovOp) (s : State) : Res :=
  vecOp s (names2 d a) d fun k l => fmovW op (k.w.vget a l)

/-- PKADD (R233). -/
def execPkadd (d a : Nat) (b : Src) (bf : Bool) (s : State) : Res :=
  fpOp s (names3 d a b) d fun k l =>
    halves fun h => (packedFmt bf).add k.mode (half (k.w.vget a l) h) (half (k.src b l) h)

/-- PKMUL (R233). -/
def execPkmul (d a : Nat) (b : Src) (bf : Bool) (s : State) : Res :=
  fpOp s (names3 d a b) d fun k l =>
    halves fun h => (packedFmt bf).mul k.mode (half (k.w.vget a l) h) (half (k.src b l) h)

/-- PKFMA: one rounding per half (R233). -/
def execPkfma (d a : Nat) (b : Src) (bf : Bool) (s : State) : Res :=
  fpOp s (names3 d a b) d fun k l =>
    halves fun h =>
      (packedFmt bf).fma k.mode false false (half (k.w.vget a l) h) (half (k.src b l) h) (half (k.w.vget d l) h)

end Sys2Proof.Machine
end

