-- ==== Sys2Proof/Machine/CrossLane.lean ====
section
/-! DEFINITION. Cross-lane instructions: shuffles, scans, reductions, votes, matches and random numbers
(spec/09_vector_and_uniform.md R240-R244). -/

namespace Sys2Proof.Machine

/-- The lane a shuffle reads: `j` an unsigned index, `w` the sub-group width; none for zero (R240). -/
def shuffleLane (m : ShflMode) (w l j : Nat) : Option Nat :=
  let base := l - l % w
  if j < w then some (base + j)
  else match m with
    | .wrap => some (base + j % w)
    | .clamp => some (base + w - 1)
    | .own => some l
    | .zero => none

/-- A shuffle: `idx` gives a lane's unsigned index from its place in the sub-group and its b (R240). -/
def shuffle (s : State) (d a : Nat) (b : Src) (m : ShflMode) (idx : Word → Word → Word) : Res :=
  vecOp s (names3 d a b) d fun k l =>
    let w := (k.csr 0x003).toNat
    match shuffleLane m w l (idx (BitVec.ofNat 32 (l % w)) (k.src b l)).toNat with
    | some x => k.w.vget a x
    | none => 0

/-- SHFL (R240). -/
def execShfl (d a : Nat) (b : Src) (m : ShflMode) (s : State) : Res := shuffle s d a b m fun _ y => y

/-- SHFLX (R240). -/
def execShflx (d a : Nat) (b : Src) (m : ShflMode) (s : State) : Res := shuffle s d a b m fun x y => x ^^^ y

/-- The identity of an operation (R241). -/
def scanId : ScanOp → Word
  | .add | .maxu | .or | .xor => 0
  | .min => 0x7FFFFFFF
  | .max => 0x80000000
  | .minu | .and => 0xFFFFFFFF
  | .fadd => 0x80000000
  | .fmin => 0x7F800000
  | .fmax => 0xFF800000

/-- One combination, with its flags (R241). -/
def scanStep (op : ScanOp) (md : Mode) (x y : Word) : Word × Nat :=
  let fp (r : Flagged) : Word × Nat := (BitVec.ofNat 32 r.1, r.2)
  match op with
  | .add => (x + y, 0)
  | .min => (minW false x y, 0)
  | .max => (maxW false x y, 0)
  | .minu => (minW true x y, 0)
  | .maxu => (maxW true x y, 0)
  | .and => (x &&& y, 0)
  | .or => (x ||| y, 0)
  | .xor => (x ^^^ y, 0)
  | .fadd => fp (fmtF32.add md x.toNat y.toNat)
  | .fmin => fp (fmtF32.minMax md false x.toNat y.toNat)
  | .fmax => fp (fmtF32.minMax md true x.toNat y.toNat)

/-- A scan over the active lanes `ls` of one sub-group: results by lane, and the flags of the steps performed (R242). -/
def scanFrom (op : ScanOp) (md : Mode) (ex : Bool) (a : Nat → Word) : List Nat → Word → List (Nat × Word) × Nat
  | [], _ => ([], 0)
  | l :: r, run =>
    if ex && r.isEmpty then ([(l, run)], 0)
    else
      let c := scanStep op md run (a l)
      let t := scanFrom op md ex a r c.1
      ((l, if ex then run else c.1) :: t.1, c.2 ||| t.2)

/-- A scan of a whole mask by sub-groups of width `w`. -/
def scanAll (op : ScanOp) (md : Mode) (ex : Bool) (a : Nat → Word) (w : Nat) (ls : List Nat) : List (Nat × Word) × Nat :=
  (List.range (64 / w)).foldl (fun acc g =>
    let r := scanFrom op md ex a (ls.filter fun l => l / w == g) (scanId op)
    (acc.1 ++ r.1, acc.2 ||| r.2)) ([], 0)

/-- SCAN (R242). -/
def execScan (d a : Nat) (op : ScanOp) (ex : Bool) (s : State) : Res :=
  issue s 4 fun k =>
    let r := scanAll op k.mode ex (k.w.vget a) (k.csr 0x003).toNat k.lanes
    s.vnamed k (names2 d a)
      ((s.modWave k.h fun w => (w.vput d k.mask fun l => (Map.find r.1 l).getD 0).raiseFlags r.2).finish k 4)

/-- The reduction of lanes, from the first one's value on (R242). -/
def reduce (op : ScanOp) (md : Mode) (a : Nat → Word) : List Nat → Word × Nat
  | [] => ((scanId op), 0)
  | l :: r => r.foldl (fun acc j => let c := scanStep op md acc.1 (a j); (c.1, acc.2 ||| c.2)) (a l, 0)

/-- VRED (R242). -/
def execVred (d a : Nat) (op : ScanOp) (s : State) : Res :=
  issue s 4 fun k =>
    let r := reduce op k.mode (k.w.vget a) k.lanes
    s.vnamed k [(1, a)]
      (if k.room 1 then ((s.write k [(.s d, r.1)]).modWave k.h (·.raiseFlags r.2)).finish k 4 else s)

/-- VOTE (R243). -/
def execVote (d pa : Nat) (m : VoteMode) (s : State) : Res :=
  uniOp s 4 [] (if m = .ballot then 2 else 1) fun k =>
    let x := k.w.pget pa &&& k.mask
    match m with
    | .any => [(.k d, wordOfBool (x != 0))]
    | .all => [(.k d, wordOfBool (x == k.mask))]
    | .ballot => pairOf d x

/-- MATCH (R243). -/
def execMatchV (d a : Nat) (s : State) : Res :=
  vecOp s (names2 d a) d fun k l =>
    BitVec.ofNat 32 ((k.lanes.find? fun j => k.w.vget a j == k.w.vget a l).getD l)

/-- The high and low words of a 64-bit product. -/
def mulhilo (x y : Word) : Word × Word := (mulhW true x y, x * y)

/-- Philox4x32 rounds (R244). -/
def philox : Nat → Word × Word × Word × Word → Word → Word → Word × Word × Word × Word
  | 0, c, _, _ => c
  | n + 1, (c0, c1, c2, c3), k0, k1 =>
    let p0 := mulhilo 0xD2511F53 c0
    let p1 := mulhilo 0xCD9E8D57 c2
    philox n (p1.1 ^^^ c1 ^^^ k0, p1.2, p0.1 ^^^ c3 ^^^ k1, p0.2) (k0 + 0x9E3779B9) (k1 + 0xBB67AE85)

/-- Word `i` of a lane's four outputs. -/
def philoxWord (a : Word) (stream : Nat) (k0 k1 : Word) (i : Nat) : Word :=
  let c := philox 10 (a, BitVec.ofNat 32 stream, 0, 0) k0 k1
  match i with
  | 0 => c.1
  | 1 => c.2.1
  | 2 => c.2.2.1
  | _ => c.2.2.2

/-- RNG (R244). -/
def execRng (d a b stream : Nat) (s : State) : Res :=
  issue s 4 fun k =>
    s.vnamed k (runNames 0 d 4 ++ [(1, a)])
      ((s.modWave k.h fun w =>
        (List.range 4).foldl (fun w' i =>
          w'.vput (d + i) k.mask fun l => philoxWord (w.vget a l) stream (k.s b) (k.s (b + 1)) i) w).finish k 4)

end Sys2Proof.Machine
end

