-- ==== Sys2Proof/Machine/Fitting.lean ====
section
/-! DEFINITION. The Fitting Engine: regions, their networks and training, and the fitting instructions
(spec/16_fitting_engine.md R325-R347, R492). FP32 values travel as numbers of 32 bits. -/

namespace Sys2Proof.Machine

/-! ## Descriptors (R328, R329) -/

/-- Word `i` of a descriptor. -/
def dw (d : List Word) (i : Nat) : Nat := (d.getD i 0).toNat
def regNout (d : List Word) : Nat := field (dw d 0) 22 20 + 1
def regNin (d : List Word) : Nat := field (dw d 0) 19 16 + 1
def regLen (d : List Word) : Nat := field (dw d 0) 15 0
def regRel (d : List Word) : Bool := bitAt (dw d 1) 25
def regTanh (d : List Word) : Bool := bitAt (dw d 1) 24
def regB (d : List Word) : Nat := field (dw d 1) 23 16 + 1
def regH2 (d : List Word) : Nat := field (dw d 1) 12 8 + 1
def regTwo (d : List Word) : Bool := bitAt (dw d 1) 5
def regH1 (d : List Word) : Nat := field (dw d 1) 4 0 + 1
def regCap (d : List Word) : Nat := field (dw d 5) 12 0
def regTlen (d : List Word) : Nat := field (dw d 6) 31 16
def regS (d : List Word) : Nat := field (dw d 6) 15 0
def regIsh (d : List Word) : Nat := field (dw d 11) 27 24
/-- Byte `i` of the words from `w` on. -/
def regByte (d : List Word) (w i : Nat) : Nat := dw d (w + i / 4) / 2 ^ (8 * (i % 4)) % 256
/-- The input and result registers. -/
def regIns (d : List Word) : List Nat := (List.range (regNin d)).map (regByte d 12)
def regOuts (d : List Word) : List Nat := (List.range (regNout d)).map (regByte d 16)

/-- The exponent field of an FP32 number is not all ones. -/
def finite (x : Nat) : Bool := x / 2 ^ 23 % 256 != 255

/-- Reserved bits are zero and every limit of R328 holds, SBUF's apart. -/
def regOk (d : List Word) : Bool :=
  dw d 0 / 2 ^ 23 == 0 && decide (1 ≤ regLen d) && dw d 1 / 2 ^ 26 == 0 && decide (8 ≤ regB d) && field (dw d 1) 15 13 == 0 &&
  field (dw d 1) 7 6 == 0 && (regTwo d || regH2 d == 1) &&
  finite (dw d 2) && decide (dw d 2 < 2 ^ 31) && dw d 2 != 0 && finite (dw d 3) && (decide (dw d 3 < 2 ^ 31) || dw d 3 == 2 ^ 31) &&
  dw d 5 / 2 ^ 13 == 0 && decide (regB d ≤ regCap d) && decide (regCap d ≤ 4096) && decide (1 ≤ regTlen d) && decide (1 ≤ regS d) &&
  decide (1 ≤ dw d 8) && dw d 11 / 2 ^ 28 == 0 && field (dw d 11) 23 0 == 0 &&
  ((List.range 16).all fun i => if i < regNin d then decide (regByte d 12 i < 128) else regByte d 12 i == 0) &&
  ((List.range 8).all fun i => if i < regNout d then decide (regByte d 16 i < 128) else regByte d 16 i == 0) &&
  (d.drop 18).all (· == 0)

/-- One layer: inputs, units, and the place of its weights in the image. -/
structure Layer where
  ni : Nat
  no : Nat
  off : Nat
  deriving DecidableEq, Repr

/-- Layers of given widths after an input of `ni`. -/
def layersOf : Nat → Nat → List Nat → List Layer
  | _, _, [] => []
  | off, ni, n :: r => ⟨ni, n, off⟩ :: layersOf (off + (ni + 1) * n) n r

/-- The layers of a region's network (R329). -/
def regLayers (d : List Word) : List Layer :=
  layersOf 0 (regNin d) (if regTwo d then [regH1 d, regH2 d, regNout d] else [regH1 d, regNout d])

/-- NW. -/
def regNW (d : List Word) : Nat := ((regLayers d).map fun l => (l.ni + 1) * l.no).foldl (· + ·) 0

/-! ## The network (R335-R337): FP32, RNE, subnormals kept, no flags -/

def nadd (x y : Nat) : Nat := (fmtF32.add modeRNE x y).1
def nsub (x y : Nat) : Nat := (fmtF32.sub modeRNE x y).1
def nmul (x y : Nat) : Nat := (fmtF32.mul modeRNE x y).1
def ndiv (x y : Nat) : Nat := (fmtF32.div modeRNE x y).1
/-- fma(x, y, z), or fma(-x, y, z). -/
def nfma (np : Bool) (x y z : Nat) : Nat := (fmtF32.fma modeRNE np false x y z).1
/-- x > 0. -/
def npos (x : Nat) : Bool := (FVal.fin false 0 0).lt (fmtF32.decode x)

/-- The values z of a layer. -/
def layerZ (w x : List Nat) (l : Layer) : List Nat :=
  (List.range l.no).map fun j =>
    (List.range l.ni).foldl (fun z i => nfma false (w.getD (l.off + j * l.ni + i) 0) (x.getD i 0) z) (w.getD (l.off + l.ni * l.no + j) 0)

/-- A hidden unit's activation. -/
def activate (tanh : Bool) (z : Nat) : Nat :=
  if tanh then (ftanhV modeRNE (fmtF32.decode z)).1 else if npos z then z else 0

/-- The inputs, z and outputs of every layer; the last layer's outputs are its z. -/
def forwardAll (tanh : Bool) (w : List Nat) : List Nat → List Layer → List (List Nat × List Nat × List Nat)
  | _, [] => []
  | x, [l] => let z := layerZ w x l; [(x, z, z)]
  | x, l :: r =>
    let z := layerZ w x l
    let a := z.map (activate tanh)
    (x, z, a) :: forwardAll tanh w a r

/-- The surrogate's outputs. -/
def surrogate (d : List Word) (w x : List Nat) : List Nat :=
  (((forwardAll (regTanh d) w x (regLayers d)).getLast?).map (·.2.2)).getD []

/-- The larger of two non-negative numbers, a NaN winning. -/
def worse (x y : Nat) : Nat :=
  if (fmtF32.decode x).isNan || (fmtF32.decode y).isNan then fmtF32.nan else if (fmtF32.decode x).lt (fmtF32.decode y) then y else x

/-- The error of a lane (R335). -/
def laneError (d : List Word) (y t : List Nat) : Nat :=
  ((List.range (regNout d)).map fun k =>
    let e := nsub (y.getD k 0) (t.getD k 0) % 2 ^ 31
    if regRel d then ndiv e (worse (t.getD k 0 % 2 ^ 31) 0x35800000) else e).foldl worse 0

/-- A comparison fails: above EMAX, or NaN. -/
def tooFar (d : List Word) (e : Nat) : Bool := (fmtF32.decode e).isNan || (fmtF32.decode (dw d 3)).lt (fmtF32.decode e)

/-- The weights of a fresh region (R336). -/
def freshWeights (d : List Word) : List Word :=
  let ws := (regLayers d).flatMap fun l => List.replicate (l.ni * l.no) true ++ List.replicate l.no false
  (ws.foldl (fun (acc : List Word × Nat) isW =>
    if isW then
      let c0 := (philox 10 (BitVec.ofNat 32 acc.2, 0, 0, 0) (d.getD 9 0) (d.getD 10 0)).1
      let x := signed (c0.toNat / 256) 24
      let r := fmtF32.finish modeRNE false (decide (x < 0)) x.natAbs (-23 - (regIsh d : Int))
      (acc.1 ++ [BitVec.ofNat 32 r.1], acc.2 + 1)
    else (acc.1 ++ [0], acc.2)) ([], 0)).1

/-- δ of every layer, from the last backwards (R337). -/
def deltas (tanh : Bool) (w t : List Nat) : List (Layer × List Nat × List Nat × List Nat) → List (List Nat)
  | [] => []
  | [(_, _, y, _)] => [(List.range y.length).map fun k => nsub (y.getD k 0) (t.getD k 0)]
  | (l, _, z, a) :: (n, x, z', a') :: r =>
    let ds := deltas tanh w t ((n, x, z', a') :: r)
    let dn := ds.headD []
    ((List.range l.no).map fun h =>
      let s := (List.range n.no).foldl (fun s k => nfma false (w.getD (n.off + k * n.ni + h) 0) (dn.getD k 0) s) 0
      let f := if tanh then nfma true (a.getD h 0) (a.getD h 0) 0x3F800000 else if npos (z.getD h 0) then 0x3F800000 else 0
      nmul s f) :: ds

/-- The gradient after one sample. -/
def gradient (d : List Word) (w g x t : List Nat) : List Nat :=
  let ls := (regLayers d).zip (forwardAll (regTanh d) w x (regLayers d))
  let ds := deltas (regTanh d) w t ls
  (ls.zip ds).flatMap fun e =>
    let l := e.1.1
    let prev := e.1.2.1
    ((List.range (l.ni * l.no)).map fun n => nfma false (e.2.getD (n / l.ni) 0) (prev.getD (n % l.ni) 0) (g.getD (l.off + n) 0)) ++
      (List.range l.no).map fun j => nadd (g.getD (l.off + l.ni * l.no + j) 0) (e.2.getD j 0)

/-- B as FP32, exact. -/
def natF32 (n : Nat) : Nat := (fmtF32.finish modeRNE false false n 0).1

/-- The weights after a step over the samples in order (R337). -/
def train (d : List Word) (w : List Nat) (samples : List (List Nat × List Nat)) : List Nat :=
  let g := samples.foldl (fun g s => gradient d w g s.1 s.2) (List.replicate (regNW d) 0)
  (List.range (regNW d)).map fun n => nsub (w.getD n 0) (ndiv (nmul (dw d 2) (g.getD n 0)) (natF32 (regB d)))

/-! ## Regions (R325-R331) -/

/-- The key of region `rid` of a cluster. -/
def regionKey (cluster rid : Nat) : Nat := cluster * 64 + rid

/-- The region a number names in a slot's cluster and launch. -/
def State.regionOf (s : State) (k : Slot) (rid : Nat) : Option Region :=
  if 63 < rid then none
  else match Map.find s.regions (regionKey k.cluster rid) with
    | some r => if r.launch = k.g.launch then some r else none
    | none => none

/-- The weights as numbers. -/
def Region.wts (r : Region) : List Nat := r.weights.map (·.toNat)

/-- A transition of R331: a new round, trial, substitution or hold begins. -/
def Region.goto (r : Region) (st : Nat) : Region :=
  { r with
    state := st
    worst := 0
    round := if st = 2 then 0 else r.round
    trial := if st = 3 then 0 else r.trial
    hold := if st = 5 then dw r.desc 7 else r.hold }

/-- A region enters OBSERVE from INVALID (R331, R343). -/
def Region.again (r : Region) : Region :=
  { r.goto 1 with weights := freshWeights r.desc, slots := [], orders := 1, freePend := false, invs := [], step := none }

/-- Committed, unconsumed samples in reservation order. -/
def Region.samples (r : Region) : List (Nat × Sample) :=
  let cs := r.slots.filter fun e => e.2.state == 2
  cs.foldl (fun acc e => (acc.filter fun x => decide (x.2.order < e.2.order)) ++ [e] ++ acc.filter fun x => decide (e.2.order < x.2.order)) []

/-- A buffer slot's state. -/
def Region.slotAt (r : Region) (i : Nat) : Sample := (Map.find r.slots i).getD {}

/-- The slot a reservation takes: not pending, least recently reserved, lowest-numbered among those never reserved (R334). -/
def Region.pick (r : Region) : Option Nat :=
  (List.range (regCap r.desc)).foldl (fun best i =>
    let x := r.slotAt i
    if x.state = 1 then best
    else match best with
      | none => some i
      | some b => if x.order < (r.slotAt b).order then some i else some b) none

/-- A lane reserves a slot. -/
def Region.reserve (r : Region) : Region × Option Nat :=
  match r.pick with
  | none => (r, none)
  | some i => ({ r with slots := Map.put r.slots i ⟨1, r.orders⟩, orders := r.orders + 1 }, some i)

/-- A slot's state after its lane committed or did not. -/
def Region.settle (r : Region) (i st : Nat) : Region := { r with slots := Map.modify r.slots i fun x => { x with state := st } }

/-- The place of sample `i` of a region's buffer (R329). -/
def sampleKey (cluster : Nat) (r : Region) (i : Nat) : Nat :=
  clusterKey r.launch cluster + field (dw r.desc 4) 24 0 + 4 * (regNin r.desc + regNout r.desc) * i

/-- Words written from a scratchpad place on. -/
def State.putWords (s : State) (key : Nat) (ws : List Word) : State :=
  (List.range ws.length).foldl (fun s i => s.putNum (.scr (key + 4 * i)) (ws.getD i 0).toNat 4) s

/-- Words read from a scratchpad place on. -/
def State.getWords (s : State) (key n : Nat) : List Word := (List.range n).map fun i => s.word (.scr (key + 4 * i))

/-- A region stored. -/
def State.putRegion (s : State) (key : Nat) (r : Region) : State := { s with regions := Map.put s.regions key r }

/-- All inputs or results finite. -/
def allFinite (ws : List Word) : Bool := ws.all fun x => finite x.toNat

/-- The pages of a region's code, from its APXB at `pc` to its APXE, and what translating each for the slot comes to: a page
counts whatever it permits (R332). -/
def State.codeXlates (s : State) (k : Slot) (pc : DWord) (len : Nat) : List (DWord × Xlate) :=
  (List.range ((pc.toNat + 4 * len) / 4096 - pc.toNat / 4096 + 1)).map fun i =>
    let va := BitVec.ofNat 64 ((pc.toNat / 4096 + i) * 4096)
    (va, s.xlate k.w k.f.side k.core k.l.tenant va 4)

/-- The physical pages among them; one that has no translation holds no word (R332). -/
def State.codePages (s : State) (xs : List (DWord × Xlate)) : List Nat :=
  xs.filterMap fun e => match e.2 with
    | .ok t p => some ((s.placeOf t p).key / 4096)
    | _ => none

/-- The part of APXB that goes to the engine: the entry and its code's `pages` recorded, lanes captured with their inputs, hold
accounting, one more open invocation (R332, R334, R340). `n` is the number of active lanes. -/
def State.apxbEngine (s : State) (core rid inv : Nat) (pc : DWord) (pages : List Nat) (n : Nat) (xs : List (Nat × List Word)) :
    State × List (Nat × Nat) :=
  let key := regionKey (core / 192) rid
  match Map.find s.regions key with
  | none => (s, [])
  | some r0 =>
    let r1 := { r0 with entry := some (r0.entry.getD pc), pages := if r0.entry.isSome then r0.pages else pages }
    let cap := xs.foldl (fun (acc : State × Region × List (Nat × Nat)) e =>
      if acc.2.1.state = 6 || !allFinite e.2 then acc
      else
        let p := acc.2.1.reserve
        match p.2 with
        | none => acc
        | some i => (acc.1.putWords (sampleKey (core / 192) p.1 i) e.2, p.1, acc.2.2 ++ [(e.1, i)])) (s, r1, [])
    let r2 := cap.2.1
    let r3 := if r2.state = 5 then (if r2.hold ≤ n then { r2 with hold := 0 }.goto 2 else { r2 with hold := r2.hold - n }) else r2
    (cap.1.putRegion key { r3 with openInv := r3.openInv + 1, invs := Map.put r3.invs inv cap.2.2 }, cap.2.2)

/-- A region after the comparisons of an APXE over its committed samples (R331, R341). -/
def Region.compared (r : Region) (es : List Nat) : Region :=
  let bad := es.any (tooFar r.desc)
  let r1 := { r with worst := BitVec.ofNat 32 (es.foldl worse r.worst.toNat), trial := if r.state = 3 then r.trial + es.length else r.trial }
  if r.state = 3 then (if bad then r1.goto 2 else if regTlen r.desc ≤ r1.trial then r1.goto 4 else r1)
  else if bad then r1.goto 5 else r1

/-- The part of APXE, or of a level popped by a retirement, that goes to the engine (R334, R339, R341): `xs` are the lanes that
arrive, with their results. -/
def State.apxeEngine (s : State) (cluster rid inv : Nat) (compare : Bool) (xs : List (Nat × List Word)) : State :=
  let key := regionKey cluster rid
  match Map.find s.regions key with
  | none => s
  | some r0 =>
    let slots := (Map.find r0.invs inv).getD []
    let acc := slots.foldl (fun (acc : State × Region × List Nat) e =>
      match xs.find? fun x => x.1 == e.1 with
      | some x =>
        if allFinite x.2 then
          (acc.1.putWords (sampleKey cluster r0 e.2 + 4 * regNin r0.desc) x.2,
            { acc.2.1.settle e.2 2 with committed := acc.2.1.committed + 1 }, acc.2.2 ++ [e.2])
        else (acc.1, acc.2.1.settle e.2 3, acc.2.2)
      | none => (acc.1, acc.2.1.settle e.2 3, acc.2.2)) (s, r0, [])
    let r1 := acc.2.1
    let errs := acc.2.2.map fun i =>
      let ws := (acc.1.getWords (sampleKey cluster r0 i) (regNin r0.desc + regNout r0.desc)).map (·.toNat)
      laneError r0.desc (surrogate r0.desc r0.wts (ws.take (regNin r0.desc))) (ws.drop (regNin r0.desc))
    let r2 := if compare && (r1.state == 3 || r1.state == 4) then r1.compared errs
      else if r1.state = 1 && regB r1.desc ≤ r1.samples.length then r1.goto 2 else r1
    let r3 := { r2 with openInv := r2.openInv - 1, invs := Map.erase r2.invs inv }
    if r3.freePend && r3.state == 6 && r3.openInv == 0 then { acc.1 with regions := Map.erase acc.1.regions key }
    else acc.1.putRegion key r3

/-! ## APXB and APXE -/

/-- The result words of a lane in resolved registers. -/
def Wave.wordsAt (w : Wave) (keys : List Nat) (l : Nat) : List Word := keys.map fun key => Sparse.get 0 w.v (key + l)

/-- The levels popped on the way close their invocations: at once, or at the commit (R339, R346). `m` is the mask that
arrived at the first of them. -/
def State.closeRegions (s : State) (h : Nat) (core : Nat) (det : Bool) (m : Mask) (closed : List (Level × Mask)) : State :=
  (List.range closed.length).foldl (fun s i =>
    match closed[i]? with
    | some (Level.apxAddr _ _ rid _ inv outs, cap) =>
      let ls := if i = 0 then lanesOf (m &&& cap) else []
      let xs := match Map.find s.waves h with
        | some w => ls.map fun l => (l, w.wordsAt (outs.map (·.2)) l)
        | none => []
      if det then s.modWave h fun w => { w with qops := w.qops ++ [.apxe rid inv xs] }
      else s.apxeEngine (core / 192) rid inv true xs
    | _ => s) s

/-- The surrogate's results for a lane that is to be substituted: none where it runs the body (R335, R340). -/
def Slot.substitute (k : Slot) (r : Region) (l : Nat) : Option (List Nat) :=
  let x := (regIns r.desc).map fun j => k.w.vget j l
  if r.state ≠ 4 || (Sparse.get 0 k.w.ic l).toNat % regS r.desc = 0 || !allFinite x then none
  else
    let y := surrogate r.desc r.wts (x.map (·.toNat))
    if y.all finite then some y else none

/-- The invocation counts of the active lanes go up by 1 (R333). -/
def Wave.countLanes (w : Wave) (m : Mask) : Wave :=
  { w with ic := (lanesOf m).foldl (fun ic l => Sparse.set 0 ic l (Sparse.get 0 ic l + 1)) w.ic }

/-- The effect of APXB once its checks have passed and its code's `pages` are known; the first slot's fragment runs alone from
here (R176, R332, R340). -/
def State.apxbGo (s : State) (k : Slot) (rid : Nat) (r : Region) (pages : List Nat) : State :=
  let outs := regOuts r.desc
  let subs := if k.det then [] else k.lanes.filterMap fun l => (k.substitute r l).map fun y => (l, y)
  let sub := maskOf (subs.map (·.1))
  let run := k.mask &&& ~~~sub
  let xs := (lanesOf run).map fun l => (l, (regIns r.desc).map fun j => k.w.vget j l)
  let inv := s.nextReq
  let eng := if k.det then (s, (xs.filter fun e => allFinite e.2).map fun e => (e.1, 0))
    else s.apxbEngine k.core rid inv k.f.pc pages k.lanes.length xs
  let w0 := k.w.suspendSecond.clearFaults k.f.side
  let w1 := (outs.zip (List.range outs.length)).foldl (fun (w : Wave) o =>
    w.vput o.1 sub fun l => BitVec.ofNat 32 (((subs.find? fun e => e.1 == l).map fun e => e.2.getD o.2 0).getD 0)) w0
  let w2 := w1.countLanes k.mask
  let addr : Level := .apxAddr (k.f.pc + BitVec.ofNat 64 (4 * regLen r.desc)) k.f.side rid ((eng.2.map (·.2)).headD 0) inv
    (outs.map fun j => (j, k.w.vkey j))
  let w3 := { w2 with
    stack := .apxMasks (maskOf (eng.2.map (·.1))) sub :: addr :: w2.stack
    qops := if k.det then w2.qops ++ [.apxb rid inv k.f.pc pages xs] else w2.qops }
  let s1 := { eng.1 with nextReq := eng.1.nextReq + 1 }
  if run ≠ 0 then
    if k.deep 4 w3.stack.length then s.trap k (k.leaves 0)
    else if k.strays 4 then s.trap k (k.leaves (k.f.pc + 4))
    else (s1.setWave k.h w3).unwait k.h (!k.f.side) |>.finish { k with w := w3, f := { k.f with mask := run } } 4
  else
    let ls := k.w.loopsOf k.f
    let z := w3.reach ls w3.reachFuel false 0 0 []
    match z.breach with
    | some t => s.trap k (k.leaves t)
    | none =>
      (((((s1.setWave k.h (z.w.count.issued false)).unwaitAll k.h).closeRegions k.h k.core k.det 0 z.closed)).drain k.h)

/-- APXB with the translations of its code's pages, which walks find for it as for any access (R74, R332). The pages matter only
to a region's first APXB; a deterministic launch knows at the commit which that is. -/
def State.apxbRun (s : State) (k : Slot) (rid : Nat) (r : Region) : State :=
  let xs := if r.entry.isSome && !k.det then [] else s.codeXlates k k.f.pc (regLen r.desc)
  let misses := (xs.filter fun e => e.2 == .miss).map (·.1)
  if !misses.isEmpty then s.missAll k 4 misses else s.apxbGo k rid r (s.codePages xs)

/-- APXB (R340, R492). In a deterministic launch the engine gives the samples their places at the commit, so before it they are
no buffered write of the wave to any byte (R334, R346, R451). -/
def execApxb (a : Nat) (s : State) : Res :=
  issueFlow s fun k => s.unheld k (
    if k.second then s
    else
      let rid := (k.s a).toNat
      match s.regionOf k rid with
      | none => s.trap k (k.illegal (.apxb a))
      | some r =>
        if r.entry.isSome && r.entry ≠ some k.f.pc then s.trap k (k.trap 0x02 5)
        else s.vnamed k ((regIns r.desc).map (fun j => (5, j)) ++ (regOuts r.desc).map fun j => (6, j))
          (if 8 + k.w.spill < k.w.stack.length + 2 then
            s.trap k { k.trap 0x0C with w12 := BitVec.ofNat 32 k.w.stack.length }
          else if !k.det && k.busy then s
          else s.apxbRun k rid r))

/-- APXE (R341, R492): the checks of R190 on the stack are made on the one it leaves (R339). -/
def execApxe (s : State) : Res :=
  issueFlow s fun k => s.unheld k (
    match k.w.stack with
    | .apxMasks _ _ :: .apxAddr endpc _ _ _ _ outs :: _ =>
      if k.f.pc ≠ endpc then s.trap k (k.trap 0x02 5)
      else match outs.find? fun o => decide (k.w.blocks ≤ o.2 / 2048) with
        | some o => s.trap k (k.windowTrap 6 o.1)
        | none =>
          if !k.det && k.busy then s
          else
            let z := k.w.reach (k.w.loopsOf k.f) k.w.reachFuel k.second k.mask k.f.pc []
            match z.breach with
            | some t => s.trap k (k.leaves t)
            | none =>
              (((s.unwaitAll k.h).setWave k.h (z.w.count.issued k.second)).closeRegions k.h k.core k.det k.mask z.closed).drain k.h
    | _ => s.trap k (k.trap 0x02 5))

/-! ## FITCFG, FITINV, FITST (R342-R344) -/

/-- Runs `f` with the places of a uniform access's words, all translated at issue: Alignment first, then Page Fault for the
slot's whole mask (R86, R342, R345). -/
def State.withWords (s : State) (k : Slot) (a : DWord) (n al need access : Nat) (f : List Loc → State) : State :=
  if a.toNat % al ≠ 0 then s.trap k (k.laneTrap 0x06 0 access [(0, a)] true)
  else
    let xs := (List.range n).map fun i => a + BitVec.ofNat 64 (4 * i)
    let ts := xs.map fun va => (0, va, s.xlate k.w k.f.side k.core k.l.tenant va need)
    let misses := (ts.filter fun e => e.2.2 == .miss).map (·.2.1)
    if !misses.isEmpty then s.missAll k need misses
    else
      let fs := faulted ts
      let es := unread ts
      if !fs.isEmpty then (s.trap k (k.pageTrap access fs true)).modWave k.h (·.clearFaults k.f.side)
      else if !es.isEmpty then (((s.modWave k.h (·.clearFaults k.f.side)).finish k 4).walkError k true es)
      else f ((s.translated ts).map (·.2.2))

/-- An open value for a slot: a fresh one, or in a deterministic launch one that every run draws alike (log 2, R461). -/
def State.slotDraw (s : State) (k : Slot) : State × Nat :=
  if k.det then (s, (Config.freeWord (2 ^ 66 + k.w.waveid.toNat * 2 ^ 34 + k.w.quanta)).toNat) else s.draw

/-- FITCFG's result and effect on the Vitrine (R342). The number a region gets is any free one (log 2). -/
def State.fitcfg (s : State) (k : Slot) (va : DWord) (d : List Word) : State × Word :=
  match s.regions.find? fun e => e.2.launch == k.g.launch && e.2.va == va && e.1 / 64 == k.cluster with
  | some (key, r) =>
    (if r.state = 6 then s.putRegion key r.again else s, BitVec.ofNat 32 (key % 64))
  | none =>
    let sbuf := dw d 4
    let size := 4 * (regNin d + regNout d) * regCap d
    let free := (List.range 64).filter fun i => (Map.find s.regions (regionKey k.cluster i)).isNone
    if !regOk d then (s, 0x80000001)
    else if field sbuf 31 28 ≠ 2 || sbuf % 64 ≠ 0 || !(s.scrRange k.ctx sbuf size).isOk then (s, 0x80000003)
    else if free.isEmpty then (s, 0x80000002)
    else
      let z := s.slotDraw k
      let rid := free.getD (z.2 % free.length) 0
      (z.1.putRegion (regionKey k.cluster rid) { launch := k.g.launch, va := va, desc := d, weights := freshWeights d },
        BitVec.ofNat 32 rid)

/-- The slot keeps the cached leaf of an address until its instruction is presented at the commit. -/
def State.pinLeaf (s : State) (k : Slot) (va : DWord) : State :=
  match (if k.det && k.w.qstate = .running then s.cached k.core k.l.tenant va else none) with
  | some t => s.modWave k.h fun w => { w with walkLeaves := w.walkLeaves ++ [(k.f.side, t)] }
  | none => s

/-- FITCFG performed (R342); `bad` is a word of the descriptor that cannot be read: the instruction then completes with no
result, and the error is reported (R88, R428). A place that reaches nothing waits for its error, or meets it at the commit
(R70, R487). -/
def State.fitcfgRun (s : State) (k : Slot) (d a : Nat) (bad : Option Nat) : State :=
  s.withWords k (k.s64 a) 32 128 0 0 fun locs => (s.pinLeaf k (k.s64 a)).atCommit k (.fitcfg d a)
    (let lost := locs.findIdx? fun x => !s.reaches k.l.tenant x
    if !k.room 1 then s
    else match (if k.det then bad.or lost else bad).bind fun i => (locs[i]?).map fun x => (i, x) with
      | some (i, x) =>
        (((s.modWave k.h (·.clearFaults k.f.side)).finish k 4).imprecise k.h
          { k.trap x.errorCause with
            addr := errAddr (k.s64 a + BitVec.ofNat 64 (4 * i)) x, paddr := x.sectorPA, lmask := k.mask })
      | none =>
        if lost.isSome then s
        else
          let r := s.fitcfg k (k.s64 a) (locs.map fun x => BitVec.ofNat 32 (s.seenNum k x 4))
          ((r.1.modWave k.h (·.clearFaults k.f.side)).write k [(.s d, r.2)]).finish k 4)

/-- FITCFG (R342). -/
def execFitcfg (d a : Nat) (s : State) : Res := issueMem s 4 fun k => s.fitcfgRun k d a none

/-- FITINV performed (R331, R343). -/
def State.fitinv (s : State) (key : Nat) (free : Bool) : State :=
  match Map.find s.regions key with
  | none => s
  | some r =>
    let r1 := if r.state = 6 then r else r.invalid
    let r2 := { r1 with freePend := r1.freePend || free }
    if r2.freePend && r2.openInv == 0 then { s with regions := Map.erase s.regions key } else s.putRegion key r2

/-- FITINV (R343). -/
def execFitinv (a : Nat) (free : Bool) (s : State) : Res :=
  issueMem s 4 fun k =>
    let rid := (k.s a).toNat
    match s.regionOf k rid with
    | none => s.trap k (k.illegal (.fitinv a free))
    | some _ =>
      (if k.det then s.modWave k.h fun w => { w with qops := w.qops ++ [.fitinv rid free] }
      else s.fitinv (regionKey k.cluster rid) free).finish k 4

/-- FITST (R344, R346). -/
def execFitst (d a : Nat) (s : State) : Res :=
  issueMem s 4 fun k =>
    match (if k.det then none else s.regionOf k (k.s a).toNat) with
    | none => s.trap k (k.illegal (.fitst d a))
    | some r =>
      if !k.room 4 then s
      else (s.write k (runOf d [BitVec.ofNat 32 (bit r.freePend * 8 + r.state), BitVec.ofNat 32 r.steps, BitVec.ofNat 32 r.committed,
        r.worst])).finish k 4

/-! ## FITLD and FITSV (R345) -/

/-- FITLD or FITSV issued (R345). -/
def fitMove (s : State) (i : Instr) (load : Bool) (a b : Nat) : Res :=
  issueMem s 4 fun k =>
    let rid := (k.s a).toNat
    match (if !load && k.det then none else s.regionOf k rid) with
    | none => s.trap k (k.illegal i)
    | some r =>
      if !k.mayCount .cp then s.full k .cp
      else s.withWords k (k.s64 b) (regNW r.desc) 4 (bit (!load)) (bit (!load)) fun locs =>
        (s.modWave k.h fun w =>
          let o := k.newOut .cp false false (.fit load k.cluster rid (k.s64 b) locs)
          { w.clearFaults k.f.side |>.push o with qops := if k.det then w.qops ++ [.out o.seq] else w.qops }).finish k 4

/-- FITLD (R345). -/
def execFitld (a b : Nat) (s : State) : Res := fitMove s (.fitld a b) true a b
/-- FITSV (R345). -/
def execFitsv (a b : Nat) (s : State) : Res := fitMove s (.fitsv a b) false a b

/-- A FITLD or FITSV performed and completed (R331, R345); nothing reaches the sectors `lost` (R487). It acts on the region that has
the number when it performs, and on none where none has (log 78). -/
def State.fitTransfer (s : State) (h seq : Nat) (load : Bool) (cluster rid : Nat) (locs lost : List Loc) : State :=
  let key := regionKey cluster rid
  let s1 := match Map.find s.regions key with
    | none => s
    | some r =>
      if load then
        let r1 := { r with weights := locs.map s.word, step := none }
        s.putRegion key (if r.state = 6 then r1 else r1.goto 3)
      else s.pokes (((List.range locs.length).filter fun i => !lost.contains (locs.getD i (.mem 0)).sector).flatMap fun i =>
        placeBytes (locs.getD i (.mem 0)) (bytesOfNat (r.weights.getD i 0).toNat 4))
  s1.modWave h (·.complete seq)

/-- A FITLD or FITSV that meets the errors `bad`, by word: a FITLD changes nothing, and a FITSV writes as a store does; both
complete (R88, R345, R487). -/
def State.fitFail (s : State) (h : Nat) (o : Out) (bad : List Nat) : State :=
  match o.op with
  | .fit load cluster rid va locs =>
    let xs := bad.filterMap fun i => (locs[i]?).map fun x => (va + BitVec.ofNat 64 (4 * i), x)
    let s1 := if load then s.modWave h (·.complete o.seq)
      else s.fitTransfer h o.seq load cluster rid locs ((xs.filter (·.2.onFabric)).map (·.2.sector))
    xs.foldl (fun s e => s.imprecise h (o.errorTrap e.2.errorCause e.1 e.2 o.mask)) s1
  | _ => s

/-- FIT_TRANSFER_COMPLETION: the slot's earlier accesses have performed (R128, R345). -/
def execFitTransferCompletion (h seq : Nat) (s : State) : Res :=
  match (Map.find s.waves h).bind fun w => (w.out seq).map fun o => (w, o) with
  | none => .next s
  | some (w, o) =>
    match o.op with
    | .fit load cluster rid _ locs =>
      if s.detWave h || w.earlier o.seq o.tag || locs.any (fun x => !s.reaches (s.tenantOf h) x) then .next s
      else .next (s.fitTransfer h seq load cluster rid locs [])
    | _ => .next s

/-! ## Training (R327, R331, R337) -/

/-- TRAINING_STEP_BEGIN: the oldest B samples are taken and consumed. -/
def execTrainingStepBegin (cluster rid : Nat) (s : State) : Res :=
  let key := regionKey cluster rid
  match Map.find s.regions key with
  | none => .next s
  | some r =>
    let n := regNin r.desc
    if r.state ≠ 2 || r.step.isSome || r.samples.length < regB r.desc then .next s
    else
      let take := (r.samples.take (regB r.desc)).map (·.1)
      let xs := take.map fun i =>
        let ws := s.getWords (sampleKey cluster r i) (n + regNout r.desc)
        (ws.take n, ws.drop n)
      .next (s.putRegion key { take.foldl (fun r i => r.settle i 3) r with step := some xs })

/-- TRAINING_STEP_COMPLETION: every weight changes together; the round's last step leads to TRIAL. -/
def execTrainingStepCompletion (cluster rid : Nat) (s : State) : Res :=
  let key := regionKey cluster rid
  match Map.find s.regions key with
  | none => .next s
  | some r =>
    match r.step with
    | none => .next s
    | some xs =>
      let w := train r.desc r.wts (xs.map fun e => (e.1.map (·.toNat), e.2.map (·.toNat)))
      let r1 := { r with weights := w.map (BitVec.ofNat 32), step := none, steps := r.steps + 1, round := r.round + 1 }
      .next (s.putRegion key (if r1.state = 2 && dw r.desc 8 ≤ r1.round then r1.goto 3 else r1))

end Sys2Proof.Machine
end

