-- ==== Sys2Proof/Machine/Control.lean ====
section
/-! DEFINITION. Control flow: the structured constructs, uniform branches, hardware loops, the end of lanes, and waiting
(spec/07_waves_and_control_flow.md R172-R193, spec/04_scratchpads.md R117, R118). -/

namespace Sys2Proof.Machine

/-- A J-format target (R30). -/
def Slot.target (k : Slot) (off : BitVec 17) : DWord := k.f.pc + off.signExtend 64 * 4

/-- The slot's instruction ends with its PC elsewhere. -/
def State.jump (s : State) (k : Slot) (pc : DWord) : State :=
  (s.unwait k.h k.f.side).modWave k.h fun w =>
    (w.setFrag k.second (some { k.f with pc := pc, again := none, endPend := false })).count.issued k.second

/-- What a wave holds outside its registers is given up when it ends: bindings and waiting places (R143, R191, R308). -/
def State.waveOver (s : State) (h : Nat) : State :=
  match Map.find s.waves h with
  | none => s
  | some w => if w.over then ((w.binds.map (·.1)).foldl (fun s q => s.unbind h q) (s.unwaitAll h)).uncat h else s

/-- The wave after a fragment reached its innermost level, with what the popped levels lead to (R177, R180, R190, R339). -/
def State.afterReach (s : State) (k : Slot) (z : Reached) : State :=
  match z.breach with
  | some t => s.trap k (k.leaves t)
  | none =>
    ((((s.unwait k.h k.f.side).setWave k.h (z.w.count.issued k.second)).closeRegions k.h k.core k.det 0 z.closed).drain k.h).waveOver k.h

/-- The slot's fragment reaches the innermost level with mask `m`, at the ENDIF `e` where it arrives (R177). -/
def State.reachWith (s : State) (k : Slot) (w : Wave) (m : Mask) (e : DWord) : State :=
  s.afterReach k (w.reach (k.w.loopsOf k.f) w.reachFuel k.second m e [])

/-- A push of `n` levels by the slot: second slots wait, and the stack has room (R173, R175, R176). -/
def State.pushing (s : State) (k : Slot) (n : Nat) (target : DWord) (f : State) : State :=
  if k.second then s
  else if k.strays 4 then s.trap k (k.leaves (k.f.pc + 4))
  else if k.deep 4 (k.w.stack.length + n) then s.trap k (k.leaves target)
  else if 8 + k.w.spill < k.w.stack.length + n then s.trap k { k.trap 0x0C with w12 := BitVec.ofNat 32 k.w.stack.length }
  else f

/-- The wave in which the issuing fragment is alone, the other suspended, and the levels `ls` pushed (R176). -/
def Slot.pushed (k : Slot) (ls : List Level) : Wave :=
  let w := k.w.suspendSecond
  { w with stack := ls ++ w.stack }

/-- A pushing instruction ends: the suspended side gives up its waiting place. -/
def State.pushEnd (s : State) (k : Slot) (w : Wave) : State :=
  (s.unwaitAll k.h).setWave k.h (w.count.issued false)

/-- The lanes whose predicate bit, possibly negated, is 1. -/
def Slot.taken (k : Slot) (p : Nat) (n : Bool) : Mask := k.f.mask &&& (if n then ~~~k.w.pget p else k.w.pget p)

/-! ## IF, ELSE, ENDIF (R183, R184) -/

/-- The instruction at an address as the slot's fetch sees it. -/
def State.fetchAt (s : State) (k : Slot) (pc : DWord) : Fetched := s.fetch { k with f := { k.f with pc := pc } }

/-- An IF ends: of its two fragments, the one at the target arrives at once when an ENDIF stands there (R183, R184). -/
def State.split (s : State) (k : Slot) (w : Wave) (here there : Frag) : State :=
  let ls := k.w.loopsOf k.f
  let arrives := s.fetchAt k there.pc == .ok .endif
  if there.mask = 0 then s.pushEnd k (w.alone here)
  else if here.mask = 0 then
    let w1 := w.alone there
    if arrives then (s.unwaitAll k.h).afterReach k (w1.reach ls w1.reachFuel false there.mask there.pc []) else s.pushEnd k w1
  else
    let w1 := { w with first := some here, second := some there }
    if arrives then (s.unwaitAll k.h).afterReach k (w1.reach ls w1.reachFuel true there.mask there.pc []) else s.pushEnd k w1

/-- IF (R183): a target whose translation is not to hand is walked for first. -/
def execIfP (p : Nat) (n : Bool) (off : BitVec 17) (s : State) : Res :=
  issueFlow s fun k =>
    let target := k.target off
    let t := k.taken p n
    let f := k.f.mask &&& ~~~t
    s.pushing k 1 target
      (let w := { k.pushed [.ifL k.f.side 0 0 0 k.w.hloops.length none k.w.nextIf] with nextIf := k.w.nextIf + 1 }
      let here : Frag := { k.after 4 with mask := t, side := false }
      let there : Frag := { k.f with pc := target, mask := f, side := true, again := none, endPend := false }
      if f ≠ 0 && !inBodies (k.w.loopsOf k.f) target then s.trap k (k.leaves target)
      else match (if f = 0 then .cut else s.fetchAt k target) with
        | .miss va => s.missAll k 2 [va]
        | _ => (s.split k w here there).modWave k.h (·.clearFaults k.f.side))

/-- ELSE: the first slot's ELSE point, or the next instruction for the other side (R183). -/
def execElseP (off : BitVec 17) (s : State) : Res :=
  issueFlow s fun k =>
    match k.w.stack with
    | .ifL _ _ _ _ _ _ _ :: _ =>
      if k.f.side then (if k.deep 4 k.w.stack.length then s.trap k (k.leaves 0) else s.advance k 4)
      else s.reachWith k k.w k.f.mask (k.target off)
    | _ => s.trap k { k.trap 0x02 1 with addr := k.target off }

/-- ENDIF (R183). -/
def execEndif (s : State) : Res :=
  issueFlow s fun k =>
    match k.w.stack with
    | .ifL _ _ _ _ _ _ _ :: _ => s.reachWith k k.w k.f.mask k.f.pc
    | _ => s.trap k (k.trap 0x02 1)

/-! ## LOOP, BREAK, CONT, ENDLOOP (R185, R186) -/

/-- LOOP (R185). -/
def execLoop (s : State) : Res :=
  issueFlow s fun k =>
    s.pushing k 2 0
      (s.pushEnd k ((k.pushed [.loopMasks 0 k.f.mask, .loopAddr 0 k.f.side false k.f.pc]).alone (k.after 4)))

/-- The stack with the lanes `x` leaving the innermost loop beneath only IF levels, by BREAK or CONT, towards `target`; none
where there is no such loop or its known ENDPC differs (R185). An empty `x` changes nothing (R186). -/
def leaveLoop (brk : Bool) (x : Mask) (target : DWord) : List Level → Option (List Level)
  | .ifL o pc st m n a i :: r => (leaveLoop brk x target r).map (.ifL o pc st m n a i :: ·)
  | .loopMasks b l :: .loopAddr endpc o known lp :: r =>
    if known && endpc ≠ target then none
    else if x = 0 then some (.loopMasks b l :: .loopAddr endpc o known lp :: r)
    else some ((if brk then .loopMasks (b ||| x) (l &&& ~~~x) else .loopMasks b l) :: .loopAddr target o true lp :: r)
  | _ => none

/-- BREAK or CONT (R185). -/
def State.leaveBy (s : State) (k : Slot) (brk : Bool) (p : Nat) (n : Bool) (target : DWord) : State :=
  let x := k.taken p n
  match leaveLoop brk x target k.w.stack with
  | none => s.trap k { k.trap 0x02 2 with addr := target }
  | some st =>
    if x ≠ 0 && !inBodies (k.w.loopsOf k.f) target then s.trap k (k.leaves target)
    else
      let w := { k.w with stack := st }
      let m := k.f.mask &&& ~~~x
      if m = 0 then s.reachWith k w 0 0
      else if k.strays 4 then s.trap k (k.leaves (k.f.pc + 4))
      else if k.deep 4 st.length then s.trap k (k.leaves 0)
      else (s.setWave k.h w).finish { k with w := w, f := { k.f with mask := m } } 4

/-- BREAK (R185). -/
def execBrk (p : Nat) (n : Bool) (off : BitVec 17) (s : State) : Res :=
  issueFlow s fun k => s.leaveBy k true p n (k.target off)

/-- CONT (R185). -/
def execCont (p : Nat) (n : Bool) (off : BitVec 17) (s : State) : Res :=
  issueFlow s fun k => s.leaveBy k false p n (k.target off)

/-- ENDLOOP: the next iteration takes every lane still in the loop (R185, R186). -/
def execEndloop (off : BitVec 17) (s : State) : Res :=
  issueJump s 4 fun k =>
    let target := k.target off
    match k.w.stack with
    | .loopMasks b l :: .loopAddr _ o _ lp :: r =>
      if lp ≠ target then s.trap k { k.trap 0x02 3 with addr := target }
      else if !inBodies (k.w.loopsOf k.f) (target + 4) then s.trap k (k.leaves (target + 4))
      else
        (s.setWave k.h { k.w with stack := .loopMasks b l :: .loopAddr k.f.pc o true lp :: r }).jump
          { k with f := { k.f with mask := l } } (target + 4)
    | _ => s.trap k { k.trap 0x02 3 with addr := target }

/-! ## Uniform branches (R187, R188) -/

/-- The condition of a uniform branch (R31, R181). -/
def Slot.cond (k : Slot) (c : UCond) : Bool :=
  match c with
  | .always => true
  | .k n neg => xor (k.k n) neg

/-- A transfer of the slot's fragment, checked against every active body (R187, R190). -/
def State.transfer (s : State) (k : Slot) (pc : DWord) (f : State → State) : State :=
  if inBodies (k.w.loopsOf k.f) pc then (f s).jump k pc else s.trap k (k.leaves pc)

/-- BRU (R187). -/
def execBru (c : UCond) (off : BitVec 17) (s : State) : Res :=
  issueJump s 4 fun k => if k.cond c then s.transfer k (k.target off) id else s.advance k 4

/-- JMP (R187). -/
def execJmp (off : BitVec 17) (s : State) : Res := issueJump s 4 fun k => s.transfer k (k.target off) id

/-- CALL: the return address to s62:s63 (R187). -/
def execCall (c : UCond) (off : BitVec 17) (s : State) : Res :=
  issueJump s 4 fun k =>
    if !k.cond c then s.advance k 4
    else if !k.room 2 then s
    else s.transfer k (k.target off) fun s => s.write k (pairOf 62 (k.f.pc + 4))

/-- RET (R187). -/
def execRet (a : Nat) (s : State) : Res :=
  issueJump s 4 fun k =>
    let pc := k.s64 a
    if pc.toNat % 4 ≠ 0 then s.trap k (k.laneTrap 0x06 0 0 [(0, pc)] true)
    else s.transfer k pc id

/-! ## HLOOP (R189, R190) -/

/-- HLOOP: push-class, though it pushes no level (R176). -/
def execHloop (a len : Nat) (s : State) : Res :=
  issueJump s 4 fun k =>
    let c := k.s a
    let i := k.w.hloops.length
    let first := k.f.pc + 4
    let last := k.f.pc + BitVec.ofNat 64 (4 * len)
    let ok := inBodies (k.w.loopsOf k.f)
    if k.second then s
    else if 3 ≤ i then s.trap k (k.trap 0x02 4)
    else if c = 0 then
      if !ok (last + 4) then s.trap k (k.leaves (last + 4))
      else
        let w := (k.w.suspendSecond.setLc i 0).alone { k.f with pc := last + 4, again := none, endPend := false }
        s.pushEnd k w.tryResume
    else if !ok first then s.trap k (k.leaves first)
    else
      let w := (k.w.suspendSecond.setLc i c).alone { k.f with pc := first, again := none, endPend := false }
      s.pushEnd k { w with hloops := ⟨first, last, w.stack.length, []⟩ :: w.hloops }

/-! ## EXIT (R175, R191) -/

/-- EXIT: the active lanes end, and the fragment retires. -/
def execExit (s : State) : Res :=
  issueFlow s fun k =>
    s.reachWith k { k.w with exited := k.w.exited ||| k.f.mask, stack := k.w.stack.map (Level.without k.f.mask) } 0 0

/-! ## Waiting (R117, R118, R192, R193, R453) -/

/-- A count is above its ceiling. -/
def Wave.overCeiling (w : Wave) (e : Path × Nat) : Bool := decide (e.2 < w.pathCount e.1)
/-- It would still be, once everything that completes within the quantum has completed (R453). -/
def Wave.overAtCommit (w : Wave) (e : Path × Nat) : Bool := decide (e.2 < w.commitCount e.1)

/-- A slot waits for every path's count to be within its ceiling; `hold` is what it does while it waits. -/
def State.waitFor (s : State) (k : Slot) (cs : List (Path × Nat)) (hold : State → State := id) : State :=
  if cs.any k.w.overCeiling then
    (if k.det && cs.any k.w.overAtCommit then s.stall k true else hold s)
  else s.finish k 4

/-- The threshold with which the slot's WAITP issued, if it waits (R118). -/
def State.threshold (s : State) (k : Slot) : Option Nat :=
  s.waiters.findSome? fun x => match x.on with
    | .waitp th => if x.wave == k.h && x.side == k.f.side then some th else none
    | _ => none

/-- WAIT: a ceiling of 15 does not wait (R117). -/
def execWait (ld st cp tl : Nat) (s : State) : Res :=
  issue s 4 fun k => s.waitFor k ([(.ld, ld), (.st, st), (.cp, cp), (.tl, tl)].filter fun e => e.2 != 15)

/-- WAITP: the threshold is read once, when it issues (R118). -/
def execWaitp (a : Nat) (p : Path) (s : State) : Res :=
  issue s 4 fun k =>
    let th := (s.threshold k).getD (k.s a).toNat
    s.waitFor k [(p, th)] fun s => s.await k (.waitp th)

/-- YIELD: the wave's age becomes the lowest, and a deterministic quantum ends (R192, R452). -/
def execYield (s : State) : Res :=
  issue s 4 fun k =>
    s.atCommit k .yield ((s.modWave k.h fun w => { w with age := s.cycle, since := [], boosts := [] }).finish k 4)

/-- RDCLK: cycles since module reset, or completed quanta in a deterministic launch (R193). -/
def execRdclk (d : Nat) (s : State) : Res :=
  issue s 4 fun k =>
    if k.room 2 then (s.write k (pairOf d (BitVec.ofNat 64 (if k.det then k.w.quanta else s.cycle)))).finish k 4 else s

/-- NOP (R58). -/
def execNop (s : State) : Res := issue s 4 fun k => s.finish k 4

/-- QEND: the last instruction of its quantum in a deterministic launch (R452, R462). -/
def execQend (s : State) : Res := issue s 4 fun k => s.atCommit k .qend (s.finish k 4)

/-- SHRD (R465). -/
def execShrd (d : Nat) (s : State) : Res :=
  issue s 4 fun k => if k.room 1 then (s.write k [(.s d, k.w.hash)]).finish k 4 else s

end Sys2Proof.Machine
end

