-- ==== Sys2Proof/Machine/Convert.lean ====
section
/-! DEFINITION. Conversions: CVT, RQNT, UNPK5, PACK5 and UNPKPS (spec/09_vector_and_uniform.md R234-R239). -/

namespace Sys2Proof.Machine

/-- The format of a floating kind of CVT. -/
def cvtFmt : CvtKind → Option Fmt
  | .f32 => some fmtF32
  | .f16 => some fmtF16
  | .bf16 => some fmtBF16
  | .e4m3 => some fmtE4M3
  | .e5m2 => some fmtE5M2
  | .e3m2 => some fmtE3M2
  | .e2m3 => some fmtE2M3
  | .e2m1 => some fmtE2M1
  | .i32 | .u32 | .i8 | .u8 | .i4 => none

/-- The value of an integer kind in the low bits of a lane (R199, R234). -/
def cvtInt (k : CvtKind) (x : Nat) : Int :=
  match k with
  | .i32 => signed x 32
  | .u32 => x % 2 ^ 32
  | .i8 => signed x 8
  | .u8 => x % 256
  | .i4 => signed x 4
  | _ => 0

/-- The range of an integer kind (R199). -/
def cvtRange : CvtKind → Int × Int
  | .u32 => (0, 2 ^ 32 - 1)
  | .i8 => (-128, 127)
  | .u8 => (0, 255)
  | .i4 => (-8, 7)
  | _ => (-(2 ^ 31), 2 ^ 31 - 1)

/-- The kinds that FTZ and FRM govern (R205, R206). -/
def cvtWide : CvtKind → Bool
  | .f32 | .f16 | .bf16 => true
  | _ => false

/-- A kind is narrow floating (R207). -/
def cvtNarrow (k : CvtKind) : Bool := (cvtFmt k).isSome && !cvtWide k

/-- The source of a CVT as a value: an integer as an exact value; FTZ flushes wide sources unless the destination is narrow. -/
def cvtSource (md : Mode) (dk sk : CvtKind) (x : Nat) : FVal :=
  match cvtFmt sk with
  | some f => f.operand (md.ftz && cvtWide sk && !cvtNarrow dk) x
  | none => let v := cvtInt sk x; .fin (decide (v < 0)) v.natAbs 0

/-- A value brought to an integer kind (R235). -/
def cvtToInt (dk : CvtKind) (rm : Nat) (v : FVal) : Int × Nat :=
  let r := cvtRange dk
  match v with
  | .nan _ => (0, flagNV)
  | .inf n => (if n then r.1 else r.2, flagNV)
  | .fin n m e =>
    let i := toInteger rm n m e
    if i.1 < r.1 then (r.1, flagNV) else if r.2 < i.1 then (r.2, flagNV) else (i.1, if i.2 then flagNX else 0)

/-- CVT of one element (R235). -/
def cvtV (md : Mode) (dk sk : CvtKind) (rtz : Bool) (x : Nat) : Flagged :=
  let v := cvtSource md dk sk x
  match cvtFmt dk with
  | some f => if cvtWide dk then f.convert md v else f.narrow v
  | none =>
    if (cvtFmt sk).isSome then
      let r := cvtToInt dk (if rtz then 1 else md.rm) v
      (unsigned r.1 32, r.2)
    else (unsigned (clip (cvtRange dk).1 (cvtRange dk).2 (cvtInt sk x)) 32, 0)

/-- CVT (R234, R235). -/
def execCvt (d a : Nat) (dk sk : CvtKind) (rtz : Bool) (s : State) : Res :=
  fpOp s (names2 d a) d fun k l => cvtV k.mode dk sk rtz (k.w.vget a l).toNat

/-- The clip range of RQNT. -/
def rqRange : RqKind → Int × Int
  | .i8 => (-128, 127)
  | .u8 => (0, 255)
  | .i4 => (-8, 7)

/-- RQNT of one element by a multiplier, a shift and a zero point (R236); `/` on Int rounds down. -/
def rqntV (k : RqKind) (m zp : Int) (sh : Nat) (a : Int) : Int :=
  let t := (a * m + 2 ^ 30) / 2 ^ 31
  let t := if 0 < sh then (t + ((2 ^ (sh - 1) : Nat) : Int)) / ((2 ^ sh : Nat) : Int) else t
  clip (rqRange k).1 (rqRange k).2 (zp + t)

/-- RQNT (R236). -/
def execRqnt (d a b : Nat) (kd : RqKind) (s : State) : Res :=
  vecOp s (names2 d a) d fun k l =>
    BitVec.ofInt 32 (rqntV kd (k.s b).toInt (k.s (b + 2)).toInt ((k.s (b + 1)).toNat % 64) (k.w.vget a l).toInt)

/-- Byte `n` of an element. -/
def byteOf (x : Word) (n : Nat) : Nat := x.toNat / 2 ^ (8 * n) % 256

/-- The digits of a ternary byte from the running value on (R237). -/
def tritsFrom : Nat → Nat → List Word
  | 0, _ => []
  | n + 1, y => BitVec.ofInt 32 (((3 * y / 256 : Nat) : Int) - 1) :: tritsFrom n (3 * y % 256)

/-- The five trits of a byte by multiply and shift; an illegal code gives zeros (R201, R237). -/
def tritsOf (p : Nat) : List Word := if 242 < p then [0, 0, 0, 0, 0] else tritsFrom 5 ((p * 256 + 242) / 243)

/-- UNPK5 (R237): Narrow Code under U5TRAP, else the sticky flag in `pb`. -/
def execUnpk5 (d a pb byte : Nat) (s : State) : Res :=
  issue s 4 fun k =>
    let bad := maskBy fun l => k.on l && decide (242 < byteOf (k.w.vget a l) byte)
    s.vnamed k (runNames 0 d 5 ++ [(1, a)])
      (if (k.csr 0x006).getLsbD 0 && bad != 0 then s.trap k { k.trap 0x0D with lmask := bad }
      else
        (s.modWave k.h fun w =>
          ((List.range 5).foldl (fun w' i => w'.vput (d + i) k.mask fun l => (tritsOf (byteOf (w.vget a l) byte)).getD i 0) w).pput
            pb bad bad).finish k 4)

/-- The digit of a trit: one more than its sign (R238). -/
def tritDigit (x : Word) : Nat := if x.toInt < 0 then 0 else if x.toInt = 0 then 1 else 2

/-- The ternary byte of five trits (R201, R238). -/
def packTrits (f : Nat → Word) : Nat := (List.range 5).foldl (fun q i => q * 3 + tritDigit (f i)) 0

/-- An element with byte `n` replaced. -/
def withByte (x : Word) (n v : Nat) : Word :=
  (x &&& ~~~(0xFF#32 <<< (8 * n))) ||| (BitVec.ofNat 32 (v % 256) <<< (8 * n))

/-- PACK5 (R238). -/
def execPack5 (d a byte : Nat) (s : State) : Res :=
  vecOp s ((0, d) :: runNames 1 a 5) d fun k l =>
    withByte (k.w.vget d l) byte (packTrits fun i => k.w.vget (a + i) l)

/-- A PS2 byte in 64ths (R200). -/
def ps2 (p : Nat) : Int :=
  let term (neg : Bool) (h : Nat) : Int := if h = 7 then 0 else signedM neg (2 ^ (6 - h))
  term (bitAt p 7) (field p 6 4) + term (bitAt p 3) (field p 2 0)

/-- UNPKPS of one element (R239): an exact value, infinite with OF and NX at 2^128. -/
def unpkpsV (p e : Nat) : Flagged :=
  if e = 255 then (fmtF32.nan, flagNV)
  else
    let v := ps2 p
    fmtF32.convert modeRNE (.fin (decide (v < 0)) v.natAbs ((e : Int) - 127 - 6))

/-- UNPKPS (R239). -/
def execUnpkps (d a : Nat) (b : Src) (byte : Nat) (s : State) : Res :=
  fpOp s (names3 d a b) d fun k l => unpkpsV (byteOf (k.w.vget a l) byte) ((k.src b l).toNat % 256)

end Sys2Proof.Machine
end

