-- ==== Sys2Proof/Machine/Matrix.lean ====
section
/-! DEFINITION. The small matrices of each lane (spec/12_small_matrices.md R277-R294). A matrix travels as 36 numbers, element
(i, j) at 6i + j, and a shape code 8 * ROWS + COLS. -/

namespace Sys2Proof.Machine

/-! ## The file -/

/-- The shape code of m`n` in lane `l`; 6 by 6 at grant (R277). -/
def Wave.mshape (w : Wave) (n l : Nat) : Nat := Sparse.get 54 w.shape (n * 64 + l)
/-- The 36 elements of m`n` in lane `l`. -/
def Wave.mat (w : Wave) (n l : Nat) : List Nat := (List.range 36).map fun e => (Sparse.get 0 w.m ((n * 64 + l) * 36 + e)).toNat

/-- m`n` of lane `l` written whole (R277). -/
def Wave.putMat (w : Wave) (n l shape : Nat) (es : List Nat) : Wave :=
  { w with
    m := Sparse.setRun 0 w.m ((n * 64 + l) * 36) 36 fun e => BitVec.ofNat 32 (es.getD e 0)
    shape := Sparse.set 54 w.shape (n * 64 + l) shape }

/-- Rows and columns of a shape code. -/
def rowsOf (sh : Nat) : Nat := sh / 8
def colsOf (sh : Nat) : Nat := sh % 8

/-- Element (i, j). -/
def melem (a : List Nat) (i j : Nat) : Nat := a.getD (6 * i + j) 0
/-- Element (i, j) replaced. -/
def matSet (a : List Nat) (i j x : Nat) : List Nat := a.set (6 * i + j) x
/-- Thirty-six elements of +0. -/
def matZero : List Nat := List.replicate 36 0
/-- The matrix of `f` inside a shape, +0 outside it, and the flags of its elements (R277). -/
def matOf (rows cols : Nat) (f : Nat → Nat → Flagged) : List Nat × Nat :=
  let r := (List.range 36).map fun e => if e / 6 < rows && e % 6 < cols then f (e / 6) (e % 6) else (0, 0)
  (r.map (·.1), orFlags (r.map (·.2)))

/-! ## Arithmetic (R280) -/

/-- One step of an inner product: fma(a, b, s), or fma(-a, b, s). -/
def dotStep (md : Mode) (neg : Bool) (acc : Flagged) (a b : Nat) : Flagged :=
  let r := fmtF32.fma md neg false a b acc.1
  (r.1, acc.2 ||| r.2)

/-- An inner product from `s` over the indices `ks` in order. -/
def dot (md : Mode) (neg : Bool) (s : Nat) (ks : List Nat) (a b : Nat → Nat) : Flagged :=
  ks.foldl (fun acc k => dotStep md neg acc (a k) (b k)) (s, 0)

/-- One rounded operation on a flagged value. -/
def Flagged.andThen (x : Flagged) (f : Nat → Flagged) : Flagged :=
  let r := f x.1
  (r.1, x.2 ||| r.2)

/-- A pivot as the tests read it (R280): a subnormal is zero of its sign under FTZ. -/
def pivot (md : Mode) (x : Nat) : FVal := fmtF32.operand md.ftz x
/-- The pivot is above the tolerance; a NaN is not (R289, R290). -/
def above (md : Mode) (x : Nat) (tol : Word) : Bool := (fmtF32.decode tol.toNat).lt (pivot md x)
/-- The magnitude of an encoding. -/
def magnitude (x : Nat) : Nat := x % 2 ^ 31
/-- Candidate `x` has a greater magnitude than `y`; a NaN is greatest (R290). -/
def greater (md : Mode) (x y : Nat) : Bool :=
  let a := pivot md (magnitude x)
  let b := pivot md (magnitude y)
  !b.isNan && (a.isNan || b.lt a)

/-- The work of a factorisation: the matrix, the permutation, flags, and the pivot it failed at. -/
structure Factor where
  m : List Nat
  perm : List Nat := List.range 6
  flags : Nat := 0
  fail : Option Nat := none
  deriving DecidableEq, Repr

/-- An element computed. -/
def Factor.put (x : Factor) (i j : Nat) (r : Flagged) : Factor := { x with m := matSet x.m i j r.1, flags := x.flags ||| r.2 }

/-- Column `j` of the Cholesky factor (R289). -/
def cholColumn (md : Mode) (tol : Word) (a : List Nat) (n : Nat) (x : Factor) (j : Nat) : Factor :=
  if x.fail.isSome then x
  else
    let t := dot md true (melem a j j) (List.range j) (melem x.m j) (melem x.m j)
    if !above md t.1 tol then { x with flags := x.flags ||| t.2, fail := some j }
    else
      (List.range n).foldl (fun x i =>
        if i ≤ j then x
        else x.put i j ((dot md true (melem a i j) (List.range j) (melem x.m i) (melem x.m j)).andThen fun s => fmtF32.div md s (melem x.m j j)))
        (x.put j j (t.andThen (fmtF32.sqrt md)))

/-- MCHOL's factor (R289). -/
def chol (md : Mode) (tol : Word) (a : List Nat) (n : Nat) : Factor :=
  (List.range n).foldl (cholColumn md tol a n) { m := matZero }

/-- Two entries of a list exchanged. -/
def exchange (xs : List Nat) (i j : Nat) : List Nat := (xs.set i (xs.getD j 0)).set j (xs.getD i 0)
/-- Rows `p` and `k` exchanged, all six columns. -/
def swapRows (a : List Nat) (p k : Nat) : List Nat := (List.range 6).foldl (fun a j => exchange a (6 * p + j) (6 * k + j)) a

/-- Step `k` of the LU factorisation (R290). -/
def luStep (md : Mode) (tol : Word) (n : Nat) (x : Factor) (k : Nat) : Factor :=
  if x.fail.isSome then x
  else
    let cs : List Flagged := (List.range n).map fun i =>
      if i < k then (0, 0) else dot md true (melem x.m i k) (List.range k) (melem x.m i) fun m => melem x.m m k
    let cand := fun (i : Nat) => (cs.getD i (0, 0)).1
    let p := (List.range n).foldl (fun p i => if k < i && greater md (cand i) (cand p) then i else p) k
    let s := exchange (cs.map (·.1)) p k
    let x1 := { x with m := swapRows x.m p k, perm := exchange x.perm p k, flags := x.flags ||| orFlags (List.map Prod.snd cs) }
    let piv := s.getD k 0
    if !above md (magnitude piv) tol then
      { x1 with
        m := (List.range 36).map fun e => if k ≤ e / 6 && k ≤ e % 6 && e / 6 < n && e % 6 < n then 0 else x1.m.getD e 0
        fail := some k }
    else
      let x2 := (List.range n).foldl (fun x j =>
        if j ≤ k then x else x.put k j (dot md true (melem x.m k j) (List.range k) (melem x.m k) fun m => melem x.m m j))
        (x1.put k k (piv, 0))
      (List.range n).foldl (fun x i => if i ≤ k then x else x.put i k (fmtF32.div md (s.getD i 0) piv)) x2

/-- MLUP's factor (R290). -/
def lu (md : Mode) (tol : Word) (a : List Nat) (n : Nat) : Factor := (List.range n).foldl (luStep md tol n) { m := a }

/-- A permutation as MLUP packs it (R290). -/
def packPerm (perm : List Nat) : Word :=
  BitVec.ofNat 32 ((List.range 6).foldl (fun v i => v + perm.getD i 0 * 2 ^ (3 * i)) 0)

/-- The forward step of a solve (R291). -/
def forward (md : Mode) (t : List Nat) (unit : Bool) (n cols : Nat) (x : Factor) : Factor :=
  (List.range n).foldl (fun x i => (List.range cols).foldl (fun x c =>
    let s := dot md true (melem x.m i c) (List.range i) (melem t i) fun k => melem x.m k c
    x.put i c (if unit then s else s.andThen fun v => fmtF32.div md v (melem t i i))) x) x

/-- The backward step, its sums in ascending order; `tr` reads the factor transposed (R291). -/
def backward (md : Mode) (t : List Nat) (tr : Bool) (n cols : Nat) (x : Factor) : Factor :=
  (List.range n).reverse.foldl (fun x i => (List.range cols).foldl (fun x c =>
    let s := dot md true (melem x.m i c) ((List.range n).filter (i < ·)) (fun k => if tr then melem t k i else melem t i k) fun k => melem x.m k c
    x.put i c (s.andThen fun v => fmtF32.div md v (melem t i i))) x) x

/-- A solve with the factor `t` of right-hand side `y` (R291). -/
def solve (md : Mode) (mode : SolveMode) (t y : List Nat) (n cols : Nat) : Factor :=
  let x : Factor := { m := y }
  match mode with
  | .chol => backward md t true n cols (forward md t false n cols x)
  | .lu => backward md t false n cols (forward md t true n cols x)
  | .lo => forward md t false n cols x
  | .up => backward md t false n cols x

/-! ## One instruction over the lanes (R281, R283, R284) -/

/-- MSTS condition bits (R281). -/
def condNPD : Nat := 1
def condSING : Nat := 2
def condSHP : Nat := 4
def condBND : Nat := 8

/-- What an instruction does in one lane: shape and elements of md, the lane of its vector register, conditions, pivot. -/
structure MatRes where
  m : Option (Nat × List Nat) := none
  v : Option Word := none
  cond : Nat := 0
  col : Nat := 0
  flags : Nat := 0
  deriving DecidableEq, Repr

/-- A lane whose shapes do not fit (R284). -/
def badShape : MatRes := { cond := condSHP }

/-- One lane's result put in place: md, the vector element, and sticky status with COL for NPD and SING (R281, R283). -/
def Wave.putLane (w : Wave) (md vd l : Nat) (r : MatRes) : Wave :=
  let w1 := match r.m with
    | some (sh, es) => w.putMat md l sh es
    | none => w
  let w2 := match r.v with
    | some x => { w1 with v := Sparse.set 0 w1.v (w1.vkey vd + l) x }
    | none => w1
  let old := Sparse.get 0 w2.msts l
  let new := old ||| BitVec.ofNat 32 r.cond
  let new := if r.cond % 4 = 0 then new else (new &&& 0x0F) ||| BitVec.ofNat 32 (r.col * 16)
  { w2 with msts := Sparse.set 0 w2.msts l new }

/-- Matrix Exception for the lanes with an enabled condition (R283, R435). -/
def Slot.matTrap (k : Slot) (bad : List (Nat × MatRes)) : Trap :=
  { k.trap 0x07 with
    lmask := maskOf (bad.map (·.1))
    w12 := BitVec.ofNat 32 (orFlags (bad.map fun e => e.2.cond) + ((bad.map fun e => e.2.col).headD 0) * 256) }

/-- The small-matrix unit as a slot may use it: the grant, then the window of its vector field (R278, R283). -/
def State.withMatrix (s : State) (k : Slot) (names : List (Nat × Nat)) (f : State) : State :=
  if !k.w.matrix then s.trap k (k.trap 0x0E) else s.vnamed k names f

/-- An instruction of the unit: traps or sets status by lane; its flags merge at its completion (R279, R283). -/
def matOp (s : State) (names : List (Nat × Nat)) (md vd : Nat) (f : Slot → Nat → MatRes) : Res :=
  issue s 4 fun k =>
    let rs := k.lanes.map fun l => (l, f k l)
    let en := (k.csr 0x005).toNat % 16
    let bad := rs.filter fun e => e.2.cond &&& en != 0
    s.withMatrix k names
      (if !bad.isEmpty then s.trap k (k.matTrap bad)
      else
        (s.modWave k.h fun w =>
          { rs.foldl (fun w e => w.putLane md vd e.1 e.2) w with
            flagPend := w.flagPend ++ [BitVec.ofNat 32 (orFlags (rs.map fun e => e.2.flags))] }).finish k 4)

/-- SMALL_MATRIX_COMPLETION: the oldest issued instruction of a wave completes and merges its flags (R209, R279). -/
def execSmallMatrixCompletion (h : Nat) (s : State) : Res :=
  .next (s.modWave h fun w => match w.flagPend with
    | f :: r => { w.raiseFlags f.toNat with flagPend := r }
    | [] => w)

/-! ## Loads and stores (R286) -/

/-- Each active lane's address and byte count, resolved, or the failing lanes: alignment first (R99, R286). -/
def State.matLocs (s : State) (k : Slot) (v : Nat) (n : Nat → Nat) : Except (List (Nat × Nat × Option Nat)) (List (Nat × Nat)) :=
  let xs := k.lanes.map fun l => (l, (k.w.vget v l).toNat)
  let odd := xs.filter fun e => e.2 % 4 != 0
  if !odd.isEmpty then .error (odd.map fun e => (e.1, e.2, none))
  else
    let bad := xs.filterMap fun e => match s.scrRange k.ctx e.2 (4 * n e.1) with
      | .error r => some (e.1, e.2, some r)
      | .ok _ => none
    if !bad.isEmpty then .error bad
    else .ok (xs.map fun e => (e.1, match s.scrRange k.ctx e.2 (4 * n e.1) with
      | .ok key => key
      | .error _ => 0))

/-- Runs `f` with the lanes' places once earlier accesses have performed, as far as the wave observes them (R286). -/
def State.matAccess (s : State) (k : Slot) (v access : Nat) (n : Nat → Nat) (f : List (Nat × Nat) → State) : State :=
  match s.matLocs k v n with
  | .error bad =>
    let b := bad.headD (0, 0, none)
    s.trap k { k.trap (if b.2.2.isSome then 0x05 else 0x06) (b.2.2.getD 0) with
      access := access, addr := BitVec.ofNat 64 b.2.1, lmask := maskOf (bad.map (·.1)) }
  | .ok locs =>
    let waits := if k.det then (k.w.outs.any fun o => !o.done && o.path == .ld && !o.atCommit) ||
        locs.any fun e => k.w.tstDue k.w.nextSeq (.scr e.2) (4 * n e.1)
      else k.busy
    if waits then s else f locs

/-- The lanes of a matrix access that the scratchpad word at `x` serves (R106). -/
def servedBy (locs : List (Nat × Nat)) (n x : Nat) : List Nat :=
  (locs.filter fun e => decide (e.2 ≤ x) && decide (x < e.2 + 4 * n)).map (·.1)

/-- MLD performed; `bad` is the place of a word that cannot be read: the lanes it serves keep their matrix (R106). -/
def State.matLoad (s : State) (k : Slot) (md v rows cols : Nat) (bad : Option Nat) : State :=
  s.withMatrix k [(3, v)] (s.matAccess k v 0 (fun _ => rows * cols) fun locs =>
    let val := fun (key e : Nat) => s.seenNum k (.scr (key + 4 * (e / 6 * cols + e % 6))) 4
    let put := fun (w : Wave) (e : Nat × Nat) =>
      if (bad.map fun x => (servedBy locs (rows * cols) x).contains e.1) == some true then w
      else w.putMat md e.1 (rows * 8 + cols) (matOf rows cols fun i j => (val e.2 (6 * i + j), 0)).1
    (s.modWave k.h fun w => locs.foldl put w).finish k 4)

/-- MLD (R286). -/
def execMld (md v rows cols : Nat) (s : State) : Res := issueMem s 4 fun k => s.matLoad k md v rows cols none

/-- The words of m`n` of lane `l` inside its shape, row-major. -/
def Wave.matWords (w : Wave) (n l : Nat) : List Nat :=
  let sh := w.mshape n l
  let a := w.mat n l
  (List.range (rowsOf sh * colsOf sh)).map fun e => melem a (e / colsOf sh) (e % colsOf sh)

/-- MST: lanes in ascending order, so that the highest supplies a byte (R105, R286); buffered in a deterministic launch
(R452). -/
def execMst (ma v : Nat) (s : State) : Res :=
  issueMem s 4 fun k =>
    s.withMatrix k [(3, v)] (s.matAccess k v 1 (fun l => rowsOf (k.w.mshape ma l) * colsOf (k.w.mshape ma l)) fun locs =>
      let bytes := locs.flatMap fun e => (k.w.matWords ma e.1).flatMap fun x => bytesOfNat x 4
      let places := locs.flatMap fun e => (List.range (4 * (k.w.matWords ma e.1).length)).map fun i => Loc.scr (e.2 + i)
      let bs := places.zip bytes
      if k.det then
        (s.modWave k.h fun w =>
          let o := { k.newOut .st false false (.store [{ va := 0, lanes := k.mask, bytes := bs }]) with counted := false }
          { w.push o with qops := w.qops ++ [.out o.seq] }).finish k 4
      else (s.pokes bs).finish k 4)

/-! ## The other instructions -/

/-- MSHAPE keeps the elements inside both shapes (R287). -/
def execMshape (md rows cols : Nat) (s : State) : Res :=
  matOp s [] md 0 fun k l =>
    let a := k.w.mat md l
    let sh := k.w.mshape md l
    { m := some (rows * 8 + cols, (matOf (min rows (rowsOf sh)) (min cols (colsOf sh)) fun i j => (melem a i j, 0)).1) }

/-- The product of two matrices added to what `start` gives, over the first `first` .. K - 1 (R288). -/
def product (md : Mode) (a b : List Nat) (ra ca cb : Nat) (start : Nat → Nat → Flagged) (first : Nat) : List Nat × Nat :=
  matOf ra cb fun i j =>
    let s0 := start i j
    let r := dot md false s0.1 ((List.range ca).drop first) (melem a i) fun k => melem b k j
    (r.1, s0.2 ||| r.2)

/-- A result of shape rows by cols. -/
def matRes (rows cols : Nat) (x : List Nat × Nat) : MatRes := { m := some (rows * 8 + cols, x.1), flags := x.2 }

/-- MMUL (R288). -/
def execMmul (md ma mb : Nat) (s : State) : Res :=
  matOp s [] md 0 fun k l =>
    let sa := k.w.mshape ma l
    let sb := k.w.mshape mb l
    let a := k.w.mat ma l
    let b := k.w.mat mb l
    if colsOf sa ≠ rowsOf sb then badShape
    else matRes (rowsOf sa) (colsOf sb)
      (product k.mode a b (rowsOf sa) (colsOf sa) (colsOf sb) (fun i j => fmtF32.mul k.mode (melem a i 0) (melem b 0 j)) 1)

/-- MMAD (R288). -/
def execMmad (md ma mb : Nat) (s : State) : Res :=
  matOp s [] md 0 fun k l =>
    let sa := k.w.mshape ma l
    let sb := k.w.mshape mb l
    let d := k.w.mat md l
    if colsOf sa ≠ rowsOf sb || k.w.mshape md l ≠ rowsOf sa * 8 + colsOf sb then badShape
    else matRes (rowsOf sa) (colsOf sb)
      (product k.mode (k.w.mat ma l) (k.w.mat mb l) (rowsOf sa) (colsOf sa) (colsOf sb) (fun i j => (melem d i j, 0)) 0)

/-- MADD and MSUB by element (R288). -/
def elementwise (s : State) (md ma mb : Nat) (f : Mode → Nat → Nat → Flagged) : Res :=
  matOp s [] md 0 fun k l =>
    let sh := k.w.mshape ma l
    if sh ≠ k.w.mshape mb l then badShape
    else matRes (rowsOf sh) (colsOf sh)
      (matOf (rowsOf sh) (colsOf sh) fun i j => f k.mode (melem (k.w.mat ma l) i j) (melem (k.w.mat mb l) i j))

/-- MADD (R288). -/
def execMadd (md ma mb : Nat) (s : State) : Res := elementwise s md ma mb fmtF32.add
/-- MSUB (R288). -/
def execMsub (md ma mb : Nat) (s : State) : Res := elementwise s md ma mb fmtF32.sub

/-- MTRN: raw bits (R288). -/
def execMtrn (md ma : Nat) (s : State) : Res :=
  matOp s [] md 0 fun k l =>
    let sh := k.w.mshape ma l
    matRes (colsOf sh) (rowsOf sh) (matOf (colsOf sh) (rowsOf sh) fun i j => (melem (k.w.mat ma l) j i, 0))

/-- The window name of MSCL's scalar. -/
def scalarNames : Src → List (Nat × Nat)
  | .v n => [(3, n)]
  | .s _ => []

/-- MSCL (R288). -/
def execMscl (md ma : Nat) (v : Src) (s : State) : Res :=
  matOp s (scalarNames v) md 0 fun k l =>
    let sh := k.w.mshape ma l
    matRes (rowsOf sh) (colsOf sh)
      (matOf (rowsOf sh) (colsOf sh) fun i j => fmtF32.mul k.mode (melem (k.w.mat ma l) i j) (k.src v l).toNat)

/-- The conditions of a failed pivot. -/
def pivotRes (cond : Nat) (x : Factor) : MatRes :=
  { flags := x.flags, cond := if x.fail.isSome then cond else 0, col := x.fail.getD 0 }

/-- MCHOL (R289). -/
def execMchol (md ma : Nat) (s : State) : Res :=
  matOp s [] md 0 fun k l =>
    let sh := k.w.mshape ma l
    if rowsOf sh ≠ colsOf sh then badShape
    else
      let x := chol k.mode (k.csr 0x004) (k.w.mat ma l) (rowsOf sh)
      { pivotRes condNPD x with m := some (sh, x.m) }

/-- MLUP (R290). -/
def execMlup (md ma v : Nat) (s : State) : Res :=
  matOp s [(3, v)] md v fun k l =>
    let sh := k.w.mshape ma l
    if rowsOf sh ≠ colsOf sh then badShape
    else
      let x := lu k.mode (k.csr 0x004) (k.w.mat ma l) (rowsOf sh)
      { pivotRes condSING x with m := some (sh, x.m), v := some (packPerm x.perm) }

/-- The first `n` entries of a permutation register (R290). -/
def unpackPerm (x : Word) (n : Nat) : List Nat := (List.range n).map fun i => field x.toNat (3 * i + 2) (3 * i)

/-- Rows of a right-hand side taken in a permutation's order. -/
def permuteRows (y : List Nat) (perm : List Nat) : List Nat :=
  (List.range 36).map fun e => if e / 6 < perm.length then melem y (perm.getD (e / 6) 0) (e % 6) else 0

/-- MSOLV (R291). -/
def execMsolv (md ma mb v : Nat) (m : SolveMode) (s : State) : Res :=
  matOp s (if m = .lu then [(3, v)] else []) md 0 fun k l =>
    let sa := k.w.mshape ma l
    let sb := k.w.mshape mb l
    let n := rowsOf sa
    let perm := if m = .lu then unpackPerm (k.w.vget v l) n else List.range n
    if colsOf sa ≠ n || rowsOf sb ≠ n || !(List.range n).all (perm.contains ·) then badShape
    else
      let x := solve k.mode m (k.w.mat ma l) (permuteRows (k.w.mat mb l) perm) n (colsOf sb)
      { m := some (n * 8 + colsOf sb, x.m), flags := x.flags }

/-- The identity of n rows. -/
def matOne (n : Nat) : List Nat := (matOf n n fun i j => (if i = j then 0x3F800000 else 0, 0)).1

/-- MINV (R292): a failed factorisation leaves md unchanged. -/
def execMinv (md ma : Nat) (ch : Bool) (s : State) : Res :=
  matOp s [] md 0 fun k l =>
    let sh := k.w.mshape ma l
    let n := rowsOf sh
    let a := k.w.mat ma l
    if n ≠ colsOf sh then badShape
    else
      let x := if ch then chol k.mode (k.csr 0x004) a n else lu k.mode (k.csr 0x004) a n
      if x.fail.isSome then pivotRes (if ch then condNPD else condSING) x
      else
        let y := solve k.mode (if ch then .chol else .lu) x.m (permuteRows (matOne n) (x.perm.take n)) n n
        { m := some (sh, y.m), flags := x.flags ||| y.flags }

/-- MGETE (R293). -/
def execMgete (v ma i j : Nat) (s : State) : Res :=
  matOp s [(3, v)] 0 v fun k l => { v := some (BitVec.ofNat 32 (melem (k.w.mat ma l) i j)) }

/-- MSETE (R293). -/
def execMsete (md v i j : Nat) (s : State) : Res :=
  matOp s [(3, v)] md 0 fun k l =>
    let sh := k.w.mshape md l
    if i < rowsOf sh && j < colsOf sh then { m := some (sh, matSet (k.w.mat md l) i j (k.w.vget v l).toNat) }
    else { cond := condBND }

/-- MSTAT: each active lane's status, then cleared with `.c` (R294). -/
def execMstat (v : Nat) (c : Bool) (s : State) : Res :=
  issue s 4 fun k =>
    s.withMatrix k [(3, v)]
      ((s.modWave k.h fun w =>
        let w1 := w.vput v k.mask fun l => Sparse.get 0 w.msts l
        if c then { w1 with msts := w1.msts.filter fun e => !k.on e.1 } else w1).finish k 4)

end Sys2Proof.Machine
end

