-- ==== Sys2Proof/Machine/Tiles.lean ====
section
/-! DEFINITION. Tile registers, accumulators and the tensor unit (spec/10_tiles_and_matrix.md R245-R274,
spec/08_number_formats.md R198, R202, R211, R213-R217). -/

namespace Sys2Proof.Machine

/-! ## Storage -/

/-- Keys of byte 0 of a tile row, scale 0 of a row, and word 0 of an accumulator row. -/
def tileKey (t r : Nat) : Nat := (t * 64 + r) * 128
def sideKey (t r : Nat) : Nat := t * 512 + r * 8
def accKey (a i : Nat) : Nat := (a * 64 + i) * 64

/-- The first `n` bytes of a tile row as a number. -/
def Group.rowNum (g : Group) (t r n : Nat) : Nat := wordOfBytes ((List.range n).map fun b => Sparse.get 0 g.t (tileKey t r + b))
/-- A block scale's code. -/
def Group.scale (g : Group) (t r b : Nat) : Nat := (Sparse.get 0 g.side (sideKey t r + b)).toNat
/-- An accumulator element. -/
def Group.accAt (g : Group) (a i j : Nat) : Word := Sparse.get 0 g.a (accKey a i + j)
/-- The first `n` bytes of a tile row replaced by those of a number. -/
def Group.putRow (g : Group) (t r n v : Nat) : Group :=
  { g with t := Sparse.setRun 0 g.t (tileKey t r) n fun b => BitVec.ofNat 8 (v >>> (8 * b)) }
/-- A block scale replaced. -/
def Group.putScale (g : Group) (t r b v : Nat) : Group := { g with side := Sparse.set 0 g.side (sideKey t r + b) (BitVec.ofNat 8 v) }
/-- An accumulator element replaced. -/
def Group.putAcc (g : Group) (a i j : Nat) (x : Word) : Group := { g with a := Sparse.set 0 g.a (accKey a i + j) x }

/-! ## Descriptors (R245-R248) -/

def tdRows (x : Word) : Nat := field x.toNat 6 0
def tdBytes (x : Word) : Nat := field x.toNat 15 8
def tdKind (x : Word) : Nat := field x.toNat 19 16
def adRows (x : Word) : Nat := field x.toNat 6 0
def adCols (x : Word) : Nat := field x.toNat 14 8
def adInt (x : Word) : Bool := bitAt x.toNat 16

/-- Bits of an element of a kind (R202). -/
def kindBits (kind : Nat) : Nat :=
  match kind with
  | 2 | 3 => 6
  | 4 | 8 => 4
  | 9 | 10 => 16
  | 11 => 32
  | _ => 8

/-- Elements of a row (R246). -/
def tdK (x : Word) : Nat := tdBytes x * 8 / kindBits (tdKind x)

/-- Element `k` of a row given as a number: elements are packed low first (R198). -/
def elemOf (row bits k : Nat) : Nat := row >>> (k * bits) % 2 ^ bits

/-- The format of a floating kind (R202). -/
def kindFmt (kind : Nat) : Option Fmt :=
  match kind with
  | 0 => some fmtE4M3
  | 1 => some fmtE5M2
  | 2 => some fmtE3M2
  | 3 => some fmtE2M3
  | 4 => some fmtE2M1
  | 9 => some fmtBF16
  | 10 => some fmtF16
  | 11 => some fmtF32
  | _ => none

/-- An integer as an exact value. -/
def intVal (x : Int) : FVal := .fin (decide (x < 0)) x.natAbs 0

/-- The exact value of an element (R194, R199, R200). -/
def kindVal (kind raw : Nat) : FVal :=
  match kindFmt kind with
  | some f => f.decode raw
  | none =>
    match kind with
    | 5 => let v := ps2 raw; .fin (decide (v < 0)) v.natAbs (-6)
    | 7 => intVal (raw % 256)
    | 8 => intVal (signed raw 4)
    | _ => intVal (signed raw 8)

/-- A value times 2^n; a scale of 0xFF is NaN (R195, R216). A NaN stays signalling if it was (R196). -/
def scaleBy (code : Nat) (v : FVal) : FVal :=
  match v with
  | .nan sn => .nan sn
  | .fin n m e => if code = 255 then .nan false else .fin n m (e + (code : Int) - 127)
  | .inf n => if code = 255 then .nan false else .inf n

/-- The largest exponent of a kind that takes computed scales (R202). -/
def kindEmax (kind : Nat) : Int :=
  match kind with
  | 0 => 8
  | 1 => 15
  | 2 => 4
  | _ => 2

/-- The scale rule over one block: scale code, element codes, flags (R217). -/
def scaleBlock (kind : Nat) (xs : List FVal) : Nat × List Nat × Nat :=
  let f := (kindFmt kind).getD fmtE4M3
  let special := xs.any fun x => match x with
    | .fin _ _ _ => false
    | _ => true
  let lead := xs.foldl (fun (b : Option Int) x => match x with
    | .fin _ m e => if m = 0 then b else some (max (b.getD (leadExp m e)) (leadExp m e))
    | _ => b) none
  if special then (255, xs.map fun _ => 0, flagNV)
  else match lead with
    | none => (0, xs.map fun _ => 0, 0)
    | some top =>
      let x := max (-127) (min 127 (top - kindEmax kind))
      let rs := xs.map fun v => match v with
        | .fin n m e => f.narrow (.fin n m (e - x))
        | _ => (0, 0)
      ((x + 127).toNat, rs.map (·.1), orFlags (rs.map (·.2)))

/-! ## Results of a tile instruction -/

/-- What performing a tile instruction gives: the group's files, FP flags, and whether an accumulation was clipped. -/
structure TileRes where
  g : Group
  flags : Nat := 0
  sat : Bool := false
  deriving DecidableEq, Repr

/-- An uncorrectable word that a tile instruction reads (R258): an operand, its row and word: 0 srcA or the rows
read, 1 srcB, or the side array of a move or conversion, 2 the destination, 3 the metadata tile, 4 and 5 srcA's and srcB's side
arrays. -/
abbrev BadWord := Option (Nat × Nat × Nat)

/-- An element of `bits` bits lies in the failing word of row `r` of operand `w`. -/
def BadWord.hits (b : BadWord) (w r bits k : Nat) : Bool :=
  match b with
  | none => false
  | some (w', r', x) => w' == w && r' == r && decide (k * bits < 32 * x + 32) && decide (32 * x < k * bits + bits)

/-- The failing word of row `r` of operand `w` lies in the row's first `n` bytes. -/
def BadWord.inRow (b : BadWord) (w r n : Nat) : Bool :=
  match b with
  | none => false
  | some (w', r', x) => w' == w && r' == r && decide (4 * x < n)

/-! ### TMMA and TMMAS (R213-R215, R262, R263, R269) -/

/-- The operands of a matrix multiply: tiles, kinds, row bytes, shapes, scales, sparsity. -/
structure Mma where
  ad : Nat
  ta : Nat
  tb : Nat
  ak : Nat
  bk : Nat
  rba : Nat
  rbb : Nat
  rows : Nat
  cols : Nat
  groups : Nat
  s : Bool
  z : Bool
  /-- stored elements per 32 and the metadata tile, when sparse -/
  sparse : Option (Nat × Nat)
  deriving DecidableEq, Repr

/-- Element `32 g + p` of row `j` of B as stored; none where sparsity omits it (R263). -/
def Mma.bRaw (x : Mma) (row metaRow g p : Nat) : Option Nat :=
  match x.sparse with
  | none => some (elemOf row (kindBits x.bk) (32 * g + p))
  | some (n, _) =>
    let m := elemOf metaRow 32 g
    let rank := (List.range p).countP fun i => bitAt m i
    if bitAt m p && decide (rank < n) then some (elemOf row (kindBits x.bk) (g * n + rank)) else none

/-- A sum of exact products with its special values (R213, R215). -/
structure GroupSum where
  nan : Bool := false
  pinf : Bool := false
  ninf : Bool := false
  neg : Bool := false
  m : Nat := 0
  e : Int := 0
  deriving DecidableEq, Repr

/-- One product added. -/
def GroupSum.add (s : GroupSum) (a b : FVal) : GroupSum :=
  match a, b with
  | .nan _, _ => { s with nan := true }
  | _, .nan _ => { s with nan := true }
  | .inf n, .inf n' => if xor n n' then { s with ninf := true } else { s with pinf := true }
  | .inf n, .fin n' m _ =>
    if m = 0 then { s with nan := true } else if xor n n' then { s with ninf := true } else { s with pinf := true }
  | .fin n' m _, .inf n =>
    if m = 0 then { s with nan := true } else if xor n n' then { s with ninf := true } else { s with pinf := true }
  | .fin n1 m1 e1, .fin n2 m2 e2 =>
    if m1 * m2 = 0 then s
    else
      let r := addExact s.neg s.m s.e (xor n1 n2) (m1 * m2) (e1 + e2)
      { s with neg := r.1, m := r.2.1, e := r.2.2 }

/-- P of a group under its scales (R213, R215). -/
def GroupSum.value (s : GroupSum) (scales : Option (Nat × Nat)) : FVal :=
  let bad := match scales with
    | some (x, y) => x == 255 || y == 255
    | none => false
  if s.nan || bad || (s.pinf && s.ninf) then .nan false
  else if s.pinf then .inf false
  else if s.ninf then .inf true
  else if s.m = 0 then .fin false 0 0
  else match scales with
    | some (x, y) => .fin s.neg s.m (s.e + (x : Int) - 127 + (y : Int) - 127)
    | none => .fin s.neg s.m s.e

/-- One group added to an accumulator element (R213, R215). -/
def accAdd (c : Word) (p : FVal) : Flagged :=
  match p with
  | .nan _ => (fmtF32.nan, flagNV)
  | _ => fmtF32.addV modeRNE (fmtF32.decode c.toNat) p

/-- An INT32 accumulation under MODE, and whether it was clipped (R211). -/
def accSat (sat : Bool) (sum : Int) : Word × Bool :=
  if sat then let r := clip (-(2 ^ 31)) (2 ^ 31 - 1) sum; (BitVec.ofInt 32 r, r != sum) else (BitVec.ofInt 32 sum, false)

/-- The integer value of an INT8, UINT8 or INT4 element (R199). -/
def kindInt (kind raw : Nat) : Int :=
  match kind with
  | 7 => raw % 256
  | 8 => signed raw 4
  | _ => signed raw 8

/-- One accumulator element after the instruction, with flags and clipping (R269). -/
def Mma.elem (x : Mma) (g : Group) (sat : Bool) (i j : Nat) : Word × Nat × Bool :=
  let ra := g.rowNum x.ta i x.rba
  let rb := g.rowNum x.tb j x.rbb
  let meta_ := match x.sparse with
    | some (_, tm) => g.rowNum tm j 128
    | none => 0
  let c0 : Word := if x.z then 0 else g.accAt x.ad i j
  if 6 ≤ x.ak && x.ak ≤ 8 && 6 ≤ x.bk && x.bk ≤ 8 then
    let sum := (List.range (32 * x.groups)).foldl (fun (acc : Int) k =>
      match x.bRaw rb meta_ (k / 32) (k % 32) with
      | some b => acc + kindInt x.ak (elemOf ra (kindBits x.ak) k) * kindInt x.bk b
      | none => acc) c0.toInt
    let r := accSat sat sum
    (r.1, 0, r.2)
  else
    let r := (List.range x.groups).foldl (fun (acc : Word × Nat) gi =>
      let p := (List.range 32).foldl (fun (s : GroupSum) k =>
        s.add (kindVal x.ak (elemOf ra (kindBits x.ak) (32 * gi + k)))
          (match x.bRaw rb meta_ gi k with
            | some b => kindVal x.bk b
            | none => .fin false 0 0)) {}
      let v := p.value (if x.s then some (g.scale x.ta i gi, g.scale x.tb j gi) else none)
      let q := accAdd acc.1 v
      (BitVec.ofNat 32 q.1, acc.2 ||| q.2)) (c0, 0)
    (r.1, r.2, false)

/-- Performs a matrix multiply on the active rows (R262, R269). -/
def Mma.perform (x : Mma) (g : Group) (mask : Mask) (sat : Bool) (bad : BadWord) : TileRes :=
  ((lanesOf mask).filter (· < x.rows)).foldl (fun r i =>
    (List.range x.cols).foldl (fun r j =>
      if bad.inRow 0 i x.rba || bad.inRow 1 j x.rbb || (!x.z && bad.hits 2 i 32 j) ||
        (x.sparse.isSome && bad.inRow 3 j (4 * x.groups)) || (x.s && (bad.inRow 4 i x.groups || bad.inRow 5 j x.groups)) then r
      else
        let e := x.elem g sat i j
        { g := r.g.putAcc x.ad i j e.1, flags := r.flags ||| e.2.1, sat := r.sat || e.2.2 }) r) { g := g }

/-! ### Conversions of tiles (R272-R274) -/

/-- The range of an integer kind. -/
def kindRange (kind : Nat) : Int × Int :=
  match kind with
  | 7 => (0, 255)
  | 8 => (-8, 7)
  | _ => (-128, 127)

/-- conv of R272: a value into a kind; `int` when it comes unscaled from an integer kind. -/
def convKind (kind : Nat) (int : Bool) (v : FVal) : Flagged :=
  match kindFmt kind with
  | some f => if kind < 5 then f.narrow v else f.convert modeRNE v
  | none =>
    let r := kindRange kind
    match v with
    | .nan _ => (0, flagNV)
    | .inf n => (unsigned (if n then r.1 else r.2) (kindBits kind), flagNV)
    | .fin n m e =>
      let i := toInteger 0 n m e
      let y := clip r.1 r.2 i.1
      (unsigned y (kindBits kind), if int then 0 else if y ≠ i.1 then flagNV else if i.2 then flagNX else 0)

/-- A row of element codes as a number. -/
def packRow (bits : Nat) (xs : List Nat) : Nat := (List.range xs.length).foldl (fun v i => v + xs.getD i 0 % 2 ^ bits * 2 ^ (i * bits)) 0

/-- Row `r` of a tile written from values: by blocks with computed scales, or element by element; elements for which `skip`
holds, and blocks holding one, keep their contents (R258, R272-R274). -/
def TileRes.writeRow (t : TileRes) (td r : Nat) (desc : Word) (ds int : Bool) (xs : List FVal) (skip : Nat → Bool) : TileRes :=
  let kind := tdKind desc
  let bits := kindBits kind
  let old := t.g.rowNum td r (tdBytes desc)
  let keep := fun k => if ds then (List.range 32).any fun i => skip (k / 32 * 32 + i) else skip k
  if ds then
    let bs := (List.range (xs.length / 32)).map fun b => scaleBlock kind ((xs.drop (32 * b)).take 32)
    let codes := (bs.map (·.2.1)).flatten
    let row := packRow bits ((List.range xs.length).map fun k => if keep k then elemOf old bits k else codes.getD k 0)
    let g1 := t.g.putRow td r (tdBytes desc) row
    let live := (List.range bs.length).filter fun b => !keep (32 * b)
    { t with
      g := live.foldl (fun g b => g.putScale td r b (bs.getD b (0, [], 0)).1) g1
      flags := t.flags ||| orFlags (live.map fun b => (bs.getD b (0, [], 0)).2.2) }
  else
    let cs := xs.map (convKind kind int)
    let row := packRow bits ((List.range xs.length).map fun k => if keep k then elemOf old bits k else (cs.getD k (0, 0)).1)
    let live := (List.range cs.length).filter fun k => !keep k
    { t with g := t.g.putRow td r (tdBytes desc) row, flags := t.flags ||| orFlags (live.map fun k => (cs.getD k (0, 0)).2) }

/-- A conversion applies a source's block scales: of kinds 0 to 5 only, since kinds 6 to 11 use scales in TMMA pairs alone (R247,
R272; log 33). -/
def kindScaled (kind : Nat) (ss : Bool) : Bool := ss && decide (kind ≤ 5)

/-- A source row's values, scaled or not. -/
def Group.rowVals (g : Group) (t r : Nat) (desc : Word) (ss : Bool) : List FVal :=
  let row := g.rowNum t r (tdBytes desc)
  (List.range (tdK desc)).map fun k =>
    let v := kindVal (tdKind desc) (elemOf row (kindBits (tdKind desc)) k)
    if kindScaled (tdKind desc) ss then scaleBy (g.scale t r (k / 32)) v else v

/-- An unscaled integer kind. -/
def kindIsInt (kind : Nat) : Bool := kind == 6 || kind == 7 || kind == 8

/-- TCVT performed (R272). -/
def tcvtRes (g : Group) (mask : Mask) (td ta : Nat) (ss ds : Bool) (dd da : Word) (bad : BadWord) : TileRes :=
  ((lanesOf mask).filter (· < tdRows da)).foldl (fun r l =>
    r.writeRow td l dd ds (kindIsInt (tdKind da)) (g.rowVals ta l da ss) fun k =>
      bad.hits 0 l (kindBits (tdKind da)) k || (kindScaled (tdKind da) ss && bad.hits 1 l 8 (k / 32))) { g := g }

/-- TTRQ performed (R273). -/
def ttrqRes (g : Group) (mask : Mask) (td ta : Nat) (dd da : Word) (bad : BadWord) : TileRes :=
  let rows := (List.range (tdRows da)).map fun r => g.rowVals ta r da true
  ((lanesOf mask).filter (· < tdK da)).foldl (fun t c =>
    t.writeRow td c dd true false (rows.map fun x => x.getD c (.fin false 0 0)) fun r => bad.hits 0 r (kindBits (tdKind da)) c || bad.hits 1 r 8 (c / 32))
    { g := g }

/-- TRQ performed (R274). -/
def trqRes (g : Group) (mask : Mask) (td aa : Nat) (ds : Bool) (dd da : Word) (fv : List (List Word)) (bad : BadWord) : TileRes :=
  ((lanesOf mask).filter (· < adRows da)).foldl (fun r l =>
    let xs := (List.range (adCols da)).map fun j => g.accAt aa l j
    let skip := fun j => bad.hits 0 l 32 j
    if adInt da then
      let at_ := fun (i : Nat) => (fv.getD i []).getD l 0
      let kd := match tdKind dd with
        | 6 => RqKind.i8
        | 7 => .u8
        | _ => .i4
      r.writeRow td l dd false true
        (xs.map fun x => intVal (rqntV kd (at_ 0).toInt (at_ 2).toInt ((at_ 1).toNat % 64) x.toInt)) skip
    else r.writeRow td l dd ds false (xs.map fun x => fmtF32.decode x.toNat) skip) { g := g }

/-! ## Completion (R250, R251, R255) -/

/-- The registers a tile row moves in TRDROW and TWRROW: the word's value (R271). -/
def Group.rowWord (g : Group) (t l : Nat) (side acc : Bool) (x : Nat) : Word :=
  if side then BitVec.ofNat 32 (wordOfBytes ((List.range 4).map fun i => Sparse.get 0 g.side (sideKey t l + 4 * (x % 2) + i)))
  else if acc then g.accAt t l (x % 64)
  else BitVec.ofNat 32 (wordOfBytes ((List.range 4).map fun i => Sparse.get 0 g.t (tileKey t l + 4 * (x % 32) + i)))

/-- The same word replaced. -/
def Group.putRowWord (g : Group) (t l : Nat) (side acc : Bool) (x : Nat) (v : Word) : Group :=
  let b := fun (i : Nat) => BitVec.ofNat 8 (v.toNat >>> (8 * i))
  if side then { g with side := Sparse.setRun 0 g.side (sideKey t l + 4 * (x % 2)) 4 b }
  else if acc then g.putAcc t l (x % 64) v
  else { g with t := Sparse.setRun 0 g.t (tileKey t l + 4 * (x % 32)) 4 b }

/-- Rows zeroed (R268). -/
def tzeroRes (g : Group) (mask : Mask) (t : Nat) (acc : Bool) : Group :=
  (lanesOf mask).foldl (fun g l =>
    if acc then { g with a := Sparse.clear g.a (accKey t l) 64 }
    else { g with t := Sparse.clear g.t (tileKey t l) 128, side := Sparse.clear g.side (sideKey t l) 8 }) g

/-- The parts of a format word (R259). -/
def fwAK (f : Word) : Nat := field f.toNat 3 0
def fwBK (f : Word) : Nat := field f.toNat 7 4
def fwN (f : Word) : Nat := field f.toNat 12 8
def fwS (f : Word) : Bool := bitAt f.toNat 13

/-- The multiply an instruction names, from its format word and descriptors A, B and C. -/
def mmaOf (ad ta tb : Nat) (f da db dc : Word) (z : Bool) (tm : Option Nat) : Mma :=
  { ad := ad, ta := ta, tb := tb, ak := fwAK f, bk := fwBK f, rba := tdBytes da, rbb := tdBytes db, rows := adRows dc,
    cols := adCols dc, groups := tdBytes da * 8 / kindBits (fwAK f) / 32, s := fwS f, z := z,
    sparse := tm.map fun t => (fwN f, t) }

/-- The words of `n` bytes that a TST writes from `x` for operand `op` of lane `l`, their values from `f`. -/
def tstWords (ss : List StSec) (op l n : Nat) (va : Word) (x : Loc) (bad : BadWord) (f : Nat → Byte) : List StSec :=
  ((List.range (n / 4)).filter fun j => !bad.hits op l 32 j).foldl (fun ss j =>
    addBytes ss ((va + BitVec.ofNat 32 (4 * j)).zeroExtend 64) l ((List.range 4).map fun b => (x.add (4 * j + b), f (4 * j + b)))) ss

/-- The words a TST writes: rows, and scale rows, lanes ascending (R266, R267); `fv` holds the lanes' addresses. -/
def tstSectors (g : Group) (ta rb : Nat) (fv : List (List Word)) (locs : List (Nat × Loc × Option Loc)) (bad : BadWord) : List StSec :=
  locs.foldl (fun ss e =>
    let va := fun (i : Nat) => (fv.getD i []).getD e.1 0
    let s1 := tstWords ss 0 e.1 rb (va 0) e.2.1 bad fun b => Sparse.get 0 g.t (tileKey ta e.1 + b)
    match e.2.2 with
    | some x => tstWords s1 1 e.1 8 (va 1) x bad fun b => Sparse.get 0 g.side (sideKey ta e.1 + b)
    | none => s1) []

/-- The place of the word that a TLD cannot read (R106). -/
def tldPlace (locs : List (Nat × Loc × Option Loc)) (bad : BadWord) : Option Loc :=
  bad.bind fun b => (locs.find? (·.1 == b.2.1)).bind fun e =>
    ((if b.1 = 0 then some e.2.1 else e.2.2).map fun x => (x.add (4 * b.2.2)).sector)

/-- The lanes of a TLD that the word at `x` serves (R106). -/
def tldServed (locs : List (Nat × Loc × Option Loc)) (rb : Nat) (x : Loc) : List Nat :=
  (locs.filter fun e => e.2.1.meets rb x 4 || (e.2.2.map fun y => y.meets 8 x 4) == some true).map (·.1)

/-- TLD performed: rows and scale rows as the wave's own access reads them (R255, R266). -/
def State.tldRes (s : State) (w : Wave) (o : Out) (g : Group) (td rb : Nat) (locs : List (Nat × Loc × Option Loc))
    (bad : BadWord) : Group :=
  let kept := fun (x : Loc) => tldPlace locs bad == some x.sector
  locs.foldl (fun g e =>
    let row := s.viewBytes w o.seq o.tag e.2.1 rb
    let new := fun b => if kept (e.2.1.add b) then Sparse.get 0 g.t (tileKey td e.1 + b) else row.getD b 0
    let g1 := { g with t := Sparse.setRun 0 g.t (tileKey td e.1) rb new }
    match e.2.2 with
    | some x =>
      let sc := s.viewBytes w o.seq o.tag x 8
      let news := fun b => if kept (x.add b) then Sparse.get 0 g1.side (sideKey td e.1 + b) else sc.getD b 0
      { g1 with side := Sparse.setRun 0 g1.side (sideKey td e.1) 8 news }
    | none => g1) g

/-- SAT set at the completion of operation `seq`: at once, or in the held-write buffer for the second slot (R180, R210). -/
def State.mergeSat (s : State) (h seq : Nat) (w : Wave) (sat : Bool) : State :=
  if w.held.any fun e => e.seq == seq && e.val.isNone then (if sat then s.fillHeld h seq [1] else s.dropHeld h seq)
  else if sat then s.putDst h .sat 1
  else s

/-- A tile instruction's effect on the group and the wave that issued it: flags and SAT merge at completion (R209, R250). -/
def State.tileDone (s : State) (h seq : Nat) (w : Wave) (r : TileRes) : State :=
  ((s.modGroup w.group fun _ => r.g).mergeSat h seq w r.sat).modWave h fun w => (w.raiseFlags r.flags).complete seq

/-- Performs tile instruction `o` of a wave; `bad` is a word of storage that cannot be read (R258). -/
def State.tilePerform (s : State) (h : Nat) (w : Wave) (o : Out) (bad : BadWord) : State :=
  match Map.find s.groups w.group, o.op with
  | some g, .tile i mask desc fv locs key sat =>
    let d := fun (n : Nat) => desc.getD n 0
    match i with
    | .tld td _ _ => s.tileDone h o.seq w { g := s.tldRes w o g td (tdBytes (d 0)) locs bad }
    | .tst ta _ _ =>
      let secs := tstSectors g ta (tdBytes (d 0)) fv locs bad
      if s.detWave h then s.modWave h (·.setOp o.seq (.store secs))
      else (s.pokes (secs.flatMap (·.bytes))).modWave h (·.complete o.seq)
    | .tzero t acc => s.tileDone h o.seq w { g := tzeroRes g mask t acc }
    | .tmma ad ta tb _ z => s.tileDone h o.seq w ((mmaOf ad ta tb (d 0) (d 1) (d 2) (d 3) z none).perform g mask sat bad)
    | .tmmas ad ta tb _ tm z => s.tileDone h o.seq w ((mmaOf ad ta tb (d 0) (d 1) (d 2) (d 3) z (some tm)).perform g mask sat bad)
    | .trdrow _ t side acc =>
      let ls := (lanesOf mask).filter fun l =>
        !bad.hits 0 l 32 (((fv.getD 0 []).getD l 0).toNat % (if acc then 64 else if side then 2 else 32))
      (s.modWave h fun w =>
        { w with v := ls.foldl (fun v l => Sparse.set 0 v (key + l) (g.rowWord t l side acc ((fv.getD 0 []).getD l 0).toNat)) w.v }).modWave
        h (·.complete o.seq)
    | .twrrow t _ side acc =>
      s.tileDone h o.seq w
        { g := (lanesOf mask).foldl (fun g l =>
            g.putRowWord t l side acc ((fv.getD 0 []).getD l 0).toNat ((fv.getD 1 []).getD l 0)) g }
    | .tcvt td ta ss ds => s.tileDone h o.seq w (tcvtRes g mask td ta ss ds (d 0) (d 1) bad)
    | .ttrq td ta => s.tileDone h o.seq w (ttrqRes g mask td ta (d 0) (d 1) bad)
    | .trq td aa _ ds => s.tileDone h o.seq w (trqRes g mask td aa ds (d 0) (d 1) fv bad)
    | _ => s
  | _, _ => s

/-- The tile instruction of a wave that is performed next (R251). -/
def Wave.nextTile (w : Wave) : Option Out :=
  w.outs.find? fun o => !o.done && (match o.op with | .tile _ _ _ _ _ _ _ => true | _ => false)

/-- A tile access's places have earlier accesses of the wave outstanding: TLD waits for every earlier access and move of its slot,
a store apart, whose bytes it sees (R255), and TST for accesses to its bytes (R83). -/
def Wave.tileBlocked (w : Wave) (o : Out) : Bool :=
  match o.op with
  | .tile (.tld _ _ _) _ _ _ _ _ _ =>
    w.outs.any fun p => decide (p.seq < o.seq) && !p.done && tagOrdered p.tag o.tag &&
      (match p.op with | .tmov _ _ _ _ _ _ _ _ => true | .store _ => false | _ => p.isAccess)
  | .tile (.tst _ _ _) _ desc _ locs _ _ =>
    locs.any fun e => w.conflicts o.seq o.tag e.2.1 (tdBytes (desc.getD 0 0)) || (match e.2.2 with
      | some x => w.conflicts o.seq o.tag x 8
      | none => false)
  | _ => false

/-- A wave issues no more tile instructions in its round: it has ended its quantum, stands stopped, or is over. -/
def Wave.roundOver (w : Wave) (quantum : Nat) : Bool :=
  w.over || w.stop.isSome || decide (w.qstate ≠ .running) || decide (quantum ≤ w.qret)

/-- A wave of the slot's group with a lower WAVEID may still have tile instructions to perform in a deterministic round
(R455). -/
def State.tilesBefore (s : State) (group : Nat) (waveid : Word) (quantum : Nat) : Bool :=
  s.waves.any fun e => e.2.group == group && decide (e.2.waveid < waveid) &&
    (e.2.nextTile.isSome || !e.2.roundOver quantum)

/-- The turn of a tile instruction has not come: an access of its wave blocks it, or, in a deterministic launch, a wave of
its group with a lower WAVEID may still have tile instructions to perform in the round (R455). -/
def State.tileWaits (s : State) (h : Nat) (w : Wave) (o : Out) : Bool :=
  match s.launchOf h with
  | none => true
  | some (_, l) =>
    if l.block.det then s.tilesBefore w.group w.waveid l.block.quantum else w.tileBlocked o

/-- TILE_INSTRUCTION_COMPLETION: the wave's oldest tile instruction is performed and completes (R250, R251). -/
def execTileInstructionCompletion (h : Nat) (s : State) : Res :=
  match Map.find s.waves h with
  | none => .next s
  | some w =>
    match w.nextTile with
    | none => .next s
    | some o => if s.tileWaits h w o then .next s else .next (s.tilePerform h w o none)

/-! ## Issue (R252, R253, R256, R257) -/

/-- Illegal Instruction with a reason of R257. -/
def Slot.tileTrap (k : Slot) (i : Instr) (reason : Nat) : Trap := { k.illegal i with reason := reason }

/-- The first name outside its grant, in the order d, a, b, fv, metadata (R154, R157, R435): tiles and accumulators by field,
register and kind. -/
def Slot.tileNames (k : Slot) (names : List (Nat × Nat × Bool)) (fv : List (Nat × Nat)) : Option (Nat × Nat) :=
  match k.g.bad (names.filter fun e => e.1 < 3) with
  | some e => some e
  | none =>
    match k.w.vbad fv with
    | some e => some e
    | none => k.g.bad (names.filter fun e => 3 ≤ e.1)

/-- The accumulator an instruction writes. -/
def accOf (i : Instr) : Option Nat :=
  match i with
  | .tmma ad _ _ _ _ => some ad
  | .tmmas ad _ _ _ _ _ => some ad
  | .tzero t acc => if acc then some t else none
  | .twrrow t _ _ acc => if acc then some t else none
  | _ => none

/-- Issued, incomplete tile instructions of a group that write accumulator `a` (R253). -/
def State.accWriters (s : State) (group a : Nat) : Nat :=
  (s.waves.map fun e =>
    if e.2.group = group then
      (e.2.outs.filter fun o => !o.done && (match o.op with | .tile i _ _ _ _ _ _ => accOf i == some a | _ => false)).length
    else 0).foldl (· + ·) 0

/-- An accumulator takes one more writer, this slot's: fewer than eight, and nobody waits before it (R253). In a deterministic
launch the waves take the places in the order in which they perform (R455; log 60). -/
def State.accRoom (s : State) (k : Slot) (a : Nat) : Bool :=
  decide (s.accWriters k.w.group a < 8) &&
  (if k.det then !s.tilesBefore k.w.group k.w.waveid k.l.block.quantum
   else match s.waiters.find? fun x => x.on == .acc a && (Map.find s.waves x.wave).map (·.group) == some k.w.group with
    | some x => x.wave == k.h && x.side == k.f.side
    | none => true)

/-- The instruction accumulates integers in saturating mode, so that it may set SAT (R210, R211). -/
def satMay (i : Instr) (sat : Bool) (desc : List Word) : Bool :=
  sat && (match i with
    | .tmma _ _ _ _ _ | .tmmas _ _ _ _ _ _ => adInt (desc.getD 3 0)
    | _ => false)

/-- A tile instruction issued with what it has read, once its accumulator has room for it and the held-write buffer for its SAT
(R180, R250, R252, R253). -/
def State.tileIssue (s : State) (k : Slot) (i : Instr) (desc : List Word) (fv : List Nat) (locs : List (Nat × Loc × Option Loc))
    (key : Nat := 0) : State :=
  let mode := (k.csr 0x002).getLsbD 0
  let sat := satMay i mode desc
  match (accOf i).filter fun a => !s.accRoom k a with
  | some a => if k.det then s else s.await k (.acc a)
  | none =>
    if sat && !k.room 1 then s
    else
      (s.modWave k.h fun w =>
        let o := k.newOut .tl false false
          (.tile i k.mask desc (fv.map fun j => laneList.map fun l => k.w.vget j l) locs key mode)
        let w' := if sat then k.expect o.seq [.sat] (w.push o) else w.push o
        { w' with qops := if k.det && o.atCommit then w.qops ++ [.out o.seq] else w.qops }).finish k 4

/-- As `issue`, for a tile instruction: TL below 63 and every name it has granted (R109, R256). -/
def tileOp (s : State) (held : Bool) (names : List (Nat × Nat × Bool)) (fv : List (Nat × Nat)) (f : Slot → State) : Res :=
  issue s 4 fun k =>
    let body :=
      if 63 ≤ k.w.pathCount .tl then s.full k .tl
      else match k.tileNames names fv with
        | some e => s.trap k (k.windowTrap e.1 e.2)
        | none => f k
    if held then s.unheld k body else body

/-- A tile's descriptor and an accumulator's, as the slot reads them. -/
def Slot.tdesc (k : Slot) (t : Nat) : Word := k.groupCsr (0x200 + t)
def Slot.adesc (k : Slot) (a : Nat) : Word := k.groupCsr (0x220 + a)

/-- The rows of a TLD or TST resolved, or the fault of the lowest failing lane (R99, R266): alignment to 8 first. -/
def State.tileLocs (s : State) (k : Slot) (rows : List (Nat × Nat × Nat × Option Nat)) :
    Except (List (Nat × Nat × Option Nat)) (List (Nat × Loc × Option Loc)) :=
  let addrs := rows.flatMap fun e => (e.1, e.2.1, e.2.2.1) :: (match e.2.2.2 with | some b => [(e.1, b, 8)] | none => [])
  let odd := addrs.filter fun e => e.2.1 % 8 != 0
  if !odd.isEmpty then .error (odd.map fun e => (e.1, e.2.1, none))
  else
    let bad := addrs.filterMap fun e => match s.scrRange k.ctx e.2.1 e.2.2 with
      | .error r => some (e.1, e.2.1, some r)
      | .ok _ => none
    if !bad.isEmpty then .error bad
    else .ok (rows.map fun e =>
      let at_ := fun (a n : Nat) => match s.scrRange k.ctx a n with
        | .ok key => Loc.scr key
        | .error _ => .scr 0
      (e.1, at_ e.2.1 e.2.2.1, e.2.2.2.map fun b => at_ b 8))

/-- The lowest failing lane's address and reason, the lowest-numbered that its addresses give (R98, R99). -/
def lowestReason (bad : List (Nat × Nat × Option Nat)) : Nat × Nat × Option Nat :=
  let b := bad.headD (0, 0, none)
  (bad.filter (·.1 == b.1)).foldl (fun x y => if y.2.2.getD 0 < x.2.2.getD 0 then y else x) b

/-- TLD and TST (R256, R266). -/
def tileMove (s : State) (i : Instr) (t va : Nat) (side store : Bool) : Res :=
  tileOp s true [(if store then 1 else 0, t, false)] (runNames 3 va (if side then 2 else 1)) fun k =>
    let d := k.tdesc t
    if d = 0 then s.trap k (k.tileTrap i 1)
    else
      let rows := (k.lanes.filter (· < tdRows d)).map fun l =>
        (l, (k.w.vget va l).toNat, tdBytes d, if side then some (k.w.vget (va + 1) l).toNat else none)
      match s.tileLocs k rows with
      | .ok locs => s.tileIssue k i [d] (if side then [va, va + 1] else [va]) locs
      | .error bad =>
        let b := lowestReason bad
        s.trap k { k.trap (if b.2.2.isSome then 0x05 else 0x06) (b.2.2.getD 0) with
          access := bit store, addr := BitVec.ofNat 64 b.2.1, lmask := maskOf (bad.map (·.1)) }

/-- TLD (R266). -/
def execTld (td va : Nat) (sd : Bool) (s : State) : Res := tileMove s (.tld td va sd) td va sd false
/-- TST (R266). -/
def execTst (ta va : Nat) (sd : Bool) (s : State) : Res := tileMove s (.tst ta va sd) ta va sd true

/-- TZERO (R268). -/
def execTzero (td : Nat) (acc : Bool) (s : State) : Res :=
  tileOp s false [(0, td, acc)] [] fun k => s.tileIssue k (.tzero td acc) [] [] []

/-- A kind a pair may hold (R260). -/
def isFp64 (k : Nat) : Bool := k == 2 || k == 3 || k == 4
def isFp8 (k : Nat) : Bool := k == 0 || k == 1

/-- The accepted pairs, in one order: with the S it needs (none for either) and whether the accumulator is INT32 (R260). -/
def pairRule (a b : Nat) : Option (Option Bool × Bool) :=
  if isFp64 a && isFp64 b then some (none, false)
  else if isFp8 a && (isFp8 b || isFp64 b) then some (none, false)
  else if a == 5 && b ≤ 7 then some (some true, false)
  else if (a == 6 || a == 7) && (b == 6 || b == 7) then some (some false, true)
  else if (a == 9 && b == 9) || (a == 10 && b == 10) then some (some false, false)
  else none

/-- The rule of a pair in either order. -/
def pairOfKinds (a b : Nat) : Option (Option Bool × Bool) :=
  match pairRule a b with
  | some r => some r
  | none => pairRule b a

/-- Whether the format word is accepted, and the accumulator it needs (R259, R260). -/
def formatOk (f : Word) (sparse : Bool) : Option Bool :=
  let n := fwN f
  if field f.toNat 31 14 ≠ 0 then none
  else if (if sparse then n = 0 || 16 < n || 9 ≤ fwAK f else n ≠ 0) then none
  else match pairOfKinds (fwAK f) (fwBK f) with
    | some (some need, int) => if fwS f = need then some int else none
    | some (none, int) => some int
    | none => none

/-- The first check of step 4 that a multiply fails (R257, R269): reasons 1, 3, 4, 5, 2 in the entry's order. -/
def mmaReason (f da db dc : Word) (sparse : Bool) : Option Nat :=
  if da = 0 || db = 0 || dc = 0 then some 1
  else match formatOk f sparse with
    | none => some 3
    | some int =>
      let k := tdBytes da * 8 / kindBits (fwAK f)
      let held := tdBytes db * 8 / kindBits (fwBK f)
      if tdKind da ≠ fwAK f || tdKind db ≠ fwBK f then some 4
      else if adInt dc ≠ int then some 5
      else if (if sparse then held < k / 32 * fwN f else kindBits (fwBK f) * k ≠ tdBytes db * 8) then some 2
      else if tdRows da ≠ adRows dc || tdRows db ≠ adCols dc then some 2
      else none

/-- TMMA and TMMAS (R261, R269). -/
def tileMultiply (s : State) (i : Instr) (ad ta tb vf : Nat) (tm : Option Nat) : Res :=
  tileOp s false ([(0, ad, true), (1, ta, false), (2, tb, false)] ++ (match tm with | some t => [(4, t, false)] | none => []))
    [(3, vf)] fun k =>
    let f := k.w.vget vf (lowLane k.mask)
    let differ := maskBy fun l => k.on l && k.w.vget vf l != f
    if differ ≠ 0 then s.trap k { k.trap 0x03 with lmask := differ, w12 := f }
    else
      let da := k.tdesc ta
      let db := k.tdesc tb
      let dc := k.adesc ad
      match mmaReason f da db dc tm.isSome with
      | some r => s.trap k (k.tileTrap i r)
      | none => s.tileIssue k i [f, da, db, dc] [] []

/-- TMMA (R269). -/
def execTmma (ad ta tb vf : Nat) (z : Bool) (s : State) : Res := tileMultiply s (.tmma ad ta tb vf z) ad ta tb vf none
/-- TMMAS (R263, R269). -/
def execTmmas (ad ta tb vf tm : Nat) (z : Bool) (s : State) : Res :=
  tileMultiply s (.tmmas ad ta tb vf tm z) ad ta tb vf (some tm)

/-- TRDROW: the word is written at completion, to the register resolved at issue (R157, R271). -/
def execTrdrow (vx ta : Nat) (side acc : Bool) (s : State) : Res :=
  tileOp s false [(1, ta, acc)] [(3, vx)] fun k =>
    s.tileIssue k (.trdrow vx ta side acc) [] [vx] [] (k.w.vkey vx)

/-- TWRROW (R271). -/
def execTwrrow (td vx : Nat) (side acc : Bool) (s : State) : Res :=
  tileOp s false [(0, td, acc)] (runNames 3 vx 2) fun k =>
    s.tileIssue k (.twrrow td vx side acc) [] [vx, vx + 1] []

/-- TCVT (R272): conversions not accepted are reason 6, after descriptors and shapes (R256; log 75). -/
def execTcvt (td ta : Nat) (ss ds : Bool) (s : State) : Res :=
  tileOp s false [(0, td, false), (1, ta, false)] [] fun k =>
    let dd := k.tdesc td
    let da := k.tdesc ta
    if dd = 0 || da = 0 then s.trap k (k.tileTrap (.tcvt td ta ss ds) 1)
    else if tdRows dd ≠ tdRows da || tdK dd ≠ tdK da then s.trap k (k.tileTrap (.tcvt td ta ss ds) 2)
    else if tdKind dd = 5 || (ds && 4 < tdKind dd) then s.trap k (k.tileTrap (.tcvt td ta ss ds) 6)
    else s.tileIssue k (.tcvt td ta ss ds) [dd, da] [] []

/-- TTRQ (R273); the reasons as in TCVT (log 75). -/
def execTtrq (td ta : Nat) (s : State) : Res :=
  tileOp s false [(0, td, false), (1, ta, false)] [] fun k =>
    let dd := k.tdesc td
    let da := k.tdesc ta
    if dd = 0 || da = 0 then s.trap k (k.tileTrap (.ttrq td ta) 1)
    else if tdRows dd ≠ tdK da || tdK dd ≠ tdRows da then s.trap k (k.tileTrap (.ttrq td ta) 2)
    else if 4 < tdKind dd || 4 < tdKind da then s.trap k (k.tileTrap (.ttrq td ta) 6)
    else s.tileIssue k (.ttrq td ta) [dd, da] [] []

/-- The combinations TRQ accepts (R274). -/
def trqOk (int : Bool) (kind vx : Nat) (ds : Bool) : Bool :=
  if int then kindIsInt kind && !ds
  else if kind == 9 || kind == 10 then !ds && vx == 0
  else decide (kind ≤ 4) && vx == 0

/-- TRQ (R274); the reasons as in TCVT (log 75). -/
def execTrq (td aa vx : Nat) (ds : Bool) (s : State) : Res :=
  issue s 4 fun k =>
    let i := Instr.trq td aa vx ds
    let dd := k.tdesc td
    let da := k.adesc aa
    let run := if adInt da && aa < k.g.accs then 3 else 0
    if 63 ≤ k.w.pathCount .tl then s.full k .tl
    else match k.tileNames [(0, td, false), (1, aa, true)] (runNames 3 vx run) with
      | some e => s.trap k (k.windowTrap e.1 e.2)
      | none =>
        if dd = 0 || da = 0 then s.trap k (k.tileTrap i 1)
        else if tdRows dd ≠ adRows da || tdK dd ≠ adCols da then s.trap k (k.tileTrap i 2)
        else if !trqOk (adInt da) (tdKind dd) vx ds then s.trap k (k.tileTrap i 6)
        else s.tileIssue k i [dd, da] ((List.range run).map (vx + ·)) []

end Sys2Proof.Machine
end

