-- ==== Sys2Proof/Machine/Errors.lean ====
section
/-! DEFINITION. MEMORY_ERROR: an uncorrectable error met by an access, a move, a tile or matrix instruction, a weight transfer
or a catalogue instruction (spec/03_device_memory.md R88, spec/04_scratchpads.md R106, spec/10_tiles_and_matrix.md R258,
spec/14_slot_catalogue.md R309, spec/17_atomics.md R361). -/

namespace Sys2Proof.Machine

/-- An error that part `idx` of an operation will meet when it is performed, at its completion or by the commit (R106, R452, R454). -/
def State.markBad (s : State) (h seq cause idx : Nat) : State :=
  s.modWave h fun w => { w with outs := w.outs.map fun p => if p.seq == seq then { p with bad := p.bad ++ [(cause, idx)] } else p }

/-! ## TMOV (R106, R116) -/

/-- A TMOV meets an error at word `idx` of its rectangle, which it reports as it completes. -/
def State.tmovError (s : State) (h : Nat) (o : Out) (idx : Nat) : State :=
  match o.op with
  | .tmov _ _ n rb _ _ _ _ => if idx / (rb / 4) < n then s.markBad h o.seq 0x20 idx else s
  | _ => s

/-! ## Tile instructions (R106, R258) -/

/-- Where word `x` of row `r` of operand `n` of a tile instruction stands, if the instruction reads it: its address and the
lanes it serves. -/
def tileWord (i : Instr) (mask : Mask) (desc : List Word) (fv : List (List Word)) (locs : List (Nat × Loc × Option Loc)) (n r x : Nat) :
    Option (DWord × Mask) :=
  let d := fun (n : Nat) => desc.getD n 0
  let on := mask.getLsbD r
  let reg := fun (ok : Bool) (kind t : Nat) (m : Mask) => if ok then some (Config.registerRow kind t r, m) else none
  let lane := maskOf [r]
  let scr := fun (ok : Bool) (f : Nat) =>
    if ok then
      some (((fv.getD f []).getD r 0 + BitVec.ofNat 32 (4 * x)).zeroExtend 64,
        maskOf (((tldPlace locs (some (f, r, x))).map (tldServed locs (tdBytes (d 0)))).getD [r]))
    else none
  let mma := fun (m : Mma) =>
    let used := (lanesOf mask).any (· < m.rows)
    match n with
    | 0 => reg (on && decide (r < m.rows) && decide (4 * x < m.rba)) 0 m.ta lane
    | 1 => reg (used && decide (r < m.cols) && decide (4 * x < m.rbb)) 0 m.tb mask
    | 2 => reg (!m.z && on && decide (r < m.rows) && decide (x < m.cols)) 2 m.ad lane
    | 3 => match m.sparse with
      | some (_, tm) => reg (used && decide (r < m.cols) && decide (x < m.groups)) 0 tm mask
      | none => none
    | 4 => reg (m.s && on && decide (r < m.rows) && decide (4 * x < m.groups)) 1 m.ta lane
    | 5 => reg (m.s && used && decide (r < m.cols) && decide (4 * x < m.groups)) 1 m.tb mask
    | _ => none
  match i with
  | .tld _ _ sd =>
    let ok := on && decide (r < tdRows (d 0))
    if n = 0 then scr (ok && decide (4 * x < tdBytes (d 0))) 0 else if n = 1 then scr (ok && sd && decide (x < 2)) 1 else none
  | .tst ta _ sd =>
    let ok := on && decide (r < tdRows (d 0))
    if n = 0 then reg (ok && decide (4 * x < tdBytes (d 0))) 0 ta lane
    else if n = 1 then reg (ok && sd && decide (x < 2)) 1 ta lane else none
  | .tmma ad ta tb _ z => mma (mmaOf ad ta tb (d 0) (d 1) (d 2) (d 3) z none)
  | .tmmas ad ta tb _ tm z => mma (mmaOf ad ta tb (d 0) (d 1) (d 2) (d 3) z (some tm))
  | .trdrow _ t side acc =>
    let y := ((fv.getD 0 []).getD r 0).toNat % (if acc then 64 else if side then 2 else 32)
    reg (n == 0 && on && y == x) (if acc then 2 else if side then 1 else 0) t lane
  | .tcvt _ ta ss _ =>
    let ok := on && decide (r < tdRows (d 1))
    if n = 0 then reg (ok && decide (4 * x < tdBytes (d 1))) 0 ta lane
    else if n = 1 then reg (ok && kindScaled (tdKind (d 1)) ss && decide (4 * x < tdK (d 1) / 32)) 1 ta lane else none
  | .ttrq _ ta =>
    let ok := mask != 0 && decide (r < tdRows (d 1))
    if n = 0 then reg (ok && decide (4 * x < tdBytes (d 1))) 0 ta mask
    else if n = 1 then reg (ok && decide (4 * x < tdK (d 1) / 32)) 1 ta mask else none
  | .trq _ aa _ _ => reg (n == 0 && on && decide (r < adRows (d 1)) && decide (x < adCols (d 1))) 2 aa lane
  | _ => none

/-- A tile instruction that cannot read a word leaves what depends on it unchanged and completes (R258). -/
def State.tileError (s : State) (h : Nat) (w : Wave) (o : Out) (idx : Nat) : State :=
  match o.op with
  | .tile i mask desc fv locs _ _ =>
    let n := idx / 4096
    let r := idx / 64 % 64
    let x := idx % 64
    match (w.nextTile.map (·.seq) == some o.seq && !s.tileWaits h w o : Bool), tileWord i mask desc fv locs n r x with
    | true, some (addr, m) =>
      (s.tilePerform h w o (some (n, r, x))).imprecise h (o.errorTrap 0x20 addr (.scr 0) m)
    | _, _ => s
  | _ => s

/-! ## FITLD and FITSV (R428, R345, R487) -/

/-- A word of a weight transfer may meet an error: a read one any; a written one where its sector is written in part, or stands
beyond a host port or the fabric (R70, R88, R487). -/
def fitMayFail (load : Bool) (locs : List Loc) (x : Loc) : Bool :=
  load || x.onHost || x.onFabric || decide ((locs.filter fun y => y.sector == x.sector).eraseDups.length < 16)

/-- A weight transfer meets an error at word `idx`: at once, or at the commit. -/
def State.fitError (s : State) (h : Nat) (w : Wave) (o : Out) (cause idx : Nat) : State :=
  match o.op with
  | .fit load _ _ _ locs =>
    match locs[idx]? with
    | none => s
    | some x =>
      if !fitMayFail load locs x then s
      else if s.detWave h then s.markBad h o.seq cause idx
      else if w.earlier o.seq o.tag then s
      else s.fitFail h o [idx]
  | _ => s

/-! ## Instructions performed whole at their slot (R106, R309) -/

/-- A scratchpad address of a level 2 place. -/
def levelTwo (key : Nat) : DWord := BitVec.ofNat 64 (0x20000000 + key % 2 ^ 25)

/-- The error of a slot's instruction at a scratchpad address (R106). -/
def Slot.errorTrap (k : Slot) (addr : DWord) (m : Mask) : Trap := { k.trap 0x20 with addr := addr, lmask := m }

/-- Lanes whose position register names slot `q`. -/
def Slot.naming (k : Slot) (a q : Nat) : Mask := maskOf (k.lanes.filter fun l => posOf (k.w.vget a l) == q)

/-- The error is taken if the slot's instruction has retired. -/
def State.afterRetired (s s' : State) (k : Slot) (t : Trap) : State :=
  match Map.find s.waves k.h, Map.find s'.waves k.h with
  | some w, some w' => if w'.qret = w.qret + 1 then s'.imprecise k.h t else s
  | _, _ => s

/-- The word of the bound catalogue that `x` names, counted from the end of the header, if the instruction reads it: its place and
the lanes it serves. -/
def State.catWord (s : State) (k : Slot) (i : Instr) (key : Nat) (c : Cat) (x : Nat) : Option (Nat × Mask) :=
  let len := catLen c.hdr
  let place := key + 64 + 4 * x
  let log := (x - 2 * len) * 2
  let lanes := fun (a : Nat) =>
    let m := k.naming a (x / 2)
    if x < 2 * len && m != 0 then some (place, m) else none
  match i with
  | .slscor _ a _ => lanes a
  | .slropn _ a => lanes a
  | .slst _ a _ => lanes a
  | .slkvc _ a => lanes a
  | .slfin _ _ =>
    let z := s.slfinCat key c none
    let n := hw c.hdr 6
    if x < 2 * len then
      (if c.scored.contains (x / 2) || (List.range (x / 2)).all fun q => isFinal (z.1.entry key none q) then some (place, k.mask) else none)
    else if n < log + 2 && log < min (n + z.2.length) len then some (place, k.mask) else none
  | .slemit _ =>
    let es := s.eligible key c none
    let cur := hw c.hdr 7 + es.length
    let next := if catEvent c.hdr then (if cur < hw c.hdr 6 then [s.num (.scr (logKey key len cur)) 2 % 2 ^ 12] else []) else [cur]
    let logs := if catEvent c.hdr then (List.range (es.length + 1)).map (hw c.hdr 7 + ·) else []
    if x < 2 * len then (if (es.map (·.1) ++ next).contains (x / 2) then some (place, k.mask) else none)
    else if logs.any fun i => decide (i < hw c.hdr 6) && (i == log || i == log + 1) then some (place, k.mask) else none
  | _ => none

/-- A slot instruction performed with a word that cannot be read. -/
def State.catRun (s : State) (k : Slot) (i : Instr) (key : Nat) (c : Cat) (bad : Option Nat) : State :=
  match i with
  | .slscor d a b => s.slscor k d a b key c bad
  | .slfin p a => s.slfin k p a key c bad
  | .slropn d a => s.slropn k d a key c bad
  | .slst d a _ => s.slst k d a key c bad
  | .slkvc d a => s.slkvc k d a key c bad
  | .slemit d => s.slemit k d key c bad
  | _ => s

/-- The vector names of a slot instruction. -/
def catNames (i : Instr) : List (Nat × Nat) :=
  match i with
  | .slscor d a b => [(0, d), (1, a), (2, b)]
  | .slfin _ a => [(1, a)]
  | .slropn d a => [(0, d), (1, a)]
  | .slst d a _ => [(0, d), (0, d + 1), (1, a)]
  | .slkvc d a => [(0, d), (1, a)]
  | _ => []

/-- A slot instruction that meets an error: in word `x` of the header, of which the unit keeps the first nine live, it completes with
no result; else in word `x` - 16 after it, whose entry is left unchanged and reported (R304, R309). An SLBIND that reads no header
meets none. -/
def State.catError (s : State) (k : Slot) (i : Instr) (x : Nat) : State :=
  match i with
  | .slbind m kd a =>
    let at_ := (k.s a).toNat
    let live := match s.scr k.ctx at_ with
      | .ok key => (Map.find s.cats key).isSome
      | .error _ => false
    if m = .unbind || at_ % 64 ≠ 0 || field at_ 31 28 ≠ 2 || (if live then 9 else 16) ≤ x then s
    else s.afterRetired (s.slbind k m kd a true) k (k.errorTrap (BitVec.ofNat 64 (at_ + 4 * x)) k.mask)
  | _ =>
    s.onCat k i (catNames i) fun key c =>
      if x < 9 then (s.finish k 4).imprecise k.h (k.errorTrap (levelTwo (key + 4 * x)) k.mask)
      else if x < 16 then s
      else match s.catWord k i key c (x - 16) with
        | some (place, m) => s.afterRetired (s.catRun k i key c (some (x - 16))) k (k.errorTrap (levelTwo place) m)
        | none => s

/-- An MLD that cannot read word `x` % 64 of lane `x` / 64: the lanes that word serves keep their matrix (R106, R286). -/
def State.mldError (s : State) (k : Slot) (md v rows cols x : Nat) : State :=
  if !k.on (x / 64) || rows * cols ≤ x % 64 then s
  else match s.matLocs k v fun _ => rows * cols with
    | .error _ => s
    | .ok locs =>
      match locs.find? (·.1 == x / 64) with
      | none => s
      | some e =>
        let key := e.2 + 4 * (x % 64)
        s.afterRetired (s.matLoad k md v rows cols (some key)) k
          (k.errorTrap ((k.w.vget v (x / 64) + BitVec.ofNat 32 (4 * (x % 64))).zeroExtend 64) (maskOf (servedBy locs (rows * cols) key)))

/-- The place of word `x` of a FITCFG's descriptor. -/
def State.fitcfgPlace (s : State) (k : Slot) (a x : Nat) : Option Loc :=
  match s.xlate k.w k.f.side k.core k.l.tenant (k.s64 a + BitVec.ofNat 64 (4 * x)) 0 with
  | .ok t p => if x < 32 then some (s.placeOf t p) else none
  | _ => none

/-- The instruction performed with the word `x` that it cannot read; none where it meets no such error. -/
def State.runBad (s : State) (i : Instr) (cause x : Nat) : Option Res :=
  match i with
  | .mld md v rows cols => if cause = 0x20 then some (issueMem s 4 fun k => s.mldError k md v rows cols x) else none
  | .slbind _ _ _ | .slscor _ _ _ | .slfin _ _ | .slropn _ _ | .slst _ _ _ | .slkvc _ _ | .slemit _ =>
    if cause = 0x20 then some (issueMem s 4 fun k => s.catError k i x) else none
  | .fitcfg d a =>
    some (issueMem s 4 fun k =>
      if (s.fitcfgPlace k a x).map Loc.errorCause = some cause then s.fitcfgRun k d a (some x) else s)
  | _ => none

/-- The instruction a slot stands at meets an error while it is performed: at once, or when the commit presents it. -/
def State.slotError (s : State) (h : Nat) (second : Bool) (cause x : Nat) : Res :=
  match s.slotOf h second with
  | none => .next s
  | some k =>
    match k.w.qstate with
    | .ended (some _) => .next (s.modWave h fun w => { w with badWord := some (cause, x) })
    | _ =>
      if !k.mayIssue || k.f.endPend then .next s
      else match s.fetch k with
        | .ok i => ({ s with cur := (h, second) }.runBad i cause x).getD (.next s)
        | _ => .next s

/-- A slot's instruction word, or a table entry on the way to it, cannot be read, at `key`: an error of the slot (R70, R88). -/
def State.fetchError (s : State) (k : Slot) (va : DWord) (key : Nat) : State :=
  s.imprecise k.h { k.trap (Loc.mem key).errorCause with
    addr := errAddr va (.mem key), paddr := (Loc.mem key).sectorPA, lmask := k.mask }

/-- An error of `cause` at part `idx` of operation `seq`, where that part stands at a place of that kind. An operation not yet
issued is the instruction of slot `idx` / 2^16 that its wave stands at; a wave not yet placed stands for the Curator and the
Milliner, whose next read of sector `seq` meets the error (R397). -/
def State.errorAt (s : State) (h seq cause idx : Nat) : Res :=
  match Map.find s.waves h with
  | none => .next (if h = s.nextWave then { s with hostBad := s.hostBad ++ [seq] } else s)
  | some w =>
    if seq = w.nextSeq then s.slotError h (idx / 2 ^ 16 == 1) cause (idx % 2 ^ 16)
    else match w.out seq with
      | none => .next s
      | some o =>
        .next (match o.op with
          | .tmov _ _ _ _ _ _ _ _ => if cause = 0x20 then s.tmovError h o idx else s
          | .tile _ _ _ _ _ _ _ => if cause = 0x20 then s.tileError h w o idx else s
          | .engine => if s.detWave h then s.markBad h seq cause idx else s
          | .fit _ _ _ _ _ => if (o.part idx).map (·.1.errorCause) = some cause then s.fitError h w o cause idx else s
          | _ => if (o.part idx).map (·.1.errorCause) = some cause then s.accessError h seq idx cause else s)

/-- MEMORY_ERROR: part `idx` of operation `seq` meets an uncorrectable error, or the error of a host port. A store meets one
only in a sector or word it merges into, or beyond a port (R70, R88, R106). -/
def execMemoryError (h seq idx : Nat) (s : State) : Res := s.errorAt h seq 0x20 idx

/-- FABRIC_ERROR: part `idx` of operation `seq` fails on the fabric (R486, R487). -/
def execFabricError (h seq idx : Nat) (s : State) : Res := s.errorAt h seq 0x21 idx

end Sys2Proof.Machine
end

