-- ==== Sys2Proof/Machine/Engines.lean ====
section
/-! DEFINITION. The copy and gather engines: checks, transfers, completions and faults of their commands
(spec/05_engines_queues_barriers.md R122-R134). -/

namespace Sys2Proof.Machine

/-! ## Fields (R122-R124) -/

/-- Word `i` of a command. -/
def Command.word (c : Command) (i : Nat) : Nat := (c.words.getD i 0).toNat
/-- DIM2 or SCAT. -/
def Command.alt (c : Command) : Bool := bitAt (c.word 0) 26
def Command.srcs (c : Command) : Bool := bitAt (c.word 0) 25
def Command.dsts (c : Command) : Bool := bitAt (c.word 0) 24
def Command.ncr (c : Command) : Bool := bitAt (c.word 0) 23
def Command.bar (c : Command) : Nat := field (c.word 0) 22 21
/-- Rows: one for a contiguous copy. -/
def Command.rows (c : Command) : Nat := if c.gather || c.alt then field (c.word 1) 31 16 else 1
/-- Bytes of a row. -/
def Command.rowBytes (c : Command) : Nat := if c.gather || c.alt then field (c.word 1) 15 0 else c.word 1
/-- The byte count of the command (R129). -/
def Command.count (c : Command) : Nat := c.rows * c.rowBytes
/-- The starting address of a side: 0 source, 1 destination. -/
def Command.start (c : Command) (side : Nat) : DWord := c.words.getD (5 + 2 * side) 0 ++ c.words.getD (4 + 2 * side) 0
/-- A side is in scratchpad. -/
def Command.scratchSide (c : Command) (side : Nat) : Bool := if side = 0 then c.srcs else c.dsts
/-- A side whose rows the index array places. -/
def Command.indexed (c : Command) (side : Nat) : Bool := c.gather && (c.alt == (side == 1))
/-- The row pitch of a side that is not indexed. -/
def Command.pitch (c : Command) (side : Nat) : Nat := if c.gather || !c.alt then c.rowBytes else c.word (2 + side)
/-- The scratchpad address of the barrier word. -/
def Command.barAddr (c : Command) : Nat := field (c.word 0) 15 0 * 8 + (if c.bar = 2 then 0x20000000 else 0)
/-- The allocations of the issuing wave. -/
def Command.ctx (c : Command) : Ctx := ⟨c.launch, c.group, c.core⟩

/-- A malformed command (R125). -/
def Command.malformed (c : Command) : Bool :=
  let w0 := c.word 0
  let scope := field w0 29 27
  field w0 20 16 != 0 || decide (5 < scope) || (scope != 0 && !bitAt w0 31 && !bitAt w0 30) || c.bar == 3 ||
  c.rows == 0 || c.rowBytes == 0 || c.rowBytes % 4 != 0 ||
  (if c.gather then c.word 3 % 4 != 0
    else if c.alt then c.word 2 % 4 != 0 || c.word 3 % 4 != 0
    else c.word 2 != 0 || c.word 3 != 0) ||
  (c.srcs && c.word 5 != 0) || (c.dsts && c.word 7 != 0)

/-! ## Checks before anything moves (R126) -/

/-- A fault of a command (R133). -/
structure EngFail where
  status : Nat
  reason : Nat := 0
  side : Nat := 0
  faddr : DWord := 0
  paddr : DWord := 0
  /-- nothing of the side is written: its address reaches nothing (R487) -/
  nothing : Bool := false
  deriving DecidableEq, Repr

/-- The bytes a side spans, when the command fixes it. -/
def Command.extent (c : Command) (side : Nat) : Nat := (c.rows - 1) * c.pitch side + c.rowBytes

/-- Step 2. -/
def Command.alignment (c : Command) : Option EngFail :=
  if (c.start 0).toNat % 4 ≠ 0 then some { status := 4, side := 0, faddr := c.start 0 }
  else if (c.start 1).toNat % 4 ≠ 0 then some { status := 4, side := 1, faddr := c.start 1 }
  else if c.gather && c.word 2 % 4 ≠ 0 then some { status := 4, side := 2, faddr := BitVec.ofNat 64 (c.word 2) }
  else none

/-- One range of step 3. -/
def State.engRange (s : State) (c : Command) (side a n : Nat) : Option EngFail :=
  match s.scrRange c.ctx a n with
  | .ok _ => none
  | .error r => some { status := 3, reason := r, side := side, faddr := BitVec.ofNat 64 a }

/-- Step 3. -/
def State.engRanges (s : State) (c : Command) : Option EngFail :=
  let side := fun (n : Nat) => if c.scratchSide n && !c.indexed n then s.engRange c n (c.start n).toNat (c.extent n) else none
  (side 0).or ((side 1).or ((if c.gather then s.engRange c 2 (c.word 2) (4 * c.rows) else none).or
    (if c.bar = 0 then none else s.engRange c 3 c.barAddr 8)))

/-- The place of index word `j`. -/
def State.indexKey (s : State) (c : Command) (j : Nat) : Nat :=
  match s.scr c.ctx (c.word 2 + 4 * j) with
  | .ok key => key
  | .error _ => 0

/-- The address of a word of row `j` of a side (R124). -/
def State.engAddr (s : State) (c : Command) (side j off : Nat) : DWord :=
  if c.indexed side then
    c.start side + BitVec.ofNat 64 (s.num (.scr (s.indexKey c j)) 4 * c.word 3 + off)
  else c.start side + BitVec.ofNat 64 (j * c.pitch side + off)

/-- The word addresses of a command, row by row. -/
def State.engWords (s : State) (c : Command) : List (DWord × DWord) :=
  (List.range c.rows).flatMap fun j => (List.range (c.rowBytes / 4)).map fun i => (s.engAddr c 0 j (4 * i), s.engAddr c 1 j (4 * i))

/-- The scratchpad places of a side's words that exist. -/
def State.engPlaces (s : State) (c : Command) (as : List DWord) : List Nat :=
  as.filterMap fun a => match s.scrRange c.ctx a.toNat 4 with
    | .ok key => some key
    | .error _ => none

/-- Step 4: two scratchpad sides share a byte. -/
def State.engOverlap (s : State) (c : Command) : Option EngFail :=
  if c.srcs && c.dsts then
    let ws := s.engWords c
    let src := s.engPlaces c (ws.map (·.1))
    if (s.engPlaces c (ws.map (·.2))).any (src.contains ·) then some { status := 3, reason := 4, side := 1, faddr := c.start 1 } else none
  else none

/-- Steps 1 to 4. -/
def State.engCheck (s : State) (c : Command) : Option EngFail :=
  if c.malformed then some { status := 1 } else c.alignment.or ((s.engRanges c).or (s.engOverlap c))

/-! ## The transfer (R126 step 5, R127) -/

/-- What resolving the words of a transfer comes to: the places of those before the first that fails or must wait. -/
structure EngMoves where
  s : State
  places : List (Loc × Loc) := []
  fail : Option EngFail := none
  wait : Bool := false

/-- An error of a memory place: status 6 on the fabric, 5 elsewhere with the sector's physical address (R133, R486). -/
def Loc.engError (x : Loc) (side : Nat) (a : DWord) : EngFail :=
  if x.onFabric then { status := 6, side := side, faddr := a }
  else { status := 5, side := side, faddr := a, paddr := x.sectorPA }

/-- A scratchpad row of an indexed side: the whole row in the side's own level (R126). An address of 2^32 or more names what its low
word does (R124; log 70). -/
def State.engRow (s : State) (c : Command) (side j : Nat) : Except EngFail Nat :=
  let row := (s.engAddr c side j 0).toNat % 2 ^ 32
  let fail := fun (r : Nat) => Except.error ({ status := 3, reason := r, side := side, faddr := BitVec.ofNat 64 row } : EngFail)
  match s.scrRange c.ctx row c.rowBytes with
  | .error r => fail r
  | .ok key => if field row 31 28 = field (c.start side).toNat 31 28 then .ok key else fail 3

/-- The place of the word at offset `off` of row `j` of a side: a fault, or none while a walk is awaited. A host port whose
link is down, and a fabric address that reaches nothing, are errors (R70, R479, R487). -/
def State.engPlace (s : State) (c : Command) (side j off : Nat) : State × Option (Except EngFail Loc) :=
  let a := s.engAddr c side j off
  if c.scratchSide side then
    (s, some (if c.indexed side then (match s.engRow c side j with
        | .ok key => .ok (.scr (key + off))
        | .error f => .error f)
      else match s.scrRange c.ctx a.toNat 4 with
        | .ok key => .ok (.scr key)
        | .error r => .error { status := 3, reason := r, side := side, faddr := BitVec.ofNat 64 (a.toNat % 2 ^ 32) }))
  else
    let r := s.engXlate c.wave c.out (c.core / 192) c.tenant a side
    match r.2 with
    | .ok t p =>
      let x := r.1.placeOf t p
      (r.1, some (if r.1.reaches c.tenant x then .ok x
        else if x.onFabric && side == 1 then .error { (x.engError side a) with nothing := true }
        else .error (x.engError side a)))
    | .fault reason _ => (r.1, some (.error { status := 2, reason := reason, side := side, faddr := a }))
    | .error key => (r.1, some (.error ((Loc.mem key).engError side a)))
    | .miss => (r.1, none)

/-- The words of a command, row by row: row and offset. -/
def Command.steps (c : Command) : List (Nat × Nat) :=
  (List.range c.rows).flatMap fun j => (List.range (c.rowBytes / 4)).map fun i => (j, 4 * i)

/-- The words resolved in order. -/
def State.engResolve (c : Command) : List (Nat × Nat) → EngMoves → EngMoves
  | [], m => m
  | a :: r, m =>
    let x := m.s.engPlace c 0 a.1 a.2
    match x.2 with
    | none => { m with s := x.1, wait := true }
    | some (.error f) => { m with s := x.1, fail := some f }
    | some (.ok src) =>
      let y := x.1.engPlace c 1 a.1 a.2
      match y.2 with
      | none => { m with s := y.1, wait := true }
      | some (.error f) => { m with s := y.1, fail := some f }
      | some (.ok dst) => engResolve c r { m with s := y.1, places := m.places ++ [(src, dst)] }

/-- Words moved one after another. -/
def State.moveEach (s : State) (ps : List (Loc × Loc)) : State := ps.foldl (fun s p => s.putNum p.2 (s.num p.1 4) 4) s
/-- Words moved with every source read first. -/
def State.moveAtOnce (s : State) (ps : List (Loc × Loc)) : State :=
  (ps.map fun p => (p.2, s.num p.1 4)).foldl (fun s e => s.putNum e.1 e.2 4) s

/-- An open value for a command: a fresh one, or in a deterministic launch one that every run draws alike (log 2, R461). -/
def State.engDraw (s : State) (c : Command) : State × Nat :=
  if ((Map.find s.launches c.launch).map (·.block.det)) == some true then
    let id := ((Map.find s.waves c.wave).map (·.waveid.toNat)).getD 0
    (s, (Config.freeWord (2 ^ 64 + id * 2 ^ 33 + bit c.gather * 2 ^ 32 + c.seqNo.toNat)).toNat)
  else s.draw

/-- The words moved; where a destination is also a source the spec states no order, and an open value decides between two
(log 2). Where a byte is written more than once the later row supplies it, as R127 gives for a scatter (log 58). -/
def State.engMove (s : State) (c : Command) (ps : List (Loc × Loc)) : State :=
  if ps.any fun p => ps.any fun q => p.2 == q.1 then
    let d := s.engDraw c
    if d.2 % 2 = 0 then d.1.moveEach ps else d.1.moveAtOnce ps
  else s.moveEach ps

/-! ## Ends (R129, R130, R133) -/

/-- A completion record (R133). -/
def engRecord (c : Command) (f : EngFail) (bytes : Nat) : List Word :=
  [BitVec.ofNat 32 (f.side * 2 ^ 16 + f.reason * 2 ^ 8 + f.status), c.seqNo, f.faddr.truncate 32, (f.faddr >>> 32).truncate 32,
    f.paddr.truncate 32, (f.paddr >>> 32).truncate 32, BitVec.ofNat 32 bytes, 0]

/-- CP falls, and the record is posted when it is due. -/
def State.engEnd (s : State) (c : Command) (f : EngFail) (bytes : Nat) : State :=
  let s1 := (s.modWave c.wave (·.complete c.out)).dropXunit c.wave c.out
  if c.ncr && f.status == 0 then s1 else s1.postRecord c.wave (if c.gather then 3 else 1) (engRecord c f bytes)

/-- The barrier arrival of a command that succeeded, an event of drained phases (R129, R151). -/
def State.engArrive (s : State) (c : Command) : State :=
  if c.bar = 0 then s
  else match s.scr c.ctx c.barAddr with
    | .ok place => (s.barrier place (·.arrive c.count)).phaseEvent 2 place
    | .error _ => s

/-- A command that succeeded. -/
def engDone (c : Command) (m : EngMoves) : State :=
  ((m.s.engMove c m.places).engArrive c).engEnd c { status := 0 } c.count

/-- A command that met a fault after its first words. -/
def engFailed (c : Command) (m : EngMoves) (f : EngFail) : State :=
  if f.nothing then m.s.engEnd c f 0 else (m.s.moveEach m.places).engEnd c f (4 * m.places.length)

/-- The memory error a command may meet at word `n` on a side (R126, R133): a source or index word, a memory sector that the
write merges into or that stands beyond a port, or the barrier word once all has moved. -/
def State.engErrorAt (s : State) (c : Command) (n side : Nat) : Option EngFail :=
  let place := fun (side : Nat) (w : Nat × Nat) => match (s.engPlace c side w.1 w.2).2 with
    | some (.ok x) => some (x.engError side (s.engAddr c side w.1 w.2))
    | _ => none
  match c.steps[n]?, side with
  | some w, 0 => place 0 w
  | some w, 1 => if c.dsts then none else place 1 w
  | some w, 2 => if c.gather then some { status := 5, side := 2, faddr := BitVec.ofNat 64 (c.word 2 + 4 * w.1) } else none
  | none, 3 => if c.bar ≠ 0 && n = c.steps.length then some { status := 5, side := 3, faddr := BitVec.ofNat 64 c.barAddr } else none
  | _, _ => none

/-- A command as it ends in a fault of its own, or in a memory error on side `written` % 4, after `written` / 4 words; the
second result says that it has. A walk it waits for is asked for (R126, R130). -/
def State.engFaultAt (s : State) (c : Command) (written : Nat) : State × Bool :=
  match s.engCheck c with
  | some f => (s.engEnd c f 0, true)
  | none =>
    let n := written / 4
    let m := State.engResolve c (c.steps.take n) { s := s }
    if m.wait then (m.s, false)
    else if m.fail.isSome then (s, false)
    else
      let x := State.engResolve c ((c.steps.drop n).take 1) { s := m.s }
      if x.wait then (x.s, false)
      else match x.fail.or (m.s.engErrorAt c n (written % 4)) with
        | some f => (engFailed c { m with s := x.s } f, true)
        | none => (s, false)

/-- A whole command without an error from outside; in error while a walk is awaited. -/
def State.engPlain (s : State) (c : Command) : Except State State :=
  match s.engCheck c with
  | some f => .ok (s.engEnd c f 0)
  | none =>
    let m := State.engResolve c c.steps { s := s }
    match m.fail with
    | some f => .ok (engFailed c m f)
    | none => if m.wait then .error m.s else .ok (engDone c m)

/-- A whole command as a deterministic commit performs it (R454), with the error in `bad` that it is to meet. -/
def State.engRun (s : State) (c : Command) (bad : List (Nat × Nat)) : Except State State :=
  match bad with
  | [] => s.engPlain c
  | (_, written) :: _ =>
    let r := s.engFaultAt c written
    if r.2 then .ok r.1 else s.engPlain c

/-! ## Steps -/

/-- The key of an engine of a cluster: 0 to 7 copy, 8 gather. -/
def engineKey (cluster engine : Nat) : Nat := cluster * 9 + engine

/-- The oldest command of an intake goes to a free engine, when it has the form asked for; a waiting push is admitted
(R121, R131). -/
def State.dispatch (s : State) (cluster engine : Nat) (gather alt : Bool) : State :=
  match s.intake (intakeKey cluster gather) with
  | [] => s
  | c :: r =>
    if c.alt ≠ alt || (Map.find s.engines (engineKey cluster engine)).isSome || (gather != (engine == 8)) || 8 < engine then s
    else
      ({ s with intakes := Map.put s.intakes (intakeKey cluster gather) r
                engines := Map.put s.engines (engineKey cluster engine) { c with started := true } }).admitCommand cluster gather

/-- COPY_COMMAND (R123, R131). -/
def execCopyCommand (cluster engine : Nat) (s : State) : Res := .next (s.dispatch cluster engine false false)
/-- RECTANGLE_COPY_COMMAND (R123, R131). -/
def execRectangleCopyCommand (cluster engine : Nat) (s : State) : Res := .next (s.dispatch cluster engine false true)
/-- GATHER_COMMAND (R124, R131). -/
def execGatherCommand (cluster : Nat) (s : State) : Res := .next (s.dispatch cluster 8 true false)
/-- SCATTER_COMMAND (R124, R131). -/
def execScatterCommand (cluster : Nat) (s : State) : Res := .next (s.dispatch cluster 8 true true)

/-- The command of an engine, once the earlier accesses of its slot have performed (R128). -/
def State.running (s : State) (cluster engine : Nat) : Option Command :=
  match Map.find s.engines (engineKey cluster engine) with
  | none => none
  | some c =>
    match Map.find s.waves c.wave with
    | some w => if w.earlier c.out c.tag then none else some c
    | none => some c

/-- An engine is free again. -/
def State.freeEngine (s : State) (cluster engine : Nat) : State :=
  { s with engines := Map.erase s.engines (engineKey cluster engine) }

/-- ENGINE_COMMAND_COMPLETION: a command without a fault moves its words and completes (R126-R129); a walk it waits for is
asked for. -/
def execEngineCommandCompletion (cluster engine : Nat) (s : State) : Res :=
  match s.running cluster engine with
  | none => .next s
  | some c =>
    if (s.engCheck c).isSome then .next s
    else
      let m := State.engResolve c c.steps { s := s }
      if m.wait then .next m.s
      else if m.fail.isSome then .next s
      else .next ((engDone c m).freeEngine cluster engine)

/-- ENGINE_COMMAND_FAULT: a command fails its checks, or meets a fault after `written` / 4 words; the low two bits name the
side of a memory error (R126, R130). -/
def execEngineCommandFault (cluster engine written : Nat) (s : State) : Res :=
  match s.running cluster engine with
  | none => .next s
  | some c =>
    let r := s.engFaultAt c written
    .next (if r.2 then r.1.freeEngine cluster engine else r.1)

end Sys2Proof.Machine
end

