-- ==== Sys2Proof/Machine/Rings.lean ====
section
/-! DEFINITION. Command rings: the merge order, acceptance by sequence number and completions, in buffers of host memory
(spec/25_host_and_fabric.md R477-R480, R483). Descriptors and ring layouts are virtio's own (log 9). -/

namespace Sys2Proof.Machine

/-- The virtqueue `vq` of device `dev`, at its reset values where nothing has set it (R482). -/
def State.vq (s : State) (dev vq : Nat) : Vq :=
  ((Map.find s.devs dev).bind fun d => Map.find d.vqs vq).getD { lq := if dev = 32 then 0 else 63 - vq }

/-- A virtqueue replaced. -/
def State.putVq (s : State) (dev vq : Nat) (q : Vq) : State :=
  { s with devs := Map.modify s.devs dev fun d => { d with vqs := Map.put d.vqs vq q } }

/-- The management device's number. -/
def mgmt : Nat := 32

/-- A command ring: 3 to 63 of a tenant device, 0 of the management device (R475). -/
def isRing (dev vq : Nat) : Bool := if dev = mgmt then vq == 0 else decide (3 ≤ vq) && decide (vq ≤ 63)

/-- A command at the head of a ring: its words as host memory holds them, and its completion buffer. -/
structure Cmd where
  dev : Nat
  vq : Nat
  port : Nat
  words : List Word
  comp : Buf
  deriving DecidableEq, Repr

/-- A place of host memory. -/
def hostLoc (a : Nat) : Loc := .mem (memKey 2 (a % 2 ^ 52))

/-- `n` bytes of host memory. -/
def State.hostBytes (s : State) (a n : Nat) : List Byte := s.bytes (hostLoc a) n

/-- Words written into a buffer of host memory, low byte first, as far as it reaches (R2). -/
def State.putBuf (s : State) (b : Buf) (ws : List Word) : State :=
  s.pokes (placeBytes (hostLoc b.1) ((ws.flatMap fun w => bytesOfNat w.toNat 4).take b.2))

/-- A word of the command. -/
def Cmd.c (x : Cmd) (i : Nat) : Word := x.words.getD i 0
/-- A pair of words. -/
def Cmd.c64 (x : Cmd) (i : Nat) : DWord := x.c (i + 1) ++ x.c i
/-- OPC. -/
def Cmd.opc (x : Cmd) : Nat := (x.c 0).toNat % 2 ^ 16
/-- SEQ. -/
def Cmd.seq (x : Cmd) : Word := x.c 1

/-- The command a logical queue's thread takes next once it has been woken: of the lowest ring above its cursor that holds one,
else of the lowest (R476, R477). -/
def State.nextCmd (s : State) (lq : Nat) : Option Cmd :=
  let rings := if !s.awake.contains lq then [] else s.devs.flatMap fun d => d.2.vqs.filterMap fun q =>
    match q.2.avail with
    | b :: _ =>
      if q.2.enabled && q.2.lq == lq && isRing d.1 q.1 then
        some ({ dev := d.1, vq := q.1, port := q.2.port, words := wordsOfBytes (s.hostBytes b.1.1 b.1.2), comp := b.2 } : Cmd)
      else none
    | [] => none
  match Map.find s.cursors lq with
  | some c => match rings.find? fun x => decide (c < x.vq) with
    | some x => some x
    | none => rings.head?
  | none => rings.head?

/-- The command leaves its ring and the cursor moves to it (R477). -/
def State.take (s : State) (lq : Nat) (x : Cmd) : State :=
  let q := s.vq x.dev x.vq
  { s.putVq x.dev x.vq { q with avail := q.avail.tail } with cursors := Map.put s.cursors lq x.vq }

/-- The words of a completion (R478). -/
def completion (status : Nat) (seq : Word) (fid : Nat) (sig : List Word) : List Word :=
  [BitVec.ofNat 32 status, seq, BitVec.ofNat 32 fid, 0, 0, 0, 0, 0] ++ (if sig.isEmpty then List.replicate 16 0 else sig)

/-- CMP moves up over completed commands (R480). -/
def Vq.settle : Nat → Vq → Vq
  | 0, q => q
  | n + 1, q => if q.ahead.contains (q.cmp + 1) then Vq.settle n { q with cmp := q.cmp + 1, ahead := q.ahead.erase (q.cmp + 1) } else q

/-- A completion written into a command's buffer, and the buffer given back: 96 bytes, or what a shorter one takes (R478). -/
def State.putUsed (s : State) (dev vq : Nat) (b : Buf) (k : List Word) : State :=
  let s1 := s.putBuf b k
  let q := s1.vq dev vq
  s1.putVq dev vq { q with used := q.used ++ [(b.1, min b.2 (4 * k.length))] }

/-- Held completions are written, in order, into the buffers that the driver has made available (R483). -/
def State.flushHeld (s : State) (dev vq : Nat) : Nat → State
  | 0 => s
  | fuel + 1 =>
    let q := s.vq dev vq
    match q.heldUsed, q.bufs with
    | k :: ks, b :: bs =>
      if q.enabled then
        ((s.putVq dev vq { q with heldUsed := ks, bufs := bs }).putUsed dev vq b k).flushHeld dev vq fuel
      else s
    | _, _ => s

/-- Completions that wait for a buffer of a virtqueue and can have one get it. -/
def State.flushVq (s : State) (dev vq : Nat) : State := s.flushHeld dev vq (s.vq dev vq).heldUsed.length

/-- An accepted command completes: into its buffer, or, where the virtqueue has been reset since, into one that the new driver
makes available (R478, R480, R483); one whose device has been reset completes nowhere. -/
def State.complete (s : State) (ring : Nat × Nat) (seq : Word) (status : Nat) (fid : Nat := 0) (sig : List Word := []) : State :=
  let q := s.vq ring.1 ring.2
  match q.running.find? fun e => e.1 == seq with
  | none => s
  | some (_, b) =>
    let k := completion status seq fid sig
    let q1 := { q with running := q.running.filter fun e => e.1 != seq, ahead := q.ahead ++ [seq] }
    let s1 := s.putVq ring.1 ring.2 (q1.settle q1.ahead.length)
    match b with
    | some b => s1.putUsed ring.1 ring.2 b k
    | none => (s1.putVq ring.1 ring.2 { s1.vq ring.1 ring.2 with heldUsed := (s1.vq ring.1 ring.2).heldUsed ++ [k] }).flushVq ring.1 ring.2

/-- Which opcodes a device accepts (R479). -/
def known (dev opc : Nat) : Bool :=
  if dev = mgmt then decide (0x80 ≤ opc) && decide (opc ≤ 0x86) else decide (1 ≤ opc) && decide (opc ≤ 6)

/-- The command is taken, and accepted if its SEQ is the next one; any other completes with status 34 and changes nothing
(R480). -/
def State.accept (s : State) (lq : Nat) (x : Cmd) (f : State → Res) : Res :=
  let s1 := s.take lq x
  let q := s1.vq x.dev x.vq
  if x.seq ≠ q.acc + 1 then .next (s1.putUsed x.dev x.vq x.comp (completion 34 x.seq 0 []))
  else f (s1.putVq x.dev x.vq { q with acc := x.seq, running := q.running ++ [(x.seq, some x.comp)] })

/-- A command answered at once. -/
def State.answer (s : State) (x : Cmd) (status : Nat) : Res := .next (s.complete (x.dev, x.vq) x.seq status)

/-- Words of a command outside what its opcode names: C0 and C1, then `masks` by word (R479). -/
def Cmd.reserved (x : Cmd) (need : Nat) (masks : List (Nat × Word)) : Bool :=
  decide (x.words.length < need) || (x.c 0).toNat / 2 ^ 16 != 0 ||
    (List.range x.words.length).any fun i => decide (2 ≤ i) && (x.c i &&& ~~~(((masks.find? fun e => e.1 == i).map (·.2)).getD 0)) != 0

/-- Every bit of words `a` to `b`. -/
def fullWords (a b : Nat) : List (Nat × Word) := (List.range (b + 1 - a)).map fun i => (a + i, 0xFFFFFFFF)

/-- The course of one opcode's commands: the thread's next command, if it is one; acceptance; the port semaphore for the
management opcodes that need it; the words and the completion buffer of 96 bytes (R478-R480, R484). -/
def State.command (s : State) (lq opc need : Nat) (masks : List (Nat × Word)) (f : Cmd → State → Res) : Res :=
  match s.nextCmd lq with
  | none => .next s
  | some x =>
    if x.opc ≠ opc || !known x.dev opc then .next s
    else s.accept lq x fun s1 =>
      if 0x80 ≤ opc && opc ≠ 0x86 && s.psem ≠ x.port + 1 then s1.answer x 35
      else if x.comp.2 < 96 || x.reserved need masks then s1.answer x 33
      else f x s1

/-- UNKNOWN_OPCODE_COMMAND: status 32 (R478, R479). -/
def execUnknownOpcodeCommand (lq : Nat) (s : State) : Res :=
  match s.nextCmd lq with
  | none => .next s
  | some x => if known x.dev x.opc then .next s else s.accept lq x fun s1 => s1.answer x 32

end Sys2Proof.Machine
end

