-- ==== Sys2Proof/Machine/Sha3.lean ====
section
/-! DEFINITION. SHA3-512 (spec/01_the_module.md R19, spec/23_deterministic_execution.md R460): the function of FIPS 202, which
the spec names (log 14). -/

namespace Sys2Proof.Machine

/-- The 25 lanes, lane (x, y) at index x + 5 y. -/
abbrev Keccak := List DWord

def Keccak.at (a : Keccak) (x y : Nat) : DWord := a.getD (x % 5 + 5 * (y % 5)) 0

/-- Lanes given by their coordinates. -/
def keccakOf (f : Nat → Nat → DWord) : Keccak := (List.range 25).map fun i => f (i % 5) (i / 5)

def keccakTheta (a : Keccak) : Keccak :=
  let c := (List.range 5).map fun x => a.at x 0 ^^^ a.at x 1 ^^^ a.at x 2 ^^^ a.at x 3 ^^^ a.at x 4
  keccakOf fun x y => a.at x y ^^^ c.getD ((x + 4) % 5) 0 ^^^ (c.getD ((x + 1) % 5) 0).rotateLeft 1

/-- Rotation of each lane, by index. -/
def keccakRot : List Nat :=
  [0, 1, 62, 28, 27, 36, 44, 6, 55, 20, 3, 10, 43, 25, 39, 41, 45, 15, 21, 8, 18, 2, 61, 56, 14]

/-- Rho and pi: lane (x, y) comes from (x + 3 y, x). -/
def keccakRhoPi (a : Keccak) : Keccak :=
  keccakOf fun x y => (a.at (x + 3 * y) x).rotateLeft (keccakRot.getD ((x + 3 * y) % 5 + 5 * x) 0)

def keccakChi (a : Keccak) : Keccak := keccakOf fun x y => a.at x y ^^^ (~~~(a.at (x + 1) y) &&& a.at (x + 2) y)

/-- The round constants. -/
def keccakRC : List DWord :=
  [0x0000000000000001, 0x0000000000008082, 0x800000000000808A, 0x8000000080008000, 0x000000000000808B, 0x0000000080000001,
   0x8000000080008081, 0x8000000000008009, 0x000000000000008A, 0x0000000000000088, 0x0000000080008009, 0x000000008000000A] ++
  [0x000000008000808B, 0x800000000000008B, 0x8000000000008089, 0x8000000000008003, 0x8000000000008002, 0x8000000000000080,
   0x000000000000800A, 0x800000008000000A, 0x8000000080008081, 0x8000000000008080, 0x0000000080000001, 0x8000000080008008]

def keccakRound (a : Keccak) (rc : DWord) : Keccak :=
  let b := keccakChi (keccakRhoPi (keccakTheta a))
  b.set 0 (b.getD 0 0 ^^^ rc)

def keccakF (a : Keccak) : Keccak := keccakRC.foldl keccakRound a

/-- Absorbs blocks of 72 bytes. -/
def keccakAbsorb : Nat → Keccak → List Byte → Keccak
  | 0, a, _ => a
  | n + 1, a, bs =>
    let block := bs.take 72
    let a1 := keccakOf fun x y =>
      a.at x y ^^^ (if x + 5 * y < 9 then BitVec.ofNat 64 (wordOfBytes ((block.drop (8 * (x + 5 * y))).take 8)) else 0)
    keccakAbsorb n (keccakF a1) (bs.drop 72)

/-- SHA3-512 of a list of bytes. -/
def sha3 (bs : List Byte) : List Byte :=
  let n := bs.length / 72 + 1
  let pad := n * 72 - bs.length
  let tail : List Byte := if pad = 1 then [0x86] else [0x06] ++ List.replicate (pad - 2) 0 ++ [0x80]
  ((keccakAbsorb n (List.replicate 25 0) (bs ++ tail)).take 8).flatMap fun l => bytesOfNat l.toNat 8

end Sys2Proof.Machine
end

