-- ==== Sys2Proof/Machine/Traps.lean ====
section
/-! DEFINITION. TRAP, URET, UIMASK and the delivery of user interrupts (spec/22_traps_and_preemption.md R427-R433,
R441-R443). Taking a trap itself stands in Ops.lean. -/

namespace Sys2Proof.Machine

/-- TRAP: it retires, and then User Trap is raised with its code (R441). -/
def execTrap (code : Nat) (s : State) : Res :=
  issue s 4 fun k =>
    ((s.finish k 4).settleLoops k.h k.second 4).raise k.h k.second k.l.block.code
      { k.trap 0x11 with w12 := BitVec.ofNat 32 code } code true

/-- URET: the checks of R432, then back to CODE + UIPC (R442). -/
def execUret (s : State) : Res :=
  issueJump s 4 fun k =>
    let pc := k.l.block.code + (k.csr 0x012).zeroExtend 64
    if !k.w.inH then s.trap k (k.trap 0x02 7)
    else if k.w.stack.length ≠ k.w.hdepth || k.w.hloops.length ≠ k.w.hhloop then s.trap k (k.trap 0x02 6)
    else if pc.toNat % 4 ≠ 0 then s.trap k (k.laneTrap 0x06 0 0 [(0, pc)] true)
    else (s.modWave k.h fun w => { w with inH := false }).jump k pc

/-- EN after UIMASK (R443). -/
def maskedEn (op : MaskOp) (en bits : Word) : Word :=
  match op with
  | .write => bits
  | .set => en ||| bits
  | .clr => en &&& ~~~bits

/-- UIMASK: the old EN and its change in one step (R443). -/
def execUimask (d : Nat) (op : MaskOp) (bits : Nat) (s : State) : Res :=
  issue s 4 fun k =>
    let en := k.csr 0x013 &&& 0x7F
    if k.room 2 then (s.write k [(.s d, en), (.csr 0x013, maskedEn op en (BitVec.ofNat 32 bits))]).finish k 4 else s

/-! ## User interrupts (R431, R433) -/

/-- A user interrupt reaches a wave: eight wait, a ninth is counted in LOST. -/
def Wave.interrupt (w : Wave) (source payload : Nat) : Wave :=
  if w.pending.length < 8 then { w with pending := w.pending ++ [(source, payload % 2 ^ 16)] }
  else { w with lost := min 255 (w.lost + 1) }

/-- The interrupt that the wave's first slot would take at this boundary: none after an instruction that executes again for
its remaining lanes (R87), nor before an end check that is due. -/
def Wave.interruptDue (w : Wave) : Option (Frag × Nat × Nat × List (Nat × Nat)) :=
  match w.first, w.pending with
  | some f, (source, payload) :: r =>
    if w.uivec.getLsbD 0 && bitAt w.en 0 && !w.inH && w.stop.isNone && !f.endPend && f.again.isNone then
      some (f, source, payload, r)
    else none
  | _, _ => none

/-- The first slot of a wave takes a pending interrupt, if one is due: the instruction it waits in has not retired. -/
def State.deliverInterrupt (s : State) (h : Nat) (code : DWord) : State :=
  match (Map.find s.waves h).bind fun w => w.interruptDue.map fun e => (w, e) with
  | none => s
  | some (w, f, source, payload, r) =>
    ((s.unwait h f.side).detach h).setWave h (({ w.letGo with pending := r }).enter false f code f.pc 0x12 source payload)

/-- USER_INTERRUPT: delivery at a boundary of the first slot; in a deterministic launch only at the commit (R431, R454). -/
def execUserInterrupt (wave : Nat) (s : State) : Res :=
  match s.slotOf wave false with
  | none => .next s
  | some k => if k.mayIssue && !k.det then .next (s.deliverInterrupt wave k.l.block.code) else .next s

end Sys2Proof.Machine
end

