-- ==== Sys2Proof/Machine/Sysc.lean ====
section
/-! DEFINITION. SYSC and the functions of the Milliner, the resolution of faults, and translation invalidation
(spec/22_traps_and_preemption.md R438-R441, spec/03_device_memory.md R76). -/

namespace Sys2Proof.Machine

/-! ## Memory as the Milliner and the Curator reach it: by a fresh walk, at system scope -/

/-- The place of a byte of a tenant's memory, by a walk of its tables that fills no cache (log 13). -/
def State.hostXlate (s : State) (tenant : Nat) (va : DWord) (need : Nat) : State × Option Loc :=
  if !canonical va then (s, none)
  else match Map.find s.tenants tenant with
    | none => (s, none)
    | some t =>
      let r := s.walkFrom tenant (va.toNat / 4096) 0 t.rootTier t.rootPA 5
      match r.2.1 with
      | .leaf t entry =>
        if t.permits need && decide (t.phys va < tierCapacity t.tier) then
          let s1 := r.1.useLeaf entry (needsWrite need)
          let x := s1.placeOf t.tier (t.phys va)
          if s1.reaches tenant x then (s1, some x) else (s1, none)
        else (r.1, none)
      | _ => (r.1, none)

/-- The places of `n` bytes from a virtual address, a page at a time; none where one cannot be reached. -/
def State.hostPlaces (s : State) (tenant need : Nat) : Nat → DWord → Nat → State × Option (List Loc)
  | 0, _, n => (s, if n = 0 then some [] else none)
  | fuel + 1, va, n =>
    if n = 0 then (s, some [])
    else
      let here := min n (4096 - va.toNat % 4096)
      let r := s.hostXlate tenant va need
      match r.2 with
      | none => (r.1, none)
      | some x =>
        let q := r.1.hostPlaces tenant need fuel (va + BitVec.ofNat 64 here) (n - here)
        (q.1, q.2.map fun xs => (List.range here).map x.add ++ xs)

/-- `n` bytes of a tenant's memory; none where a page or a sector cannot be read (R88, R397). -/
def State.hostRead (s : State) (tenant : Nat) (va : DWord) (n : Nat) : State × Option (List Byte) :=
  let r := s.hostPlaces tenant 0 (n / 4096 + 2) va n
  match r.2 with
  | none => (r.1, none)
  | some xs =>
    let met := fun (b : Nat) => xs.any fun x => x.key / 64 == b
    if r.1.hostBad.any met then ({ r.1 with hostBad := r.1.hostBad.filter fun b => !met b }, none) else (r.1, some (xs.map r.1.byte))

/-- Bytes written to a tenant's memory; nothing where a page cannot be written. -/
def State.hostWrite (s : State) (tenant : Nat) (va : DWord) (bs : List Byte) : State × Bool :=
  let r := s.hostPlaces tenant 1 (bs.length / 4096 + 2) va bs.length
  match r.2 with
  | some xs => (r.1.pokes (xs.zip bs), true)
  | none => (r.1, false)

/-! ## Ending waves (R191, R441) -/

/-- The approximable-region levels of a stack, with their captured lanes. -/
def openRegions : List Level → List (Level × Mask)
  | .apxMasks cap _ :: .apxAddr a b c d e f :: r => (.apxAddr a b c d e f, cap) :: openRegions r
  | _ :: r => openRegions r
  | [] => []

/-- A wave is ended where it stands, without a save: what it has issued goes on (R441, R442). -/
def State.endWave (s : State) (h : Nat) : State :=
  match Map.find s.waves h with
  | none => s
  | some w =>
    let s1 := s.closeRegions h ((s.coreOf h).getD 0) (s.detWave h) 0 (openRegions w.stack)
    let s2 := (s1.detach h).modWave h fun w =>
      { w.letGo with first := none, second := none, stack := [], hloops := [], held := [], stop := none, errs := [], gateWait := [] }
    ({ s2 with syscs := s2.syscs.filter fun e => e.2.wave != h }).waveOver h

/-- A group stops and drains, to end without a save; a saved one is no longer to be restored (R441). -/
def State.endGroup (s : State) (g : Nat) : State :=
  match Map.find s.groups g with
  | none => s
  | some x =>
    let s1 := (x.waves.foldl (fun s h => s.endWave h) s).modGroup g fun y =>
      { y with life := if y.life = .saved then .retired else .ending }
    if x.life = .saved && !(s1.groups.any fun e => e.2.launch == x.launch && e.2.gang == x.gang && e.2.life == .saved) then
      s1.modLaunch x.launch fun l => { l with pend := l.pend.filter fun p => p.gang != x.gang }
    else s1

/-! ## Resolving a fault (R438, R440, R441) -/

/-- The wave of a tenant whose fault has an identifier. -/
def State.faulted (s : State) (tenant : Nat) (fid : Word) : Option (Nat × Wave × Stop) :=
  s.waves.findSome? fun e => match e.2.stop with
    | some t => if t.fid = fid.toNat && t.fid ≠ 0 && t.route ≠ .killing && s.tenantOf e.1 == tenant then some (e.1, e.2, t) else none
    | none => none

/-- The wave runs again: the next error that waited for a boundary is taken at once (R88). -/
def State.runOn (s : State) (h : Nat) (w : Wave) : State :=
  let s1 := s.setWave h { w with stop := none, errs := w.errs.tail }
  match w.errs with
  | t :: _ => s1.imprecise h t
  | [] => s1

/-- A fault is no longer pending: its record is not queued for a handler group any more. -/
def State.settled (s : State) (h fid : Nat) : State :=
  match s.launchOf h with
  | some (l, _) => s.modLaunch l fun x => { x with handlerQueue := x.handlerQueue.filter (· != fid) }
  | none => s

/-- The instruction a slot stands at as the Milliner reads it: a translation that is not cached is walked for at once (R440,
log 13). -/
def State.codeAt (s : State) (k : Slot) : Nat → State × Fetched
  | 0 => (s, s.fetch k)
  | fuel + 1 =>
    match s.fetch k with
    | .miss va =>
      let r := s.walkPage k.die k.l.tenant (va.toNat / 4096)
      match r.2 with
      | .error key => (r.1, .error va key)
      | .fault reason size => (r.1, .fault va reason size)
      | .leaf t entry =>
        if t.permits 2 then
          (r.1.useLeaf entry false).codeAt { k with w := { k.w with walkLeaves := (k.f.side, t) :: k.w.walkLeaves } } fuel
        else (r.1, .fault va 1 t.size)
    | x => (s, x)

/-- The bytes of the instruction that a fetch has found; where its second word could not be had, the first calls for two. -/
def Fetched.length (k : Slot) : Fetched → Nat
  | .ok i => 4 * (encode i).length
  | .bad w0 _ => match firstWord w0 with
    | .two _ => 8
    | _ => 4
  | .fault va _ _ => if va = k.f.pc then 4 else 8
  | .error va _ => if va = k.f.pc then 4 else 8
  | .miss va => if va = k.f.pc then 4 else 8
  | .cut => 8

/-- The first destination register of a 32-bit LDG or LDS (R440). -/
def imageReg (i : Instr) : Option Nat :=
  match i with
  | .ldg d _ _ w | .lds d _ _ w | .ldgX d _ _ w _ | .ldsX d _ _ w _ => if w = 2 then some d else none
  | _ => none

/-- A SKIP's image: one word per lane of the remaining mask, if the faulted instruction takes one and every word can be
read. -/
def State.image (s : State) (k : Slot) (t : Trap) (found : Fetched) (image : DWord) : State × Option (List (Nat × Word)) :=
  match found with
  | .ok i =>
    match imageReg i with
    | none => (s, none)
    | some d =>
      (lanesOf t.rmask).foldl (fun (acc : State × Option (List (Nat × Word))) l =>
        match acc.2 with
        | none => acc
        | some xs =>
          let r := acc.1.hostRead k.l.tenant (image + BitVec.ofNat 64 (4 * l)) 4
          (r.1, r.2.map fun bs => xs ++ [(k.w.vkey d + l, BitVec.ofNat 32 (wordOfBytes bs))])) (s, some [])
  | _ => (s, none)

/-- RESUME (3), SKIP (4) or ABORT (5) of a tenant's fault: the state and 0, 2 (bad argument) or 3 (not pending). After an ABORT
the fault is no longer pending, and the wave's group ends with the KILL that the Curator sends (R421, R441). -/
def State.resolve (s : State) (tenant how : Nat) (fid : Word) (image : DWord) : State × Word :=
  match s.faulted tenant fid with
  | none => (s, 3)
  | some (h, w, stop) =>
    if how = 5 then
      ({ (s.settled h fid.toNat).modWave h (fun w => { w with stop := w.stop.map fun t => { t with route := .killing } }) with
          kills := s.kills ++ [w.group] }, 0)
    else
      match (w.bySide stop.side).bind fun e => s.slotOf h e.1 with
      | none => (s, 3)
      | some k =>
        let done := stop.retired || !stop.trap.precise
        if how = 3 || (done && image = 0) then (((s.settled h fid.toNat).runOn h w), 0)
        else if done then (s, 2)
        else
          let c := s.codeAt k 3
          let skipped := fun (w : Wave) => w.setFrag k.second (some (k.after (c.2.length k)))
          if image = 0 then (((c.1.settled h fid.toNat).runOn h (skipped w)), 0)
          else
            let r := c.1.image k stop.trap c.2 image
            match r.2 with
            | none => (r.1, 2)
            | some xs =>
              (((r.1.settled h fid.toNat).runOn h (skipped { w with v := xs.foldl (fun v e => Sparse.set 0 v e.1 e.2) w.v })), 0)

/-- A wave of a tenant by WAVEID that has not ended (R440, R479). -/
def State.waveByID (s : State) (tenant : Nat) (id : Word) : Option Nat :=
  (s.waves.find? fun e => e.2.waveid == id && !e.2.over && s.tenantOf e.1 == tenant).map (·.1)

/-! ## SYSC (R439) -/

/-- The request of the slot that has not completed. -/
def State.requestOf (s : State) (k : Slot) : Option (Nat × Sysc) :=
  s.syscs.find? fun e =>
    e.2.wave == k.h && e.2.side == k.f.side && e.2.pc == k.f.pc && e.2.inH == k.w.isHandler k.f

/-- SYSC: the request goes to the Milliner once the slot's earlier accesses have performed, or at its commit (R452; log 54), and the
slot waits. -/
def execSysc (d fn : Nat) (s : State) : Res :=
  issueMem s 4 fun k =>
    if (s.requestOf k).isSome || !k.room 2 then s
    else s.atCommit k (.sysc d fn)
      (if !k.det && s.unperformed k then s
      else
        { s with
          nextReq := s.nextReq + 1
          syscs := Map.put s.syscs s.nextReq
            { wave := k.h, side := k.f.side, tenant := k.l.tenant, fn := fn, d := d, args := k.run d 8, pc := k.f.pc,
              mask := k.mask, inH := k.w.isHandler k.f } })

/-- The slot that waits for a request: it stands at its SYSC, not in a handler entered meanwhile (R431). -/
def State.caller (s : State) (r : Sysc) : Option Slot :=
  ((Map.find s.waves r.wave).bind (·.bySide r.side)).bind fun e =>
    (s.slotOf r.wave e.1).bind fun k => if k.f.pc = r.pc && k.w.isHandler k.f == r.inH then some k else none

/-- A request that the Milliner has not served yet, for function `fn`. -/
def State.pendingCall (s : State) (req fn : Nat) : Option Sysc :=
  (Map.find s.syscs req).bind fun r => if r.fn = fn && r.status.isNone && r.inval.isNone && !r.posting then some r else none

/-- A request served with a status. -/
def State.served (s : State) (req : Nat) (status : Word) : State :=
  { s with syscs := Map.modify s.syscs req fun r => { r with status := some status } }

/-- SYSC_COMPLETION: status and result are written, held in the second slot, and the SYSC retires; a function that R440 does
not list has status 1 (R439, R440). -/
def execSysCompletion (req : Nat) (s : State) : Res :=
  match Map.find s.syscs req with
  | none => .next s
  | some r =>
    match (if 8 < r.fn then some (r.status.getD 1) else r.status), s.caller r with
    | some status, some k =>
      if !k.room 2 then .next s
      else
        let s1 := ({ s with syscs := Map.erase s.syscs req }.write k [(.s r.d, status), (.s (r.d + 1), r.result)]).finish k 4
        .next (if k.det then s1.modWave k.h fun w => { w with qstate := .ended none } else s1)
    | _, _ => .next s

/-! ## The functions (R440) -/

/-- NULL. -/
def execSysNull (req : Nat) (s : State) : Res :=
  match s.pendingCall req 0 with
  | some _ => .next (s.served req 0)
  | none => .next s

/-- Words of a request's run. -/
def Sysc.arg (r : Sysc) (i : Nat) : Word := r.args.getD i 0
/-- A pair of them. -/
def Sysc.arg64 (r : Sysc) (i : Nat) : DWord := r.arg (i + 1) ++ r.arg i

/-- What a tenant's tables hold for a page, with no effect: none where an entry on the way has V = 0. -/
def State.lookup (s : State) (t : Tenant) (tenant page : Nat) : Option WalkRes :=
  match (s.walkFrom tenant page 0 t.rootTier t.rootPA 5).2.1 with
  | .fault 0 _ => none
  | r => some r

/-- A 4 KiB page zeroed. -/
def State.zeroPage (s : State) (tier page : Nat) : State :=
  let k := (s.placeOf tier (page * 4096)).key
  (s.mem.filter fun e => decide (k ≤ e.1) && decide (e.1 < k + 4096)).foldl (fun s e => s.poke (.mem e.1) 0) s

/-- A virtual page mapped: missing tables and the page itself are taken from `pages`, in order. -/
def State.mapPage (s : State) (page flags tier : Nat) : Nat → Nat → Nat → Nat → List Nat → Option (State × List Nat × Nat)
  | 0, _, _, _, _ => none
  | fuel + 1, level, tt, tp, pages =>
    let at_ := s.placeOf tt (tp + 8 * field (page * 4096) (levelBit level + 8) (levelBit level))
    let e := s.num at_ 8
    if level < 4 && bitAt e 0 then s.mapPage page flags tier fuel (level + 1) (field e 7 6) (field e 51 12 * 4096) pages
    else match pages with
      | [] => none
      | p :: r =>
        if level = 4 then some ((s.zeroPage tier p).putNum at_ (p * 4096 + flags + 3) 8, r, p)
        else ((s.zeroPage 0 p).putNum at_ (p * 4096 + 1) 8).mapPage page flags tier fuel (level + 1) 0 (p * 4096) r

/-- A tenant's pages mapped on request of the subtree of an RCB, in bytes (R394). -/
def Tenant.memb (t : Tenant) (va : DWord) : Nat := 4096 * (t.mapped.filter fun m => m.chain.contains va).length

/-- A range of 4 KiB pages lies in the canonical space (R61). -/
def canonicalRange (va : DWord) (pages : Nat) : Bool :=
  canonical va && canonical (va + BitVec.ofNat 64 (pages * 4096 - 1)) && decide (pages ≤ 2 ^ 44) &&
    va.getLsbD 63 == (va + BitVec.ofNat 64 (pages * 4096 - 1)).getLsbD 63

/-- The arguments of MAP and UNMAP name a range of pages. -/
def pagesOk (va : DWord) (n : Nat) : Bool := n != 0 && va.toNat % 4096 == 0

/-- Physical pages that a MAP may take: distinct, inside their tiers, and not mapped by another MAP (log 8). -/
def State.pagesFree (s : State) (tier : Nat) (pages : List Nat) : Bool :=
  decide pages.Nodup &&
  pages.all fun p => decide (p * 4096 + 4096 ≤ tierCapacity tier) && decide (p * 4096 + 4096 ≤ tierCapacity 0) &&
    !(s.tenants.any fun e => e.2.mapped.any fun m => m.pa == p * 4096)

/-- MAP with the pages the Milliner takes for it: data pages and missing tables in the order they are needed (log 8). -/
def State.map (s : State) (req : Nat) (r : Sysc) (pages : List Nat) : State :=
  let va := r.arg64 0
  let n := (r.arg 2).toNat
  let flags := (r.arg 3).toNat
  let tier := field flags 7 6
  match Map.find s.tenants r.tenant, s.launchOf r.wave with
  | some t, some (_, l) =>
    let vpage := va.toNat / 4096
    if !pagesOk va n || flags &&& 0xDC ≠ flags || tier = 3 || !canonicalRange va n then s.served req 2
    else if (List.range n).any fun i => (s.lookup t r.tenant (vpage + i)).isSome then s.served req 2
    else if l.chain.any fun c => match c.memb with
        | some m => decide (m < t.memb c.va + 4096 * n)
        | none => false then
      match s.caller r with
      | some k => { s with syscs := Map.erase s.syscs req }.trap k (k.trap 0x30)
      | none => s
    else if !s.pagesFree tier pages then s
    else
      let go := (List.range n).foldl (fun (acc : Option (State × List Nat × List Mapped)) i =>
        acc.bind fun a =>
          (a.1.mapPage (vpage + i) flags tier 5 0 t.rootTier t.rootPA a.2.1).map fun x =>
            (x.1, x.2.1, a.2.2 ++ [{ page := vpage + i, tier := tier, pa := x.2.2 * 4096, chain := l.chain.map (·.va) }]))
        (some (s, pages, []))
      match go with
      | some (s1, [], ms) =>
        ({ s1 with tenants := Map.modify s1.tenants r.tenant fun t => { t with mapped := t.mapped ++ ms } }).served req 0
      | _ => s
  | _, _ => s

/-- MAP. -/
def execSysMap (req : Nat) (pages : List Nat) (s : State) : Res :=
  match s.pendingCall req 1 with
  | some r => .next (s.map req r pages)
  | none => .next s

/-- The entry of a page cleared, in the table a walk for it reaches. -/
def State.unmapPage (s : State) (page : Nat) : Nat → Nat → Nat → Nat → State
  | 0, _, _, _ => s
  | fuel + 1, level, tt, tp =>
    let at_ := s.placeOf tt (tp + 8 * field (page * 4096) (levelBit level + 8) (levelBit level))
    let e := s.num at_ 8
    if !bitAt e 0 then s
    else if level = 4 || bitAt e 1 then s.putNum at_ 0 8
    else s.unmapPage page fuel (level + 1) (field e 7 6) (field e 51 12 * 4096)

/-- A request that waits for an invalidation of the tenant's translations. -/
def State.awaitInval (s : State) (req tenant : Nat) (va : DWord) (len : Nat) : State :=
  let z := s.startInval tenant va len none
  { z.1 with syscs := Map.modify z.1.syscs req fun r => { r with inval := some z.2 } }

/-- UNMAP: entries cleared, then the invalidation. -/
def execSysUnmap (req : Nat) (s : State) : Res :=
  match s.pendingCall req 2 with
  | none => .next s
  | some r =>
    let va := r.arg64 0
    let n := (r.arg 2).toNat
    let vpage := va.toNat / 4096
    match Map.find s.tenants r.tenant with
    | none => .next s
    | some t =>
      if !pagesOk va n || t.mapped.length < n || !((List.range n).all fun i => t.mapped.any fun m => m.page == vpage + i) then
        .next (s.served req 2)
      else
        let s1 := (List.range n).foldl (fun s i => s.unmapPage (vpage + i) 5 0 t.rootTier t.rootPA) s
        let s2 := { s1 with tenants := Map.modify s1.tenants r.tenant fun t =>
          { t with mapped := t.mapped.filter fun m => !(decide (vpage ≤ m.page) && decide (m.page < vpage + n)) } }
        .next (s2.awaitInval req r.tenant va (4096 * n))

/-- RESUME, SKIP or ABORT by SYSC. -/
def State.sysResolve (s : State) (req how : Nat) : State :=
  match s.pendingCall req how with
  | none => s
  | some r =>
    let z := s.resolve r.tenant how (r.arg 0) (if how = 4 then r.arg64 2 else 0)
    z.1.served req z.2

/-- RESUME. -/
def execSysResume (req : Nat) (s : State) : Res := .next (s.sysResolve req 3)
/-- SKIP. -/
def execSysSkip (req : Nat) (s : State) : Res := .next (s.sysResolve req 4)
/-- ABORT. -/
def execSysAbort (req : Nat) (s : State) : Res := .next (s.sysResolve req 5)

/-- SIGNAL: a user interrupt of source 1. -/
def execSysSignal (req : Nat) (s : State) : Res :=
  match s.pendingCall req 6 with
  | none => .next s
  | some r =>
    match s.waveByID r.tenant (r.arg 0) with
    | some h => .next ((s.modWave h (·.interrupt 1 (r.arg 1).toNat)).served req 0)
    | none => .next (s.served req 2)

/-- A record waits in the Milliner for its virtqueue of the tenant's device (R481). -/
def State.record (s : State) (tenant vq tag : Nat) (r : List Word) : State :=
  let put := fun (d : Dev) =>
    let q := (Map.find d.vqs vq).getD { lq := 63 - vq }
    { d with vqs := Map.put d.vqs vq { q with recs := q.recs ++ [(tag, r)] } }
  { s with devs := Map.modify s.devs tenant put }

/-- NOTIFY: it completes once its record is posted (R440, R481). -/
def execSysNotify (req : Nat) (s : State) : Res :=
  match s.pendingCall req 7 with
  | none => .next s
  | some r =>
    .next ({ s with syscs := Map.modify s.syscs req fun r => { r with posting := true } }.record r.tenant 1 req r.args)

/-- A range that INVAL takes. -/
def invalRange (va : DWord) (len : Nat) : Bool := va.toNat % 4096 == 0 && len != 0 && len % 4096 == 0

/-- INVAL. -/
def execSysInval (req : Nat) (s : State) : Res :=
  match s.pendingCall req 8 with
  | none => .next s
  | some r =>
    if invalRange (r.arg64 0) (r.arg64 2).toNat then .next (s.awaitInval req r.tenant (r.arg64 0) (r.arg64 2).toNat)
    else .next (s.served req 2)

end Sys2Proof.Machine
end

