-- ==== Sys2Proof/Machine/Work.lean ====
section
/-! DEFINITION. Launch blocks, RCB chains and node tables, what groups need of cores and where they go, the admission of a
launch, and SPAWN (spec/20_launches_and_work.md, spec/21_scheduling.md R415, R422, spec/23_deterministic_execution.md
R457-R460). -/

namespace Sys2Proof.Machine

/-! ## What a group needs of a core (R415) -/

/-- Amounts of a core's resources. -/
structure Need where
  waves : Nat := 0
  blocks : Nat := 0
  tiles : Nat := 0
  accs : Nat := 0
  mats : Nat := 0
  scratch : Nat := 0
  deriving DecidableEq, Repr

/-- The capacity of a core. -/
def coreCap : Need := ⟨16, 64, 32, 16, 4, 262144⟩
/-- One amount covers another in every entry. -/
def Need.fits (n cap : Need) : Bool :=
  decide (n.waves ≤ cap.waves) && decide (n.blocks ≤ cap.blocks) && decide (n.tiles ≤ cap.tiles) && decide (n.accs ≤ cap.accs) &&
    decide (n.mats ≤ cap.mats) && decide (n.scratch ≤ cap.scratch)
/-- Sum, difference (never below 0) and the lesser of two amounts. -/
def Need.add (x y : Need) : Need :=
  ⟨x.waves + y.waves, x.blocks + y.blocks, x.tiles + y.tiles, x.accs + y.accs, x.mats + y.mats, x.scratch + y.scratch⟩
def Need.sub (x y : Need) : Need :=
  ⟨x.waves - y.waves, x.blocks - y.blocks, x.tiles - y.tiles, x.accs - y.accs, x.mats - y.mats, x.scratch - y.scratch⟩
def Need.least (x y : Need) : Need :=
  ⟨min x.waves y.waves, min x.blocks y.blocks, min x.tiles y.tiles, min x.accs y.accs, min x.mats y.mats, min x.scratch y.scratch⟩

/-- The greater of two amounts, entry by entry. -/
def Need.most (x y : Need) : Need :=
  ⟨max x.waves y.waves, max x.blocks y.blocks, max x.tiles y.tiles, max x.accs y.accs, max x.mats y.mats, max x.scratch y.scratch⟩

/-- The waves of a group. -/
def State.wavesOf (s : State) (g : Group) : List Wave := g.waves.filterMap (Map.find s.waves)

/-- What a group needs, a saved one its base blocks alone, since RACQ's blocks never count toward fitting (R415; log 73), or holds
with the blocks its waves have acquired (R422). -/
def State.need (s : State) (g : Group) : Need :=
  let ws := s.wavesOf g
  { waves := g.nwaves
    blocks := if ws.isEmpty then g.nwaves * g.regs
      else (ws.map fun w => if g.life = .saved then w.base else max w.base w.heldBlocks).foldl (· + ·) 0
    tiles := g.tiles, accs := g.accs, mats := g.mats, scratch := g.scratch + g.spill }

/-- The groups that hold capacity of a core. -/
def State.holders (s : State) : List Group := (Map.values s.groups).filter (·.holds)

/-- The enabled cores of some clusters, in order. -/
def State.coresOf (s : State) (clusters : List Nat) : List Nat :=
  clusters.flatMap fun c => ((List.range 192).map (c * 192 + ·)).filter fun i => !s.disabled.contains i

/-- The free capacity of the enabled cores of some clusters (R415). -/
def State.freeOf (s : State) (clusters : List Nat) : List (Nat × Need) :=
  let hs := s.holders
  (s.coresOf clusters).map fun c => (c, (hs.filter (·.core == c)).foldl (fun f g => f.sub (s.need g)) coreCap)

/-! ## Where groups go (R416, R422, R458) -/

/-- A group on the first core where it fits: the core, and the capacity left. -/
def fitIn (n : Need) : List (Nat × Need) → Option (Nat × List (Nat × Need))
  | [] => none
  | (c, f) :: r => if n.fits f then some (c, (c, f.sub n) :: r) else (fitIn n r).map fun x => (x.1, (c, f) :: x.2)

/-- A cluster takes as many groups as it can hold, in order: their cores, and the groups left. -/
def fill : List (Nat × Need) → List Need → List Nat × List Need
  | _, [] => ([], [])
  | f, n :: ns =>
    match fitIn n f with
    | some (c, f') => let r := fill f' ns; (c :: r.1, r.2)
    | none => ([], n :: ns)

/-- Groups over clusters in ascending order (R422). -/
def spread : List (List (Nat × Need)) → List Need → Option (List Nat)
  | [], ns => if ns.isEmpty then some [] else none
  | f :: r, ns => let x := fill f ns; (spread r x.2).map (x.1 ++ ·)

/-- Each group on the first core where it fits (R458). -/
def firstFits : List (Nat × Need) → List Need → Option (List Nat)
  | _, [] => some []
  | f, n :: ns =>
    match fitIn n f with
    | some (c, f') => (firstFits f' ns).map (c :: ·)
    | none => none

/-- Groups on cores already named. -/
def fitAt : List (Nat × Need) → List (Nat × Need) → Bool
  | _, [] => true
  | f, (c, n) :: r =>
    match Map.find f c with
    | some cap => n.fits cap && fitAt (f.map fun e => if e.1 == c then (c, cap.sub n) else e) r
    | none => false

/-- The instances of a SPAN in a partition of these clusters (R395, R416). -/
def instances (span : Nat) (clusters : List Nat) : List (List Nat) :=
  if span = 0 then clusters.map fun c => [c]
  else if span = 1 then ((List.range 4).map fun d => clusters.filter fun c => c / 3 == d).filter fun cs => !cs.isEmpty
  else [clusters]

/-- The first instance that takes every group, and the groups' cores. -/
def placeIn (span : Nat) (clusters : List Nat) (free : List (Nat × Need)) (ns : List Need) : Option (List Nat) :=
  (instances span clusters).findSome? fun cs => spread (cs.map fun c => free.filter fun e => e.1 / 192 == c) ns

/-! ## Groups of a launch (R398, R399, R405-R407) -/

/-- A group of the grid, not yet on a core. -/
def Block.gridGroup (b : Block) (l gang j grpid : Nat) : Group :=
  let r := b.roles.getD j {}
  { launch := l, grpid := grpid, role := j, gang := gang, nwaves := r.waves, regs := r.regs, tiles := b.tiles, accs := b.accs,
    mats := b.mats, scratch := roundUp b.scratch 512, spill := r.waves * 16 * b.spill }

/-- The groups of gang `k` in ascending GRPID (R399). -/
def Block.gang (b : Block) (l k : Nat) : List Group :=
  (roleRanges 0 0 b.roles).flatMap fun e =>
    (List.range e.2.2.inGang).map fun n => b.gridGroup l k e.1 (e.2.1 + k * e.2.2.inGang + n)

/-- The group of node `m` for the launch's batch number `num` (R407). -/
def Block.nodeGroup (b : Block) (l m num : Nat) : Group :=
  let n := b.nodes.getD m {}
  { launch := l, grpid := b.grid + num, role := m, gang := nodeGangs + num, node := some num, nwaves := 1, regs := n.regs,
    tiles := n.tiles, accs := n.accs, mats := bit n.mat, scratch := roundUp n.scratch 512, spill := 16 * b.spill }

/-- One step of the curve (R457): the present x, y and h. -/
def curveStep (n : Nat) (z : Nat × Nat × Nat) (t : Nat) : Nat × Nat × Nat :=
  let rx := bitAt z.1 t
  let ry := bitAt z.2.1 t
  let h := z.2.2 + 2 ^ t * 2 ^ t * ((3 * bit rx) ^^^ bit ry)
  if ry then (z.1, z.2.1, h)
  else if rx then (n - 1 - z.2.1, n - 1 - z.1, h)
  else (z.2.1, z.1, h)

/-- The least exponent whose power of two is no less than `m`. -/
def ceilLog (m : Nat) : Nat := ((List.range 33).find? fun t => decide (m ≤ 2 ^ t)).getD 33

/-- The curve index of a grid group (R457). -/
def Block.curveIndex (b : Block) (i : Nat) : Nat :=
  let t := ceilLog (max b.gx (b.gy * b.gz))
  let z := (i % b.gx, i / b.gx % b.gy + b.gy * (i / (b.gx * b.gy)), 0)
  ((List.range t).reverse.foldl (curveStep (2 ^ t)) z).2.2

/-- A pair placed by its first number. -/
def insertBy (x : Nat × Nat) : List (Nat × Nat) → List (Nat × Nat)
  | [] => [x]
  | y :: r => if x.1 < y.1 then x :: y :: r else y :: insertBy x r

/-- The GRPIDs of the grid along the curve. -/
def Block.curve (b : Block) : List Nat :=
  (((List.range b.grid).map fun i => (b.curveIndex i, i)).foldl (fun acc e => insertBy e acc) []).map (·.2)

/-- The grid groups of a deterministic launch along the curve: one gang (R458). -/
def Block.detGroups (b : Block) (l : Nat) : List Group :=
  b.curve.filterMap fun i =>
    ((roleRanges 0 0 b.roles).find? fun e => decide (e.2.1 ≤ i) && decide (i < e.2.1 + e.2.2.groups)).map fun e => b.gridGroup l 0 e.1 i

/-- Groups of one gang lie within one instance of the SPAN. -/
def spanHolds (span : Nat) (cores : List Nat) : Bool :=
  let units := cores.map fun c => if span = 0 then c / 192 else if span = 1 then c / 576 else 0
  units.all (· == units.headD 0)

/-- The cores of a deterministic launch's groups along the curve, in an otherwise empty partition (R458). -/
def State.detPlace (s : State) (clusters : List Nat) (gs : List Group) : Option (List Nat) :=
  firstFits ((s.coresOf clusters).map fun c => (c, coreCap)) (gs.map s.need)

/-- The gang of a group's index in the grid (R399). -/
def Block.gangOf (b : Block) (g : Group) : Nat :=
  ((roleRanges 0 0 b.roles).find? fun e => e.1 == g.role).elim 0 fun e => (g.grpid - e.2.1) / e.2.2.inGang

/-- Every gang of a placed grid keeps within its SPAN. -/
def Block.spansHold (b : Block) (gs : List Group) (cores : List Nat) : Bool :=
  (List.range (b.gangs.getD 0)).all fun k =>
    spanHolds b.span (((gs.zip cores).filter fun e => b.gangOf e.1 == k).map (·.2))

/-- Groups given their cores. -/
def onto (gs : List Group) (cores : List Nat) : List Group := (gs.zip cores).map fun e => { e.1 with core := e.2 }

/-! ## Budgets (R394) -/

/-- Sum over groups. -/
def total (gs : List Group) (f : Group → Nat) : Nat := (gs.map f).foldl (· + ·) 0

/-- Bytes of the allocations that the launches of `gs` hold in each cluster or die: `unit` of a core, `size` of a block. -/
def State.allocated (s : State) (gs : List Group) (unit : Nat → Nat) (size : Block → Nat) : Nat :=
  (((gs.map fun g => (g.launch, unit g.core)).eraseDups).map fun e =>
    roundUp (((Map.find s.launches e.1).map fun l => size l.block).getD 0) 65536).foldl (· + ·) 0

/-- The allocations of all launches with groups in a cluster keep within its 32 MiB, and on a die within its 96 MiB, once
groups join them there: each is held until its launch's last group there exits (R9, R10, R15, R97; log 61). -/
def State.scratchHolds (s : State) (gs : List Group) : Bool :=
  let all := Map.values s.groups ++ gs
  ((gs.map (·.core / 192)).eraseDups.all fun c =>
    decide (s.allocated (all.filter fun g => g.core / 192 == c) (· / 192) (·.clusz) ≤ 0x2000000)) &&
  (gs.map (·.core / 576)).eraseDups.all fun d =>
    decide (s.allocated (all.filter fun g => g.core / 576 == d) (· / 576) (·.diesz) ≤ 0x6000000)

/-- What groups hold keeps within a record's effective budgets; MEMB is the Milliner's (R394). -/
def State.within (s : State) (r : Rcb) (gs : List Group) : Bool :=
  let le := fun (m : Option Nat) (n : Nat) => match m with
    | some m => decide (n ≤ m)
    | none => true
  le r.cores (gs.map (·.core)).eraseDups.length && le r.corep (total gs (·.scratch)) &&
    le r.clusp (s.allocated gs (· / 192) (·.clusz)) && le r.diesp (s.allocated gs (· / 576) (·.diesz)) &&
    le r.tiles (total gs (·.tiles)) && le r.accs (total gs (·.accs)) && le r.matw (total gs (·.mats))

/-- The groups of a tenant's subtree under a record that hold capacity. -/
def State.subtree (s : State) (tenant : Nat) (va : DWord) : List Group :=
  s.holders.filter fun g => match Map.find s.launches g.launch with
    | some l => l.tenant == tenant && l.chain.any fun r => r.va == va
    | none => false

/-- New groups of a launch keep every record of its chain within its budgets. -/
def State.budgetsHold (s : State) (l : Launch) (gs : List Group) : Bool :=
  l.chain.all fun r => s.within r (s.subtree l.tenant r.va ++ gs)

/-! ## The launch block (R395, R396) -/

/-- A role's four words; none where they break R396. -/
def roleOf (w : List Word) : Option Role :=
  let x := fun i => (w.getD i 0).toNat
  let oq := bitAt (x 3) 31
  if x 0 % 4 ≠ 0 || field (x 1) 31 22 ≠ 0 || field (x 1) 21 20 = 0 || field (x 1) 15 0 = 0 || field (x 2) 31 16 ≠ 0 then none
  else if !oq && x 3 ≠ 0 then none
  else if oq && (field (x 3) 23 20 ≠ 0 || field (x 3) 30 27 = 0 || 12 < field (x 3) 30 27) then none
  else some { entry := w.getD 0 0, regs := field (x 1) 21 20, waves := field (x 1) 19 16 + 1, groups := field (x 1) 15 0,
              gpg := field (x 2) 15 0, oq := oq, cap := if oq then 2 ^ field (x 3) 30 27 else 2,
              itemw := if oq then field (x 3) 26 24 + 1 else 1, off := if oq then field (x 3) 19 0 else 0 }

/-- A launch block's 32 words; none where they break R395 or R396. -/
def blockOf (w : List Word) : Option Block :=
  let x := fun i => (w.getD i 0).toNat
  let nrole := field (x 0) 1 0 + 1
  let rs := (List.range nrole).map fun j => roleOf ((w.drop (16 + 4 * j)).take 4)
  let roles := rs.filterMap id
  let ok :=
    field (x 0) 31 16 == 0 && decide (field (x 0) 15 8 ≤ 56) && field (x 0) 7 3 == 0 && x 2 % 4 == 0 &&
    decide (1 ≤ field (x 4) 31 16) && decide (1 ≤ field (x 4) 15 0) && field (x 5) 31 16 == 0 && decide (1 ≤ field (x 5) 15 0) &&
    field (x 6) 31 20 == 0 && decide (field (x 6) 19 16 ≤ 4) && (roles.all fun r => decide (field (x 6) 19 16 ≤ r.waves)) &&
    field (x 6) 15 12 == 0 && decide (field (x 6) 11 8 ≤ 8) && field (x 6) 7 5 == 0 && decide (field (x 6) 4 0 ≤ 16) &&
    decide (x 7 ≤ 0x40000) && decide (x 8 ≤ 0x2000000) && decide (x 9 ≤ 0x6000000) && x 10 % 64 == 0 &&
    (x 12 != 0 || (x 10 == 0 && x 11 == 0)) && decide (x 12 ≤ 16) && decide (x 13 ≤ 2) && x 14 == 0 && x 15 == 0 &&
    rs.all (·.isSome) && ((w.drop (16 + 4 * nrole)).all (· == 0)) &&
    field (x 4) 15 0 * field (x 4) 31 16 * field (x 5) 15 0 == (roles.map (·.groups)).foldl (· + ·) 0 &&
    decide ((roles.map (·.groups)).foldl (· + ·) 0 ≤ 262140)
  if ok then
    some { spill := field (x 0) 15 8, det := bitAt (x 0) 2, quantum := if x 1 = 0 then 1024 else x 1,
           code := w.getD 3 0 ++ w.getD 2 0, gx := field (x 4) 15 0, gy := field (x 4) 31 16, gz := field (x 5) 15 0,
           mats := field (x 6) 19 16, accs := field (x 6) 11 8, tiles := field (x 6) 4 0, scratch := x 7, clusz := x 8, diesz := x 9,
           nodesVA := w.getD 11 0 ++ w.getD 10 0, nnode := x 12, span := x 13, roles := roles }
  else none

/-- A node descriptor's fields, whatever they hold (R405). -/
def nodeOf (w : List Word) : Node :=
  let x := fun i => (w.getD i 0).toNat
  { entry := w.getD 0 0, regs := field (x 1) 5 4, recw := field (x 1) 2 0 + 1, timer := x 2, backlog := field (x 3) 8 0, scratch := x 4,
    mat := bitAt (x 5) 16, accs := field (x 5) 11 8, tiles := field (x 5) 4 0 }

/-- A node descriptor obeys R405. -/
def nodeOk (w : List Word) : Bool :=
  let x := fun i => (w.getD i 0).toNat
  x 0 % 4 == 0 && field (x 1) 31 6 == 0 && !bitAt (x 1) 3 && field (x 1) 5 4 != 0 && decide (1 ≤ x 3) && decide (x 3 ≤ 256) &&
    decide (x 4 ≤ 0x40000) && field (x 5) 31 17 == 0 && field (x 5) 15 12 == 0 && decide (field (x 5) 11 8 ≤ 8) && field (x 5) 7 5 == 0 &&
    decide (field (x 5) 4 0 ≤ 16) && (w.drop 6).all (· == 0)

/-- Two ranges of bytes share one. -/
def overlap (a b : Nat × Nat) : Bool := decide (a.1 < b.1 + b.2) && decide (b.1 < a.1 + a.2)

/-- Some pair of a list of ranges overlaps. -/
def anyOverlap : List (Nat × Nat) → Bool
  | [] => false
  | a :: r => r.any (overlap a) || anyOverlap r

/-- Stage queues lie within CLUSZ bytes and do not overlap (R397 status 4). -/
def Block.stagesOk (b : Block) : Bool :=
  let rs := (b.roles.filter (·.oq)).map fun r => (r.off * 32, 32 + 4 * r.cap * r.itemw)
  (rs.all fun e => decide (e.1 + e.2 ≤ b.clusz)) && !anyOverlap rs

/-! ## The RCB chain (R390-R394) -/

/-- A record as read: its address and words. -/
structure Record where
  va : DWord
  w : List Word
  deriving DecidableEq, Repr

/-- PARENT. -/
def Record.parent (r : Record) : DWord := r.w.getD 3 0 ++ r.w.getD 2 0

/-- The chain read from a record on, or a status (R489). -/
def State.readChain (s : State) (tenant : Nat) (va : DWord) (seen : List Record) : Nat → State × Except Nat (List Record)
  | 0 => (s, .error 2)
  | fuel + 1 =>
    if va.toNat % 256 ≠ 0 || seen.any fun r => r.va == va then (s, .error 2)
    else
      let z := s.hostRead tenant va 256
      match z.2 with
      | none => (z.1, .error 6)
      | some bs =>
        let r : Record := ⟨va, wordsOfBytes bs⟩
        if r.parent = 0 then (z.1, .ok (seen ++ [r])) else z.1.readChain tenant r.parent (seen ++ [r]) fuel

/-- A priority field is a priority or its inherit code. -/
def prioField (n : Nat) : Bool := decide (n ≤ 47) || n == 255

/-- A record's fields obey R393, its place in the chain apart. -/
def Record.fieldsOk (r : Record) : Bool :=
  let x := fun i => (r.w.getD i 0).toNat
  prioField (field (x 0) 31 24) && prioField (field (x 0) 23 16) && prioField (field (x 0) 15 8) && field (x 0) 7 2 == 0 &&
    decide (x 1 ≤ 2) && (r.w.drop 15).all (· == 0)

/-- A budget word: none when it holds its inherit code. -/
def budget (x bits : Nat) : Option Nat := if x = 2 ^ bits - 1 then none else some x

/-- The effective values of a record under its parent's, none for a tenant root (R392). -/
def Record.effective (r : Record) (p : Rcb) : Rcb :=
  let x := fun i => (r.w.getD i 0).toNat
  let pr := fun (n d : Nat) => if n = 255 then d else n
  let bud := fun (i : Nat) (d : Option Nat) => (budget (x i) 32).or d
  let h := r.w.getD 5 0 ++ r.w.getD 4 0
  { va := r.va
    prio := pr (field (x 0) 15 8) p.prio, pmin := pr (field (x 0) 23 16) p.pmin, pmax := pr (field (x 0) 31 24) p.pmax
    notify := if x 1 = 0 then p.notify else x 1 == 2
    handler := if h = 0 then p.handler else if h = BitVec.allOnes 64 then none else some h
    cores := bud 6 p.cores, corep := bud 7 p.corep, clusp := bud 8 p.clusp, diesp := bud 9 p.diesp
    memb := (budget (x 10 + x 11 * 2 ^ 32) 64).or p.memb
    tiles := bud 12 p.tiles, accs := bud 13 p.accs, matw := bud 14 p.matw }

/-- A limit is no wider than the one above it. -/
def noWider (c p : Option Nat) : Bool :=
  match c, p with
  | some c, some p => decide (c ≤ p)
  | _, _ => true

/-- A record's effective values keep within its parent's (R393). -/
def Rcb.under (c p : Rcb) : Bool :=
  let inside := fun (n : Nat) => decide (p.pmin ≤ n) && decide (n ≤ p.pmax)
  inside c.prio && inside c.pmin && inside c.pmax &&
    noWider c.cores p.cores && noWider c.corep p.corep && noWider c.clusp p.clusp && noWider c.diesp p.diesp && noWider c.memb p.memb &&
    noWider c.tiles p.tiles && noWider c.accs p.accs && noWider c.matw p.matw

/-- The effective values of a chain given root first, or none where it breaks R393; the result has the launch's record first. -/
def chainOf : List Record → Option Rcb → List Rcb → Option (List Rcb)
  | [], _, acc => some acc
  | r :: rs, p, acc =>
    let kind := (r.w.getD 0 0).toNat % 4
    let place := if p.isNone then 0 else if rs.isEmpty then 2 else 1
    let e := r.effective (p.getD {})
    if !r.fieldsOk || kind ≠ place || (p.isNone && rs.isEmpty) || e.pmax < e.pmin then none
    else match p with
      | some q => if e.under q then chainOf rs (some e) (e :: acc) else none
      | none => chainOf rs (some e) (e :: acc)

/-! ## Admission (R397, R413, R414, R460, R466, R489) -/

/-- A gang can never be placed: in the empty partition its groups find no place, or a budget falls short alone (R489). -/
def State.neverFits (s : State) (clusters : List Nat) (l : Launch) (gs : List Group) (span : Nat) : Bool :=
  match placeIn span clusters ((s.coresOf clusters).map fun c => (c, coreCap)) (gs.map s.need) with
  | none => true
  | some cores => !(l.chain.all fun r => s.within r (onto gs cores))

/-- Status 3 (R397, R399, R458, R489); `h` is the launch's handle, already in `s`. -/
def State.tooLarge (s : State) (clusters : List Nat) (h : Nat) (l : Launch) : Bool :=
  let b := l.block
  b.gangs.isNone ||
  (if b.det then
    let gs := b.detGroups h
    match s.detPlace clusters gs with
    | none => true
    | some cores => !(b.spansHold gs cores) || !(l.chain.all fun r => s.within r (onto gs cores))
  else s.neverFits clusters l (b.gang h 0) b.span) ||
  (List.range b.nodes.length).any fun m => s.neverFits clusters l [b.nodeGroup h m 0] 2

/-- Words of a tenant's memory. -/
def State.hostWords (s : State) (tenant : Nat) (va : DWord) (n : Nat) : State × Option (List Word) :=
  let z := s.hostRead tenant va (4 * n)
  (z.1, z.2.map wordsOfBytes)

/-- The chunks of each address-table entry, in order, by the element it names for the replaying tenant (R467, R468). -/
def State.readGate (s : State) (tenant : Nat) (table chunks : List Word) : State × List (Nat × List (Word × Nat × Word) × Bool) :=
  (List.range (table.length / 2)).foldl (fun (acc : State × List (Nat × List (Word × Nat × Word) × Bool)) j =>
    let z := acc.1.hostXlate tenant (table.getD (2 * j + 1) 0 ++ table.getD (2 * j) 0) 0
    let mine := ((List.range (chunks.length / 4)).map fun c => (chunks.drop (4 * c)).take 4).filter fun c => (c.getD 0 0).toNat == j
    match z.2 with
    | some x => (z.1, Map.put acc.2 (x.elem false) (mine.map fun c => (c.getD 1 0, (c.getD 2 0).toNat, c.getD 3 0), false))
    | none => (z.1, acc.2)) (s, [])

/-- The recorder or gate of a launch, none where its buffer cannot be read (R466-R468). -/
def State.readLog (s : State) (tenant : Nat) (buf : DWord) (replay : Bool) : State × Option Log :=
  let z := s.hostWords tenant buf 16
  match z.2 with
  | none => (z.1, none)
  | some a =>
    let x := fun i => (a.getD i 0).toNat
    let log : Log := { buf := buf, acap := x 3, ccap := x 4 }
    if !replay then (z.1, some log)
    else
      let t := z.1.hostWords tenant (buf + 64) (2 * x 1)
      let c := t.1.hostWords tenant (buf + BitVec.ofNat 64 (64 + 8 * x 3)) (4 * x 0)
      match t.2, c.2 with
      | some table, some chunks =>
        let g := c.1.readGate tenant table chunks
        (g.1, some { log with gate := g.2 })
      | _, _ => (c.1, none)

/-- The signature of a deterministic launch (R460): code image, block as read, shape hash, quantum, firmware version. -/
def State.signatureOf (s : State) (image block hash : List Byte) (quantum : Nat) : List Byte :=
  sha3 (sha3 image ++ sha3 block ++ hash ++ bytesOfNat quantum 4 ++ bytesOfNat s.fwver.toNat 8)

/-- A launch's block and node table, or a status; the node words are checked later (R489 steps 1 and 3). -/
def State.readBlock (s : State) (tenant : Nat) (va : DWord) : State × Except Nat (Block × List Byte) :=
  if va.toNat % 128 ≠ 0 then (s, .error 1)
  else
    let z := s.hostRead tenant va 128
    match z.2 with
    | none => (z.1, .error 6)
    | some bs =>
      match blockOf (wordsOfBytes bs) with
      | none => (z.1, .error 1)
      | some b => (z.1, .ok (b, bs))

/-- The node descriptors of a block, none where they cannot be read. -/
def State.readNodes (s : State) (tenant : Nat) (b : Block) : State × Option (List (List Word)) :=
  let z := s.hostWords tenant b.nodesVA (16 * b.nnode)
  (z.1, z.2.map fun ws => (List.range b.nnode).map fun m => (ws.drop (16 * m)).take 16)

/-- What every gang of a newly admitted launch is: pending, in order; a deterministic launch is one gang (R413, R458). -/
def Block.pending (b : Block) : List Pend := if b.det then [{ gang := 0 }] else (List.range (b.gangs.getD 0)).map fun k => { gang := k }

/-- The checks of R489 on a launch command, and the launch that passes them, or a status. -/
def State.launchChecks (s : State) (t : Tenant) (x : Cmd) (lq : Nat) : State × Except Nat Launch :=
  let tenant := x.dev
  let zb := s.readBlock tenant (x.c64 4)
  match zb.2 with
  | .error e => (zb.1, .error e)
  | .ok (b, bytes) =>
    let zc := zb.1.readChain tenant (x.c64 2) [] 16
    match zc.2 with
    | .error e => (zc.1, .error e)
    | .ok recs =>
      let zn := zc.1.readNodes tenant b
      match zn.2, chainOf recs.reverse none [] with
      | none, _ => (zn.1, .error 6)
      | some _, none => (zn.1, .error 2)
      | some ws, some chain =>
        let b := { b with nodes := ws.map nodeOf }
        let part := (Map.find zn.1.parts t.part).getD { clusters := [] }
        let rec_ := bitAt (x.c 7).toNat 1 && !b.det
        let rpl := bitAt (x.c 7).toNat 2 && !b.det
        let l : Launch :=
          { tenant := tenant, ring := (x.dev, x.vq), seq := x.seq, block := b, chain := chain, codeLen := (x.c 6).toNat,
            recording := rec_, replaying := rpl, age := (s.cycle, x.port, lq, s.nextLaunch), pend := b.pending,
            curve := if b.det then b.curve else [] }
        if ({ zn.1 with launches := Map.put zn.1.launches s.nextLaunch l }).tooLarge part.clusters s.nextLaunch l then (zn.1, .error 3)
        else if !b.stagesOk then (zn.1, .error 4)
        else if !ws.all nodeOk then (zn.1, .error 5)
        else
          let zi := if b.det then zn.1.hostRead tenant b.code l.codeLen else (zn.1, some [])
          let zl := if rec_ || rpl then zi.1.readLog tenant (x.c64 8) rpl else (zi.1, some {})
          match zi.2, zl.2 with
          | some image, some log =>
            (zl.1, .ok { l with log := log, signature := if b.det then zl.1.signatureOf image bytes part.hash b.quantum else [] })
          | _, _ => (zl.1, .error 6)

/-- Admitted launches of a partition that have not completed (R414). -/
def State.admitted (s : State) (part : Nat) : Nat :=
  (s.launches.filter fun e => e.2.handlerOf.isNone && ((Map.find s.tenants e.2.tenant).map (·.part)) == some part).length

/-! ## Work-graph nodes (R406) -/

/-- Batches of a node not yet placed, and the records its open batch still takes. -/
def Launch.held (l : Launch) (m : Nat) : Nat := (l.batches.filter (·.node == m)).length
def Launch.openRoom (l : Launch) (m : Nat) : Nat :=
  ((l.batches.find? fun b => b.node == m && !b.launched).map fun b => 64 - b.recs.length).getD 0
/-- Node `m` takes `n` more records (R405, R410). -/
def Launch.takes (l : Launch) (m n : Nat) : Bool :=
  decide (n ≤ (((l.block.nodes.getD m {}).backlog) - l.held m) * 64 + l.openRoom m)

/-- The open batch of a node, if it holds records, is launched: it becomes a pending gang (R406, R413). -/
def Launch.launchOpen (l : Launch) (m : Nat) : Launch :=
  if l.batches.any fun b => b.node == m && !b.launched then
    { l with
      batches := l.batches.map fun b => if b.node == m && !b.launched then { b with launched := true, num := l.nbatch } else b
      pend := l.pend ++ [{ gang := nodeGangs + l.nbatch }]
      nbatch := l.nbatch + 1 }
  else l

/-- The timer of a node's open batch lapsed before `now`: the cycle or round of lapse is over, and what reached the Curator in
it has entered (R406, R408; log 62). -/
def Launch.lapsed (x : Launch) (m now : Nat) : Bool :=
  let n := x.block.nodes.getD m {}
  n.timer != 0 && x.batches.any fun b => b.node == m && !b.launched && decide (b.since + n.timer < now)

/-- The nodes with an open batch, in the order of their first records (R406). -/
def Launch.openNodes (l : Launch) : List Nat := (l.batches.filter (!·.launched)).map (·.node)

/-- The open batches whose timers have lapsed are launched, in the order of their first records (R406). -/
def Launch.lapse (l : Launch) (now : Nat) : Launch := (l.openNodes.filter fun m => l.lapsed m now).foldl Launch.launchOpen l

/-- A record reaches the Curator at `now`, a cycle or a round: what has lapsed before is launched first (R406, R408). -/
def Launch.takeRecord (l0 : Launch) (m now : Nat) (r : List Word) : Launch :=
  let l := l0.lapse now
  let l1 : Launch := if l.batches.any fun b => b.node == m && !b.launched then
      { l with batches := l.batches.map fun b => if b.node == m && !b.launched then { b with recs := b.recs ++ [r] } else b }
    else { l with batches := l.batches ++ [{ node := m, recs := [r], since := now }] }
  if l1.openRoom m = 0 then l1.launchOpen m else l1

/-! ## SPAWN (R409-R411) -/

/-- The records of the active lanes, in ascending rank. -/
def Slot.spawned (k : Slot) (a w : Nat) : List (List Word) := k.lanes.map fun l => (List.range w).map fun i => k.w.vget (a + i) l

/-- SPAWN.node, its checks passed: it waits while node `m`, without the batches that have lapsed, has no room for its records. -/
def State.spawnNode (s : State) (k : Slot) (m : Nat) (recs : List (List Word)) : State :=
  let now := if k.det then k.l.round else s.cycle
  if (k.l.lapse now).takes m recs.length then
    (s.modLaunch k.g.launch fun l => recs.foldl (fun l r => l.takeRecord m now r) l).finish k 4
  else s

/-- SPAWN (R410). -/
def execSpawn (node : Bool) (d a b : Nat) (s : State) : Res :=
  issueMem s 4 fun k =>
    let i := Instr.spawn node d a b
    let n := k.lanes.length
    s.atCommit k i (if s.unperformed k then s else if node then
      let m := (k.s b).toNat
      match k.l.block.nodes[m]? with
      | none => s.trap k (k.illegal i)
      | some nd =>
        if 128 < a + nd.recw then s.trap k (k.illegal i)
        else s.vnamed k (runNames 1 a nd.recw)
          (s.spawnNode k m (k.spawned a nd.recw))
    else match s.boundQueue k d with
      | none => s.trap k (k.illegal i)
      | some (key, qu) =>
        if qu.cap < n || 128 < a + qu.itemw then s.trap k (k.illegal i)
        else s.vnamed k (runNames 1 a qu.itemw)
          (let items := k.spawned a qu.itemw
          if s.pushable key n then ((s.pushItems k.h d key items).finish k 4).serve key
          else if k.det then s
          else s.await k (.push d items)))

end Sys2Proof.Machine
end

