-- ==== Sys2Proof/Machine/Sched.lean ====
section
/-! DEFINITION. The Curator and the Docents: the pending order, reservations, placement, pre-emption, faults, the end of
groups and launches, and the ranks of the issue selector (spec/21_scheduling.md, spec/22_traps_and_preemption.md R429,
R434-R446). -/

namespace Sys2Proof.Machine

/-! ## The pending order (R413) -/

/-- A gang that is not resident, with its launch. -/
structure Want where
  l : Nat
  x : Launch
  p : Pend
  deriving DecidableEq, Repr

/-- The effective priority of a launch (R394). -/
def Launch.prio (x : Launch) : Nat := (x.chain.headD {}).prio

/-- The keys of R413, first key first. -/
def Want.key (w : Want) : List Nat :=
  [47 - w.x.prio, w.x.age.1, w.x.age.2.1, w.x.age.2.2.1, w.x.age.2.2.2, w.p.gang, w.l]

/-- The earlier of two lists of keys. -/
def keysLt : List Nat → List Nat → Bool
  | x :: xs, y :: ys => decide (x < y) || (x == y && keysLt xs ys)
  | _, _ => false

/-- A gang takes its place in the order. -/
def insertWant (w : Want) : List Want → List Want
  | [] => [w]
  | x :: r => if keysLt w.key x.key then w :: x :: r else x :: insertWant w r

/-- The partition of a launch. -/
def State.partOf (s : State) (x : Launch) : Option Nat := (Map.find s.tenants x.tenant).map (·.part)

/-- The pending order of a partition. -/
def State.pending (s : State) (part : Nat) : List Want :=
  (s.launches.flatMap fun e => if s.partOf e.2 == some part then e.2.pend.map fun p => ⟨e.1, e.2, p⟩ else []).foldl
    (fun acc w => insertWant w acc) []

/-- The clusters of a partition. -/
def State.clustersOf (s : State) (part : Nat) : List Nat := ((Map.find s.parts part).map (·.clusters)).getD []

/-! ## Whether a gang fits (R415, R416, R458) -/

/-- The batch of a node gang (R407). -/
def Launch.batch (x : Launch) (gang : Nat) : Option Batch := x.batches.find? fun b => b.launched && nodeGangs + b.num == gang

/-- The groups of a pending gang: those saved, or those to be created. -/
def State.gangGroups (s : State) (w : Want) : List Group :=
  if w.p.saved then Map.values (s.groups.filter fun e => e.2.launch == w.l && e.2.gang == w.p.gang && e.2.life == .saved)
  else if nodeGangs ≤ w.p.gang then
    match w.x.batch w.p.gang with
    | some b => [w.x.block.nodeGroup w.l b.node b.num]
    | none => []
  else if w.x.block.det then w.x.block.detGroups w.l
  else w.x.block.gang w.l w.p.gang

/-- The cores a gang is bound to, where it has no choice: a saved gang's own, or those of a deterministic grid (R419, R458). -/
def State.homes (s : State) (clusters : List Nat) (w : Want) : Option (List Nat) :=
  let gs := s.gangGroups w
  if w.p.saved then some (gs.map (·.core))
  else if w.p.gang < nodeGangs && w.x.block.det then some ((s.detPlace clusters gs).getD [])
  else none

/-- The groups of a gang on the cores that `free` gives them (R416, R419, R422, R458). -/
def State.fitting (s : State) (clusters : List Nat) (w : Want) (free : List (Nat × Need)) : Option (List Group) :=
  let gs := s.gangGroups w
  let ns := gs.map s.need
  if gs.isEmpty then none
  else match s.homes clusters w with
    | some cores => if cores.length = gs.length && fitAt free (cores.zip ns) then some (onto gs cores) else none
    | none => (placeIn (if nodeGangs ≤ w.p.gang then 2 else w.x.block.span) clusters free ns).map (onto gs)

/-- The launch numbers its waves by GRPID (R401, R437, R463). -/
def Launch.fixedIds (x : Launch) : Bool := x.handlerOf.isNone && (x.block.det || x.recording || x.replaying)

/-- A wave of a partition holds a WAVEID (R401). -/
def State.idHeld (s : State) (part : Nat) (id : Word) : Bool :=
  s.waves.any fun e => e.2.waveid == id && ((s.launchOf e.1).bind fun x => s.partOf x.2) == some part

/-- The WAVEIDs that new groups of a launch must have are free: where one is still held, the gang waits (R401; log 63). -/
def State.idsFree (s : State) (x : Launch) (gs : List Group) : Bool :=
  !x.fixedIds || match s.partOf x with
    | none => true
    | some part => gs.all fun g => (List.range g.nwaves).all fun i => !s.idHeld part (BitVec.ofNat 32 (g.grpid * 16 + i))

/-- A gang's groups on the cores that `free` gives them, within the budgets of its chain and the scratchpads of clusters and
dies, their WAVEIDs free. -/
def State.assign (s : State) (clusters : List Nat) (w : Want) (free : List (Nat × Need)) : Option (List Group) :=
  (s.fitting clusters w free).bind fun gs =>
    if s.budgetsHold w.x gs && s.scratchHolds gs && (w.p.saved || s.idsFree w.x gs) then some gs else none

/-! ## Reservations (R417, R418) -/

/-- All that a gang needs. -/
def State.wants (s : State) (w : Want) : Need := ((s.gangGroups w).map s.need).foldl Need.add {}

/-- `n` times an amount. -/
def Need.times (x : Need) (n : Nat) : Need :=
  ⟨n * x.waves, n * x.blocks, n * x.tiles, n * x.accs, n * x.mats, n * x.scratch⟩

/-- The most of each resource that some of a gang's groups together, of each kind no more than there are, need of a core of
capacity `cap`; `have_` is what groups already counted need. -/
def mostUse : List (Need × Nat) → Need → Need → Need
  | [], _, have_ => have_
  | (n, m) :: r, cap, have_ =>
    (List.range (m + 1)).foldl (fun best j =>
      if (n.times j).fits cap then best.most (mostUse r (cap.sub (n.times j)) (have_.add (n.times j))) else best) {}

/-- Amounts with the number of times each occurs, no more than a core has waves. -/
def kindsOf (ns : List Need) : List (Need × Nat) := ns.eraseDups.map fun n => (n, min 16 (ns.filter (· == n)).length)

/-- What a gang's groups could use of core `c`: those bound to it, or of each resource the most that any of them could hold there
together (R417, R418, R419). -/
def State.usable (s : State) (clusters : List Nat) (w : Want) (c : Nat) : Need :=
  let ns := (s.gangGroups w).map s.need
  match s.homes clusters w with
  | some cores => (((cores.zip ns).filter (·.1 == c)).map (·.2)).foldl Need.add {}
  | none => mostUse (kindsOf ns) coreCap {}

/-- Amounts taken from the cores of a target, of each no more than `use` and no more than `most` in all: what is taken of each
core. -/
def takeFrom (free : List (Nat × Need)) (use : Nat → Need) : List Nat → Need → List (Nat × Need)
  | [], _ => []
  | c :: r, most =>
    let x := ((Map.find free c).getD {}).least (most.least (use c))
    (c, x) :: takeFrom free use r (most.sub x)

/-- Capacity less what is taken. -/
def less (free taken : List (Nat × Need)) : List (Nat × Need) :=
  free.map fun e => (e.1, (taken.filter (·.1 == e.1)).foldl (fun f t => f.sub t.2) e.2)

/-- What each waiting gang reserves of free capacity, in order: the first that could use it has it (R417). -/
def State.reservations (s : State) (clusters : List Nat) : List Want → List (Nat × Need) → List (Want × List (Nat × Need))
  | [], _ => []
  | w :: r, free =>
    if w.p.since.isSome then
      let t := takeFrom free (s.usable clusters w) w.p.target (s.wants w)
      (w, t) :: s.reservations clusters r (less free t)
    else s.reservations clusters r free

/-- A gang past its ageing limit keeps another, of no higher priority, from capacity in its target; one that is itself past
its limit and ahead in the order is not kept from it (R417, R418). -/
def Want.keeps (y e : Want) : Bool :=
  y.p.aged && y.key != e.key && decide (e.x.prio ≤ y.x.prio) && !(e.p.aged && keysLt e.key y.key)

/-- The capacity that a gang may take, in the order it is tried: unreserved first, then with the reservations of others given
up core by core in ascending order (R415, R418). -/
def State.views (s : State) (clusters : List Nat) (free : List (Nat × Need)) (ws : List Want) (e : Want) :
    List (List (Nat × Need)) :=
  let open_ := (ws.filter (·.keeps e)).foldl
    (fun f y => less f (y.p.target.map fun c => (c, ((Map.find f c).getD {}).least (s.usable clusters y c)))) free
  let taken := (s.reservations clusters ws free).flatMap fun r => if r.1.key == e.key || r.1.keeps e then [] else r.2
  let cores := (open_.map (·.1)).filter fun c => taken.any fun t => t.1 == c && t.2 != {}
  (List.range (cores.length + 1)).map fun n => less open_ (taken.filter fun t => !(cores.take n).contains t.1)

/-- A gang fits: its groups with their cores, on the first view of capacity that takes them all. -/
def State.tryPlace (s : State) (part : Nat) (free : List (Nat × Need)) (e : Want) : Option (List Group) :=
  (s.views (s.clustersOf part) free (s.pending part) e).findSome? (s.assign (s.clustersOf part) e)

/-! ### Waiting and its target (R416) -/

/-- Cores on which one of a gang's groups would fit. -/
def freeCount (free : List (Nat × Need)) (ns : List Need) (cores : List Nat) : Nat :=
  (cores.filter fun c => match Map.find free c with
    | some f => ns.any (·.fits f)
    | none => false).length

/-- The first of some lists of cores with the most free ones. -/
def mostFree (free : List (Nat × Need)) (ns : List Need) : List (List Nat) → List Nat
  | [] => []
  | c :: r =>
    r.foldl (fun best d => if freeCount free ns best < freeCount free ns d then d else best) c

/-- The target of a gang that becomes waiting (R416, R419, R458). -/
def State.targetOf (s : State) (part : Nat) (free : List (Nat × Need)) (w : Want) : List Nat :=
  let cl := s.clustersOf part
  let gs := s.gangGroups w
  match s.homes cl w with
  | some cores => cores.eraseDups
  | none =>
    if nodeGangs ≤ w.p.gang then s.coresOf cl
    else
    let view := ((s.views cl free (s.pending part) w).head?).getD free
    mostFree view (gs.map s.need) ((instances w.x.block.span cl).map s.coresOf)

/-- A gang's record changed. -/
def State.modPend (s : State) (l gang : Nat) (f : Pend → Pend) : State :=
  s.modLaunch l fun x => { x with pend := x.pend.map fun p => if p.gang == gang then f p else p }

/-- The Curator visits gangs in order until one fits; each that does not becomes waiting (R416). -/
def State.visitFrom (s : State) (part : Nat) (free : List (Nat × Need)) : List Want → State × Option (Want × List Group)
  | [] => (s, none)
  | w :: r =>
    match s.tryPlace part free w with
    | some gs => (s, some (w, gs))
    | none =>
      (if w.p.since.isSome then s
      else s.modPend w.l w.p.gang fun p => { p with since := some s.cycle, target := s.targetOf part free w }).visitFrom part free r

/-- A visit of a partition's pending gangs: the first that fits (R416). -/
def State.visit (s : State) (part : Nat) : State × Option (Want × List Group) :=
  s.visitFrom part (s.freeOf (s.clustersOf part)) (s.pending part)

/-- The marks of a visit, after capacity has freed or a gang has come. -/
def State.revisit (s : State) (part : Option Nat) : State :=
  match part with
  | some p => (s.visit p).1
  | none => s

/-- The oldest waiting gang of a launch passes its limit: 262,144 cycles (R418). -/
def ageingLimit : Nat := 262144

/-- AGEING_LIMIT. -/
def execAgeingLimit (launch gang : Nat) (s : State) : Res :=
  .next (s.modPend launch gang fun p => match p.since with
    | some c => if c + ageingLimit ≤ s.cycle then { p with aged := true } else p
    | none => p)

/-! ## Messages (R421) -/

/-- Send permits in use on the command link of a cluster: one for each gang on whose PREEMPT or RESTORE its Docent is still acting,
and one for each group on whose KILL it is, which the Curator sends for every group (R441). A PLACE takes one for the step in which
the Docent acts on it (log 37). -/
def State.permitsUsed (s : State) (cluster : Nat) : Nat :=
  let gs := (Map.values s.groups).filter fun g => g.core / 192 == cluster
  ((gs.filter fun g => g.life == .stopping || g.life == .restoring).map fun g => (g.launch, g.gang)).eraseDups.length +
    (gs.filter fun g => g.life == .ending).length

/-- Every cluster of some groups has a permit left of its 16. -/
def State.permitted (s : State) (gs : List Group) : Bool := gs.all fun g => decide (s.permitsUsed (g.core / 192) < 16)

/-- The report that the Curator acts on next on a cluster's report link. -/
def State.nextReport (s : State) (cluster : Nat) : Option Report := (s.reports.find? fun e => e.1 == cluster).map (·.2)

/-- A report: a Docent sends it once it is due and its link has a permit left of 16, and the Curator acts on it in its turn, which
returns the permit. A gang's report goes over the links of all its clusters. -/
def State.report (s : State) (clusters : List Nat) (r : Report) (due : State → Bool) (act : State → State) : State :=
  let sent := (s.reports.filter fun e => e.2 == r).map (·.1)
  if sent.isEmpty then
    if due s && clusters.all fun c => decide ((s.reports.filter fun e => e.1 == c).length < 16) then
      { s with reports := s.reports ++ clusters.map fun c => (c, r) }
    else s
  else if sent.all fun c => s.nextReport c == some r then
    let s1 := { s with reports := s.reports.filter fun e => e.2 != r }
    if due s1 then act s1 else s1
  else s

/-! ## PLACE (R399-R402, R407, R422, R437) -/

/-- The partition's next WAVEID: values still held are skipped (R401). -/
def State.freshID (s : State) (part n : Nat) : Nat → Nat
  | 0 => n
  | fuel + 1 =>
    if s.idHeld part (BitVec.ofNat 32 n) then s.freshID part ((n + 1) % 2 ^ 32) fuel else n

/-- A wave of a newly placed group (R400, R401, R407, R437): `recs` are the records of a node batch. A handler group's wave starts
with the trap record in s0 to s15, and a node group's with zero. -/
def State.startWave (s : State) (part gh : Nat) (x : Launch) (g : Group) (i : Nat) (recs : List (List Word)) : State :=
  let fixed := x.fixedIds
  let n := s.freshID part (((Map.find s.parts part).map (·.counter)).getD 0) (s.waves.length + 1)
  let id := if fixed then g.grpid * 16 + i else n
  let entry := if g.node.isSome then (x.block.nodes.getD g.role {}).entry else (x.block.roles.getD g.role {}).entry
  let mask : Mask := if g.node.isSome then maskOf (List.range recs.length) else BitVec.allOnes 64
  let recw := if g.node.isSome then (x.block.nodes.getD g.role {}).recw else 0
  let w0 : Wave :=
    { group := gh, idx := i, waveid := BitVec.ofNat 32 id, spill := x.block.spill, base := g.regs, blocks := g.regs,
      matrix := decide (i < g.mats), age := s.cycle, codeSeen := s.codeCount, exited := ~~~mask,
      first := some { pc := x.block.code + entry.zeroExtend 64, mask := mask },
      s := if g.node.isSome then [] else (List.range 16).foldl (fun f j => Sparse.set 0 f j (x.record.getD j 0)) [] }
  let w1 := (List.range recw).foldl (fun (w : Wave) j => w.vput j mask fun l => (recs.getD l []).getD j 0) w0
  let s1 := { s with nextWave := s.nextWave + 1, waves := Map.put s.waves s.nextWave w1 }
  let s2 := if fixed then s1 else { s1 with parts := Map.modify s1.parts part fun p => { p with counter := (n + 1) % 2 ^ 32 } }
  s2.modGroup gh fun g => { g with waves := g.waves ++ [s.nextWave] }

/-- The stage headers of a launch in a cluster where it first places a group (R402). -/
def State.stageHeaders (s : State) (l cluster : Nat) (b : Block) : State :=
  if s.groups.any fun e => e.2.launch == l && e.2.core / 192 == cluster then s
  else (b.roles.filter (·.oq)).foldl
    (fun s r => s.putNum (.scr (clusterKey l cluster + r.off * 32)) (r.cap + r.itemw * 2 ^ 16) 4) s

/-- A group placed, its waves started. -/
def State.startGroup (s : State) (part : Nat) (w : Want) (g : Group) : State :=
  let gh := s.nextGroup
  let recs := ((w.x.batch w.p.gang).map (·.recs)).getD []
  let g1 := { g with life := .resident, fid := if w.x.handlerOf.isSome && g.node.isNone then some (w.x.record.getD 1 0).toNat else none }
  let s1 := s.stageHeaders w.l (g.core / 192) w.x.block
  let s2 := { s1 with nextGroup := gh + 1, groups := Map.put s1.groups gh g1 }
  (List.range g.nwaves).foldl (fun s i => s.startWave part gh w.x g1 i (if g.node.isSome then recs else [])) s2

/-- A gang leaves the pending order. -/
def State.unpend (s : State) (l gang : Nat) : State :=
  s.modLaunch l fun x =>
    { x with pend := x.pend.filter (·.gang != gang), batches := x.batches.filter fun b => !(b.launched && nodeGangs + b.num == gang) }

/-- PLACE: the first pending gang that fits is placed, and the Curator visits again (R416, R422). -/
def execPlace (part : Nat) (s : State) : Res :=
  let z := s.visit part
  match z.2 with
  | none => .next z.1
  | some (w, gs) =>
    if w.p.saved || !z.1.permitted gs then .next z.1
    else .next ((gs.foldl (fun s g => s.startGroup part w g) (z.1.unpend w.l w.p.gang)).revisit (some part))

/-! ## Pre-emption (R419, R442, R444, R445) -/

/-- The groups of a gang that have a core. -/
def State.gangOn (s : State) (l gang : Nat) : List (Nat × Group) := s.groups.filter fun e => e.2.launch == l && e.2.gang == gang

/-- A group's capacity is already freeing: it stops or ends, or its waves have all ended (R419). -/
def State.freeing (s : State) (g : Group) : Bool :=
  g.life == .stopping || g.life == .ending || (s.wavesOf g).all (·.over)

/-- Free capacity once what is freeing has freed, and the groups `gone` too. -/
def State.freeSoon (s : State) (clusters : List Nat) (gone : Group → Bool) : List (Nat × Need) :=
  ({ s with groups := s.groups.filter fun e => !(s.freeing e.2 || gone e.2) }).freeOf clusters

/-- The resident gangs of a partition. -/
def State.residents (s : State) (part : Nat) : List Want :=
  let keys := ((Map.values s.groups).filter (·.life == .resident)).map fun g => (g.launch, g.gang)
  keys.eraseDups.filterMap fun e => match Map.find s.launches e.1 with
    | some x => if s.partOf x == some part then some ⟨e.1, x, { gang := e.2 }⟩ else none
    | none => none

/-- A gang is given up before another: lower priority, then younger (R419). -/
def Want.givenUp (a b : Want) : Bool :=
  decide (a.x.prio < b.x.prio) || (a.x.prio == b.x.prio && keysLt b.key a.key)

/-- A gang takes its place in the order in which gangs are given up. -/
def insertVictim (w : Want) : List Want → List Want
  | [] => [w]
  | x :: r => if w.givenUp x then w :: x :: r else x :: insertVictim w r

/-- A gang fits `free` capacity. -/
def State.fitsOn (s : State) (part : Nat) (y : Want) (free : List (Nat × Need)) : Bool :=
  let cl := s.clustersOf part
  ((s.views cl free (s.pending part) y).findSome? (s.fitting cl y)).isSome

/-- A waiting gang has capacity to fit once what is freeing has freed, and the gangs `vs` with it. -/
def State.fitsWithout (s : State) (part : Nat) (y : Want) (vs : List Want) : Bool :=
  s.fitsOn part y (s.freeSoon (s.clustersOf part) fun g => vs.any fun v => v.l == g.launch && v.p.gang == g.gang)

/-- The resident gangs that may be pre-empted for a waiting gang, in order: those of lower priority that hold, in its target, some
capacity that it could use and that will not be free there (R419). -/
def State.candidates (s : State) (part : Nat) (y : Want) : List Want :=
  let cl := s.clustersOf part
  let soon := s.freeSoon cl fun _ => false
  let lacks := fun (c : Nat) => (s.usable cl y c).sub ((Map.find soon c).getD {})
  ((s.residents part).filter fun r => decide (r.x.prio < y.x.prio) &&
    (s.gangOn r.l r.p.gang).any fun e => y.p.target.contains e.2.core && !s.freeing e.2 && (s.need e.2).least (lacks e.2.core) != {}).foldl
    (fun acc r => insertVictim r acc) []

/-- The gangs that are pre-empted for a waiting gang past its limit that still cannot fit: of its candidates in order no more than let
it fit, and of those none that it fits without; all of them where even they do not suffice (R419). -/
def State.victimsFor (s : State) (part : Nat) (y : Want) : List Want :=
  if !y.p.aged || s.fitsOn part y (s.freeOf (s.clustersOf part)) || s.fitsWithout part y [] then []
  else
    let cs := s.candidates part y
    match (List.range (cs.length + 1)).find? fun n => s.fitsWithout part y (cs.take n) with
    | none => cs
    | some n => (cs.take n).reverse.foldl (fun kept c =>
        let fewer := kept.filter fun v => v != c
        if s.fitsWithout part y fewer then fewer else kept) (cs.take n)

/-- The first of them. -/
def State.victimFor (s : State) (part : Nat) (y : Want) : Option Want := (s.victimsFor part y).head?

/-- The gang that is pre-empted next in a partition. -/
def State.victim (s : State) (part : Nat) : Option Want := (s.pending part).findSome? (s.victimFor part)

/-- A gang may stop: in a deterministic launch not within a commit, nor while an atomic or a tile instruction that it has issued
can only complete with the round, which the save would hold up (R362, R456; log 44). -/
def State.mayStop (s : State) (x : Launch) (gs : List (Nat × Group)) : Bool :=
  !x.block.det || (x.commit.isNone && gs.all fun e => e.2.waves.all fun h => match Map.find s.waves h with
    | none => true
    | some w => w.outs.all fun o => o.done || (match o.op with
      | .atomic _ _ _ _ _ _ => false
      | .tile (.tst _ _ _) _ _ _ _ _ _ => false
      | .tile _ _ _ _ _ _ _ => !s.tileWaits h w o
      | _ => o.path != .tl))

/-- A stopping wave loses its places in every queue; a WAITP keeps its threshold (R118, R139, R149, R161). -/
def State.losePlaces (s : State) (h : Nat) : State :=
  { s with waiters := s.waiters.filter fun x => x.wave != h || (match x.on with
    | .waitp _ => true
    | _ => false) }

/-- PREEMPT: the slots of the gang's waves issue nothing further; what they wait in stays their instruction (R442). -/
def execPreempt (launch gang : Nat) (s : State) : Res :=
  match Map.find s.launches launch with
  | none => .next s
  | some x =>
    let gs := s.gangOn launch gang
    match (s.partOf x).bind s.victim with
    | some v =>
      if v.l = launch && v.p.gang = gang && s.permitted (gs.map (·.2)) && s.mayStop x gs then
        .next (gs.foldl (fun s e => (e.2.waves.foldl State.losePlaces s).modGroup e.1 fun g =>
          { g with life := if g.life = .resident then .stopping else g.life }) s)
      else .next s
    | none => .next s

/-- Small-matrix and tile operations and loads are complete, and if `atomics` also atomics and the tile stores that a deterministic
wave has buffered, which only a commit completes (R265, R362, R442 step 2). -/
def Wave.drained (w : Wave) (atomics : Bool) : Bool :=
  w.flagPend.isEmpty && !(w.outs.any fun o => !o.done && (match o.op with
    | .load _ => true
    | .tile _ _ _ _ _ _ _ => true
    | .atomic _ _ _ _ _ _ => atomics
    | _ => atomics && o.path == .tl))

/-- The groups of a gang in one stage of life. -/
def State.gangIn (s : State) (l gang : Nat) (life : Life) : List (Nat × Group) := (s.gangOn l gang).filter fun e => e.2.life == life

/-- The clusters of some groups. -/
def clustersOn (gs : List (Nat × Group)) : List Nat := (gs.map fun e => e.2.core / 192).eraseDups

/-- A stopped gang can be saved: its waves have drained, and each of its cores has a shadow free (R442, R444). -/
def State.saveDue (s : State) (launch gang : Nat) : Bool :=
  let gs := s.gangIn launch gang .stopping
  !gs.isEmpty && (gs.all fun e => (s.wavesOf e.2).all (·.drained true)) &&
    (gs.map (·.2.core)).all fun c => decide (((Map.find s.shadows c).getD []).length < 2)

/-- A stopped gang is in a shadow of each of its cores, and returns to the pending order, waiting for its cores (R419, R444). -/
def State.save (s : State) (launch gang : Nat) : State :=
  let gs := s.gangIn launch gang .stopping
  let cores := (gs.map (·.2.core)).eraseDups
  let s1 := gs.foldl (fun s e => s.modGroup e.1 fun g => { g with life := .saved }) s
  let shadows := cores.foldl (fun m c =>
    Map.put m c (((Map.find m c).getD []) ++ [((gs.find? fun e => e.2.core == c).map (·.1)).getD 0])) s1.shadows
  let s2 := ({ s1 with shadows := shadows }).modLaunch launch fun x =>
    { x with pend := x.pend ++ [({ gang := gang, target := cores, since := some s.cycle, saved := true } : Pend)] }
  s2.revisit ((Map.find s.launches launch).bind s.partOf)

/-- SAVED: the report of a gang saved (R421, R444). -/
def execSaved (launch gang : Nat) (s : State) : Res :=
  .next (s.report (clustersOn (s.gangIn launch gang .stopping)) (.saved launch gang) (·.saveDue launch gang) (·.save launch gang))

/-- SHADOW_STREAM_OUT: the oldest shadow of a core is free again (R444). -/
def execShadowStreamOut (core : Nat) (s : State) : Res :=
  .next { s with shadows := Map.modify s.shadows core fun xs => xs.drop 1 }

/-- RESTORE: a saved gang that is the first to fit returns to its cores (R416, R419, R444). -/
def execRestore (launch gang : Nat) (s : State) : Res :=
  match (Map.find s.launches launch).bind s.partOf with
  | none => .next s
  | some part =>
    let z := s.visit part
    match z.2 with
    | some (w, gs) =>
      if w.l = launch && w.p.gang = gang && w.p.saved && z.1.permitted gs then
        .next (((z.1.gangIn launch gang .saved).foldl (fun s e => s.modGroup e.1 fun g => { g with life := .restoring })
          (z.1.unpend launch gang)).revisit (some part))
      else .next z.1
    | none => .next z.1

/-- RESTORED: every wave is resident and may issue; a shadow that still held the gang is free (R421, R444). -/
def execRestored (launch gang : Nat) (s : State) : Res :=
  .next (s.report (clustersOn (s.gangIn launch gang .restoring)) (.restored launch gang)
    (fun s => !(s.gangIn launch gang .restoring).isEmpty) fun s =>
      let gs := s.gangIn launch gang .restoring
      let s1 := gs.foldl (fun s e => s.modGroup e.1 fun g => { g with life := .resident }) s
      { s1 with shadows := s1.shadows.map fun e => (e.1, e.2.filter fun h => !(gs.any fun g => g.1 == h)) })

/-! ## FAULT (R429, R434-R438, R441) -/

/-- The record of a stopped wave (R434). -/
def trapRecord (t : Trap) (fid : Nat) (waveid : Word) (grpid : Nat) : List Word :=
  let hi := fun (x : DWord) => (x >>> 32).truncate 32
  [BitVec.ofNat 32 (t.access * 2 ^ 18 + bit t.precise * 2 ^ 17 + bit t.second * 2 ^ 16 + t.reason * 2 ^ 8 + t.cause),
    BitVec.ofNat 32 fid, t.pc.truncate 32, hi t.pc, t.addr.truncate 32, hi t.addr, t.paddr.truncate 32, hi t.paddr,
    t.lmask.truncate 32, hi t.lmask, t.rmask.truncate 32, hi t.rmask, t.w12, t.w13, waveid, BitVec.ofNat 32 grpid]

/-- The record of a wave's stop. -/
def State.recordOf (s : State) (w : Wave) (t : Stop) : List Word :=
  trapRecord t.trap t.fid w.waveid (((Map.find s.groups w.group).map (·.grpid)).getD 0)

/-- The tenant's next identifier that is not pending (R434). -/
def State.freshFid (s : State) (tenant n : Nat) : Nat → Nat
  | 0 => n
  | fuel + 1 =>
    if (s.faulted tenant (BitVec.ofNat 32 n)).isSome then s.freshFid tenant (n % (2 ^ 32 - 1) + 1) fuel else n

/-- A stop's route. -/
def State.setRoute (s : State) (h : Nat) (r : Route) : State :=
  s.modWave h fun w => { w with stop := w.stop.map fun t => { t with route := r } }

/-- The FAULT action for a wave's fault, `root` being the launch it falls to (R429, R441). -/
def State.faultAction (s : State) (root h fid : Nat) : State :=
  match Map.find s.launches root, Map.find s.waves h with
  | some x, some w =>
    match w.stop with
    | none => s
    | some t =>
      if (x.chain.headD {}).notify then (s.setRoute h .posting).record x.tenant 0 fid (s.recordOf w t)
      else (s.setRoute h .killing).modLaunch root fun x => { x with killed := if x.killed.isSome then x.killed else some fid }
  | _, _ => s

/-- Handler groups of a launch (R436). -/
def State.handlersOf (s : State) (l : Nat) : Nat := (s.launches.filter fun e => e.2.handlerOf == some l).length

/-- A handler launch block obeys R437, and can be placed as a launch block. -/
def Block.handlerOk (b : Block) (nodes : List (List Word)) : Bool :=
  b.roles.length == 1 && (b.roles.all fun r => r.groups == 1 && r.waves == 1) && !b.det && b.gangs.isSome && b.stagesOk && nodes.all nodeOk

/-- A handler group for a fault, or its FAULT action where the block does not serve (R429, R437). -/
def State.startHandler (s : State) (root h fid : Nat) (va : DWord) : State :=
  match Map.find s.launches root with
  | none => s
  | some x =>
    let z := s.readBlock x.tenant va
    match z.2 with
    | .error _ => z.1.faultAction root h fid
    | .ok (b, _) =>
      let n := z.1.readNodes x.tenant b
      match n.2, (Map.find n.1.waves h).bind fun w => w.stop.map fun t => (w, t) with
      | some ws, some (w, t) =>
        if !b.handlerOk ws then n.1.faultAction root h fid
        else
          let b := { b with nodes := ws.map nodeOf }
          let l : Launch := { tenant := x.tenant, block := b, chain := x.chain, age := x.age, pend := b.pending,
                              record := n.1.recordOf w t, handlerOf := some root }
          let s1 := { n.1 with nextLaunch := n.1.nextLaunch + 1, launches := Map.put n.1.launches n.1.nextLaunch l }
          (s1.setRoute h (.handler fid)).revisit (s1.partOf x)
      | none, _ => n.1.faultAction root h fid
      | _, none => n.1

/-- A stopped wave's fault that has still to be sent, the launch it falls to not being killed. -/
def State.unsentFault (s : State) (wave : Nat) : Bool :=
  match Map.find s.waves wave, s.launchOf wave with
  | some w, some (l, x) => (w.stop.map fun t => decide (t.route = .unsent)) == some true &&
      ((Map.find s.launches (x.handlerOf.getD l)).map (·.killed.isSome)) != some true
  | _, _ => false

/-- A fault reaches the Curator: an identifier, and the route of R429 past the wave's own handler; one for a handler group waits
behind those that wait already (R436). -/
def State.sendFault (s : State) (wave : Nat) : State :=
  match (Map.find s.waves wave).bind (·.stop), s.launchOf wave with
  | some t, some (l, x) =>
    let n := s.freshFid x.tenant (((Map.find s.tenants x.tenant).map (·.nextFid)).getD 1) (s.waves.length + 1)
    let s1 : State := { (s.modWave wave fun w => { w with stop := some { t with fid := n } }) with
      tenants := Map.modify s.tenants x.tenant fun e => { e with nextFid := n % (2 ^ 32 - 1) + 1 } }
    match x.handlerOf, (x.chain.headD {}).handler with
    | none, some va =>
      if s1.handlersOf l < 16 && x.handlerQueue.isEmpty then s1.startHandler l wave n va
      else (s1.setRoute wave .queued).modLaunch l fun x => { x with handlerQueue := x.handlerQueue ++ [n] }
    | _, _ => s1.faultAction (x.handlerOf.getD l) wave n
  | _, _ => s

/-- FAULT: the report of a fault that the wave's own handler does not take (R421, R429). -/
def execFault (wave : Nat) (s : State) : Res :=
  .next (s.report ((s.coreOf wave).map (· / 192)).toList (.fault wave) (·.unsentFault wave) (·.sendFault wave))

/-- Records that waited for a handler group get one, as long as fewer than 16 exist; one that is no longer pending, or whose
block does not serve, leaves its place to the next (R436). -/
def State.nextHandlers (s : State) (l : Nat) : Nat → State
  | 0 => s
  | fuel + 1 =>
    match Map.find s.launches l with
    | none => s
    | some x =>
      match x.handlerQueue, (x.chain.headD {}).handler with
      | fid :: r, some va =>
        if 16 ≤ s.handlersOf l || x.killed.isSome then s
        else
          let s1 := s.modLaunch l fun x => { x with handlerQueue := r }
          (match s1.faulted x.tenant (BitVec.ofNat 32 fid) with
          | some (h, _, _) => s1.startHandler l h fid va
          | none => s1).nextHandlers l fuel
      | _, _ => s

/-- Every record that can get a handler group does. -/
def State.nextHandler (s : State) (l : Nat) : State :=
  s.nextHandlers l (((Map.find s.launches l).map fun x => x.handlerQueue.length).getD 0)

/-! ## The end of groups and launches (R97, R132, R191, R326, R404, R421, R438, R441, R446, R459) -/

/-- A scratchpad address of a command names the core allocation of group `gh` by level 1 (R95). -/
def State.namesPeer (s : State) (c : Command) (gh : Nat) (a : Nat) : Bool :=
  field a 31 28 == 1 && ((s.peer c.launch (c.core / 192 * 192 + field a 27 20)).map (·.1)) == some gh

/-- The scratchpad addresses that a command names: of each side, row by row where it is indexed, and of its index array. -/
def State.commandNames (s : State) (c : Command) : List Nat :=
  ((List.range 2).filter c.scratchSide).flatMap (fun i =>
    if c.indexed i then (List.range c.rows).map fun j => (s.engAddr c i j 0).toNat % 2 ^ 32 else [(c.start i).toNat % 2 ^ 32]) ++
  (if c.gather then [c.word 2] else [])

/-- A command still on its way names the core allocation of a group: its own group's, or by level 1 (R132). -/
def State.namedByCommand (s : State) (gh : Nat) : Bool :=
  let cs := (s.intakes.flatMap (·.2)) ++ Map.values s.engines ++ s.waves.flatMap fun e => e.2.qops.filterMap fun q => match q with
    | .command c => some c
    | _ => none
  cs.any fun c => c.group == gh || (s.commandNames c).any (s.namesPeer c gh)

/-- All of a group's waves have ended and everything they issued has completed (R132, R191). -/
def State.groupOver (s : State) (gh : Nat) (g : Group) : Bool :=
  (s.wavesOf g).all (fun w => w.over && w.outs.isEmpty && w.flagPend.isEmpty && w.qops.isEmpty) && !s.namedByCommand gh

/-- In a deterministic launch a group retires in its turn: along the curve, then node groups in order (R459). -/
def State.turnToRetire (s : State) (x : Launch) (g : Group) : Bool :=
  if !x.block.det || x.killed.isSome then true
  else match g.node with
    | none => x.curve.head? == some g.grpid
    | some n =>
      x.curve.isEmpty && !(s.groups.any fun e => e.2.launch == g.launch && (match e.2.node with
        | some m => decide (m < n)
        | none => false)) &&
        !(x.pend.any fun p => decide (nodeGangs ≤ p.gang) && decide (p.gang < g.gang))

/-- An allocation's bytes and the phases in it are gone (R97). -/
def State.release (s : State) (key : Nat) : State :=
  { s.zeroScr key (2 ^ 27) with phases := s.phases.filter fun e => !(decide (key ≤ e.1) && decide (e.1 < key + 2 ^ 27)) }

/-- A group is gone, with its waves and its allocations; the launch's last group in a cluster or on a die takes the
allocation there with it, and the cluster's regions (R97, R326). A queue there that another group has bound stays active on the
zeroed bytes (R136; log 72). -/
def State.retire (s : State) (gh : Nat) (g : Group) : State :=
  let gone := fun (h : Nat) => g.waves.contains h
  let s1 := { s.release (coreKey gh) with
    groups := Map.erase s.groups gh
    waves := s.waves.filter fun e => !gone e.1
    syscs := s.syscs.filter fun e => !gone e.2.wave
    waiters := s.waiters.filter fun x => !gone x.wave
    shadows := s.shadows.map fun e => (e.1, e.2.filter (· != gh)) }
  let left := fun (unit : Nat → Nat) => s1.groups.any fun e => e.2.launch == g.launch && unit e.2.core == unit g.core
  let s2 := if left (· / 192) then s1
    else { s1.release (clusterKey g.launch (g.core / 192)) with
      regions := s1.regions.filter fun e => !(e.1 / 64 == g.core / 192 && e.2.launch == g.launch) }
  let s3 := if left (· / 576) then s2 else s2.release (dieKey g.launch (g.core / 576))
  if g.node.isNone then s3.modLaunch g.launch fun x => { x with curve := x.curve.filter (· != g.grpid) } else s3

/-- Every non-empty batch is launched once nothing else of the launch is left (R406). -/
def State.flush (s : State) (l : Nat) : State :=
  match Map.find s.launches l with
  | none => s
  | some x =>
    if x.killed.isSome || (s.groups.any fun e => e.2.launch == l) || x.pend.any fun p => decide (p.gang < nodeGangs) then s
    else s.modLaunch l fun x => x.openNodes.foldl (fun x m => x.launchOpen m) x

/-- Nothing of a launch is left: no group, no pending gang, no record of a node, no handler group (R404). -/
def State.launchOver (s : State) (l : Nat) (x : Launch) : Bool :=
  !(s.groups.any fun e => e.2.launch == l) && x.pend.isEmpty && x.batches.isEmpty && s.handlersOf l == 0

/-- A group of a handler launch has ended: a fault that the handler group itself, which has `fid`, leaves goes to the FAULT
action, and with the launch's last group a waiting record gets its place (R436, R438). -/
def State.handlerOver (s : State) (l : Nat) (x : Launch) (fid : Option Nat) : State :=
  match x.handlerOf with
  | none => s
  | some root =>
    let s1 := match fid.bind fun n => (s.faulted x.tenant (BitVec.ofNat 32 n)).map fun e => (n, e) with
      | some (n, h, _, t) => if t.route = .handler n then s.faultAction root h n else s
      | none => s
    match Map.find s1.launches l with
    | some y => if s1.launchOver l y then ({ s1 with launches := Map.erase s1.launches l }).nextHandler root else s1
    | none => s1

/-- A group's waves have all ended and drained, in its turn. -/
def State.endDue (s : State) (group : Nat) : Bool :=
  match (Map.find s.groups group).bind fun g => (Map.find s.launches g.launch).map fun x => (g, x) with
  | some (g, x) => decide (g.life ≠ .saved) && decide (g.life ≠ .restoring) && s.groupOver group g && s.turnToRetire x g
  | none => false

/-- An ended group is gone, every access of it performed at system scope, and the Curator visits its pending gangs again (R385). -/
def State.endOf (s : State) (group : Nat) : State :=
  match (Map.find s.groups group).bind fun g => (Map.find s.launches g.launch).map fun x => (g, x) with
  | some (g, x) => ((((s.widen 5 (·.group == group)).retire group g).flush g.launch).handlerOver g.launch x g.fid).revisit (s.partOf x)
  | none => s

/-- ENDED: the report of a group's end (R421). -/
def execEnded (group : Nat) (s : State) : Res :=
  .next (s.report ((Map.find s.groups group).map fun g => g.core / 192).toList (.ended group) (·.endDue group) (·.endOf group))

/-- The KILL of one group: it stops and drains, to end without a save (R441, R446). What a wave of a deterministic launch has
buffered performs at the commit that is open or comes next, as after an EXIT (R385, R454; log 38). -/
def State.killGroup (s : State) (gh : Nat) : State :=
  match Map.find s.groups gh with
  | none => { s with kills := s.kills.filter fun g => g != gh }
  | some g =>
    if g.life = .ending || g.life = .retired then { s with kills := s.kills.filter fun g => g != gh }
    else if !s.permitted [g] then s
    else { s with kills := s.kills.filter fun g => g != gh }.endGroup gh

/-- The groups of a launch and its handler groups that an ABORT has ended (R441). -/
def State.aborted (s : State) (launch : Nat) : List Nat :=
  s.kills.filter fun gh => match Map.find s.groups gh with
    | some g => g.launch == launch || (Map.find s.launches g.launch).bind (·.handlerOf) == some launch
    | none => true

/-- KILL: the groups of a killed launch and its handler groups, or those that an ABORT has ended, as far as permits allow; a
killed launch's pending gangs are dropped (R421, R441). -/
def execKill (launch : Nat) (s : State) : Res :=
  match Map.find s.launches launch with
  | none => .next s
  | some x =>
    if x.killed.isNone then .next ((s.aborted launch).foldl State.killGroup s)
    else
      let ls := launch :: (s.launches.filter fun e => e.2.handlerOf == some launch).map (·.1)
      let s1 := ls.foldl (fun s l => s.modLaunch l fun x => { x with pend := [], batches := [], handlerQueue := [] }) s
      let s2 := ((s1.groups.filter fun e => ls.contains e.2.launch).map (·.1)).foldl State.killGroup s1
      let done := ls.filter fun l => l != launch && !(s2.groups.any fun e => e.2.launch == l)
      .next ({ s2 with launches := s2.launches.filter fun e => !done.contains e.1 }.revisit (s.partOf x))

/-- A tenant's cached translations, and walks for it, are gone (R72, R446). -/
def State.dropTenant (s : State) (tenant : Nat) : State :=
  { s with
    utlb := s.utlb.map fun e => (e.1, e.2.filter fun t => t.tenant != tenant)
    ctlb := s.ctlb.map fun e => (e.1, e.2.filter fun t => t.tenant != tenant)
    wcache := s.wcache.map fun e => (e.1, e.2.filter fun t => t.tenant != tenant)
    walks := s.walks.map fun e => (e.1, e.2.filter fun t => t.tenant != tenant) }

/-- The last step of a tenant reset, once the launches that it has killed are gone: the tenant's cached translations are dropped
(R446). -/
def State.resetOver (s : State) (tenant : Nat) : State :=
  if s.launches.any fun e => e.2.tenant == tenant && e.2.killed == some 0 then s else s.dropTenant tenant

/-- A tenant is gone once its reset is over: its device fails and its queues are no longer offered; no translation, walk or
invalidation of it is left for a tenant that gets its slot (R62, R474, R479). -/
def State.removed (s : State) (tenant : Nat) : State :=
  match (Map.find s.tenants tenant).bind (·.removing) with
  | none => s
  | some (ring, seq) =>
    if s.launches.any fun e => e.2.tenant == tenant then s
    else
      { s.dropTenant tenant with
        tenants := Map.erase s.tenants tenant
        devs := Map.put s.devs tenant { failed := true }
        invals := s.invals.filter fun e => e.2.tenant != tenant }.complete ring seq 0

/-- A recording launch's open runs and its header are written, once; its last writes may have to wait for translations (R74,
R467). -/
def State.closeLog (s : State) (l : Nat) (x : Launch) : State :=
  if !x.recording then s
  else if x.log.closed then s.pump l none
  else (s.flushLog l ((((s.partOf x).map s.clustersOf).getD []).headD 0)).modLaunch l fun x => { x with log := { x.log with closed := true } }

/-- LAUNCH_COMPLETION: the log is closed and written, and the command completes (R404, R441, R446, R466, R467, R478). -/
def execLaunchCompletion (launch : Nat) (s : State) : Res :=
  match Map.find s.launches launch with
  | none => .next s
  | some x =>
    if x.handlerOf.isSome || !s.launchOver launch x then .next s
    else
      let s1 := s.closeLog launch x
      let status := match x.killed with
        | none => (0, 0)
        | some 0 => (38, 0)
        | some fid => (16, fid)
      if ((Map.find s1.launches launch).map (·.log.todo)).getD [] ≠ [] then .next s1
      else
        let s2 := { s1 with launches := Map.erase s1.launches launch }
        let s3 := if x.killed = some 0 then s2.resetOver x.tenant else s2
        .next ((s3.complete x.ring x.seq status.1 status.2 (wordsOfBytes x.signature)).removed x.tenant)

/-! ## LAUNCH (R397, R414, R479) -/

/-- LAUNCH: the thread's command is taken unless the partition is full; the launch is refused with the status of the first
check that fails, or admitted. -/
def execLaunch (lq : Nat) (s : State) : Res :=
  match s.nextCmd lq with
  | none => .next s
  | some x =>
    match Map.find s.tenants x.dev with
    | none => .next s
    | some t =>
      if x.opc = 1 && 256 ≤ s.admitted t.part then .next s
      else s.command lq 1 10 (fullWords 2 6 ++ [(7, 6)] ++ fullWords 8 9) fun x s =>
        if bitAt (x.c 7).toNat 2 && x.c64 8 = 0 then s.answer x 33
        else
          let z := s.launchChecks t x lq
          match z.2 with
          | .error e => z.1.answer x e
          | .ok l =>
            .next ({ z.1 with nextLaunch := z.1.nextLaunch + 1
                              launches := Map.put z.1.launches z.1.nextLaunch { l with seen := z.1.codeCount } }.revisit (some t.part))

/-! ## Node timers (R406, R408) -/

/-- NODE_BATCH_TIMER: a node's timer has lapsed, and what has lapsed is launched in the order of first records (R406); a deterministic
launch counts rounds at its commits. -/
def execNodeBatchTimer (launch node : Nat) (s : State) : Res :=
  match Map.find s.launches launch with
  | none => .next s
  | some x =>
    if !x.block.det && x.killed.isNone && x.lapsed node s.cycle then
      .next ((s.modLaunch launch (·.lapse s.cycle)).revisit (s.partOf x))
    else .next s

/-! ## The issue selector (R170, R423-R426) -/

/-- An opcode of the V class. -/
def vClass (op : Nat) : Bool :=
  let within := fun (lo hi : Nat) => decide (lo ≤ op) && decide (op ≤ hi)
  within 0x20 0x39 || within 0x40 0x4B || within 0x68 0x6D || within 0x70 0x85 || within 0x88 0x8C || within 0x90 0x96 ||
    within 0xC0 0xC9 || within 0xD0 0xDF

/-- The port an instruction issues through. -/
def onVPort (i : Instr) : Bool := vClass ((encode i).headD 0 / 2 ^ 24)

/-- The fill and capacity of a role's stage queue in the wave's cluster. -/
def State.stageFill (s : State) (k : Slot) (j : Nat) : Option (Nat × Nat) :=
  match k.l.block.roles[j]? with
  | none => none
  | some r =>
    if !r.oq then none
    else
      let key := clusterKey k.g.launch k.cluster + r.off * 32
      match Map.find s.queues key with
      | some q => some (q.fill, q.cap)
      | none => some ((s.word (.scr (key + 8)) - s.word (.scr (key + 4))).toNat, r.cap)

/-- A stage boost (R424). -/
def State.stageBoost (s : State) (k : Slot) : Bool :=
  k.g.node.isNone &&
  ((match s.stageFill k k.g.role with
    | some (f, c) => decide (4 * f ≤ c)
    | none => false) ||
  (k.g.role != 0 && (match s.stageFill k (k.g.role - 1) with
    | some (f, c) => decide (3 * c ≤ 4 * f)
    | none => false)))

/-- A slot has been ready for a port for 256 cycles or more: it has the boost (R423). -/
def State.starved (s : State) (w : Wave) (at_ : Nat) : Bool :=
  w.boosts.contains at_ || ((Map.find w.since at_).map fun c => decide (c + 256 ≤ s.cycle)) == some true

/-- The keys of R423, first key first, for a port: lower ranks higher. -/
def State.rank (s : State) (k : Slot) (v : Bool) : List Nat :=
  let at_ := bit k.second * 2 + bit v
  let boosted := s.starved k.w at_
  [bit (!boosted), if boosted then (Map.find k.w.since at_).getD 0 else 0, bit (!s.stageBoost k), 47 - k.l.prio, k.w.age,
    k.w.waveid.toNat, bit k.second]

/-- The slots of a core's resident waves. -/
def State.slotsOn (s : State) (core : Nat) : List Slot :=
  s.waves.flatMap fun e => [false, true].filterMap fun b => match s.slotOf e.1 b with
    | some k => if k.g.core == core && k.mayIssue then some k else none
    | none => none

/-- STARVATION_BOOST: a slot that has been ready for a port for 256 cycles gains the boost (R423). Since when it has been ready is
kept as cycles pass; it loses both when it issues, or stops being ready. -/
def execStarvationBoost (wave : Nat) (second vport : Bool) (s : State) : Res :=
  match Map.find s.waves wave with
  | none => .next s
  | some w =>
    let at_ := bit second * 2 + bit vport
    if s.starved w at_ && !w.boosts.contains at_ then .next (s.modWave wave fun w => { w with boosts := w.boosts ++ [at_] })
    else .next s

end Sys2Proof.Machine
end

