-- ==== Sys2Proof/Machine/Determ.lean ====
section
/-! DEFINITION. The end of a quantum and the commit of a round of a deterministic launch
(spec/23_deterministic_execution.md R448-R456, spec/17_atomics.md R356, R490, spec/20_launches_and_work.md R408). -/

namespace Sys2Proof.Machine

/-- QUANTUM_END: a wave that has retired its QUANTUM (R448). -/
def execQuantumEnd (wave : Nat) (s : State) : Res :=
  match Map.find s.waves wave, s.launchOf wave with
  | some w, some (_, x) =>
    if x.block.det && w.qstate = .running && x.block.quantum ≤ w.qret then
      .next (s.setWave wave { w with qstate := .ended none })
    else .next s
  | _, _ => .next s

/-- The waves of a launch in ascending WAVEID (R454). -/
def State.inTurn (s : State) (l : Nat) : List Nat :=
  ((s.waves.filterMap fun e => match Map.find s.groups e.2.group with
    | some g => if g.launch = l then some (e.2.waveid.toNat, e.1) else none
    | none => none).foldl (fun acc e => insertBy e acc) []).map (·.2)

/-- A round has ended: its waves have ended their quanta, nothing that completes within a quantum is outstanding, and every
group is on its cores (R449, R456). -/
def State.roundEnded (s : State) (l : Nat) (x : Launch) : Bool :=
  x.block.det && x.roundOpen && !(x.pend.any (·.saved)) &&
  !(s.inTurn l).isEmpty &&
  (s.groups.all fun e => e.2.launch != l || e.2.life == .resident || e.2.life == .ending || e.2.life == .retired) &&
  (s.inTurn l).all fun h => match Map.find s.waves h with
    | some w => w.roundOver x.block.quantum && w.drained false
    | none => true

/-! ## A wave's buffered operations (R452, R454) -/

/-- The operation is of step 1, after every turn: an engine command, a TMOV or a FITLD. -/
def State.isLate (s : State) (h : Nat) (q : QOp) : Bool :=
  match q with
  | .command _ => true
  | .out seq => match ((Map.find s.waves h).bind (·.out seq)).map (·.op) with
    | some (Op.tmov _ _ _ _ _ _ _ _) => true
    | some (Op.fit _ _ _ _ _) => true
    | _ => false
  | _ => false

/-- The buffered operations of a wave that are not yet applied. -/
def State.opsOf (s : State) (h : Nat) : List QOp := ((Map.find s.waves h).map (·.qops)).getD []

/-- An operation is applied, and no longer buffered. -/
def State.dropOp (s : State) (h : Nat) (q : QOp) : State := s.modWave h fun w => { w with qops := w.qops.erase q }

/-- The home units that an operation's entries have still to go to. -/
def State.actUnits (s : State) (h : Nat) (q : QOp) : List Nat :=
  match q with
  | .out seq =>
    match ((Map.find s.waves h).bind (·.out seq)).map (·.op) with
    | some (Op.atomic _ _ _ _ _ reqs) => (reqs.filter fun r => !r.over && !r.admitted).map fun r => s.homeUnit r.loc
    | _ => []
  | _ => []

/-- Windows of the launch at the units given close (R490). -/
def State.closeUnits (s : State) (l : Nat) (units : List Nat) : State :=
  units.eraseDups.foldl (fun s u => s.closeWindow (windowKey u (some l))) s

/-- A release of the wave has an earlier access that has not performed; an atomic has once every entry of it has been applied, for
another unit's window, or a lower lane of one element, might step before them (R84, R354). -/
def State.relWaits (s : State) (h : Nat) (w : Wave) (o : Out) : Bool :=
  o.rel && w.outs.any fun p => decide (p.seq < o.seq) && (s.dueDet h p || (!p.done && (match p.op with
    | .atomic _ _ _ _ _ reqs => reqs.any fun r => !r.over
    | _ => false)))

/-- The entries of one atomic that may reach their home units do, in issuer order (R83, R354). -/
def State.presentAtomic (s : State) (h l : Nat) (w : Wave) (o : Out) (wide : Bool) (reqs : List AReq) : State :=
  if s.relWaits h w o then s
  else (List.range reqs.length).foldl (fun s i => match reqs[i]? with
    | some r =>
      if r.over || r.admitted || w.atomicBlocked o true r.loc (atomBytes wide) then s
      else s.arriveEntry (s.homeUnit r.loc) (some l) (w.entry h o i r)
    | none => s) s

/-- The parts of a store that meet an error at the commit: those marked, and those at places that cannot be reached (R70, R487). -/
def State.storeBad (s : State) (h : Nat) (o : Out) (secs : List StSec) : List (Nat × Nat) :=
  o.bad ++ (List.range secs.length).filterMap fun i => (secs[i]?).bind fun c =>
    (c.bytes.find? fun e => !s.reaches (s.tenantOf h) e.1).map fun e => (e.1.errorCause, i)

/-- A BARA waits for the wave's earlier accesses, and barrier operations keep their order (R128, R146). -/
def State.barWaits (s : State) (h : Nat) (w : Wave) (q : QOp) : Bool :=
  let before := w.qops.takeWhile (· != q)
  let after := w.qops.drop (before.length + 1)
  (before.any fun p => match p with | .bar _ _ _ => true | _ => false) ||
    (match q with
    | .bar 2 _ _ => w.outs.any fun o => !after.contains (.out o.seq) && s.dueDet h o
    | _ => false)

/-- A buffered operation applied in its wave's turn, and whether all of it was: a byte is written only once the wave's earlier
accesses to it have performed (R83, R452, R454; log 64). -/
def State.applyOp (s : State) (h l : Nat) (q : QOp) : State × Bool :=
  let core := (s.coreOf h).getD 0
  match Map.find s.waves h with
  | none => (s, true)
  | some w =>
    match q with
    | .out seq =>
      match w.out seq with
      | none => (s, true)
      | some o =>
        match o.op with
        | .store secs =>
          if s.relWaits h w o || (secs.any fun c => c.bytes.any fun e => w.conflicts o.seq o.tag e.1 1) then (s, false)
          else (s.performStore h o secs 5 (s.storeBad h o secs), true)
        | .atomic _ wide _ _ _ reqs =>
          let s1 := s.presentAtomic h l w o wide reqs
          (s1, match ((Map.find s1.waves h).bind (·.out seq)).map (·.op) with
            | some (Op.atomic _ _ _ _ _ rs) => rs.all fun r => r.over || r.admitted
            | _ => true)
        | _ => (s, true)
    | .bar op place count => if s.barWaits h w q then (s, false) else (s.barOp op place count, true)
    | .command _ => (s, true)
    | .fitinv rid free => (s.fitinv (regionKey (core / 192) rid) free, true)
    | .apxb rid inv pc pages xs => ((s.apxbEngine core rid inv pc pages xs.length xs).1, true)
    | .apxe rid inv xs => (s.apxeEngine (core / 192) rid inv false xs, true)

/-- Operations that had to wait are tried again, in order. -/
def State.retry (l : Nat) : List (Nat × QOp) → State → State × List (Nat × QOp)
  | [], s => (s, [])
  | (h, q) :: r, s =>
    let z := s.applyOp h l q
    let t := State.retry l r (if z.2 then z.1.dropOp h q else z.1)
    (t.1, if z.2 then t.2 else (h, q) :: t.2)

/-- The home units whose windows of the launch's round are open. -/
def State.openUnits (s : State) (l : Nat) : List Nat :=
  (s.windows.filter fun e => e.2.launch == some l && e.2.n == s.windowNow (some l)).map (·.2.unit)

/-- The units that operations which wait have entries for. -/
def State.waitUnits (s : State) (wait : List (Nat × QOp)) : List Nat := wait.flatMap fun e => s.actUnits e.1 e.2

/-- Windows close for which the commit has no more entry, `later` naming the units of what is to come; what waited for their entries
is tried again, which may let other windows close (R354, R490). -/
def State.closeDue (l : Nat) (later : List Nat) : Nat → List (Nat × QOp) → State → State × List (Nat × QOp)
  | 0, wait, s => (s, wait)
  | fuel + 1, wait, s =>
    let due := (s.openUnits l).filter fun u => !(later ++ s.waitUnits wait).contains u
    if due.isEmpty then (s, wait)
    else
      let y := State.retry l wait (s.closeUnits l due)
      State.closeDue l later fuel y.2 y.1

/-- As many closings as there can be. -/
def State.closings (s : State) (l : Nat) (wait : List (Nat × QOp)) : Nat := (s.openUnits l).length + (s.waitUnits wait).length + 1

/-- Every window of the round closes: one whose waiting entries wait for windows to close themselves closes without them, and they
wait for the next round (log 54). -/
def State.closeAll (l : Nat) : Nat → List (Nat × QOp) → State → State
  | 0, _, s => s
  | fuel + 1, wait, s =>
    let y := State.closeDue l [] (s.closings l wait) wait s
    match y.1.openUnits l with
    | [] => y.1
    | u :: _ =>
      let z := State.retry l y.2 (y.1.closeUnits l [u])
      State.closeAll l fuel z.2 z.1

/-- A wave's operations applied in program order; `later` names the units of the turns to come (R454, R490). -/
def State.takeOps (l : Nat) (later : List Nat) (h : Nat) : List QOp → List (Nat × QOp) → State → State
  | [], _, s => s
  | q :: r, wait, s =>
    if s.isLate h q then State.takeOps l later h r wait s
    else
      let z := s.applyOp h l q
      let s1 := if z.2 then z.1.dropOp h q else z.1
      let wait1 := if z.2 then wait else wait ++ [(h, q)]
      let y := State.closeDue l (later ++ r.flatMap (s1.actUnits h)) (s1.closings l wait1) wait1 s1
      State.takeOps l later h r y.2 y.1

/-! ## The end of a turn -/

/-- The instruction that ended a quantum is presented, with the effect it has in any other launch (R452). -/
def State.runDeferred (s : State) (i : Instr) : Res :=
  match i with
  | .qpsh q a => execQpsh q a s
  | .qpop d q => execQpop d q s
  | .qtry op kd a q => execQtry op kd a q s
  | .qbind u q a kb => execQbind u q a kb s
  | .spawn n d a b => execSpawn n d a b s
  | .phbeg kd a => execPhbeg kd a s
  | .fitcfg d a => execFitcfg d a s
  | .slbind m kd a => execSlbind m kd a s
  | .slscor d a b => execSlscor d a b s
  | .slfin p a => execSlfin p a s
  | .slropn d a => execSlropn d a s
  | .slst d a acq => execSlst d a acq s
  | .slkvc d a => execSlkvc d a s
  | .slemit d => execSlemit d s
  | .sysc d fn => execSysc d fn s
  | .yield => execYield s
  | .qend => execQend s
  | _ => .next s

/-- The wave's instruction has retired, or it has entered a handler, or stands at a fault. -/
def Wave.acted (w : Wave) (t : State) (h : Nat) : Bool :=
  match Map.find t.waves h with
  | some w' => w'.qret != w.qret || w'.stop.isSome || w'.inH != w.inH
  | none => true

/-- The instruction presented, with the error it is to meet where it reads the word that has it (R309, R452). -/
def State.present (s : State) (h : Nat) (w : Wave) (i : Instr) : Res :=
  match w.badWord.bind fun e => s.runBad i e.1 e.2 with
  | some (.next t) => if w.acted t h then .next t else s.runDeferred i
  | _ => s.runDeferred i

/-- The end of a wave's turn: its group sees its CSR writes, and its last instruction is presented, with the error it is to meet.
None where the commit waits: for room in the stream intake, or in a tree of phases, since neither an SLEMIT nor a PHBEG is presented
again (R307, R452, R456). -/
def State.lastAct (s : State) (h : Nat) : Option State :=
  match Map.find s.waves h with
  | none => some s
  | some w =>
    let s1 := (w.csrPend.foldl (fun s e => s.putCsr h e.1 e.2) s).modWave h fun w => { w with csrPend := [] }
    match w.qstate with
    | .ended (some i) =>
      if w.stop.isSome || w.over then some s1
      else
        match { s1 with cur := (h, false) }.present h w i with
        | .next t =>
          if w.acted t h then some ({ t with cur := s.cur }.modWave h fun w' => { w' with qstate := .ended none })
          else match i with
            | .slemit _ | .phbeg _ _ => none
            | _ => some { t with cur := s.cur }
        | _ => some s1
    | _ => some s1

/-! ## After the turns (R454) -/

/-- Step 1: one engine command, TMOV or FITLD, whole, with the error it is to meet; in error while it waits for a walk. -/
def State.applyLate (s : State) (h : Nat) (q : QOp) : Except State State :=
  let out := fun (seq : Nat) => (Map.find s.waves h).bind (·.out seq)
  match q with
  | .command c => s.engRun c (((out c.out).map (·.bad)).getD [])
  | .out seq =>
    match out seq with
    | none => .ok s
    | some o =>
      match o.op with
      | .tmov _ _ _ _ _ _ _ _ => .ok (s.tmovDone h o)
      | .fit load cluster rid _ locs =>
        let bad := o.bad.map (·.2) ++ ((List.range locs.length).filter fun i => (locs[i]?).any fun y => !s.reaches (s.tenantOf h) y).take 1
        .ok (if bad.isEmpty then s.fitTransfer h seq load cluster rid locs [] else s.fitFail h o bad)
      | _ => .ok s
  | _ => .ok s

/-- Atomics of a wave whose entries have been applied return their values (R363, R452). -/
def State.returnAtomics (s : State) (h : Nat) : State :=
  match Map.find s.waves h with
  | none => s
  | some w => w.outs.foldl (fun s o => match o.op with
    | .atomic _ _ _ _ _ reqs => (List.range reqs.length).foldl (fun s i => s.returnAtomic h o.seq i) s
    | _ => s) s

/-- A wave at the end of a commit: interrupts are delivered at its boundary, and its next quantum begins (R431, R449, R454). An
instruction that could not proceed is presented again at the next commit. -/
def State.nextQuantum (s : State) (h : Nat) (code : DWord) : State :=
  let s1 := (s.unwaitAll h).settleLoops h false 4
  let inH := fun (s : State) => ((Map.find s.waves h).map (·.inH)).getD false
  let s2 := s1.deliverInterrupt h code
  let fresh := inH s1 != inH s2
  s2.modWave h fun w =>
    { w with
      quanta := w.quanta + 1
      qret := 0
      own := []
      badWord := none
      qstate := match w.qstate with
        | .ended (some i) => if fresh || w.stop.isSome then (if w.stop.isSome then .ended none else .running) else .ended (some i)
        | _ => if w.stop.isSome then .ended none else .running }

/-! ## The commit -/

/-- How far the commit of a launch has come. -/
def State.setCommit (s : State) (l : Nat) (c : Option CommitAt) : State := s.modLaunch l fun x => { x with commit := c }

/-- Steps 2 and 3: once every system call of the round has completed, interrupts are delivered and the next round begins, its
reads seeing memory as it now stands (R451, R454). -/
def State.endRound (s : State) (l : Nat) (x : Launch) : State :=
  let hs := s.inTurn l
  if s.syscs.any fun e => hs.contains e.2.wave then s.setCommit l (some .calls)
  else
    let s1 := hs.foldl (fun s h => s.nextQuantum h x.block.code) s
    s1.modLaunch l fun x => { x with round := x.round + 1, commit := none, seen := s1.codeCount }

/-- The nodes whose timers have lapsed with this round are launched, in the order of their first records (R406, R408). -/
def State.lapseNodes (s : State) (l : Nat) : State :=
  s.modLaunch l fun y => y.lapse (y.round + 1)

/-- Step 1 from some operation on; the commit stands at the first that waits. -/
def State.lateFrom (l : Nat) (x : Launch) : List (Nat × QOp) → State → State
  | [], s => ((s.lapseNodes l).revisit (s.partOf x)).endRound l x
  | (h, q) :: r, s =>
    match s.applyLate h q with
    | .ok t => State.lateFrom l x r (t.dropOp h q)
    | .error t => t.setCommit l (some (.late ((h, q) :: r)))

/-- Operations of the waves `hs` that have waited in their turns. -/
def State.waiting (s : State) (hs : List Nat) : List (Nat × QOp) :=
  hs.flatMap fun h => ((s.opsOf h).filter fun q => !s.isLate h q).map fun q => (h, q)

/-- After the last turn: the last windows close, values return, and step 1 begins. -/
def State.turnsOver (s : State) (l : Nat) (x : Launch) : State :=
  let hs := s.inTurn l
  let wait := s.waiting hs
  let s0 := State.closeAll l (s.closings l wait) wait s
  let s1 := hs.foldl State.returnAtomics { s0 with windows := s0.windows.filter fun e => e.2.launch != some l || e.2.entries != 0 }
  State.lateFrom l x (hs.flatMap fun h => ((s1.opsOf h).filter fun q => s1.isLate h q).map fun q => (h, q)) s1

/-- The turns from a wave on; with `mid`, the first one's operations have been applied. The commit stands at a turn that waits
(R307). -/
def State.turnsFrom (l : Nat) (x : Launch) (mid : Bool) : List Nat → State → State
  | [], s => s.turnsOver l x
  | h :: r, s =>
    let later := r.flatMap fun g => (s.opsOf g).flatMap (s.actUnits g)
    let before := (s.inTurn l).takeWhile (· != h)
    let s1 := if mid then s else State.takeOps l later h (s.opsOf h) (s.waiting before) s
    match s1.lastAct h with
    | some t => State.turnsFrom l x false r t
    | none => s1.setCommit l (some (.turns (h :: r)))

/-- A commit begins: windows that get no entry in it close first (R490). -/
def State.beginCommit (s : State) (l : Nat) (x : Launch) : State :=
  let hs := s.inTurn l
  let units := hs.flatMap fun h => (s.opsOf h).flatMap (s.actUnits h)
  State.turnsFrom l x false hs (State.closeDue l units (s.closings l []) [] (s.setCommit l (some (.turns hs)))).1

/-- ROUND_COMMIT (R454): nothing happens before the round has ended; a commit that has had to wait goes on where it stands. -/
def execRoundCommit (launch : Nat) (s : State) : Res :=
  match Map.find s.launches launch with
  | none => .next s
  | some x =>
    .next (match x.commit with
      | some (.turns hs) => State.turnsFrom launch x true hs s
      | some (.late ops) => State.lateFrom launch x ops s
      | some .calls => s.endRound launch x
      | none => if s.roundEnded launch x then s.beginCommit launch x else s)

end Sys2Proof.Machine
end

