-- ==== Sys2Proof/Machine/Host.lean ====
section
/-! DEFINITION. The host's side: tenant and management commands, virtqueues, records, tenant reset, the port semaphore, module
reset and boot, and accesses from outside (spec/25_host_and_fabric.md, spec/22_traps_and_preemption.md R446,
spec/01_the_module.md R18, R19, spec/03_device_memory.md R70, R76). -/

namespace Sys2Proof.Machine

/-! ## Invalidation (R76, R332) -/

/-- A region's code lies in part of a virtual range. -/
def Region.codeIn (r : Region) (lo : DWord) (len : Nat) : Bool :=
  match r.entry with
  | none => false
  | some pc =>
    let first := pc.toNat / 4096
    let last := (pc.toNat + 4 * regLen r.desc) / 4096
    decide (first * 4096 < lo.toNat + len) && decide (lo.toNat < (last + 1) * 4096)

/-- TRANSLATION_INVALIDATION_COMPLETE: everything that used an old translation has performed; regions whose code lies in the
range are INVALID, and whoever asked is told. -/
def execTranslationInvalidationComplete (inv : Nat) (s : State) : Res :=
  match Map.find s.invals inv with
  | none => .next s
  | some v =>
    if !s.invalDone v then .next s
    else
      let s1 := v.ranges.foldl (State.dropRange · v.tenant ·) s
      let mine := fun (r : Region) => ((Map.find s.launches r.launch).map (·.tenant)) == some v.tenant && r.codeIn v.va v.len
      let s2 : State := { s1 with
        invals := Map.erase s1.invals inv
        regions := s1.regions.map fun e => if mine e.2 then (e.1, e.2.invalid) else e
        syscs := s1.syscs.map fun e => if e.2.inval == some inv then (e.1, { e.2 with inval := none, status := some 0 }) else e }
      .next (match v.cmd with
        | some (ring, seq) => s2.complete ring seq 0
        | none => s2)

/-! ## Tenant commands (R479) -/

/-- INVAL: it completes with its invalidation. -/
def execInval (lq : Nat) (s : State) : Res :=
  s.command lq 2 6 (fullWords 2 5) fun x s =>
    if invalRange (x.c64 2) (x.c64 4).toNat then
      .next (s.startInval x.dev (x.c64 2) (x.c64 4).toNat (some ((x.dev, x.vq), x.seq))).1
    else s.answer x 33

/-- The status of a command for a resolution's outcome (R438, R479). -/
def resolveStatus (r : Word) : Nat := if r = 0 then 0 else if r = 3 then 39 else 33

/-- RESUME. -/
def execResume (lq : Nat) (s : State) : Res :=
  s.command lq 3 3 (fullWords 2 2) fun x s => let z := s.resolve x.dev 3 (x.c 2) 0; z.1.answer x (resolveStatus z.2)

/-- SKIP. -/
def execSkip (lq : Nat) (s : State) : Res :=
  s.command lq 4 6 (fullWords 2 2 ++ fullWords 4 5) fun x s =>
    let z := s.resolve x.dev 4 (x.c 2) (x.c64 4); z.1.answer x (resolveStatus z.2)

/-- ABORT. -/
def execAbort (lq : Nat) (s : State) : Res :=
  s.command lq 5 3 (fullWords 2 2) fun x s => let z := s.resolve x.dev 5 (x.c 2) 0; z.1.answer x (resolveStatus z.2)

/-- SIGNAL: a user interrupt of source 0; a WAVEID that names no wave is a bad argument. -/
def execSignal (lq : Nat) (s : State) : Res :=
  s.command lq 6 4 (fullWords 2 2 ++ [(3, 0xFFFF)]) fun x s =>
    match s.waveByID x.dev (x.c 2) with
    | some h => (s.modWave h (·.interrupt 0 (x.c 3).toNat)).answer x 0
    | none => s.answer x 33

/-! ## Partitions and tenants (R18, R19, R66, R474, R479) -/

/-- The shape of a partition: the cluster count, and 24 bytes of enabled cores for each cluster (R19). -/
def State.shape (s : State) (clusters : List Nat) : List Byte :=
  BitVec.ofNat 8 clusters.length :: clusters.flatMap fun c =>
    (List.range 24).map fun b =>
      BitVec.ofNat 8 ((List.range 8).foldl (fun v i => v + bit (!s.disabled.contains (c * 192 + 8 * b + i)) * 2 ^ i) 0)

/-- PCREATE: clusters that are enabled and in no partition. -/
def execPcreate (lq : Nat) (s : State) : Res :=
  s.command lq 0x80 4 [(2, 0xFFF), (3, 31)] fun x s =>
    let cs := (List.range 12).filter fun c => bitAt (x.c 2).toNat c
    let p := (x.c 3).toNat
    if cs.isEmpty || cs.any fun c => !s.enabledClusters.contains c then s.answer x 33
    else if (Map.find s.parts p).isSome || cs.any fun c => s.parts.any fun e => e.2.clusters.contains c then s.answer x 37
    else { s with parts := Map.put s.parts p { clusters := cs, hash := sha3 (s.shape cs) } }.answer x 0

/-- PREMOVE: not while a tenant uses it. -/
def execPremove (lq : Nat) (s : State) : Res :=
  s.command lq 0x81 4 [(3, 31)] fun x s =>
    let p := (x.c 3).toNat
    if (Map.find s.parts p).isNone then s.answer x 33
    else if s.tenants.any fun e => e.2.part == p then s.answer x 37
    else { s with parts := Map.erase s.parts p }.answer x 0

/-- TCREATE: the tenant device leaves FAILED. -/
def execTcreate (lq : Nat) (s : State) : Res :=
  s.command lq 0x82 7 (fullWords 2 5 ++ [(6, 0x103)]) fun x s =>
    let slot := (x.c 2).toNat
    let part := (x.c 3).toNat
    let tier := (x.c 6).toNat % 4
    let pa := (x.c64 4).toNat
    if 31 < slot || (Map.find s.tenants slot).isSome || (Map.find s.parts part).isNone || pa % 4096 ≠ 0 || tierCapacity tier ≤ pa then
      s.answer x 33
    else
      { s with
        tenants := Map.put s.tenants slot { part := part, rootPA := pa, rootTier := tier, hport := bit (bitAt (x.c 6).toNat 8) }
        devs := Map.put s.devs slot { failed := false } }.answer x 0

/-! ## Tenant reset (R446) -/

/-- A tenant's launches are killed, saved groups discarded, bindings ended, regions OFF and calls completed with status 4; when the
killed launches are gone, its cached translations are dropped (R446). -/
def State.tenantReset (s : State) (tenant : Nat) : State :=
  let own := fun (l : Nat) => ((Map.find s.launches l).map (·.tenant)) == some tenant
  let ownWave := fun (h : Nat) => s.tenantOf h == tenant && (s.launchOf h).isSome
  let s1 : State := { s with
    launches := s.launches.map fun e => if e.2.tenant = tenant then (e.1, { e.2 with killed := some 0, log := { e.2.log with ended := true } }) else e
    regions := s.regions.filter fun e => !own e.2.launch
    syscs := s.syscs.map fun e => if e.2.tenant = tenant && e.2.status.isNone then
        (e.1, { e.2 with status := some 4, inval := none, posting := false }) else e
    waves := s.waves.map fun e => if ownWave e.1 then
        (e.1, { e.2 with stop := e.2.stop.map fun t => { t with route := .killing }, gateWait := [] }) else e }
  let s2 := ((s1.waves.filter fun e => ownWave e.1).map (·.1)).foldl State.uncat s1
  ((s2.groups.filter fun e => own e.2.launch && e.2.life == .saved).foldl (fun s e => s.endGroup e.1) s2).resetOver tenant

/-- TREMOVE: it completes after the tenant reset. -/
def execTremove (lq : Nat) (s : State) : Res :=
  s.command lq 0x83 3 (fullWords 2 2) fun x s =>
    let slot := (x.c 2).toNat
    match Map.find s.tenants slot with
    | none => s.answer x 33
    | some t =>
      if t.removing.isSome then s.answer x 37
      else
        .next (({ s with tenants := Map.put s.tenants slot { t with removing := some ((x.dev, x.vq), x.seq) } }.tenantReset slot).removed slot)

/-! ## Firmware, module reset, boot and attestation (R484-R487) -/

/-- FWLOAD: an image in host memory is staged when its signature verifies. -/
def execFwload (lq : Nat) (s : State) : Res :=
  s.command lq 0x84 5 (fullWords 2 4) fun x s =>
    let image := s.hostBytes (x.c64 2).toNat (x.c 4).toNat
    if Config.signatureVerifies image then { s with staged := image }.answer x 0 else s.answer x 36

/-- The module right after reset: what the board fixes, memory, and the firmware stay; everything else is at its reset value
and booting begins (R421, R486). -/
def State.moduleReset (s : State) : State :=
  { State.reset with
    agenda := s.agenda
    tick := s.tick
    nextWave := s.nextWave
    nextGroup := s.nextGroup
    nextLaunch := s.nextLaunch
    nextReq := s.nextReq
    disabled := s.disabled
    fwver := s.fwver
    staged := s.staged
    bootst := 0
    moduleNo := s.moduleNo
    links := if s.moduleNo = 0 then s.links.map fun e => (e.1, 0) else s.links
    wires := s.wires
    eol := (List.range 5).map (Config.wear s.eolHour)
    eolHour := s.eolHour
    eolAt := 0
    mem := s.mem
    link0 := s.link0
    link1 := s.link1 }

/-- MODULE_RESET. -/
def execModuleReset (s : State) : Res := .next s.moduleReset

/-- The staged image takes effect when its signature verifies (R485). -/
def State.useStaged (s : State) : State :=
  if s.staged.isEmpty then s
  else if Config.signatureVerifies s.staged then { s with fwver := Config.imageVersion s.staged, staged := [] }
  else { s with staged := [] }

/-- MRESET: the staged image, and the reset; it does not complete, for the reset drops every queue (R479, R485). -/
def execMreset (lq : Nat) (s : State) : Res :=
  s.command lq 0x85 2 [] fun _ s => .next s.useStaged.moduleReset

/-- The digest of the firmware image of a version (R487). -/
def firmwareDigest (v : DWord) : List Byte := (List.range 64).map (Config.firmwareDigest v)

/-- The spanning tree, breadth first with ties to the lower port: children with their parents (R486). -/
def spanning (wires : List (Nat × List Nat)) : Nat → List Nat → List (Nat × Nat) → List (Nat × Nat)
  | 0, _, tree => tree
  | fuel + 1, frontier, tree =>
    let new := frontier.foldl (fun (acc : List (Nat × Nat)) m =>
      (((Map.find wires m).getD []).filter fun c => c != 0).foldl (fun acc c =>
        if (tree ++ acc).any fun e => e.1 == c then acc else acc ++ [(c, m)]) acc) []
    if new.isEmpty then tree else spanning wires fuel (new.map (·.1)) (tree ++ new)

/-- The module that serves another its image. -/
def State.bootParent (s : State) (m : Nat) : Option Nat :=
  ((spanning s.wires 64 [0] []).find? fun e => e.1 == m).map (·.2)

/-- BOOTST of a module of the pod. -/
def State.bootOf (s : State) (m : Nat) : Option Nat := if m = s.moduleNo then some s.bootst else Map.find s.links m

/-- BOOT_IMAGE_VERIFY: a booting module verifies its image, its own for the root, else the one its parent serves; a module
whose verification failed serves none (R486). -/
def execBootImageVerify (module : Nat) (s : State) : Res :=
  let served := module = 0 || ((s.bootParent module).bind s.bootOf) == some 1
  if s.bootOf module ≠ some 0 || !served then .next s
  else
    let st := if Config.signatureVerifies (firmwareDigest s.fwver) then 1 else 2
    if module = s.moduleNo then .next { s with bootst := st } else .next { s with links := Map.put s.links module st }

/-- ATTEST: a signature over nonce, FWVER, firmware digest and shape hashes, written to the host's buffer (R487). -/
def execAttest (lq : Nat) (s : State) : Res :=
  s.command lq 0x86 20 (fullWords 2 19) fun x s =>
    let nonce := (List.range 16).flatMap fun i => bytesOfNat (x.c (2 + i)).toNat 4
    let digest := sha3 (nonce ++ bytesOfNat s.fwver.toNat 8 ++ firmwareDigest s.fwver ++ (Map.values s.parts).flatMap (·.hash))
    (s.pokes (placeBytes (hostLoc (x.c64 18).toNat) ((List.range 4627).map (Config.signatureByte digest)))).answer x 0

/-- Cycles of an hour (R4, R488). -/
def hourCycles : Nat := 4320000000000

/-- EOL_UPDATE: the predictions of an hour that has passed (R488). -/
def execEolUpdate (s : State) : Res :=
  if s.cycle < s.eolAt + hourCycles then .next s
  else .next { s with eolHour := s.eolHour + 1, eol := (List.range 5).map (Config.wear (s.eolHour + 1)), eolAt := s.eolAt + hourCycles }

/-! ## Virtqueues (R474-R476, R481-R483) -/

/-- A device offers its queues: a tenant device with a tenant, or the management device (R474). -/
def State.offers (s : State) (dev vq : Nat) : Bool :=
  ((Map.find s.devs dev).map (·.failed)) == some false && (if dev = mgmt then vq == 0 else decide (vq < 64))

/-- FEATURE_NEGOTIATION: bits 29, 32, 33, 34 and 40 are offered (R474). -/
def execFeatureNegotiation (dev : Nat) (features : DWord) (s : State) : Res :=
  if features &&& ~~~(0x10720000000 : DWord) ≠ 0 || !s.offers dev 0 then .next s
  else .next { s with devs := Map.modify s.devs dev fun d => { d with features := features } }

/-- Enabled virtqueues of the module. -/
def State.enabledQueues (s : State) : List (Nat × Nat × Vq) :=
  s.devs.flatMap fun d => (d.2.vqs.filter (·.2.enabled)).map fun q => (d.1, q.1, q.2)

/-- queue_size of a virtqueue: 0 where it is not offered, or would pass the module's 1024; a number the spec leaves open
elsewhere (R474, R475; log 2). -/
def State.queueSize (s : State) (dev vq : Nat) : Nat :=
  if !s.offers dev vq || (!(s.vq dev vq).enabled && decide (1024 ≤ s.enabledQueues.length)) then 0 else Config.queueSize + 1

/-- queue_notify_off of a virtqueue, and the number of bytes that notify_off_multiplier gives it (R476). -/
def State.notifyOff (s : State) (dev vq : Nat) : Nat := (s.vq dev vq).lq
def notifyMultiplier : Nat := 4

/-- A write to the notify register at byte `off` wakes the thread that it is the register of (R476). -/
def State.wake (s : State) (off : Nat) : State :=
  let lq := off / notifyMultiplier
  if off % notifyMultiplier = 0 && lq < 64 && !s.awake.contains lq then { s with awake := s.awake ++ [lq] } else s

/-- QUEUE_NOTIFY: a write to the notify register at byte `off` of a device, after the driver has made commands and buffers
available on a virtqueue; completions that were held for want of a buffer are written (R476, R477, R481, R483). -/
def execQueueNotify (dev vq off : Nat) (gives : Offer) (s : State) : Res :=
  let q := s.vq dev vq
  if !s.offers dev vq || !q.enabled then .next s
  else
    .next (((s.putVq dev vq { q with avail := if isRing dev vq then q.avail ++ gives.cmds else q.avail, bufs := q.bufs ++ gives.bufs }).flushVq
      dev vq).wake off)

/-- QUEUE_ENABLE: not where the LQ is the management device's or serves another device, nor where queue_size is 0 (R475, R476). -/
def execQueueEnable (port dev vq : Nat) (s : State) : Res :=
  let q := s.vq dev vq
  let conflict := (dev != mgmt && q.lq == 0) || s.enabledQueues.any fun e => e.1 != dev && e.2.2.lq == q.lq
  if !s.offers dev vq || q.enabled || 1 < port || conflict || 1024 ≤ s.enabledQueues.length then .next s
  else .next (s.putVq dev vq { q with enabled := true, port := port })

/-- LQ_WRITE: only while the virtqueue is disabled (R482). -/
def execLqWrite (dev vq lq : Nat) (s : State) : Res :=
  let q := s.vq dev vq
  if !s.offers dev vq || dev = mgmt || q.enabled || 63 < lq then .next s else .next (s.putVq dev vq { q with lq := lq })

/-- VIRTQUEUE_RESET: commands not accepted are discarded; ACC, CMP, POST and what runs survive (R483). -/
def execVirtqueueReset (dev vq : Nat) (s : State) : Res :=
  let ringReset := (((Map.find s.devs dev).map fun d => d.features.getLsbD 40)).getD false
  if !s.offers dev vq || !ringReset then .next s
  else
    let q := s.vq dev vq
    .next (s.putVq dev vq { q with enabled := false, avail := [], bufs := [], used := [], running := q.running.map fun e => (e.1, none) })

/-- What runs for a device's rings completes nowhere any more: no virtqueue has the number 64 (R483). -/
def State.orphan (s : State) (dev : Nat) : State :=
  let lost := fun (ring : Nat × Nat) => if ring.1 = dev then (dev, 64) else ring
  { s with
    launches := s.launches.map fun e => (e.1, { e.2 with ring := lost e.2.ring })
    invals := s.invals.map fun e => (e.1, { e.2 with cmd := e.2.cmd.map fun c => (lost c.1, c.2) })
    tenants := s.tenants.map fun e => (e.1, { e.2 with removing := e.2.removing.map fun c => (lost c.1, c.2) }) }

/-- DEVICE_RESET: a tenant reset, and every queue as at reset (R446, R483). -/
def execDeviceReset (dev : Nat) (s : State) : Res :=
  if !s.offers dev 0 then .next s
  else
    let s1 := (if dev = mgmt then s else s.tenantReset dev).orphan dev
    .next { s1 with devs := Map.put s1.devs dev { failed := false } }

/-! ### Configuration space (R19, R482, R484, R488) -/

/-- Virtqueues that a device offers. -/
def State.offered (s : State) (dev : Nat) : Nat := ((List.range 64).filter fun q => s.queueSize dev q != 0).length

/-- The shape map of a partition: 289 bytes, those of unused clusters zero. -/
def State.shapeMap (s : State) (clusters : List Nat) : List Byte :=
  let m := s.shape clusters
  m ++ List.replicate (289 - m.length) 0

/-- A byte of a tenant device's configuration, by offset; 0 where R482 names no field. -/
def State.tenantConfig (s : State) (dev off : Nat) : Byte :=
  let part := ((Map.find s.tenants dev).map (·.part)).getD 0
  let p := (Map.find s.parts part).getD { clusters := [] }
  let at_ := fun (bs : List Byte) (i : Nat) => bs.getD i 0
  if off < 4 then at_ (bytesOfNat (part * 256 + dev) 4) off
  else if off < 8 then at_ (bytesOfNat (s.offered dev) 4) (off - 4)
  else if 0x40 ≤ off && off < 0x80 then at_ p.hash (off - 0x40)
  else if 0x80 ≤ off && off ≤ 0x1A0 then at_ (s.shapeMap p.clusters) (off - 0x80)
  else if 0x200 ≤ off && off < 0x600 then
    let q := s.vq dev ((off - 0x200) / 16)
    at_ (bytesOfNat q.lq 4 ++ bytesOfNat q.acc.toNat 4 ++ bytesOfNat q.cmp.toNat 4 ++ bytesOfNat q.post.toNat 4) (off % 16)
  else 0

/-- A byte of the management device's configuration, by offset. -/
def State.mgmtConfig (s : State) (off : Nat) : Byte :=
  let at_ := fun (bs : List Byte) (i : Nat) => bs.getD i 0
  if off < 8 then at_ (bytesOfNat s.fwver.toNat 8) off
  else if off < 0xC then at_ (bytesOfNat s.psem 4) (off - 8)
  else if off < 0x10 then at_ (bytesOfNat s.bootst 4) (off - 0xC)
  else if off < 0x1A then at_ (s.eol.flatMap fun w => bytesOfNat w.toNat 2) (off - 0x10)
  else 0

/-- The records that wait for a virtqueue of a device, with their tags: stream records wait in the tenant's intake. -/
def State.waitingRecords (s : State) (dev vq : Nat) : List (Nat × List Word) :=
  if vq = 2 then (((Map.find s.tenants dev).map (·.intake)).getD []).map fun r => (0, r) else (s.vq dev vq).recs

/-- A record with its prefix (R481). -/
def prefixed (vq : Nat) (qseq : Word) (body : List Word) : List Word :=
  [qseq, BitVec.ofNat 32 ((vq + 1) * 2 ^ 16 + 4 * body.length)] ++ body

/-- What follows a record's posting: its wave waits for the host, or its NOTIFY completes (R429, R440). -/
def State.posted (s : State) (dev vq tag : Nat) : State :=
  if vq = 0 then
    match s.faulted dev (BitVec.ofNat 32 tag) with
    | some (h, _, t) => if t.route = .posting then s.setRoute h .notified else s
    | none => s
  else if vq = 1 then
    { s with syscs := Map.modify s.syscs tag fun r => if r.posting then { r with posting := false, status := some 0 } else r }
  else s

/-- RECORD_POST: one buffer in host memory takes as many whole records as fit (R481). -/
def execRecordPost (dev vq : Nat) (s : State) : Res :=
  let q := s.vq dev vq
  let rs := s.waitingRecords dev vq
  match q.bufs with
  | [] => .next s
  | b :: bufs =>
    if 2 < vq || dev = mgmt || !s.offers dev vq || !q.enabled || rs.isEmpty then .next s
    else
      let body := if vq = 0 then 64 else if vq = 1 then 32 else 16
      let n := min rs.length (b.2 / (8 + body))
      let words := (List.range n).flatMap fun i => prefixed vq (q.post + BitVec.ofNat 32 (i + 1)) (rs.getD i (0, [])).2
      let q1 := { q with bufs := bufs, post := q.post + BitVec.ofNat 32 n, recs := if vq = 2 then q.recs else q.recs.drop n }
      let s1 := (s.putVq dev vq q1).putUsed dev vq b words
      let s2 := if vq = 2 then { s1 with tenants := Map.modify s1.tenants dev fun t => { t with intake := t.intake.drop n } } else s1
      .next ((rs.take n).foldl (fun s r => s.posted dev vq r.1) s2)

/-! ## The two ports (R484, R485) -/

/-- PSEM after one write of a port. -/
def psemAfter (psem : Nat) (w : Nat × Nat) : Nat :=
  if w.2 = w.1 + 1 && psem = 0 then w.1 + 1 else if w.2 = 0 && psem = w.1 + 1 then 0 else psem

/-- PSEM_WRITE: the writes of one cycle are applied port 0 first (R484). -/
def execPsemWrite (port val : Nat) (s : State) : Res :=
  if 1 < port then .next s
  else
    let ws := s.psemWrites ++ [(port, val)]
    .next { s with psemWrites := ws, psem := ((ws.filter fun w => w.1 == 0) ++ ws.filter fun w => w.1 == 1).foldl psemAfter s.psemFrom }

/-- Cycles of 10 ms (R4, R485). -/
def breakCycles : Nat := 12000000

/-- PSEM_BREAK: the holder's link has been out of L0 for 10 ms. -/
def execPsemBreak (s : State) : Res :=
  let out := if s.psem = 1 then s.link0 else if s.psem = 2 then s.link1 else none
  match out with
  | some c => if c + breakCycles ≤ s.cycle then .next { s with psem := 0, psemFrom := 0, psemWrites := [] } else .next s
  | none => .next s

/-- HOST_LINK_LEAVES_L0. -/
def execHostLinkLeavesL0 (port : Nat) (s : State) : Res :=
  if port = 0 then .next { s with link0 := s.link0.or (some s.cycle) }
  else if port = 1 then .next { s with link1 := s.link1.or (some s.cycle) }
  else .next s

/-- HOST_LINK_RETURNS_TO_L0. -/
def execHostLinkReturnsToL0 (port : Nat) (s : State) : Res :=
  if port = 0 then .next { s with link0 := none } else if port = 1 then .next { s with link1 := none } else .next s

/-! ## Accesses from outside (R70, R350, R486, R487) -/

/-- An access of another party to physical memory, whole. -/
def State.outside (s : State) (tier pa : Nat) (acc : RemoteAccess) : State :=
  let x := Loc.mem (memKey tier pa)
  match acc with
  | .read _ => s
  | .write bs => if pa + bs.length ≤ tierCapacity tier then s.pokes (placeBytes x bs) else s
  | .atomic op wide a b =>
    if pa + atomBytes wide ≤ tierCapacity tier && pa % atomBytes wide = 0 then
      (s.atomAt op wide { loc := x, va := 0, parts := [(0, a, b, [])] }).1
    else s

/-- HOST_DEVICE_MEMORY_ACCESS: device memory through CXL, or the host's own memory that device pages name (R70, R332). -/
def execHostDeviceMemoryAccess (tier pa : Nat) (acc : RemoteAccess) (s : State) : Res :=
  if 2 < tier || (tier = 2 && 2 ^ 51 ≤ pa) then .next s else .next (s.outside tier pa acc)

/-- FABRIC_REMOTE_ACCESS: another module reaches this one's memory while its BOOTST is 1 (R486, R487). -/
def execFabricRemoteAccess (tier pa : Nat) (acc : RemoteAccess) (s : State) : Res :=
  if 1 < tier || s.bootst ≠ 1 then .next s else .next (s.outside tier pa acc)

end Sys2Proof.Machine
end

