-- ==== Sys2Proof/Machine/Order.lean ====
section
/-! DEFINITION. FENCE and PROMOTE (spec/19_ordering.md R378-R381, R387-R389, spec/02_instruction_words.md R26). The writes that a
fence's wave sees have performed at its scope when it runs (Scopes.lean; log 6), so a fence waits for its own slot's accesses and
nothing else. -/

namespace Sys2Proof.Machine

/-- An operation that reads: a load, an atomic, or FITLD (R370, R379). -/
def Out.reads (o : Out) : Bool :=
  o.path == .ld || (match o.op with
    | .atomic _ _ _ _ _ _ => true
    | .fit load _ _ _ _ => load
    | _ => false)

/-- The slot's earlier accesses that a fence of a kind waits for: reads, or all. -/
def Slot.pending (k : Slot) (kind : FenceKind) : List Out :=
  k.w.outs.filter fun o => !o.done && tagOrdered o.tag k.tag && (if kind = .acq then o.reads else o.isAccess)

/-- A TMOV of the slot that has not started (R115, R379). -/
def Slot.tmovDue (k : Slot) : Bool :=
  k.w.outs.any fun o => !o.done && tagOrdered o.tag k.tag && (match o.op with
    | .tmov _ _ _ _ _ _ _ _ => k.w.beforeTmov o.seq o.tag
    | _ => false)

/-- A buffered operation is a tile store, which no fence covers (R254, R379). -/
def Wave.isTileOp (w : Wave) (q : QOp) : Bool :=
  match q with
  | .out seq => w.outs.any fun o => o.seq == seq && o.path == .tl
  | _ => false

/-- Operations of the quantum that a release must see applied: accesses, barrier, engine, TMOV and fitting operations (R379,
R453). -/
def Slot.buffered (k : Slot) : Bool := k.det && k.w.qops.any fun q => !k.w.isTileOp q

/-- FENCE: an acquire waits for earlier reads, a release for everything a fence covers; a full fence at device or system scope
renews what the wave's fetch sees (R26, R379). -/
def execFence (kind : FenceKind) (scope : Scope) (s : State) : Res :=
  issue s 4 fun k =>
    let outs := k.pending kind
    let buffered := kind != .acq && k.buffered
    if !outs.isEmpty || buffered || (kind != .acq && k.tmovDue) then s.stall k (buffered || outs.any (·.atCommit))
    else if kind = .full && (scope == .device || scope == .system) then
      (s.modWave k.h fun w => { w with codeSeen := s.codeCount }).finish k 4
    else s.finish k 4

/-- PROMOTE: an acquiring load of one element at device scope (R387-R389). -/
def execPromote (d a bp : Nat) (wide : Bool) (s : State) : Res :=
  issueMem s 4 fun k =>
    let n := if wide then 8 else 4
    let regs := if wide then 2 else 1
    if !k.mayCount .ld then s.full k .ld
    else if !k.room regs then s
    else s.globalAccess k 4 n 0 0 true [(0, k.uea a bp plainExt)] fun xs w =>
      (k.loadUni d n regs true false xs w).marking w.outs.length fun o => { o with promote := true }

end Sys2Proof.Machine
end

