-- ==== Sys2Proof/Machine/Uniform.lean ====
section
/-! DEFINITION. The uniform instructions (spec/09_vector_and_uniform.md R227, R228). -/

namespace Sys2Proof.Machine

/-- UADD (R227). -/
def execUadd (d a b : Nat) (s : State) : Res := uniOp s 4 [] 1 fun k => [(.s d, k.s a + k.s b)]

/-- USUB (R227). -/
def execUsub (d a b : Nat) (s : State) : Res := uniOp s 4 [] 1 fun k => [(.s d, k.s a - k.s b)]

/-- UMUL (R227). -/
def execUmul (d a b : Nat) (s : State) : Res := uniOp s 4 [] 1 fun k => [(.s d, k.s a * k.s b)]

/-- UAND (R227). -/
def execUand (d a b : Nat) (s : State) : Res := uniOp s 4 [] 1 fun k => [(.s d, k.s a &&& k.s b)]

/-- UOR (R227). -/
def execUor (d a b : Nat) (s : State) : Res := uniOp s 4 [] 1 fun k => [(.s d, k.s a ||| k.s b)]

/-- UXOR (R227). -/
def execUxor (d a b : Nat) (s : State) : Res := uniOp s 4 [] 1 fun k => [(.s d, k.s a ^^^ k.s b)]

/-- USHL (R227). -/
def execUshl (d a b : Nat) (s : State) : Res := uniOp s 4 [] 1 fun k => [(.s d, shlW (k.s a) (k.s b))]

/-- USHR (R227). -/
def execUshr (d a b : Nat) (s : State) : Res := uniOp s 4 [] 1 fun k => [(.s d, shrW (k.s a) (k.s b))]

/-- USAR (R227). -/
def execUsar (d a b : Nat) (s : State) : Res := uniOp s 4 [] 1 fun k => [(.s d, sarW (k.s a) (k.s b))]

/-- UMULH (R227). -/
def execUmulh (d a b : Nat) (u : Bool) (s : State) : Res := uniOp s 4 [] 1 fun k => [(.s d, mulhW u (k.s a) (k.s b))]

/-- UMIN (R227). -/
def execUmin (d a b : Nat) (u : Bool) (s : State) : Res := uniOp s 4 [] 1 fun k => [(.s d, minW u (k.s a) (k.s b))]

/-- UMAX (R227). -/
def execUmax (d a b : Nat) (u : Bool) (s : State) : Res := uniOp s 4 [] 1 fun k => [(.s d, maxW u (k.s a) (k.s b))]

/-- UCMP (R222, R227). -/
def execUcmp (c : ICond) (kd a b : Nat) (s : State) : Res :=
  uniOp s 4 [] 1 fun k => [(.k kd, wordOfBool (icond c (k.s a) (k.s b)))]

/-- USEL: without the condition nothing is written or held (R227); the second slot waits for a free held entry either way (R182;
log 74). -/
def execUsel (d a kb : Nat) (n : Bool) (s : State) : Res :=
  uniOp s 4 [] 1 fun k => if xor (k.k kb) n then [(.s d, k.s a)] else []

/-- ULEA (R227, R228). -/
def execUlea (d a b scale : Nat) (s : State) : Res :=
  uniOp s 4 [] 2 fun k =>
    let x : DWord := k.s64 a + ((k.s b).signExtend 64 <<< scale)
    [(.s d, x.truncate 32), (.s (d + 1), (x >>> 32).truncate 32)]

/-- UMOV (R227). -/
def execUmov (d a : Nat) (s : State) : Res := uniOp s 4 [] 1 fun k => [(.s d, k.s a)]

/-- UADDI (R227). -/
def execUaddi (d a : Nat) (imm : BitVec 10) (s : State) : Res :=
  uniOp s 4 [] 1 fun k => [(.s d, k.s a + imm.signExtend 32)]

/-- UMOVI (R227). -/
def execUmovi (d : Nat) (imm : BitVec 17) (s : State) : Res := uniOp s 4 [] 1 fun _ => [(.s d, imm.signExtend 32)]

/-- UMOVHI (R227). -/
def execUmovhi (d : Nat) (imm : BitVec 17) (s : State) : Res := uniOp s 4 [] 1 fun k => [(.s d, movhiW (k.s d) imm)]

/-- ULIMM (R59). -/
def execUlimm (d : Nat) (imm : Word) (s : State) : Res := uniOp s 8 [] 1 fun _ => [(.s d, imm)]

/-- UCMPI (R227). -/
def execUcmpi (c : ICond) (kd a : Nat) (imm : BitVec 10) (s : State) : Res :=
  uniOp s 4 [] 1 fun k => [(.k kd, wordOfBool (icond c (k.s a) (imm.signExtend 32)))]

end Sys2Proof.Machine
end

