-- ==== Sys2Proof/Machine/Vector.lean ====
section
/-! DEFINITION. The integer vector instructions and their immediate forms (spec/09_vector_and_uniform.md R223-R226). -/

namespace Sys2Proof.Machine

/-- IADD (R223). -/
def execIadd (d a : Nat) (b : Src) (s : State) : Res :=
  vecOp s (names3 d a b) d fun k l => (k.w.vget a l) + (k.src b l)

/-- ISUB (R223). -/
def execIsub (d a : Nat) (b : Src) (s : State) : Res :=
  vecOp s (names3 d a b) d fun k l => (k.w.vget a l) - (k.src b l)

/-- IMUL (R223). -/
def execImul (d a : Nat) (b : Src) (s : State) : Res :=
  vecOp s (names3 d a b) d fun k l => (k.w.vget a l) * (k.src b l)

/-- AND (R223). -/
def execAndV (d a : Nat) (b : Src) (s : State) : Res :=
  vecOp s (names3 d a b) d fun k l => (k.w.vget a l) &&& (k.src b l)

/-- OR (R223). -/
def execOrV (d a : Nat) (b : Src) (s : State) : Res :=
  vecOp s (names3 d a b) d fun k l => (k.w.vget a l) ||| (k.src b l)

/-- XOR (R223). -/
def execXorV (d a : Nat) (b : Src) (s : State) : Res :=
  vecOp s (names3 d a b) d fun k l => (k.w.vget a l) ^^^ (k.src b l)

/-- ANDN (R223). -/
def execAndn (d a : Nat) (b : Src) (s : State) : Res :=
  vecOp s (names3 d a b) d fun k l => (k.w.vget a l) &&& ~~~(k.src b l)

/-- SHL (R223). -/
def execShl (d a : Nat) (b : Src) (s : State) : Res :=
  vecOp s (names3 d a b) d fun k l => shlW (k.w.vget a l) (k.src b l)

/-- SHR (R223). -/
def execShr (d a : Nat) (b : Src) (s : State) : Res :=
  vecOp s (names3 d a b) d fun k l => shrW (k.w.vget a l) (k.src b l)

/-- SAR (R223). -/
def execSar (d a : Nat) (b : Src) (s : State) : Res :=
  vecOp s (names3 d a b) d fun k l => sarW (k.w.vget a l) (k.src b l)

/-- HMIX (R223). -/
def execHmix (d a : Nat) (b : Src) (s : State) : Res :=
  vecOp s (names3 d a b) d fun k l => hmixW (k.w.vget a l) (k.src b l)

/-- IMULH (R223). -/
def execImulh (d a : Nat) (b : Src) (u : Bool) (s : State) : Res :=
  vecOp s (names3 d a b) d fun k l => mulhW u (k.w.vget a l) (k.src b l)

/-- IMIN (R223). -/
def execImin (d a : Nat) (b : Src) (u : Bool) (s : State) : Res :=
  vecOp s (names3 d a b) d fun k l => minW u (k.w.vget a l) (k.src b l)

/-- IMAX (R223). -/
def execImax (d a : Nat) (b : Src) (u : Bool) (s : State) : Res :=
  vecOp s (names3 d a b) d fun k l => maxW u (k.w.vget a l) (k.src b l)

/-- IADDSAT (R223). -/
def execIaddsat (d a : Nat) (b : Src) (u : Bool) (s : State) : Res :=
  vecOp s (names3 d a b) d fun k l => addSatW u (k.w.vget a l) (k.src b l)

/-- BFX (R223, R224). -/
def execBfx (d a : Nat) (b : Src) (sx : Bool) (s : State) : Res :=
  vecOp s (names3 d a b) d fun k l => bfxW sx (k.w.vget a l) (k.src b l)

/-- IMAD (R223). -/
def execImad (d a : Nat) (b : Src) (s : State) : Res :=
  vecOp s (names3 d a b) d fun k l => k.w.vget a l * k.src b l + k.w.vget d l

/-- BFI (R224). -/
def execBfi (d a : Nat) (b : Src) (s : State) : Res :=
  vecOp s (names3 d a b) d fun k l => bfiW (k.w.vget d l) (k.w.vget a l) (k.src b l)

/-- IABS (R223). -/
def execIabs (d a : Nat) (s : State) : Res := vecOp s (names2 d a) d fun k l => absW (k.w.vget a l)

/-- POPC (R223). -/
def execPopc (d a : Nat) (s : State) : Res := vecOp s (names2 d a) d fun k l => popcW (k.w.vget a l)

/-- CLZ (R223). -/
def execClz (d a : Nat) (s : State) : Res := vecOp s (names2 d a) d fun k l => clzW (k.w.vget a l)

/-- MOV (R223). -/
def execMov (d a : Nat) (s : State) : Res := vecOp s (names2 d a) d fun k l => k.w.vget a l

/-- LANEID (R223). -/
def execLaneid (d : Nat) (s : State) : Res := vecOp s [(0, d)] d fun _ l => BitVec.ofNat 32 l

/-- SEL: lanes whose predicate bit is 0 keep their element (R224). -/
def execSel (d a pb : Nat) (n : Bool) (s : State) : Res :=
  vecOp s (names2 d a) d fun k l => if xor ((k.w.pget pb).getLsbD l) n then k.w.vget a l else k.w.vget d l

/-- ICMP (R222, R224). -/
def execIcmp (c : ICond) (p a : Nat) (b : Src) (s : State) : Res :=
  predOp s ((1, a) :: srcNames b) p fun k l => icond c (k.w.vget a l) (k.src b l)

/-- ITRIT's exact sum (R226). -/
def itritSum (d a b : Word) : Int :=
  d.toInt + (if b.toInt > 0 then a.toInt else if b.toInt < 0 then -a.toInt else 0)

/-- An accumulation under ACCMODE: wrapping, or clipped in saturating mode (R210, R211). -/
def accumulate (accmode : Word) (x : Int) : Word :=
  if accmode.getLsbD 0 then BitVec.ofInt 32 (clip (-(2 ^ 31)) (2 ^ 31 - 1) x) else BitVec.ofInt 32 x

/-- A sum that saturating mode clips (R211). -/
def clipped (accmode : Word) (x : Int) : Bool := accmode.getLsbD 0 && (decide (x < -(2 ^ 31)) || decide (2 ^ 31 - 1 < x))

/-- ITRIT (R226): SAT of ACCMODE is set when a lane clips (R210), a write that is held for the second slot (R180). -/
def execItrit (d a : Nat) (b : Src) (s : State) : Res :=
  issue s 4 fun k =>
    let m := k.csr 0x002
    let sum := fun l => itritSum (k.w.vget d l) (k.w.vget a l) (k.src b l)
    let sat := k.lanes.any fun l => clipped m (sum l)
    s.vnamed k (names3 d a b)
      (if sat && !k.room 1 then s
      else
        ((s.modWave k.h fun w => w.vput d k.mask fun l => accumulate m (sum l)).write k (if sat then [(.sat, 1)] else [])).finish k 4)

/-- IADDI (R225). -/
def execIaddi (d a : Nat) (imm : BitVec 10) (s : State) : Res :=
  vecOp s (names2 d a) d fun k l => (k.w.vget a l) + imm.signExtend 32

/-- IMULI (R225). -/
def execImuli (d a : Nat) (imm : BitVec 10) (s : State) : Res :=
  vecOp s (names2 d a) d fun k l => (k.w.vget a l) * imm.signExtend 32

/-- ANDI (R225). -/
def execAndi (d a : Nat) (imm : BitVec 10) (s : State) : Res :=
  vecOp s (names2 d a) d fun k l => (k.w.vget a l) &&& imm.signExtend 32

/-- ORI (R225). -/
def execOri (d a : Nat) (imm : BitVec 10) (s : State) : Res :=
  vecOp s (names2 d a) d fun k l => (k.w.vget a l) ||| imm.signExtend 32

/-- XORI (R225). -/
def execXori (d a : Nat) (imm : BitVec 10) (s : State) : Res :=
  vecOp s (names2 d a) d fun k l => (k.w.vget a l) ^^^ imm.signExtend 32

/-- SHLI (R225). -/
def execShli (d a sh : Nat) (s : State) : Res :=
  vecOp s (names2 d a) d fun k l => shlW (k.w.vget a l) (BitVec.ofNat 32 sh)

/-- SHRI (R225). -/
def execShri (d a sh : Nat) (s : State) : Res :=
  vecOp s (names2 d a) d fun k l => shrW (k.w.vget a l) (BitVec.ofNat 32 sh)

/-- SARI (R225). -/
def execSari (d a sh : Nat) (s : State) : Res :=
  vecOp s (names2 d a) d fun k l => sarW (k.w.vget a l) (BitVec.ofNat 32 sh)

/-- ICMPI (R225). -/
def execIcmpi (c : ICond) (p a : Nat) (imm : BitVec 10) (s : State) : Res :=
  predOp s [(1, a)] p fun k l => icond c (k.w.vget a l) (imm.signExtend 32)

/-- MOVI (R225). -/
def execMovi (d : Nat) (imm : BitVec 17) (s : State) : Res := vecOp s [(0, d)] d fun _ _ => imm.signExtend 32

/-- MOVHI (R225). -/
def execMovhi (d : Nat) (imm : BitVec 17) (s : State) : Res := vecOp s [(0, d)] d fun k l => movhiW (k.w.vget d l) imm

/-- LIMM: every active lane takes the second word (R59). -/
def execLimm (d : Nat) (imm : Word) (s : State) : Res :=
  issue s 8 fun k => s.vnamed k [(0, d)] ((s.modWave k.h fun w => w.vput d k.mask fun _ => imm).finish k 8)

end Sys2Proof.Machine
end

