-- ==== Sys2Proof/Machine/Dispatch.lean ====
section
/-! DEFINITION. One arm per constructor of Instr: each calls the meaning of its instruction. -/

namespace Sys2Proof.Machine

def exec (i : Instr) (s : State) : Host.Outcome State Fault Refusal :=
  match i with
  | .nop => Sys2Proof.Machine.execNop s
  | .ifP p n off => Sys2Proof.Machine.execIfP p n off s
  | .elseP off => Sys2Proof.Machine.execElseP off s
  | .endif => Sys2Proof.Machine.execEndif s
  | .loop => Sys2Proof.Machine.execLoop s
  | .brk p n off => Sys2Proof.Machine.execBrk p n off s
  | .cont p n off => Sys2Proof.Machine.execCont p n off s
  | .endloop off => Sys2Proof.Machine.execEndloop off s
  | .bru c off => Sys2Proof.Machine.execBru c off s
  | .jmp off => Sys2Proof.Machine.execJmp off s
  | .call c off => Sys2Proof.Machine.execCall c off s
  | .ret a => Sys2Proof.Machine.execRet a s
  | .hloop a len => Sys2Proof.Machine.execHloop a len s
  | .hloopEndCheck => Sys2Proof.Machine.execHloopEndCheck s
  | .illegalInstructionWord w => Sys2Proof.Machine.execIllegalInstructionWord w s
  | .instructionFetchPageFault second => Sys2Proof.Machine.execInstructionFetchPageFault second s
  | .exit => Sys2Proof.Machine.execExit s
  | .wait ld st cp tl => Sys2Proof.Machine.execWait ld st cp tl s
  | .waitp a path => Sys2Proof.Machine.execWaitp a path s
  | .yield => Sys2Proof.Machine.execYield s
  | .sysc d fn => Sys2Proof.Machine.execSysc d fn s
  | .trap code => Sys2Proof.Machine.execTrap code s
  | .uret => Sys2Proof.Machine.execUret s
  | .uimask d op bits => Sys2Proof.Machine.execUimask d op bits s
  | .csrr d csr => Sys2Proof.Machine.execCsrr d csr s
  | .csrw d csr => Sys2Proof.Machine.execCsrw d csr s
  | .fence kind scope => Sys2Proof.Machine.execFence kind scope s
  | .promote d a bp wide => Sys2Proof.Machine.execPromote d a bp wide s
  | .rdclk d => Sys2Proof.Machine.execRdclk d s
  | .spawn node d a b => Sys2Proof.Machine.execSpawn node d a b s
  | .iadd d a b => Sys2Proof.Machine.execIadd d a b s
  | .isub d a b => Sys2Proof.Machine.execIsub d a b s
  | .imul d a b => Sys2Proof.Machine.execImul d a b s
  | .imulh d a b u => Sys2Proof.Machine.execImulh d a b u s
  | .imad d a b => Sys2Proof.Machine.execImad d a b s
  | .imin d a b u => Sys2Proof.Machine.execImin d a b u s
  | .imax d a b u => Sys2Proof.Machine.execImax d a b u s
  | .iabs d a => Sys2Proof.Machine.execIabs d a s
  | .andV d a b => Sys2Proof.Machine.execAndV d a b s
  | .orV d a b => Sys2Proof.Machine.execOrV d a b s
  | .xorV d a b => Sys2Proof.Machine.execXorV d a b s
  | .andn d a b => Sys2Proof.Machine.execAndn d a b s
  | .shl d a b => Sys2Proof.Machine.execShl d a b s
  | .shr d a b => Sys2Proof.Machine.execShr d a b s
  | .sar d a b => Sys2Proof.Machine.execSar d a b s
  | .popc d a => Sys2Proof.Machine.execPopc d a s
  | .clz d a => Sys2Proof.Machine.execClz d a s
  | .bfx d a b sx => Sys2Proof.Machine.execBfx d a b sx s
  | .bfi d a b => Sys2Proof.Machine.execBfi d a b s
  | .icmp c p a b => Sys2Proof.Machine.execIcmp c p a b s
  | .sel d a pb n => Sys2Proof.Machine.execSel d a pb n s
  | .iaddsat d a b u => Sys2Proof.Machine.execIaddsat d a b u s
  | .hmix d a b => Sys2Proof.Machine.execHmix d a b s
  | .itrit d a b => Sys2Proof.Machine.execItrit d a b s
  | .mov d a => Sys2Proof.Machine.execMov d a s
  | .laneid d => Sys2Proof.Machine.execLaneid d s
  | .iaddi d a imm => Sys2Proof.Machine.execIaddi d a imm s
  | .imuli d a imm => Sys2Proof.Machine.execImuli d a imm s
  | .andi d a imm => Sys2Proof.Machine.execAndi d a imm s
  | .ori d a imm => Sys2Proof.Machine.execOri d a imm s
  | .xori d a imm => Sys2Proof.Machine.execXori d a imm s
  | .shli d a sh => Sys2Proof.Machine.execShli d a sh s
  | .shri d a sh => Sys2Proof.Machine.execShri d a sh s
  | .sari d a sh => Sys2Proof.Machine.execSari d a sh s
  | .icmpi c p a imm => Sys2Proof.Machine.execIcmpi c p a imm s
  | .movi d imm => Sys2Proof.Machine.execMovi d imm s
  | .movhi d imm => Sys2Proof.Machine.execMovhi d imm s
  | .limm d imm => Sys2Proof.Machine.execLimm d imm s
  | .uadd d a b => Sys2Proof.Machine.execUadd d a b s
  | .usub d a b => Sys2Proof.Machine.execUsub d a b s
  | .umul d a b => Sys2Proof.Machine.execUmul d a b s
  | .umulh d a b u => Sys2Proof.Machine.execUmulh d a b u s
  | .uand d a b => Sys2Proof.Machine.execUand d a b s
  | .uor d a b => Sys2Proof.Machine.execUor d a b s
  | .uxor d a b => Sys2Proof.Machine.execUxor d a b s
  | .ushl d a b => Sys2Proof.Machine.execUshl d a b s
  | .ushr d a b => Sys2Proof.Machine.execUshr d a b s
  | .usar d a b => Sys2Proof.Machine.execUsar d a b s
  | .umin d a b u => Sys2Proof.Machine.execUmin d a b u s
  | .umax d a b u => Sys2Proof.Machine.execUmax d a b u s
  | .ucmp c k a b => Sys2Proof.Machine.execUcmp c k a b s
  | .usel d a kb n => Sys2Proof.Machine.execUsel d a kb n s
  | .ulea d a b scale => Sys2Proof.Machine.execUlea d a b scale s
  | .umov d a => Sys2Proof.Machine.execUmov d a s
  | .uaddi d a imm => Sys2Proof.Machine.execUaddi d a imm s
  | .umovi d imm => Sys2Proof.Machine.execUmovi d imm s
  | .umovhi d imm => Sys2Proof.Machine.execUmovhi d imm s
  | .ulimm d imm => Sys2Proof.Machine.execUlimm d imm s
  | .ucmpi c k a imm => Sys2Proof.Machine.execUcmpi c k a imm s
  | .vbcast d a => Sys2Proof.Machine.execVbcast d a s
  | .vreadl d a b => Sys2Proof.Machine.execVreadl d a b s
  | .vwritel d a b => Sys2Proof.Machine.execVwritel d a b s
  | .vfirst d a => Sys2Proof.Machine.execVfirst d a s
  | .pget d a m => Sys2Proof.Machine.execPget d a m s
  | .pset d a => Sys2Proof.Machine.execPset d a s
  | .fadd d a b => Sys2Proof.Machine.execFadd d a b s
  | .fsub d a b => Sys2Proof.Machine.execFsub d a b s
  | .fmul d a b => Sys2Proof.Machine.execFmul d a b s
  | .ffma d a b np na => Sys2Proof.Machine.execFfma d a b np na s
  | .fmin d a b => Sys2Proof.Machine.execFmin d a b s
  | .fmax d a b => Sys2Proof.Machine.execFmax d a b s
  | .fcmp c p a b => Sys2Proof.Machine.execFcmp c p a b s
  | .fdiv d a b => Sys2Proof.Machine.execFdiv d a b s
  | .fsqrt d a => Sys2Proof.Machine.execFsqrt d a s
  | .frcp d a => Sys2Proof.Machine.execFrcp d a s
  | .frsq d a => Sys2Proof.Machine.execFrsq d a s
  | .fexp2 d a => Sys2Proof.Machine.execFexp2 d a s
  | .flog2 d a => Sys2Proof.Machine.execFlog2 d a s
  | .fsin d a => Sys2Proof.Machine.execFsin d a s
  | .fcos d a => Sys2Proof.Machine.execFcos d a s
  | .ftanh d a => Sys2Proof.Machine.execFtanh d a s
  | .fclass d a => Sys2Proof.Machine.execFclass d a s
  | .fscale d a b => Sys2Proof.Machine.execFscale d a b s
  | .fmov d a op => Sys2Proof.Machine.execFmov d a op s
  | .pkadd d a b bf => Sys2Proof.Machine.execPkadd d a b bf s
  | .pkmul d a b bf => Sys2Proof.Machine.execPkmul d a b bf s
  | .pkfma d a b bf => Sys2Proof.Machine.execPkfma d a b bf s
  | .cvt d a dk sk rtz => Sys2Proof.Machine.execCvt d a dk sk rtz s
  | .rqnt d a b k => Sys2Proof.Machine.execRqnt d a b k s
  | .unpk5 d a pb byte => Sys2Proof.Machine.execUnpk5 d a pb byte s
  | .pack5 d a byte => Sys2Proof.Machine.execPack5 d a byte s
  | .unpkps d a b byte => Sys2Proof.Machine.execUnpkps d a b byte s
  | .shfl d a b m => Sys2Proof.Machine.execShfl d a b m s
  | .shflx d a b m => Sys2Proof.Machine.execShflx d a b m s
  | .scan d a op ex => Sys2Proof.Machine.execScan d a op ex s
  | .vred d a op => Sys2Proof.Machine.execVred d a op s
  | .vote d pa m => Sys2Proof.Machine.execVote d pa m s
  | .matchV d a => Sys2Proof.Machine.execMatchV d a s
  | .rng d a b stream => Sys2Proof.Machine.execRng d a b stream s
  | .racq t k n => Sys2Proof.Machine.execRacq t k n s
  | .rrel n => Sys2Proof.Machine.execRrel n s
  | .wbase b => Sys2Proof.Machine.execWbase b s
  | .ldg d a bp w => Sys2Proof.Machine.execLdg d a bp w s
  | .stg d a bp w => Sys2Proof.Machine.execStg d a bp w s
  | .lds d a bp w => Sys2Proof.Machine.execLds d a bp w s
  | .sts d a bp w => Sys2Proof.Machine.execSts d a bp w s
  | .ldu d a bp w => Sys2Proof.Machine.execLdu d a bp w s
  | .stu d a bp w => Sys2Proof.Machine.execStu d a bp w s
  | .ldgX d a bp w x => Sys2Proof.Machine.execLdgX d a bp w x s
  | .stgX d a bp w x => Sys2Proof.Machine.execStgX d a bp w x s
  | .ldsX d a bp w x => Sys2Proof.Machine.execLdsX d a bp w x s
  | .stsX d a bp w x => Sys2Proof.Machine.execStsX d a bp w x s
  | .lduX d a bp w x => Sys2Proof.Machine.execLduX d a bp w x s
  | .stuX d a bp w x => Sys2Proof.Machine.execStuX d a bp w x s
  | .tmov d a b => Sys2Proof.Machine.execTmov d a b s
  | .atom d a bp x => Sys2Proof.Machine.execAtom d a bp x s
  | .atomu d a bp x => Sys2Proof.Machine.execAtomu d a bp x s
  | .mred d a bp x => Sys2Proof.Machine.execMred d a bp x s
  | .qpsh q a => Sys2Proof.Machine.execQpsh q a s
  | .qpop d q => Sys2Proof.Machine.execQpop d q s
  | .qtry op k a q => Sys2Proof.Machine.execQtry op k a q s
  | .qbind unbind q a k => Sys2Proof.Machine.execQbind unbind q a k s
  | .bari a => Sys2Proof.Machine.execBari a s
  | .barx a b => Sys2Proof.Machine.execBarx a b s
  | .bara a b => Sys2Proof.Machine.execBara a b s
  | .barw a b => Sys2Proof.Machine.execBarw a b s
  | .phbeg k a => Sys2Proof.Machine.execPhbeg k a s
  | .phend a => Sys2Proof.Machine.execPhend a s
  | .tld td va sd => Sys2Proof.Machine.execTld td va sd s
  | .tst ta va sd => Sys2Proof.Machine.execTst ta va sd s
  | .tzero td acc => Sys2Proof.Machine.execTzero td acc s
  | .tmma ad ta tb vf z => Sys2Proof.Machine.execTmma ad ta tb vf z s
  | .tmmas ad ta tb vf tm z => Sys2Proof.Machine.execTmmas ad ta tb vf tm z s
  | .trdrow vx ta side acc => Sys2Proof.Machine.execTrdrow vx ta side acc s
  | .twrrow td vx side acc => Sys2Proof.Machine.execTwrrow td vx side acc s
  | .ttrq td ta => Sys2Proof.Machine.execTtrq td ta s
  | .tcvt td ta ss ds => Sys2Proof.Machine.execTcvt td ta ss ds s
  | .trq td aa vx ds => Sys2Proof.Machine.execTrq td aa vx ds s
  | .mld md v rows cols => Sys2Proof.Machine.execMld md v rows cols s
  | .mst ma v => Sys2Proof.Machine.execMst ma v s
  | .mshape md rows cols => Sys2Proof.Machine.execMshape md rows cols s
  | .mmul md ma mb => Sys2Proof.Machine.execMmul md ma mb s
  | .mmad md ma mb => Sys2Proof.Machine.execMmad md ma mb s
  | .madd md ma mb => Sys2Proof.Machine.execMadd md ma mb s
  | .msub md ma mb => Sys2Proof.Machine.execMsub md ma mb s
  | .mtrn md ma => Sys2Proof.Machine.execMtrn md ma s
  | .mscl md ma v => Sys2Proof.Machine.execMscl md ma v s
  | .mchol md ma => Sys2Proof.Machine.execMchol md ma s
  | .mlup md ma v => Sys2Proof.Machine.execMlup md ma v s
  | .msolv md ma mb v m => Sys2Proof.Machine.execMsolv md ma mb v m s
  | .minv md ma chol => Sys2Proof.Machine.execMinv md ma chol s
  | .mgete v ma row j => Sys2Proof.Machine.execMgete v ma row j s
  | .msete md v row j => Sys2Proof.Machine.execMsete md v row j s
  | .mstat v c => Sys2Proof.Machine.execMstat v c s
  | .slbind m k a => Sys2Proof.Machine.execSlbind m k a s
  | .slscor d a b => Sys2Proof.Machine.execSlscor d a b s
  | .slfin p a => Sys2Proof.Machine.execSlfin p a s
  | .slropn d a => Sys2Proof.Machine.execSlropn d a s
  | .slst d a acq => Sys2Proof.Machine.execSlst d a acq s
  | .slkvc d a => Sys2Proof.Machine.execSlkvc d a s
  | .slemit d => Sys2Proof.Machine.execSlemit d s
  | .apxb a => Sys2Proof.Machine.execApxb a s
  | .apxe => Sys2Proof.Machine.execApxe s
  | .fitcfg d a => Sys2Proof.Machine.execFitcfg d a s
  | .fitinv a free => Sys2Proof.Machine.execFitinv a free s
  | .fitst d a => Sys2Proof.Machine.execFitst d a s
  | .fitld a b => Sys2Proof.Machine.execFitld a b s
  | .fitsv a b => Sys2Proof.Machine.execFitsv a b s
  | .qend => Sys2Proof.Machine.execQend s
  | .shrd d => Sys2Proof.Machine.execShrd d s
  | .sysNull req => Sys2Proof.Machine.execSysNull req s
  | .sysMap req pages => Sys2Proof.Machine.execSysMap req pages s
  | .sysUnmap req => Sys2Proof.Machine.execSysUnmap req s
  | .sysResume req => Sys2Proof.Machine.execSysResume req s
  | .sysSkip req => Sys2Proof.Machine.execSysSkip req s
  | .sysAbort req => Sys2Proof.Machine.execSysAbort req s
  | .sysSignal req => Sys2Proof.Machine.execSysSignal req s
  | .sysNotify req => Sys2Proof.Machine.execSysNotify req s
  | .sysInval req => Sys2Proof.Machine.execSysInval req s
  | .sysCompletion req => Sys2Proof.Machine.execSysCompletion req s
  | .racqGrant core => Sys2Proof.Machine.execRacqGrant core s
  | .racqTimeout wave => Sys2Proof.Machine.execRacqTimeout wave s
  | .loadSectorReturn wave seq idx => Sys2Proof.Machine.execLoadSectorReturn wave seq idx s
  | .storePerformed wave seq => Sys2Proof.Machine.execStorePerformed wave seq s
  | .memoryError wave seq idx => Sys2Proof.Machine.execMemoryError wave seq idx s
  | .fabricError wave seq idx => Sys2Proof.Machine.execFabricError wave seq idx s
  | .pageWalk die => Sys2Proof.Machine.execPageWalk die s
  | .walkCompletion die idx => Sys2Proof.Machine.execWalkCompletion die idx s
  | .translationInvalidationComplete inv => Sys2Proof.Machine.execTranslationInvalidationComplete inv s
  | .tmovCompletion wave seq => Sys2Proof.Machine.execTmovCompletion wave seq s
  | .atomicRequest wave seq idx => Sys2Proof.Machine.execAtomicRequest wave seq idx s
  | .atomicResultReturn wave part => Sys2Proof.Machine.execAtomicResultReturn wave part s
  | .collectionWindowClose cluster => Sys2Proof.Machine.execCollectionWindowClose cluster s
  | .copyCommand cluster engine => Sys2Proof.Machine.execCopyCommand cluster engine s
  | .rectangleCopyCommand cluster engine => Sys2Proof.Machine.execRectangleCopyCommand cluster engine s
  | .gatherCommand cluster => Sys2Proof.Machine.execGatherCommand cluster s
  | .scatterCommand cluster => Sys2Proof.Machine.execScatterCommand cluster s
  | .engineCommandCompletion cluster engine => Sys2Proof.Machine.execEngineCommandCompletion cluster engine s
  | .engineCommandFault cluster engine written => Sys2Proof.Machine.execEngineCommandFault cluster engine written s
  | .tileInstructionCompletion wave => Sys2Proof.Machine.execTileInstructionCompletion wave s
  | .smallMatrixCompletion wave => Sys2Proof.Machine.execSmallMatrixCompletion wave s
  | .fitTransferCompletion wave seq => Sys2Proof.Machine.execFitTransferCompletion wave seq s
  | .trainingStepBegin cluster rid => Sys2Proof.Machine.execTrainingStepBegin cluster rid s
  | .trainingStepCompletion cluster rid => Sys2Proof.Machine.execTrainingStepCompletion cluster rid s
  | .userInterrupt wave => Sys2Proof.Machine.execUserInterrupt wave s
  | .starvationBoost wave second vport => Sys2Proof.Machine.execStarvationBoost wave second vport s
  | .ageingLimit launch gang => Sys2Proof.Machine.execAgeingLimit launch gang s
  | .place part => Sys2Proof.Machine.execPlace part s
  | .preempt launch gang => Sys2Proof.Machine.execPreempt launch gang s
  | .restore launch gang => Sys2Proof.Machine.execRestore launch gang s
  | .kill launch => Sys2Proof.Machine.execKill launch s
  | .ended group => Sys2Proof.Machine.execEnded group s
  | .saved launch gang => Sys2Proof.Machine.execSaved launch gang s
  | .restored launch gang => Sys2Proof.Machine.execRestored launch gang s
  | .fault wave => Sys2Proof.Machine.execFault wave s
  | .quantumEnd wave => Sys2Proof.Machine.execQuantumEnd wave s
  | .roundCommit launch => Sys2Proof.Machine.execRoundCommit launch s
  | .nodeBatchTimer launch node => Sys2Proof.Machine.execNodeBatchTimer launch node s
  | .launchCompletion launch => Sys2Proof.Machine.execLaunchCompletion launch s
  | .launch lq => Sys2Proof.Machine.execLaunch lq s
  | .inval lq => Sys2Proof.Machine.execInval lq s
  | .resume lq => Sys2Proof.Machine.execResume lq s
  | .skip lq => Sys2Proof.Machine.execSkip lq s
  | .abort lq => Sys2Proof.Machine.execAbort lq s
  | .signal lq => Sys2Proof.Machine.execSignal lq s
  | .pcreate lq => Sys2Proof.Machine.execPcreate lq s
  | .premove lq => Sys2Proof.Machine.execPremove lq s
  | .tcreate lq => Sys2Proof.Machine.execTcreate lq s
  | .tremove lq => Sys2Proof.Machine.execTremove lq s
  | .fwload lq => Sys2Proof.Machine.execFwload lq s
  | .mreset lq => Sys2Proof.Machine.execMreset lq s
  | .attest lq => Sys2Proof.Machine.execAttest lq s
  | .queueNotify dev vq off gives => Sys2Proof.Machine.execQueueNotify dev vq off gives s
  | .queueEnable port dev vq => Sys2Proof.Machine.execQueueEnable port dev vq s
  | .lqWrite dev vq lq => Sys2Proof.Machine.execLqWrite dev vq lq s
  | .virtqueueReset dev vq => Sys2Proof.Machine.execVirtqueueReset dev vq s
  | .deviceReset dev => Sys2Proof.Machine.execDeviceReset dev s
  | .psemWrite port val => Sys2Proof.Machine.execPsemWrite port val s
  | .psemBreak => Sys2Proof.Machine.execPsemBreak s
  | .recordPost dev vq => Sys2Proof.Machine.execRecordPost dev vq s
  | .eolUpdate => Sys2Proof.Machine.execEolUpdate s
  | .moduleReset => Sys2Proof.Machine.execModuleReset s
  | .bootImageVerify module => Sys2Proof.Machine.execBootImageVerify module s
  | .shadowStreamOut core => Sys2Proof.Machine.execShadowStreamOut core s
  | .hostLinkLeavesL0 port => Sys2Proof.Machine.execHostLinkLeavesL0 port s
  | .hostLinkReturnsToL0 port => Sys2Proof.Machine.execHostLinkReturnsToL0 port s
  | .hostDeviceMemoryAccess tier pa acc => Sys2Proof.Machine.execHostDeviceMemoryAccess tier pa acc s
  | .fabricRemoteAccess tier pa acc => Sys2Proof.Machine.execFabricRemoteAccess tier pa acc s
  | .unknownOpcodeCommand lq => Sys2Proof.Machine.execUnknownOpcodeCommand lq s
  | .featureNegotiation dev features => Sys2Proof.Machine.execFeatureNegotiation dev features s

end Sys2Proof.Machine
end

