-- ==== Sys2Proof/Machine/Scopes.lean ====
section
/-! DEFINITION. What an instruction or event needs of the writes in flight before it acts (spec/01_the_module.md R13,
spec/19_ordering.md R367-R385): a release, that the writes its wave sees have performed at its scope; an action on bytes at their
home, that the writes to them which its wave sees are there. Nothing else moves a write on: page walkers, the Curator, the Milliner,
the host, the fabric and instruction fetch find the values at home, and an atomic's step does the same for itself (log 6). -/

namespace Sys2Proof.Machine

/-- The range of a slot's scratchpad address is acted on, with a release at its level's widest scope where `rel` (R103, R146). -/
def State.onScr (s : State) (k : Slot) (a n : Nat) (rel : Bool) : State :=
  match s.scrRange k.ctx a n with
  | .ok key => (if rel then s.relAt k.h (Loc.scr key).widest else s).reach k.h [(.scr key, n)]
  | .error _ => s

/-- The bytes of a bound queue: header and ring. -/
def Queue.bytes (q : Queue) (key : Nat) : List (Loc × Nat) := [(.scr key, 32 + 4 * q.cap * q.itemw)]

/-- The queue at `key` is acted on for a slot, and for whoever waits there and may be served (R137). -/
def State.onQueue (s : State) (k : Slot) (key : Nat) (rel : Bool) : State :=
  match Map.find s.queues key with
  | none => s
  | some q =>
    let waiting := (s.waiters.filter fun x => match x.on with
      | .pop r _ | .push r _ => ((Map.find s.waves x.wave).bind (·.boundTo r)) == some key
      | _ => false).map (·.wave)
    (k.h :: waiting).foldl (fun s h => s.reach h (q.bytes key)) (if rel then s.relAt k.h (Loc.scr key).widest else s)

/-- The queue that a slot's register is bound to. -/
def State.onBound (s : State) (k : Slot) (q : Nat) (rel : Bool) : State :=
  match k.w.boundTo q with
  | some key => s.onQueue k key rel
  | none => s

/-- The catalogue that a slot's wave is bound to; SLKVC releases at cluster scope and SLEMIT at system scope (R383). -/
def State.onBoundCat (s : State) (k : Slot) (rel : Option Nat) : State :=
  match s.catOf k with
  | some (key, c) =>
    (match rel with
      | some n => s.relAt k.h n
      | none => s).reach k.h [(.scr key, catSize c.hdr)]
  | none => s

/-- The sample buffer of a region of a slot's cluster (R384). -/
def State.onSamples (s : State) (k : Slot) (rid : Nat) : State :=
  match Map.find s.regions (regionKey k.cluster rid) with
  | some r => s.reach k.h [(.scr (sampleKey k.cluster r 0), 4 * (regNin r.desc + regNout r.desc) * regCap r.desc)]
  | none => s

/-- What an instruction of a slot needs. -/
def State.beforeWord (s : State) (k : Slot) (i : Instr) : State :=
  match i with
  | .fence kind scope => if kind = .acq then s else s.relAt k.h scope.code
  | .bari a | .barx a _ => s.onScr k (k.s a).toNat 8 false
  | .bara a _ => s.onScr k (k.s a).toNat 8 true
  | .barw a _ =>
    match s.place k with
    | some (.barw place _ _) => s.reach k.h [(.scr place, 8)]
    | _ => s.onScr k (k.s a).toNat 8 false
  | .qpsh q _ => s.onBound k q true
  | .qpop _ q => s.onBound k q false
  | .qtry op _ _ q => s.onBound k q (op == .push)
  | .qbind u q a _ =>
    let s1 := s.onBound k q false
    match s1.scr k.ctx (k.s a).toNat with
    | .ok key => if u then s1 else s1.onQueue k key false
    | .error _ => s1
  | .spawn node d _ _ => if node then s.relAt k.h 4 else s.onBound k d true
  | .sysc _ _ => s.relAt k.h 5
  | .mst ma v =>
    match s.matLocs k v fun l => rowsOf (k.w.mshape ma l) * colsOf (k.w.mshape ma l) with
    | .ok locs => s.reach k.h (locs.map fun e => (.scr e.2, 4 * (k.w.matWords ma e.1).length))
    | .error _ => s
  | .slbind _ _ a =>
    match s.scr k.ctx (k.s a).toNat with
    | .ok key => s.reach k.h [(.scr key, catSize ((List.range 16).map fun i => BitVec.ofNat 32 (s.seenNum k (.scr (key + 4 * i)) 4)))]
    | .error _ => s
  | .slscor _ _ _ | .slfin _ _ | .slropn _ _ | .slst _ _ _ => s.onBoundCat k none
  | .slkvc _ _ => s.onBoundCat k (some 2)
  | .slemit _ => s.onBoundCat k (some 5)
  | .apxb a => s.onSamples k (k.s a).toNat
  | .apxe =>
    match k.w.stack with
    | .apxMasks _ _ :: .apxAddr _ _ rid _ _ _ :: _ => s.onSamples k rid
    | _ => s
  | _ => s

/-- What performing an outstanding operation of a wave needs: a move of a rectangle comes after its wave's earlier writes at the scope
of its levels (R115), and a weight transfer, a move and a tile store act at home. -/
def State.beforeOut (s : State) (h : Nat) (o : Out) : State :=
  match o.op with
  | .tmov d src n rb sp dp _ _ =>
    (s.widen (max (Loc.scr d).widest (Loc.scr src).widest) (·.wave == h)).reach h
      ((List.range n).flatMap fun i => [(.scr (src + i * sp), rb), (.scr (d + i * dp), rb)])
  | .tile (.tst _ _ _) _ desc _ locs _ _ =>
    s.reach h (locs.flatMap fun e => (e.2.1, tdBytes (desc.getD 0 0)) :: (e.2.2.map fun y => (y, 8)).toList)
  | .fit _ _ _ _ locs => s.reach h (locs.map fun x => (x, 4))
  | _ => s

/-- What an engine command needs: its index words, and then the words it moves, as its wave sees them (R128); with REL a release at
SCOPE, and with BAR one at cluster scope and the barrier word (R129). -/
def State.beforeCommand (s : State) (c : Command) : State :=
  let s1 := if c.gather then s.reach c.wave ((List.range c.rows).map fun j => (.scr (s.indexKey c j), 4)) else s
  let m := State.engResolve c c.steps { s := s1 }
  let s2 := s1.reach c.wave (m.places.flatMap fun p => [(p.1, 4), (p.2, 4)])
  let s3 := if bitAt (c.word 0) 30 then s2.relAt c.wave (field (c.word 0) 29 27) else s2
  if c.bar = 0 then s3
  else match s3.scr c.ctx c.barAddr with
    | .ok place => (s3.relAt c.wave 2).reach c.wave [(.scr place, 8)]
    | .error _ => s3

/-- What an error of operation `seq` of a wave, or of the instruction it stands at, needs: what performing it needs. -/
def State.beforeError (s : State) (h seq idx : Nat) : State :=
  match Map.find s.waves h with
  | none => s
  | some w =>
    if seq = w.nextSeq then
      match s.slotOf h (idx / 2 ^ 16 == 1) with
      | none => s
      | some k => match s.fetch k with
        | .ok i => s.beforeWord k i
        | _ => s
    else match w.out seq with
      | some o => s.beforeOut h o
      | none => s

/-- The state in which an instruction or event runs (R13). A commit of a round leaves nothing in flight (R385, R454). -/
def State.before (s : State) (i : Instr) : State :=
  if s.flight.isEmpty then s
  else match i with
    | .roundCommit _ => s.performAll
    | .tmovCompletion h seq | .fitTransferCompletion h seq =>
      match (Map.find s.waves h).bind (·.out seq) with
      | some o => s.beforeOut h o
      | none => s
    | .tileInstructionCompletion h =>
      match (Map.find s.waves h).bind (·.nextTile) with
      | some o => s.beforeOut h o
      | none => s
    | .memoryError h seq idx | .fabricError h seq idx => s.beforeError h seq idx
    | .engineCommandCompletion cluster engine | .engineCommandFault cluster engine _ =>
      match s.running cluster engine with
      | some c => s.beforeCommand c
      | none => s
    | _ =>
      match s.slot with
      | some k => if i.isWord then s.beforeWord k i else s
      | none => s

end Sys2Proof.Machine
end

