-- ==== Sys2Proof/Machine/Turn.lean ====
section
/-! DEFINITION. A slot's turn, the slots that are ready for a core's ports, and the pick of the issue selector
(spec/02_instruction_words.md R50, spec/21_scheduling.md R423). -/

namespace Sys2Proof.Machine

/-- The slot takes a user interrupt before it issues (R431). -/
def Slot.interrupted (k : Slot) : Bool := !k.second && !k.det && k.w.interruptDue.isSome

/-- The current slot's turn: nothing where it may not issue, a loop's end check that is due, a user interrupt, a walk for a missing
translation, a fault or an error of fetch or decode, or the instruction, its words kept in the loop buffer (R26, R50, R431). -/
def State.turn (s : State) : Res :=
  match s.slot with
  | none => .next s
  | some k =>
    if !k.mayIssue then .next s
    else if k.f.endPend then exec .hloopEndCheck s
    else if k.interrupted then exec (.userInterrupt k.h) s
    else match s.fetch k with
      | .miss va => .next (s.missAll k 2 [va])
      | .fault _ _ _ => exec (.instructionFetchPageFault k.second) s
      | .error va key => .next ((s.metBad key).fetchError k va key)
      | .cut => .next (s.trap k (k.leaves k.f.pc))
      | .bad w0 _ => exec (.illegalInstructionWord (BitVec.ofNat 32 w0)) s
      | .ok i => exec i ((s.keepWords k i).before i)

/-- A slot is ready for a port: its next instruction is of the port's class and would not leave everything as it is (R423). -/
def State.ready (s : State) (k : Slot) (v : Bool) : Bool :=
  let s1 := { s with cur := (k.h, k.second) }
  k.mayIssue && !k.f.endPend && (match s1.fetch k with
    | .ok i => onVPort i == v && (match exec i (s1.keepWords k i) with
      | .next t => decide (t ≠ s1.keepWords k i)
      | _ => true)
    | _ => false)

/-- The slot that a core's port issues: the ready one of the highest rank (R423). -/
def State.picked (s : State) (core : Nat) (v : Bool) : Option Slot :=
  ((s.slotsOn core).filter fun k => s.ready k v).foldl (fun best k => match best with
    | none => some k
    | some b => if keysLt (s.rank k v) (s.rank b v) then some k else some b) none

/-- The turn of the slot that a core's selector picks, if any. -/
def State.portTurn (s : State) (core : Nat) (v : Bool) : Res :=
  match s.picked core v with
  | some k => { s with cur := (k.h, k.second) }.turn
  | none => .next s

/-- A wave's starvation count for one slot and port: it runs while the slot is ready, and starts again when it is not (R423). -/
def Wave.noteReady (w : Wave) (at_ cycle : Nat) (ready : Bool) : Wave :=
  if ready then (if (Map.find w.since at_).isSome then w else { w with since := Map.put w.since at_ cycle })
  else { w with since := Map.erase w.since at_, boosts := w.boosts.filter fun b => b != at_ }

/-- Which slots are ready in the present cycle is noted (R423). -/
def State.noteReady (s : State) : State :=
  { s with waves := s.waves.map fun e => (e.1, [(false, false), (false, true), (true, false), (true, true)].foldl (fun w p =>
      w.noteReady (bit p.1 * 2 + bit p.2) s.cycle ((s.slotOf e.1 p.1).any fun k => s.ready k p.2)) e.2) }

/-- `n` cycles pass: starvation counts, collection windows, and the order of PSEM's writes within a cycle (R423, R484, R490). -/
def State.cycles (s : State) (n : Nat) : State :=
  let s1 := s.noteReady.pass n
  if n = 0 then s1 else { s1 with psemFrom := s1.psem, psemWrites := [] }

end Sys2Proof.Machine
end

