-- ==== Sys2Proof/Machine/Step.lean ====
section
/-! DEFINITION. One step of the part: the turn at the head of the agenda, or the current slot when it is empty (log 1). -/

namespace Sys2Proof.Machine

/-- One step. -/
def step (s : State) : Host.Outcome State Fault Refusal :=
  match s.agenda with
  | [] => s.turn
  | .slot h b :: r => { s with agenda := r, cur := (h, b) }.turn
  | .port core v :: r => { s with agenda := r }.portTurn core v
  | .cycles n :: r => .next ({ s with agenda := r }.cycles n)
  | .event i :: r => if i.isWord then .next { s with agenda := r } else exec i ({ s with agenda := r }.before i)

/-- Where a placed instruction stands. -/
def codeBase : Nat := 0x1000

/-- A wave on core 0 of a tenant of partition 0, its code page mapped, about to issue at `codeBase`: what a LAUNCH and a
PLACE leave behind (log 10). -/
def State.withWave (s : State) : State :=
  { s with
    agenda := []
    cur := (s.nextWave, false)
    nextWave := s.nextWave + 1
    nextGroup := s.nextGroup + 1
    nextLaunch := s.nextLaunch + 1
    parts := Map.put s.parts 0 { clusters := [0] }
    tenants := Map.put s.tenants 0 { part := 0, rootPA := 0, rootTier := 0 }
    devs := Map.put s.devs 0 { failed := false }
    launches := Map.put s.launches s.nextLaunch
      { tenant := 0, block := { code := BitVec.ofNat 64 codeBase, tiles := 16, accs := 8, mats := 1, scratch := 0x10000,
                                clusz := 0x10000, diesz := 0x10000, roles := [{ regs := 3 }] } }
    groups := Map.put s.groups s.nextGroup
      { launch := s.nextLaunch, waves := [s.nextWave], regs := 3, tiles := 16, accs := 8, mats := 1, scratch := 0x10000 }
    waves := Map.put s.waves s.nextWave
      { group := s.nextGroup, base := 3, blocks := 4, matrix := true,
        first := some { pc := BitVec.ofNat 64 codeBase, mask := BitVec.allOnes 64 }, codeSeen := s.codeCount }
    utlb := Map.put s.utlb 0
      [{ tenant := 0, page := codeBase / 4096, size := 12, tier := 0, pa := codeBase, rd := true, w := true, x := true, d := true }] }

/-- The current slot would fetch at once at a mapped address whose eight bytes lie in one page. -/
def State.fetchReady (s : State) : Option Nat :=
  match s.slot with
  | some k =>
    match s.codeXlate k k.f.pc with
    | .ok t p => if s.agenda = [] && k.mayIssue && !k.f.endPend && p % 4096 ≤ 4088 then some (memKey t p) else none
    | _ => none
  | none => none

/-- The bytes of an instruction of the table: first word in bits 31..0, second in bits 63..32, the rest zero. -/
def tableBytes (nbits w : Nat) : List Byte :=
  let v := w % 2 ^ nbits
  wordBytes (v % 2 ^ 32) ++ wordBytes (v / 2 ^ 32 % 2 ^ 32)

/-- `s` with an instruction's words where the next fetch reads them; where no wave is about to issue, one is placed. -/
def State.withFetchWord (s : State) (nbits w : Nat) : State :=
  let s' := if s.fetchReady.isSome then s else s.withWave
  let key := s'.fetchReady.getD (memKey 0 codeBase)
  let bs := tableBytes nbits w
  { s' with mem := Sparse.setRun Memory.blank s'.mem key 8 fun i => bs.getD i 0 }

end Sys2Proof.Machine
end

