-- ==== Sys2Proof/Safety.lean ====
section
/-! DEFINITION. The terms in which claims about the machine are stated: when an instruction may issue, what a step changes,
and what counts as a well-kept state. -/

namespace Sys2Proof

/-- The vector registers an operand names. -/
def Src.vecs : Src → List Nat
  | .v n => [n]
  | .s _ => []

/-- A run of `n` vector registers named by one field. -/
def vecRun (fld d n : Nat) : List (Nat × Nat) := (List.range n).map fun i => (fld, d + i)

/-- The registers that hold a value of 2^`w` bytes (R90). -/
def widthRun (w : Nat) : Nat := (2 ^ w + 3) / 4

/-- The operand field b, which names a vector register or not. -/
def Src.named : Src → List (Nat × Nat)
  | .v n => [(2, n)]
  | .s _ => []

/-- The vector registers that an instruction names, in the order of R435: field number (0 d, 1 a, 2 b, 3 fv) and register. TRQ, SPAWN,
APXB and APXE name more than their words say, and are not here. -/
def Instr.vectorNames : Instr → List (Nat × Nat)
  | .iadd d a b | .isub d a b | .imul d a b | .imulh d a b _ | .imad d a b | .imin d a b _ | .imax d a b _ | .andV d a b | .orV d a b
  | .xorV d a b | .andn d a b | .shl d a b | .shr d a b | .sar d a b | .bfx d a b _ | .bfi d a b | .iaddsat d a b _ | .hmix d a b
  | .itrit d a b | .fadd d a b | .fsub d a b | .fmul d a b | .ffma d a b _ _ | .fmin d a b | .fmax d a b | .fdiv d a b | .fscale d a b
  | .pkadd d a b _ | .pkmul d a b _ | .pkfma d a b _ | .unpkps d a b _ | .shfl d a b _ | .shflx d a b _ => (0, d) :: (1, a) :: b.named
  | .icmp _ _ a b | .fcmp _ _ a b => (1, a) :: b.named
  | .iabs d a | .popc d a | .clz d a | .sel d a _ _ | .mov d a | .iaddi d a _ | .imuli d a _ | .andi d a _ | .ori d a _ | .xori d a _
  | .shli d a _ | .shri d a _ | .sari d a _ | .fsqrt d a | .frcp d a | .frsq d a | .fexp2 d a | .flog2 d a | .fsin d a | .fcos d a
  | .ftanh d a | .fclass d a | .fmov d a _ | .cvt d a _ _ _ | .rqnt d a _ _ | .scan d a _ _ | .matchV d a | .slropn d a
  | .slkvc d a => [(0, d), (1, a)]
  | .laneid d | .movi d _ | .movhi d _ | .limm d _ | .vbcast d _ | .vwritel d _ _ => [(0, d)]
  | .icmpi _ _ a _ | .vreadl _ a _ | .vfirst _ a | .vred _ a _ | .slfin _ a => [(1, a)]
  | .unpk5 d a _ _ => vecRun 0 d 5 ++ [(1, a)]
  | .pack5 d a _ => (0, d) :: vecRun 1 a 5
  | .rng d a _ _ => vecRun 0 d 4 ++ [(1, a)]
  | .ldg d a _ w | .stg d a _ w | .lds d a _ w | .sts d a _ w | .ldgX d a _ w _ | .stgX d a _ w _ | .ldsX d a _ w _
  | .stsX d a _ w _ => vecRun 0 d (widthRun w) ++ [(1, a)]
  | .atom d a _ x | .mred d a _ x => vecRun 0 d ((if x.op = .cas then 2 else 1) * (if x.wide then 2 else 1)) ++ [(1, a)]
  | .tld _ va sd | .tst _ va sd => vecRun 3 va (if sd then 2 else 1)
  | .tmma _ _ _ vf _ | .tmmas _ _ _ vf _ _ => [(3, vf)]
  | .trdrow vx _ _ _ => [(3, vx)]
  | .twrrow _ vx _ _ => vecRun 3 vx 2
  | .mld _ v _ _ | .mst _ v | .mlup _ _ v | .mgete v _ _ _ | .msete _ v _ _ | .mstat v _ => [(3, v)]
  | .msolv _ _ _ v m => if m = .lu then [(3, v)] else []
  | .mscl _ _ v => v.vecs.map fun n => (3, n)
  | .slscor d a b => [(0, d), (1, a), (2, b)]
  | .slst d a _ => [(0, d), (0, d + 1), (1, a)]
  | _ => []

/-- The tiles and accumulators named in the fields before fv: number, and whether it is an accumulator. -/
def Instr.gridNames : Instr → List (Nat × Bool)
  | .tld t _ _ | .tst t _ _ => [(t, false)]
  | .tmma ad ta tb _ _ | .tmmas ad ta tb _ _ _ => [(ad, true), (ta, false), (tb, false)]
  | .trdrow _ t _ acc | .twrrow t _ _ acc => [(t, acc)]
  | _ => []

end Sys2Proof

namespace Sys2Proof.Machine

/-- Memory and the scratchpads are in canonical form: equal contents are equal data. -/
def State.memOk (s : State) : Prop := Memory.wf s.mem = true ∧ Sparse.wf (0 : Byte) s.scratch = true

/-- A wave within its bounds: levels of the lane-mask stack (R173), outstanding operations that count on each path (R109), held
uniform writes (R182), and the words of its completion records (R133); its queue bindings are listed once each, in rising order. -/
structure Wave.Bounded (w : Wave) : Prop where
  stack : w.stack.length ≤ 8 + w.spill
  paths : ∀ p, w.pathCount p ≤ 63
  held : w.held.length ≤ 8
  records : ∀ r ∈ w.q1 ++ w.q3, r.length = 8
  binds : w.binds.Pairwise (fun a b => a.1 < b.1)

/-- The waves are listed once each, in rising order, and every one is within its bounds. -/
structure State.Bounded (s : State) : Prop where
  rising : s.waves.Pairwise (fun a b => a.1 < b.1)
  waves : ∀ e ∈ s.waves, e.2.Bounded

/-- Beneath the lanes `x`, no level holds a lane that stands above it, and those above a loop are still in it (R174, R185, R338). -/
def apartOver : List Level → Mask → Prop
  | [], _ => True
  | .ifL _ _ _ m _ _ _ :: r, x => m &&& x = 0 ∧ apartOver r (m ||| x)
  | .loopMasks b l :: r, x => x &&& ~~~l = 0 ∧ b &&& l = 0 ∧ apartOver r (b ||| l)
  | .apxMasks _ sub :: r, x => sub &&& x = 0 ∧ apartOver r (sub ||| x)
  | .loopAddr _ _ _ _ :: r, x => apartOver r x
  | .apxAddr _ _ _ _ _ _ :: r, x => apartOver r x

/-- The lanes of a slot's fragment, if any. -/
def Wave.lanesIn (w : Wave) (second : Bool) : Mask := ((w.frag second).map (·.mask)).getD 0

/-- The fragments of a wave are not empty and have no lane in common, a second one stands beside a first in an IF, and no lane of
theirs stands in a level too (R172). -/
structure Wave.Apart (w : Wave) : Prop where
  lanes : ∀ b f, w.frag b = some f → f.mask ≠ 0
  two : w.second ≠ none → w.first ≠ none ∧ ∃ o pc st m n a i r, w.stack = .ifL o pc st m n a i :: r
  apart : w.lanesIn false &&& w.lanesIn true = 0
  levels : apartOver w.stack (w.lanesIn false ||| w.lanesIn true)

/-- `k` is the slot that issues, and an instruction of `len` bytes that sets the PC itself passes the checks of R190 there. -/
structure IssuesJump (s : State) (k : Slot) (len : Nat) : Prop where
  slot : s.slot = some k
  placed : k.placed len = true
  flat : k.deep len k.w.stack.length = false

/-- The same for an instruction that goes on to the next one: that one stands in every active body too. -/
structure Issues (s : State) (k : Slot) (len : Nat) : Prop extends IssuesJump s k len where
  inside : k.strays len = false

/-- The wave of the slot holds every vector register of a list (R156, R157). -/
def Slot.holds (k : Slot) (js : List Nat) : Prop := ∀ j ∈ js, k.w.wb + j / 32 < k.w.blocks

/-- `t` differs from `s` in the wave `h`, which is now `w`, and in waiting places given up: in nothing else. -/
structure WaveOnly (s t : State) (h : Nat) (w : Wave) : Prop where
  wave : Map.find t.waves h = some w
  others : ∀ g, g ≠ h → Map.find t.waves g = Map.find s.waves g
  rest : { t with waves := s.waves, waiters := s.waiters } = s
  waiters : ∀ x ∈ t.waiters, x ∈ s.waiters
  bytes : ∀ x, t.byte x = s.byte x

/-- The issuing slot's PC has advanced by `len`; its mask and side, and the other slot's fragment, are as they were. -/
structure Advances (k : Slot) (len : Nat) (w : Wave) : Prop where
  frag : ∃ f, w.frag k.second = some f ∧ f.pc = k.f.pc + BitVec.ofNat 64 len ∧ f.mask = k.f.mask ∧ f.side = k.f.side
  other : w.frag (!k.second) = k.w.frag (!k.second)

/-- A wave with what every instruction that ends moves put back: fragments, the quantum's count, the selector's notes. -/
def Wave.rewound (w : Wave) (k : Slot) : Wave :=
  { w with first := k.w.first, second := k.w.second, qret := k.w.qret, since := k.w.since, boosts := k.w.boosts }

/-- The instruction ends in a next state in which the PC has advanced by `len` and nothing else has changed. -/
def Passes (s : State) (k : Slot) (len : Nat) (r : Res) : Prop :=
  ∃ t w, r = .next t ∧ WaveOnly s t k.h w ∧ Advances k len w ∧ w.rewound k = k.w

/-- The instruction ends in a next state in which the active lanes of `vd` hold `f` and no other vector word, and nothing
else of the machine, has changed. -/
def WritesVec (s : State) (k : Slot) (len d : Nat) (f : Nat → Word) (r : Res) : Prop :=
  ∃ t w, r = .next t ∧ WaveOnly s t k.h w ∧ Advances k len w ∧
    (∀ l, l < 64 → w.vget d l = if k.on l then f l else k.w.vget d l) ∧
    (∀ x, (x < k.w.vkey d ∨ k.w.vkey d + 64 ≤ x) → Sparse.get 0 w.v x = Sparse.get 0 k.w.v x) ∧
    { w.rewound k with v := k.w.v } = k.w

/-- As `WritesVec`, for a run of `n` registers from `vd`: `f i` fills the active lanes of the `i`-th. -/
def WritesRun (s : State) (k : Slot) (len d n : Nat) (f : Nat → Nat → Word) (r : Res) : Prop :=
  ∃ t w, r = .next t ∧ WaveOnly s t k.h w ∧ Advances k len w ∧
    (∀ i l, i < n → l < 64 → w.vget (d + i) l = if k.on l then f i l else k.w.vget (d + i) l) ∧
    (∀ x, (x < k.w.vkey d ∨ k.w.vkey d + 64 * n ≤ x) → Sparse.get 0 w.v x = Sparse.get 0 k.w.v x) ∧
    { w.rewound k with v := k.w.v } = k.w

/-- The flag bits of FFLAGS after the active lanes raised theirs (R208, R209). -/
def FlagsOr (k : Slot) (w : Wave) (flags : Nat → Nat) : Prop :=
  ∀ b, b < 32 → w.fflags.getLsbD b = (k.w.fflags.getLsbD b || (List.range 64).any fun l => k.on l && (flags l).testBit b)

/-- As `WritesVec`, for an instruction whose active lanes also raise floating-point flags. -/
def WritesFp (s : State) (k : Slot) (len d : Nat) (f : Nat → Flagged) (r : Res) : Prop :=
  ∃ t w, r = .next t ∧ WaveOnly s t k.h w ∧ Advances k len w ∧
    (∀ l, l < 64 → w.vget d l = if k.on l then BitVec.ofNat 32 (f l).1 else k.w.vget d l) ∧
    (∀ x, (x < k.w.vkey d ∨ k.w.vkey d + 64 ≤ x) → Sparse.get 0 w.v x = Sparse.get 0 k.w.v x) ∧
    FlagsOr k w (fun l => (f l).2) ∧
    { w.rewound k with v := k.w.v, fflags := k.w.fflags } = k.w

/-- The instruction ends in a next state in which the active lanes' bits of `pp` are `f`, and no other predicate bit, and
nothing else but the flags the active lanes raise, has changed. -/
def WritesPred (s : State) (k : Slot) (len p : Nat) (f : Nat → Bool) (flags : Nat → Nat) (r : Res) : Prop :=
  ∃ t w, r = .next t ∧ WaveOnly s t k.h w ∧ Advances k len w ∧
    (∀ l, l < 64 → (w.pget p).getLsbD l = if k.on l then f l else (k.w.pget p).getLsbD l) ∧
    (∀ q, q ≠ p → w.pget q = k.w.pget q) ∧
    FlagsOr k w flags ∧
    { w.rewound k with p := k.w.p, fflags := k.w.fflags } = k.w

/-- The last value a list of uniform writes gives a destination, or what was there. -/
def lastOf (ws : List (HDst × Word)) (d : HDst) (old : Word) : Word :=
  ((ws.reverse.find? fun e => e.1 == d).map (·.2)).getD old

/-- The uniform files after the writes `ws` of a lone or first slot: each named register holds its value and no other has
changed; or, for the second of two slots, the writes are held, in order, at the present level (R180). -/
def Uniform (k : Slot) (w : Wave) (ws : List (HDst × Word)) : Prop :=
  if k.second then
    w.held = k.w.held ++ ws.map (fun e => { dst := e.1, val := some e.2, level := k.w.stack.length }) ∧ w.s = k.w.s ∧ w.k = k.w.k
  else
    (∀ n, Sparse.get 0 w.s n = lastOf ws (.s n) (Sparse.get 0 k.w.s n)) ∧
    (∀ n, Sparse.get false w.k n = (lastOf ws (.k n) (BitVec.ofNat 32 (bit (Sparse.get false k.w.k n))) != 0)) ∧ w.held = k.w.held

/-- The instruction ends in a next state in which the uniform writes `ws`, to registers and predicates, are made or held, and
nothing else has changed. -/
def WritesUni (s : State) (k : Slot) (len : Nat) (ws : List (HDst × Word)) (r : Res) : Prop :=
  ∃ t w, r = .next t ∧ WaveOnly s t k.h w ∧ Advances k len w ∧ Uniform k w ws ∧
    { w.rewound k with s := k.w.s, k := k.w.k, held := k.w.held } = k.w

/-- The instruction traps: it ends in the next state that taking the trap `t` gives, with no other effect. -/
def Traps (s : State) (k : Slot) (t : Trap) (r : Res) : Prop := r = .next (s.trap k t)

/-- The instruction waits: nothing changes, and the slot presents it again at its next turn. -/
def Waits (s : State) (r : Res) : Prop := r = .next s

/-- The instruction ends in a next state in which the slot's fragment stands at `pc`; nothing else has changed. -/
def Jumps (s : State) (k : Slot) (pc : DWord) (r : Res) : Prop :=
  ∃ t w f, r = .next t ∧ WaveOnly s t k.h w ∧ w.frag k.second = some f ∧ f.pc = pc ∧ f.mask = k.f.mask ∧ f.side = k.f.side ∧
    w.frag (!k.second) = k.w.frag (!k.second) ∧ w.rewound k = k.w

/-- What a fragment is (R172): PC, mask and side, and the lanes it executes again with. -/
def Frag.shape (f : Frag) : DWord × Mask × Bool × Option Mask := (f.pc, f.mask, f.side, f.again)

/-- The instruction ends in a next state with these fragments and this lane-mask stack; nothing else of the wave or the machine
has changed but the number that the next IF's level gets and what page walks have left for the wave. -/
def Flows (s : State) (k : Slot) (stack : List Level) (first second : Option (DWord × Mask × Bool × Option Mask)) (r : Res) : Prop :=
  ∃ t w, r = .next t ∧ WaveOnly s t k.h w ∧ w.stack = stack ∧ w.first.map Frag.shape = first ∧ w.second.map Frag.shape = second ∧
    (w.nextIf = k.w.nextIf ∨ w.nextIf = k.w.nextIf + 1) ∧
    { w.rewound k with stack := k.w.stack, nextIf := k.w.nextIf, walkFaults := k.w.walkFaults, walkLeaves := k.w.walkLeaves } = k.w

/-- The innermost level holds a suspended fragment (R176). -/
def suspendedTop : List Level → Bool
  | .ifL _ _ 2 _ _ _ _ :: _ => true
  | _ => false

/-- The instruction of the small-matrix unit ends in a next state in which each active lane has what `f` gives it: matrix `md`,
its element of `vd`, sticky status with COL for NPD and SING; its flags wait for the instruction's completion. Nothing else has
changed. -/
def MatStep (s : State) (k : Slot) (md vd : Nat) (f : Nat → MatRes) (r : Res) : Prop :=
  ∃ t w flags, r = .next t ∧ WaveOnly s t k.h w ∧ Advances k 4 w ∧
    (∀ n l, l < 64 →
      (match (if n = md ∧ k.on l = true then (f l).m else none) with
      | some (sh, es) => w.mshape n l = sh ∧
          ∀ e, e < 36 → Sparse.get 0 w.m ((n * 64 + l) * 36 + e) = BitVec.ofNat 32 (es.getD e 0)
      | none => w.mshape n l = k.w.mshape n l ∧
          ∀ e, e < 36 → Sparse.get 0 w.m ((n * 64 + l) * 36 + e) = Sparse.get 0 k.w.m ((n * 64 + l) * 36 + e))) ∧
    (∀ l, l < 64 → w.vget vd l = if k.on l then (f l).v.getD (k.w.vget vd l) else k.w.vget vd l) ∧
    (∀ x, (x < k.w.vkey vd ∨ k.w.vkey vd + 64 ≤ x) → Sparse.get 0 w.v x = Sparse.get 0 k.w.v x) ∧
    (∀ l, l < 64 →
      let old := Sparse.get 0 k.w.msts l
      let new := old ||| BitVec.ofNat 32 (f l).cond
      Sparse.get 0 w.msts l =
        if !k.on l then old else if (f l).cond % 4 = 0 then new else (new &&& 15) ||| BitVec.ofNat 32 ((f l).col * 16)) ∧
    w.flagPend = k.w.flagPend ++ [flags] ∧
    (∀ b, b < 32 → flags.getLsbD b = (List.range 64).any fun l => k.on l && (f l).flags.testBit b) ∧
    { w.rewound k with m := k.w.m, shape := k.w.shape, v := k.w.v, msts := k.w.msts, flagPend := k.w.flagPend } = k.w

end Sys2Proof.Machine
end

