-- ==== Sys2Proof/Certificates/Slice0/Obligations.lean ====
section
/-! DEFINITION. The statements for the provers. Each docstring names the rules of spec/ its statement follows; hypotheses bear on
the state and the operands alone. -/

open Sys2Proof Sys2Proof.Machine

/-! ## The step, the encoding and what every step keeps -/

/-- One step (R13, R23, R26, R50, R431, log 1). The turn of the current slot runs when the agenda is empty, and the turn of the
slot named at its head otherwise. Where that slot may issue, no loop end check is due, no user interrupt is due to the first slot
outside a deterministic launch, and the fetch at its PC gives the instruction `i`, the step is `exec i`, the instruction's words
kept in the loop buffer and the writes in flight moved on as far as `i` needs them to be (log 6): a FENCE that releases has those
its wave sees performed at its scope. With no loop running and no write in flight that is `exec i` of the state itself; moving
writes on changes memory, the scratchpads and what is in flight, with what follows code and samples, and nothing else. A due
interrupt is taken instead. Words that are no instruction are ILLEGAL_INSTRUCTION_WORD, a translation that faults is
INSTRUCTION_FETCH_PAGE_FAULT, one that is missing is asked for, a word that cannot be read is an error, a two-word
instruction at a body's last word is Illegal Control Transfer, an end check that is due comes first, and a slot that
may not issue changes nothing. The fetch gives the instruction that its words decode to: words of the loop buffer,
else the bytes at the place that each word's address translates to, as memory holds them where no code write is still
unseen. A step of another agent at the head runs as that step. -/
def Obligations.StepRunsTheDecodedInstruction : Prop :=
  (∀ (s s1 : State) (k : Slot),
    ((s.agenda = [] ∧ s1 = s) ∨ ∃ h b r, s.agenda = .slot h b :: r ∧ s1 = { s with agenda := r, cur := (h, b) }) →
    s1.slot = some k →
    (k.mayIssue = false → step s = .next s1) ∧
    (k.mayIssue = true → k.f.endPend = true → step s = exec .hloopEndCheck s1) ∧
    (k.mayIssue = true → k.f.endPend = false → k.second = false → k.det = false → k.w.interruptDue.isSome = true →
      step s = exec (.userInterrupt k.h) s1) ∧
    (k.mayIssue = true → k.f.endPend = false → (k.second = true ∨ k.det = true ∨ k.w.interruptDue = none) →
      (∀ i, s1.fetch k = .ok i → step s = exec i ((s1.keepWords k i).before i)) ∧
      (∀ w0 w1, s1.fetch k = .bad w0 w1 → step s = exec (.illegalInstructionWord (BitVec.ofNat 32 w0)) s1) ∧
      (∀ va r n, s1.fetch k = .fault va r n → step s = exec (.instructionFetchPageFault k.second) s1) ∧
      (∀ va, s1.fetch k = .miss va → step s = .next (s1.missAll k 2 [va])) ∧
      (∀ va key, s1.fetch k = .error va key → step s = .next ((s1.metBad key).fetchError k va key)) ∧
      (s1.fetch k = .cut → step s = .next (s1.trap k { k.trap 0x02 0 with addr := k.f.pc })))) ∧
  (∀ (s : State) (k : Slot),
    let sees := fun (va : DWord) (x : Nat) => x < 2 ^ 32 ∧ (k.w.heldWord va = some x ∨
      (k.w.heldWord va = none ∧ ∃ t p, s.codeXlate k va = .ok t p ∧ s.reaches k.l.tenant (s.placeOf t p) = true ∧
        x = wordOfBytes ((List.range 4).map fun i => s.codeByte k.w.codeSeen ((s.placeOf t p).add i).key)))
    let cut := ∃ b ∈ k.w.loopsOf k.f, k.f.pc = b.last
    ∀ w0, sees k.f.pc w0 →
      (∀ i, decode (wordBytes w0) = .ok i [] → s.fetch k = .ok i) ∧
      (∀ e, decode (wordBytes w0) = .bad e → e ≠ .short → s.fetch k = .bad w0 0) ∧
      (decode (wordBytes w0) = .bad .short → cut → s.fetch k = .cut) ∧
      (∀ w1 i, ¬ cut → sees (k.f.pc + 4) w1 → decode (wordBytes w0 ++ wordBytes w1) = .ok i [] → s.fetch k = .ok i) ∧
      (∀ w1, ¬ cut → sees (k.f.pc + 4) w1 → decode (wordBytes w0 ++ wordBytes w1) = .bad .secondWord → s.fetch k = .bad w0 w1)) ∧
  (∀ (s : State) (k : Slot) (i : Instr), k.w.hloops = [] → s.keepWords k i = s) ∧
  (∀ (w : Wave) (pc : DWord) (x : Nat), (∃ b ∈ w.hloops, b.holds pc = true) → (w.keepWord pc x).heldWord pc = some x) ∧
  (∀ (s : State) (i : Instr), (s.flight = [] → s.before i = s) ∧
    { s.before i with mem := s.mem, scratch := s.scratch, codeLog := s.codeLog, codeCount := s.codeCount, regions := s.regions,
                      flight := s.flight } = s) ∧
  (∀ (s : State) (k : Slot) (kind : FenceKind) (scope : Scope), s.slot = some k →
    s.before (.fence kind scope) = if kind = .acq then s else s.relAt k.h scope.code) ∧
  (∀ (s : State) (seen key : Nat), (∀ e ∈ s.codeLog, e.1 < seen ∨ e.2.1 ≠ key) →
    s.codeByte seen key = Sparse.get Memory.blank s.mem key) ∧
  (∀ (s : State) (core : Nat) (v : Bool) (r : List Turn), s.agenda = .port core v :: r →
    (∀ k, { s with agenda := r }.picked core v = some k → step s = step { s with agenda := .slot k.h k.second :: r }) ∧
    ({ s with agenda := r }.picked core v = none → step s = .next { s with agenda := r })) ∧
  (∀ (s : State) (i : Instr) (r : List Turn), s.agenda = .event i :: r →
    step s = if i.isWord then .next { s with agenda := r } else exec i ({ s with agenda := r }.before i)) ∧
  (∀ (s : State) (n : Nat) (r : List Turn), s.agenda = .cycles n :: r →
    step s = .next ({ s with agenda := r }.cycles n) ∧ ({ s with agenda := r }.cycles n).cycle = s.cycle + n)

/-- Words that the spec assembles, each beside the instruction it stands for. -/
def Obligations.WordsDecodeAsTheSpecEncodesThem : Prop :=
  ∀ e ∈ ([([0x01000000], .nop), ([0x210C1028], .isub 6 4 (.v 5)), ([0x33240438], .icmp .lt 2 1 (.v 7)),
      ([0x40040BFF], .iaddi 2 2 (-1)), ([0x4B080000, 0x3F800000], .limm 4 0x3F800000), ([0x50081028], .uadd 4 4 5),
      ([0x68081800], .vbcast 4 6), ([0x70060411], .fadd 3 1 (.s 2)), ([0x880C1540], .cvt 6 5 .e4m3 .f32 false),
      ([0x920A1220], .scan 5 4 .fadd true), ([0x02200005], .ifP 1 false 5), ([0x0941FFFD], .bru (.k 2 false) (-3)),
      ([0xA11209A0], .stg 9 2 3 2), ([0xA00A0418, 0x04000000], .ldgX 5 1 0 1 { sx := true, order := .plain, scope := .wave, offset := 0 })]
    : List (List Nat × Instr)),
    decode (e.1.flatMap wordBytes) = .ok e.2 []

/-- Decoding undoes encoding: the words of a well-formed instruction, followed by anything, decode to that
instruction. -/
def Obligations.EncodeThenDecode : Prop :=
  ∀ (i : Instr) (rest : List Byte), i.wf = true → i.isWord = true → decode (encodeBytes i ++ rest) = .ok i rest

/-- Encoding undoes decoding: bytes that decode are the words of the well-formed instruction they decode to, so no bit
of a word is without meaning and no two words mean one instruction. -/
def Obligations.DecodeThenEncode : Prop :=
  ∀ (i : Instr) (bs rest : List Byte), decode bs = .ok i rest → i.wf = true ∧ i.isWord = true ∧ bs = encodeBytes i ++ rest

/-- After reset the module holds no wave, group, launch, partition or tenant and no unit is bound, and its memory is
canonical. A wave that is started has every register and predicate zero but the trap record in s0 to s15 of a handler group's wave
and the node records in the vector registers of a node group's, every matrix six by six, and every CSR at the value R164 gives (R155, R164). -/
def Obligations.ResetState : Prop :=
  State.reset.memOk ∧
  (State.reset.waves = [] ∧ State.reset.groups = [] ∧ State.reset.launches = [] ∧ State.reset.parts = [] ∧ State.reset.tenants = [] ∧
    State.reset.queues = [] ∧ State.reset.phases = [] ∧ State.reset.cats = [] ∧ State.reset.regions = [] ∧ State.reset.windows = [] ∧
    State.reset.intakes = [] ∧ State.reset.engines = [] ∧ State.reset.utlb = [] ∧ State.reset.ctlb = [] ∧ State.reset.cycle = 0) ∧
  ∀ (s : State) (part gh : Nat) (x : Launch) (g : Group) (i : Nat) (recs : List (List Word)) (w : Wave),
    Map.find (s.startWave part gh x g i recs).waves s.nextWave = some w →
      (∀ e ∈ ([(0x000, 0), (0x001, 0), (0x002, 0), (0x003, 64), (0x004, 0), (0x005, 0), (0x006, 0), (0x008, 0), (0x009, 0), (0x00A, 0),
          (0x010, 0), (0x011, 0), (0x012, 0), (0x013, 0), (0x018, 0x10000)] : List (Nat × Word)), w.csr e.1 = e.2) ∧
      (∀ n, 16 ≤ n ∨ g.node ≠ none → Sparse.get 0 w.s n = 0) ∧ (∀ n, Sparse.get false w.k n = false) ∧ (∀ n, w.pget n = 0) ∧
      (∀ n l e, Sparse.get 0 w.m ((n * 64 + l) * 36 + e) = 0) ∧ (∀ n l, w.mshape n l = 54) ∧
      (g.node = none → ∀ n l, w.vget n l = 0) ∧ w.hash = 0 ∧ w.held = [] ∧ w.outs = []

/-- The memory of tiers 0 to 2 and of the scratchpads keeps its canonical form through every step: equal contents stay
equal data. -/
def Obligations.MemoryStaysCanonical : Prop :=
  ∀ s t : State, s.memOk → step s = .next t → t.memOk

/-- R109, R133, R173, R182: through every step, from any state, each wave keeps within its bounds: at most 8 + D levels of the
lane-mask stack, at most 63 outstanding operations that count on each path, at most 8 held uniform writes, and completion records of
eight words. Waves, and the queue bindings of each, are listed once and in rising order. After reset there is no wave, and every wave that starts is within them. -/
def Obligations.WavesKeepTheirBounds : Prop :=
  (∀ s t : State, s.Bounded → step s = .next t → t.Bounded) ∧ State.reset.Bounded

/-- R58: NOP retires as one instruction, which counts toward the quantum, and changes nothing but the PC; it does not issue on the
V port, and its only encoding is 0x0100_0000. R59: LIMM and ULIMM are two words long; bits [16:0] of the first must be zero,
the second is taken raw; LIMM writes it to every active lane, ULIMM to its uniform register (held for the second of two slots,
R180), and the PC advances by 8. R226, R210, R211: ITRIT adds a, subtracts it or leaves d, exactly; saturating mode clips, and
SAT is set when a lane clips: at once, or by a held write of the second of two slots, which needs a place in the buffer (R180,
R182). -/
def Obligations.NopLongImmediatesAndTrits : Prop :=
  (
    (∀ (s : State) (k : Slot), Issues s k 4 →
      ∃ t w, exec .nop s = .next t ∧ WaveOnly s t k.h w ∧ Advances k 4 w ∧ w.rewound k = k.w ∧ w.qret = k.w.qret + 1) ∧
    onVPort .nop = false ∧
    (∀ rest, decode (wordBytes 0x01000000 ++ rest) = .ok .nop rest) ∧
    ∀ x rest, 0 < x → x < 2 ^ 24 → ∃ e, decode (wordBytes (0x01000000 + x) ++ rest) = .bad e) ∧
  (
    (∀ (s : State) (k : Slot) (d : Nat) (imm : Word), Issues s k 8 →
      (k.holds [d] → WritesVec s k 8 d (fun _ => imm) (exec (.limm d imm) s)) ∧
      (k.room 1 = true → WritesUni s k 8 [(.s d, imm)] (exec (.ulimm d imm) s))) ∧
    (∀ d w1 rest, d < 128 → w1 < 2 ^ 32 →
      decode (wordBytes (0x4B000000 + d * 2 ^ 17) ++ wordBytes w1 ++ rest) = .ok (.limm d (BitVec.ofNat 32 w1)) rest) ∧
    (∀ d w1 rest, d < 64 → w1 < 2 ^ 32 →
      decode (wordBytes (0x63000000 + d * 2 ^ 17) ++ wordBytes w1 ++ rest) = .ok (.ulimm d (BitVec.ofNat 32 w1)) rest) ∧
    ∀ d x rest, d < 128 → 0 < x → x < 2 ^ 17 →
      (∃ e, decode (wordBytes (0x4B000000 + d * 2 ^ 17 + x) ++ rest) = .bad e) ∧
      ∃ e, decode (wordBytes (0x63000000 + d * 2 ^ 17 + x) ++ rest) = .bad e) ∧
  (
    decode (wordBytes 0x37282050) = .ok (.itrit 20 8 (.v 10)) [] ∧
    ∀ (s : State) (k : Slot) (d a : Nat) (b : Src), Issues s k 4 → k.holds (d :: a :: b.vecs) →
      let sum := fun l => (k.w.vget d l).toInt +
        (if 0 < (k.src b l).toInt then (k.w.vget a l).toInt else if (k.src b l).toInt < 0 then -(k.w.vget a l).toInt else 0)
      let sat := (k.csr 0x002).getLsbD 0
      let clips := (List.range 64).any fun l => k.on l && sat && (decide (sum l < -(2 ^ 31)) || decide (2 ^ 31 - 1 < sum l))
      (clips = true → k.room 1 = false → Waits s (exec (.itrit d a b) s)) ∧
      ((clips = true → k.room 1 = true) → ∃ t w, exec (.itrit d a b) s = .next t ∧ WaveOnly s t k.h w ∧ Advances k 4 w ∧
        (∀ l, l < 64 → w.vget d l = if k.on l then
            (if sat then BitVec.ofInt 32 (max (-(2 ^ 31)) (min (2 ^ 31 - 1) (sum l))) else BitVec.ofInt 32 (sum l))
          else k.w.vget d l) ∧
        (∀ x, (x < k.w.vkey d ∨ k.w.vkey d + 64 ≤ x) → Sparse.get 0 w.v x = Sparse.get 0 k.w.v x) ∧
        w.accmode = (if clips && !k.second then k.w.accmode ||| 0x10000 else k.w.accmode) ∧
        w.held = (if clips && k.second then k.w.held ++ [{ dst := .sat, val := some 1, level := k.w.stack.length }] else k.w.held) ∧
        { w.rewound k with v := k.w.v, accmode := k.w.accmode, held := k.w.held } = k.w))

/-! ## Vector, uniform and floating-point instructions -/

/-- R221, R223 to R225, R163: the integer vector instructions, the shifts and bit fields, the instructions with one
vector source or none, SEL, MOV, LANEID, VBCAST and VWRITEL, and the immediate forms give each active lane the value
of their row, for every operand form, and change nothing else: no other register, predicate, flag or special register,
and no byte of memory. -/
def Obligations.VectorIntegerInstructions : Prop :=
  (
  ∀ (s : State) (k : Slot) (d a : Nat) (b : Src), Issues s k 4 → k.holds (d :: a :: b.vecs) →
    let x := fun l => k.w.vget a l
    let y := fun l => k.src b l
    let z := fun l => k.w.vget d l
    let gives := fun (i : Instr) (f : Nat → Word) => WritesVec s k 4 d f (exec i s)
    gives (.iadd d a b) (fun l => x l + y l) ∧
    gives (.isub d a b) (fun l => x l - y l) ∧
    gives (.imul d a b) (fun l => BitVec.ofNat 32 ((x l).toNat * (y l).toNat)) ∧
    gives (.imulh d a b true) (fun l => BitVec.ofNat 32 ((x l).toNat * (y l).toNat / 2 ^ 32)) ∧
    gives (.imulh d a b false) (fun l => BitVec.ofInt 32 ((x l).toInt * (y l).toInt / 2 ^ 32)) ∧
    gives (.imad d a b) (fun l => BitVec.ofNat 32 ((x l).toNat * (y l).toNat + (z l).toNat)) ∧
    gives (.imin d a b true) (fun l => if (x l).toNat ≤ (y l).toNat then x l else y l) ∧
    gives (.imin d a b false) (fun l => if (x l).toInt ≤ (y l).toInt then x l else y l) ∧
    gives (.imax d a b true) (fun l => if (x l).toNat ≤ (y l).toNat then y l else x l) ∧
    gives (.imax d a b false) (fun l => if (x l).toInt ≤ (y l).toInt then y l else x l) ∧
    gives (.andV d a b) (fun l => x l &&& y l) ∧
    gives (.orV d a b) (fun l => x l ||| y l) ∧
    gives (.xorV d a b) (fun l => x l ^^^ y l) ∧
    gives (.andn d a b) (fun l => x l &&& ~~~y l) ∧
    gives (.iaddsat d a b true) (fun l => BitVec.ofNat 32 (min (2 ^ 32 - 1) ((x l).toNat + (y l).toNat))) ∧
    gives (.iaddsat d a b false) (fun l => BitVec.ofInt 32 (max (-(2 ^ 31)) (min (2 ^ 31 - 1) ((x l).toInt + (y l).toInt))))
  ) ∧ (
  ∀ (s : State) (k : Slot) (d a : Nat) (b : Src), Issues s k 4 → k.holds (d :: a :: b.vecs) →
    let x := fun l => k.w.vget a l
    let y := fun l => k.src b l
    let z := fun l => k.w.vget d l
    let n := fun l => (y l).toNat % 64
    let pos := fun l => (y l).toNat % 32
    let len := fun l => min ((y l).toNat / 2 ^ 8 % 64) 32
    let f := fun l => (x l).toNat / 2 ^ pos l % 2 ^ len l
    let m := fun l => BitVec.ofNat 32 ((2 ^ len l - 1) * 2 ^ pos l)
    let gives := fun (i : Instr) (f : Nat → Word) => WritesVec s k 4 d f (exec i s)
    gives (.shl d a b) (fun l => if 32 ≤ n l then 0 else x l <<< n l) ∧
    gives (.shr d a b) (fun l => if 32 ≤ n l then 0 else x l >>> n l) ∧
    gives (.sar d a b) (fun l => BitVec.ofInt 32 ((x l).toInt / 2 ^ n l)) ∧
    gives (.bfx d a b false) (fun l => BitVec.ofNat 32 (f l)) ∧
    gives (.bfx d a b true)
      (fun l => BitVec.ofInt 32 (if 0 < len l ∧ 2 ^ (len l - 1) ≤ f l then (f l : Int) - 2 ^ len l else (f l : Int))) ∧
    gives (.bfi d a b) (fun l => (z l &&& ~~~m l) ||| ((x l <<< pos l) &&& m l)) ∧
    gives (.hmix d a b)
      (fun l =>
        let h := (x l ^^^ y l) * 0x9B2F4E35
        let h := (h ^^^ (h >>> 15)) * 0xD16A7C5B
        h ^^^ (h >>> 13))
  ) ∧ (
  ∀ (s : State) (k : Slot) (d a p b : Nat) (n : Bool), Issues s k 4 → k.holds [d, a] →
    let x := fun l => k.w.vget a l
    let gives := fun (i : Instr) (f : Nat → Word) => WritesVec s k 4 d f (exec i s)
    gives (.iabs d a) (fun l => BitVec.ofNat 32 (x l).toInt.natAbs) ∧
    gives (.popc d a) (fun l => BitVec.ofNat 32 ((List.range 32).filter fun i => (x l).getLsbD i).length) ∧
    gives (.clz d a) (fun l => BitVec.ofNat 32 (if x l = 0 then 32 else 31 - (x l).toNat.log2)) ∧
    gives (.mov d a) x ∧
    gives (.laneid d) (fun l => BitVec.ofNat 32 l) ∧
    gives (.sel d a p n) (fun l => if (k.w.pget p).getLsbD l = !n then x l else k.w.vget d l) ∧
    gives (.vbcast d b) (fun _ => k.s b) ∧
    gives (.vwritel d a b) (fun l => if l = (k.s b).toNat % 64 then k.s a else k.w.vget d l)
  ) ∧ (
  ∀ (s : State) (k : Slot) (d a n : Nat) (imm : BitVec 10) (imm17 : BitVec 17), k.holds [d, a] → n < 64 →
    let x := fun l => k.w.vget a l
    (Issues s k 4 →
      let gives := fun (i : Instr) (f : Nat → Word) => WritesVec s k 4 d f (exec i s)
      gives (.iaddi d a imm) (fun l => x l + BitVec.ofInt 32 imm.toInt) ∧
      gives (.imuli d a imm) (fun l => x l * BitVec.ofInt 32 imm.toInt) ∧
      gives (.andi d a imm) (fun l => x l &&& BitVec.ofInt 32 imm.toInt) ∧
      gives (.ori d a imm) (fun l => x l ||| BitVec.ofInt 32 imm.toInt) ∧
      gives (.xori d a imm) (fun l => x l ^^^ BitVec.ofInt 32 imm.toInt) ∧
      gives (.shli d a n) (fun l => if 32 ≤ n then 0 else x l <<< n) ∧
      gives (.shri d a n) (fun l => if 32 ≤ n then 0 else x l >>> n) ∧
      gives (.sari d a n) (fun l => BitVec.ofInt 32 ((x l).toInt / 2 ^ n)) ∧
      gives (.movi d imm17) (fun _ => BitVec.ofInt 32 imm17.toInt) ∧
      gives (.movhi d imm17) (fun l => BitVec.ofNat 32 (imm17.toNat * 2 ^ 15 + (k.w.vget d l).toNat % 2 ^ 15)))
  )

/-- R227, R222, R228: the uniform instructions, once per issue; the second of two slots has its writes held. R163: the
moves that write the uniform side or a lane predicate. -/
def Obligations.UniformInstructionsAndMoves : Prop :=
  (
  ∀ (s : State) (k : Slot) (d a b n : Nat) (c : ICond) (imm : BitVec 10) (imm17 : BitVec 17) (neg : Bool),
    k.room 2 = true →
    let x := k.s a
    let y := k.s b
    let i := BitVec.ofInt 32 imm.toInt
    let pair := fun n => BitVec.ofNat 64 ((k.s n).toNat + 2 ^ 32 * (k.s (n + 1)).toNat)
    let sum := pair a + BitVec.ofInt 64 (y.toInt * 2 ^ n)
    (Issues s k 4 →
      let gives := fun (j : Instr) (v : Word) => WritesUni s k 4 [(.s d, v)] (exec j s)
      gives (.uadd d a b) (x + y) ∧ gives (.usub d a b) (x - y) ∧
      gives (.umul d a b) (BitVec.ofNat 32 (x.toNat * y.toNat)) ∧
      gives (.umulh d a b true) (BitVec.ofNat 32 (x.toNat * y.toNat / 2 ^ 32)) ∧
      gives (.umulh d a b false) (BitVec.ofInt 32 (x.toInt * y.toInt / 2 ^ 32)) ∧
      gives (.uand d a b) (x &&& y) ∧ gives (.uor d a b) (x ||| y) ∧ gives (.uxor d a b) (x ^^^ y) ∧
      gives (.ushl d a b) (if 32 ≤ y.toNat % 64 then 0 else x <<< (y.toNat % 64)) ∧
      gives (.ushr d a b) (if 32 ≤ y.toNat % 64 then 0 else x >>> (y.toNat % 64)) ∧
      gives (.usar d a b) (BitVec.ofInt 32 (x.toInt / 2 ^ (y.toNat % 64))) ∧
      gives (.umin d a b true) (if x.toNat ≤ y.toNat then x else y) ∧
      gives (.umin d a b false) (if x.toInt ≤ y.toInt then x else y) ∧
      gives (.umax d a b true) (if x.toNat ≤ y.toNat then y else x) ∧
      gives (.umax d a b false) (if x.toInt ≤ y.toInt then y else x) ∧
      gives (.umov d a) x ∧ gives (.uaddi d a imm) (x + i) ∧
      gives (.umovi d imm17) (BitVec.ofInt 32 imm17.toInt) ∧
      gives (.umovhi d imm17) (BitVec.ofNat 32 (imm17.toNat * 2 ^ 15 + (k.s d).toNat % 2 ^ 15)) ∧
      WritesUni s k 4 (if k.k b = !neg then [(.s d, x)] else []) (exec (.usel d a b neg) s) ∧
      WritesUni s k 4 [(.s d, sum.setWidth 32), (.s (d + 1), (sum >>> 32).setWidth 32)] (exec (.ulea d a b n) s) ∧
      WritesUni s k 4 [(.k d, if icond c x y then 1 else 0)] (exec (.ucmp c d a b) s) ∧
      WritesUni s k 4 [(.k d, if icond c x i then 1 else 0)] (exec (.ucmpi c d a imm) s))
  ) ∧ (
  ∀ (s : State) (k : Slot) (d a b : Nat) (m : Bool), Issues s k 4 → k.holds [a] → k.room 2 = true →
    WritesUni s k 4 [(.s d, k.w.vget a ((k.s b).toNat % 64))] (exec (.vreadl d a b) s) ∧
    (∀ l, l < 64 → k.on l = true → (∀ j, j < l → k.on j = false) →
      WritesUni s k 4 [(.s d, k.w.vget a l)] (exec (.vfirst d a) s)) ∧
    (∀ x, x = (if m then k.mask else k.w.pget a) →
      WritesUni s k 4 [(.s d, x.setWidth 32), (.s (d + 1), (x >>> 32).setWidth 32)] (exec (.pget d a m) s)) ∧
    WritesPred s k 4 d (fun l => if l < 32 then (k.s a).getLsbD l else (k.s (a + 1)).getLsbD (l - 32)) (fun _ => 0)
      (exec (.pset d a) s)
  )

/-- R222, R224, R225: the integer compares set the active lanes' bits of their predicate and leave every flag alone.
R222, R231, R232: FCMP, FCLASS and FMOV. -/
def Obligations.Compares : Prop :=
  (
  ∀ (s : State) (k : Slot) (p a : Nat) (b : Src) (imm : BitVec 10), Issues s k 4 → k.holds (a :: b.vecs) →
    let holds := fun (c : ICond) (x y : Word) => match c with
      | .eq => decide (x = y)
      | .ne => decide (x ≠ y)
      | .lt => decide (x.toInt < y.toInt)
      | .le => decide (x.toInt ≤ y.toInt)
      | .gt => decide (y.toInt < x.toInt)
      | .ge => decide (y.toInt ≤ x.toInt)
      | .ltu => decide (x.toNat < y.toNat)
      | .leu => decide (x.toNat ≤ y.toNat)
      | .gtu => decide (y.toNat < x.toNat)
      | .geu => decide (y.toNat ≤ x.toNat)
    ∀ c,
      WritesPred s k 4 p (fun l => holds c (k.w.vget a l) (k.src b l)) (fun _ => 0) (exec (.icmp c p a b) s) ∧
      WritesPred s k 4 p (fun l => holds c (k.w.vget a l) (BitVec.ofInt 32 imm.toInt)) (fun _ => 0) (exec (.icmpi c p a imm) s)
  ) ∧ (
  ∀ (s : State) (k : Slot) (d p a : Nat) (b : Src) (c : FCond) (op : FmovOp), Issues s k 4 → k.holds (d :: a :: b.vecs) →
    let md : Mode := ⟨(k.csr 0x000).toNat % 8, (k.csr 0x000).getLsbD 3⟩
    let u := fun l => fmtF32.operand md.ftz (k.w.vget a l).toNat
    let v := fun l => fmtF32.operand md.ftz (k.src b l).toNat
    let un := fun l => (u l).isNan || (v l).isNan
    let holds := fun l => match c with
      | .eq => !un l && (u l).eq (v l)
      | .ne => un l || !(u l).eq (v l)
      | .lt => !un l && (u l).lt (v l)
      | .le => !un l && !(v l).lt (u l)
      | .gt => !un l && (v l).lt (u l)
      | .ge => !un l && !(u l).lt (v l)
      | .un => un l
      | .ord => !un l
    let invalid := fun l => (u l).signals || (v l).signals || (un l && (c == .lt || c == .le || c == .gt || c == .ge))
    WritesPred s k 4 p holds (fun l => if invalid l then 16 else 0) (exec (.fcmp c p a b) s) ∧
    WritesVec s k 4 d (fun l => BitVec.ofNat 32 (2 ^ (match fmtF32.decode (k.w.vget a l).toNat with
      | .inf n => if n then 0 else 7
      | .nan sig => if sig then 8 else 9
      | .fin n m _ => if m = 0 then (if n then 3 else 4) else if m < 2 ^ 23 then (if n then 2 else 5) else (if n then 1 else 6))))
      (exec (.fclass d a) s) ∧
    WritesVec s k 4 d (fun l => match op with
      | .copy => k.w.vget a l
      | .neg => k.w.vget a l ^^^ 0x80000000
      | .abs => k.w.vget a l &&& 0x7FFFFFFF
      | .nabs => k.w.vget a l ||| 0x80000000) (exec (.fmov d a op) s)
  )

/-- R229 to R231, R209: the floating-point instructions write each active lane's result, rounded by FRM with FTZ's
flushing, and OR the active lanes' flags into FFLAGS. The functions of the values are the model's own (Float.lean): the
next statement says of the arithmetic ones that they round the exact result, the one after it gives special cases; of
FEXP2, FLOG2, FSIN, FCOS and FTANH nothing else is stated. -/
def Obligations.FloatingPointResults : Prop :=
  ∀ (s : State) (k : Slot) (d a : Nat) (b : Src) (np na bf : Bool), Issues s k 4 → k.holds (d :: a :: b.vecs) →
    let md : Mode := ⟨(k.csr 0x000).toNat % 8, (k.csr 0x000).getLsbD 3⟩
    let x := fun l => (k.w.vget a l).toNat
    let y := fun l => (k.src b l).toNat
    let z := fun l => (k.w.vget d l).toNat
    let gives := fun (i : Instr) (f : Nat → Flagged) => WritesFp s k 4 d f (exec i s)
    let one := fun (i : Instr) (f : Mode → FVal → Flagged) => gives i fun l => f md (fmtF32.operand md.ftz (x l))
    let fmt := if bf then fmtBF16 else fmtF16
    let packed := fun (i : Instr) (f : (Nat → Nat) → (Nat → Nat) → (Nat → Nat) → Nat → Flagged) => gives i fun l =>
      let h := fun (v n : Nat) => v / 2 ^ (16 * n) % 2 ^ 16
      let r := fun n => f (h (x l)) (h (y l)) (h (z l)) n
      ((r 1).1 % 2 ^ 16 * 2 ^ 16 + (r 0).1 % 2 ^ 16, (r 0).2 ||| (r 1).2)
    gives (.fadd d a b) (fun l => fmtF32.add md (x l) (y l)) ∧
    gives (.fsub d a b) (fun l => fmtF32.sub md (x l) (y l)) ∧
    gives (.fmul d a b) (fun l => fmtF32.mul md (x l) (y l)) ∧
    gives (.ffma d a b np na) (fun l => fmtF32.fma md np na (x l) (y l) (z l)) ∧
    gives (.fdiv d a b) (fun l => fmtF32.div md (x l) (y l)) ∧
    gives (.fmin d a b) (fun l => fmtF32.minMax md false (x l) (y l)) ∧
    gives (.fmax d a b) (fun l => fmtF32.minMax md true (x l) (y l)) ∧
    gives (.fscale d a b) (fun l => fmtF32.scale md (x l) (k.src b l).toInt) ∧
    one (.fsqrt d a) fmtF32.sqrtV ∧ one (.frcp d a) (fun md v => fmtF32.divV md (.fin false 1 0) v) ∧ one (.frsq d a) fmtF32.rsqV ∧
    one (.fexp2 d a) fexp2V ∧ one (.flog2 d a) flog2V ∧ one (.fsin d a) fsinV ∧ one (.fcos d a) fcosV ∧ one (.ftanh d a) ftanhV ∧
    packed (.pkadd d a b bf) (fun p q _ n => fmt.add md (p n) (q n)) ∧
    packed (.pkmul d a b bf) (fun p q _ n => fmt.mul md (p n) (q n)) ∧
    packed (.pkfma d a b bf) (fun p q r n => fmt.fma md false false (p n) (q n) (r n))

/-- R204: a nonzero magnitude m * 2^e brought to a multiple of 2^q is the multiple that the direction gives: to
nearest with ties to even, toward zero, toward minus or plus infinity, or to nearest with ties away; it is inexact
when it is no multiple. With `sticky`, the magnitude lies strictly between m * 2^e and (m + 1) * 2^e. R204, R229: an
exact result is delivered without rounding and sets no flag, in every direction: a finite value that an IEEE format
represents comes back as its own encoding. R204, R206, R208: a magnitude rounded to an IEEE format is the multiple, of the
quantum of its binade or of the subnormals, that the direction gives; beyond the largest finite value it is infinity or
that value, as the direction says, with OF and NX; a subnormal result is zero of its sign under FTZ, with UF and NX; else NX
says that it is inexact, and UF that it is also tiny, rounded with unbounded exponent. R206: operands that are subnormal are
read as zero under FTZ. R229, R232, R233: sums, products, fused products, quotients, square roots, their reciprocals and
scalings of finite operands are the exact result so rounded, once; an exact zero has the sign of both operands where they
agree, and otherwise is minus under RDN and plus elsewhere. -/
def Obligations.Rounding : Prop :=
  (
  ∀ (rm m n : Nat) (neg : Bool) (e : Int), 0 < m → 0 < n → rm < 5 →
    let unit := 2 ^ n
    let z := roundAt rm neg m e false (e + n)
    let r := z.1
    let down := r * unit ≤ m ∧ m < (r + 1) * unit
    let up := m ≤ r * unit ∧ r * unit < m + unit
    (rm = 0 → 2 * (r * unit) ≤ 2 * m + unit ∧ 2 * m ≤ 2 * (r * unit) + unit ∧
      ((2 * (r * unit) = 2 * m + unit ∨ 2 * m = 2 * (r * unit) + unit) → r % 2 = 0)) ∧
    (rm = 1 → down) ∧ (rm = 2 → if neg then up else down) ∧ (rm = 3 → if neg then down else up) ∧
    (rm = 4 → 2 * (r * unit) ≤ 2 * m + unit ∧ 2 * m < 2 * (r * unit) + unit) ∧
    (z.2 = true ↔ m % unit ≠ 0)
  ) ∧ (
  ∀ (rm m n : Nat) (neg : Bool) (e : Int), 0 < n → rm < 5 →
    roundAt rm neg m e true (e + n) = (m / 2 ^ n +
      (if rm = 1 then 0 else if rm = 2 then (if neg then 1 else 0) else if rm = 3 then (if neg then 0 else 1)
        else if 2 ^ n ≤ 2 * (m % 2 ^ n) then 1 else 0), true)
  ) ∧ (
  ∀ (f : Fmt) (rm x : Nat) (neg : Bool) (m : Nat) (e : Int), f ∈ [fmtF32, fmtF16, fmtBF16] → x < 2 ^ (1 + f.eb + f.mb) →
    f.decode x = .fin neg m e → 0 < m → f.round rm false neg m e false = (x, 0)
  ) ∧ (
  ∀ (f : Fmt) (rm m b : Nat) (ftz neg st : Bool) (e : Int), f ∈ [fmtF32, fmtF16, fmtBF16] → rm < 5 → 2 ^ b ≤ m → m < 2 ^ (b + 1) →
    let lead := e + b
    let least : Int := 1 - f.bias
    let q := max (lead - f.mb) (least - f.mb)
    let r := roundAt rm neg m e st q
    let beyond := (f.bias : Int) + 1 ≤ lead ∨ (lead = f.bias ∧ r.1 = 2 ^ (f.mb + 1))
    let tiny := lead + (if (roundAt rm neg m e st (lead - f.mb)).1 = 2 ^ (f.mb + 1) then 1 else 0) < least
    let z := f.round rm ftz neg m e st
    (beyond → z = (if rm = 0 ∨ rm = 4 ∨ (rm = 2 ∧ neg = true) ∨ (rm = 3 ∧ neg = false) then f.inf neg else f.sign neg + f.maxFinite, 5)) ∧
    (¬ beyond → ftz = true → 0 < r.1 → r.1 < 2 ^ f.mb → z = (f.sign neg, 3)) ∧
    (¬ beyond → (ftz = false ∨ r.1 = 0 ∨ 2 ^ f.mb ≤ r.1) →
      ∃ M E, z.1 < 2 ^ (1 + f.eb + f.mb) ∧ f.decode z.1 = .fin neg M E ∧ q ≤ E ∧ M * 2 ^ (E - q).toNat = r.1 ∧
        z.2 = (if r.2 then 1 else 0) + (if r.2 = true ∧ tiny then 2 else 0))
  ) ∧ (
  ∀ (f : Fmt) (md : Mode) (x y w : Nat) (c : Int), f ∈ [fmtF32, fmtF16, fmtBF16] →
    let of := f.operand md.ftz
    (∀ n m e, f.decode x = .fin n m e → of x = .fin n (if md.ftz = true ∧ m < 2 ^ f.mb then 0 else m) e) ∧
    f.add md x y = f.addV md (of x) (of y) ∧ f.sub md x y = f.addV md (of x) (of y).negate ∧
    f.mul md x y = f.mulV md (of x) (of y) ∧ f.div md x y = f.divV md (of x) (of y) ∧ f.sqrt md x = f.sqrtV md (of x) ∧
    (∀ np na, f.fma md np na x y w = f.fmaV md (if np then (of x).negate else of x) (of y) (if na then (of w).negate else of w)) ∧
    (∀ n m e, of x = .fin n m e → 0 < m → f.scale md x c = f.round md.rm md.ftz n m (e + c) false) ∧
    (∀ n m e, (FVal.fin n m e).negate = .fin (!n) m e)
  ) ∧ (
  ∀ (f : Fmt) (md : Mode) (n1 n2 n3 : Bool) (m1 m2 m3 : Nat) (e1 e2 e3 : Int), f ∈ [fmtF32, fmtF16, fmtBF16] →
    m1 < 2 ^ (f.mb + 1) → m2 < 2 ^ (f.mb + 1) →
    let num := fun (n : Bool) (m : Nat) => if n then -(m : Int) else (m : Int)
    let sum := fun (na : Bool) (a : Nat) (ea : Int) (nb : Bool) (b : Nat) (eb : Int) (z : Flagged) => ∃ n m e, e ≤ ea ∧ e ≤ eb ∧
      num n m = num na a * 2 ^ (ea - e).toNat + num nb b * 2 ^ (eb - e).toNat ∧
      (0 < m → z = f.round md.rm md.ftz n m e false) ∧
      (m = 0 → z = (f.sign (if a = 0 ∧ b = 0 ∧ na = nb then na else md.rm == 2), 0))
    let a := FVal.fin n1 m1 e1
    let b := FVal.fin n2 m2 e2
    let far := 2 ^ (f.mb + 3)
    sum n1 m1 e1 n2 m2 e2 (f.addV md a b) ∧
    f.mulV md a b = (if m1 * m2 = 0 then (f.sign (xor n1 n2), 0) else f.round md.rm md.ftz (xor n1 n2) (m1 * m2) (e1 + e2) false) ∧
    sum (xor n1 n2) (m1 * m2) (e1 + e2) n3 m3 e3 (f.fmaV md a b (.fin n3 m3 e3)) ∧
    (0 < m1 → 0 < m2 → ∃ (q t : Nat) (st : Bool), far ≤ q ∧ q * m2 ≤ m1 * 2 ^ t ∧ m1 * 2 ^ t < (q + 1) * m2 ∧ (st = true ↔ q * m2 ≠ m1 * 2 ^ t) ∧
      f.divV md a b = f.round md.rm md.ftz (xor n1 n2) q (e1 - e2 - t) st) ∧
    (0 < m1 → n1 = false → ∃ (r : Nat) (e : Int) (st : Bool), far ≤ r ∧ 2 * e ≤ e1 ∧ r * r ≤ m1 * 2 ^ (e1 - 2 * e).toNat ∧
      m1 * 2 ^ (e1 - 2 * e).toNat < (r + 1) * (r + 1) ∧ (st = true ↔ r * r ≠ m1 * 2 ^ (e1 - 2 * e).toNat) ∧
      f.sqrtV md a = f.round md.rm md.ftz false r e st) ∧
    (0 < m1 → n1 = false → ∃ (r : Nat) (e : Int) (st : Bool), far ≤ r ∧ 2 * e + e1 ≤ 0 ∧ r * r * m1 ≤ 2 ^ (-(2 * e + e1)).toNat ∧
      2 ^ (-(2 * e + e1)).toNat < (r + 1) * (r + 1) * m1 ∧ (st = true ↔ r * r * m1 ≠ 2 ^ (-(2 * e + e1)).toNat) ∧
      f.rsqV md a = f.round md.rm md.ftz false r e st)
  )

/-- R196, R206, R230, R231: the special cases of the one-operand functions, of minimum and maximum and of NaNs, in
every mode. -/
def Obligations.FloatSpecialCases : Prop :=
  ∀ (md : Mode),
    let nz := fmtF32.decode 0x80000000
    let pz := fmtF32.decode 0
    let pinf := fmtF32.decode 0x7F800000
    let ninf := fmtF32.decode 0xFF800000
    let one := 0x3F800000
    let nan := 0x7FC00000
    fmtF32.rsqV md pz = (0x7F800000, 8) ∧ fmtF32.rsqV md nz = (0xFF800000, 8) ∧ fmtF32.rsqV md pinf = (0, 0) ∧ fmtF32.rsqV md ninf = (nan, 16) ∧
    fexp2V md pz = (one, 0) ∧ fexp2V md nz = (one, 0) ∧ fexp2V md pinf = (0x7F800000, 0) ∧ fexp2V md ninf = (0, 0) ∧
    flog2V md pz = (0xFF800000, 8) ∧ flog2V md nz = (0xFF800000, 8) ∧ flog2V md pinf = (0x7F800000, 0) ∧ flog2V md ninf = (nan, 16) ∧
    fsinV md pz = (0, 0) ∧ fsinV md nz = (0x80000000, 0) ∧ fsinV md pinf = (nan, 16) ∧ fsinV md ninf = (nan, 16) ∧
    fcosV md pz = (one, 0) ∧ fcosV md nz = (one, 0) ∧ fcosV md pinf = (nan, 16) ∧ fcosV md ninf = (nan, 16) ∧
    ftanhV md pz = (0, 0) ∧ ftanhV md nz = (0x80000000, 0) ∧ ftanhV md pinf = (one, 0) ∧ ftanhV md ninf = (0xBF800000, 0) ∧
    (∀ v, FVal.signals v = false →
      fmtF32.addV md (.nan false) v = (nan, 0) ∧ fmtF32.mulV md v (.nan false) = (nan, 0) ∧ fmtF32.divV md v (.nan false) = (nan, 0)) ∧
    (∀ v, fmtF32.addV md (.nan true) v = (nan, 16) ∧ fmtF32.mulV md (.nan true) v = (nan, 16)) ∧
    (∀ n m, 0 < m → fmtF32.divV md (.fin n m 0) (.fin false 0 0) = (if n then 0xFF800000 else 0x7F800000, 8)) ∧
    fmtF32.mulV md pinf pz = (nan, 16) ∧ fmtF32.addV md pinf ninf = (nan, 16) ∧
    (∀ v, fmtF32.fmaV md pinf pz v = (nan, 16)) ∧
    fmtF32.minMax md false 0 0x80000000 = (0x80000000, 0) ∧ fmtF32.minMax md true 0x80000000 0 = (0, 0) ∧
    (∀ x, (fmtF32.minMax md false nan (x % 0x7F800000)).2 = 0)

/-- R234 to R239: conversions. RQNT, PACK5 and UNPK5 compute as their entries say; UNPK5 decodes by division, and
marks or traps on an illegal code as U5TRAP says. -/
def Obligations.Conversions : Prop :=
  ∀ (s : State) (k : Slot) (d a p n : Nat) (b : Src) (sb : Nat) (dk sk : CvtKind) (rtz : Bool) (kd : RqKind),
    Issues s k 4 → n < 4 → k.holds (d :: a :: b.vecs ++ (List.range 5).map (a + ·) ++ (List.range 5).map (d + ·)) →
    let md : Mode := ⟨(k.csr 0x000).toNat % 8, (k.csr 0x000).getLsbD 3⟩
    let byte := fun l => (k.w.vget a l).toNat / 2 ^ (8 * n) % 256
    let rq := fun (x : Int) =>
      let t := (x * (k.s sb).toInt + 2 ^ 30) / 2 ^ 31
      let sh := (k.s (sb + 1)).toNat % 64
      let t := if 0 < sh then (t + 2 ^ (sh - 1)) / 2 ^ sh else t
      let r := match kd with
        | .i8 => ((-128 : Int), (127 : Int))
        | .u8 => (0, 255)
        | .i4 => (-8, 7)
      max r.1 (min r.2 ((k.s (sb + 2)).toInt + t))
    let sign := fun (x : Word) => if x.toInt < 0 then 0 else if x.toInt = 0 then 1 else 2
    let code := fun l => ((List.range 5).map fun i => sign (k.w.vget (a + i) l) * 3 ^ (4 - i)).foldl (· + ·) 0
    WritesFp s k 4 d (fun l => cvtV md dk sk rtz (k.w.vget a l).toNat) (exec (.cvt d a dk sk rtz) s) ∧
    WritesVec s k 4 d (fun l => BitVec.ofInt 32 (rq (k.w.vget a l).toInt)) (exec (.rqnt d a sb kd) s) ∧
    WritesVec s k 4 d (fun l => (k.w.vget d l &&& ~~~(0xFF#32 <<< (8 * n))) ||| (BitVec.ofNat 32 (code l) <<< (8 * n)))
      (exec (.pack5 d a n) s) ∧
    WritesFp s k 4 d (fun l => unpkpsV (byte l) ((k.src b l).toNat % 256)) (exec (.unpkps d a b n) s) ∧
    (((k.csr 0x006).getLsbD 0 = false ∨ ∀ l, l < 64 → k.on l = true → byte l ≤ 242) →
      ∃ t w, exec (.unpk5 d a p n) s = .next t ∧ WaveOnly s t k.h w ∧ Advances k 4 w ∧
        (∀ i l, i < 5 → l < 64 → w.vget (d + i) l = if !k.on l then k.w.vget (d + i) l
          else if byte l ≤ 242 then BitVec.ofInt 32 ((byte l / 3 ^ (4 - i) % 3 : Nat) - 1 : Int) else 0) ∧
        (∀ x, (x < k.w.vkey d ∨ k.w.vkey d + 64 * 5 ≤ x) → Sparse.get 0 w.v x = Sparse.get 0 k.w.v x) ∧
        (∀ l, l < 64 → (w.pget p).getLsbD l = ((k.w.pget p).getLsbD l || (k.on l && decide (242 < byte l)))) ∧
        (∀ q, q ≠ p → w.pget q = k.w.pget q) ∧ { w.rewound k with v := k.w.v, p := k.w.p } = k.w) ∧
    ((k.csr 0x006).getLsbD 0 = true → (∃ l, l < 64 ∧ k.on l = true ∧ 242 < byte l) →
      exec (.unpk5 d a p n) s = .next (s.trap k { k.trap 0x0D with lmask := maskBy fun l => k.on l && decide (242 < byte l) }))

/-- R240, R243: shuffles, votes and matches. R241, R242: SCAN and VRED combine active lanes only, in ascending order,
one step at a time, and raise the flags of the steps that are performed. -/
def Obligations.CrossLaneInstructions : Prop :=
  (
  ∀ (s : State) (k : Slot) (d a : Nat) (b : Src) (mode : ShflMode) (vm : VoteMode),
    Issues s k 4 → k.holds (d :: a :: b.vecs) → k.room 2 = true →
    (k.csr 0x003).toNat ∈ [4, 8, 16, 32, 64] →
    let w := (k.csr 0x003).toNat
    let x := fun l => k.w.vget a l
    let moved := fun (l j : Nat) =>
      let base := l - l % w
      if j < w then x (base + j) else match mode with
        | .wrap => x (base + j % w)
        | .clamp => x (base + w - 1)
        | .own => x l
        | .zero => 0
    let ballot := k.w.pget a &&& k.mask
    WritesVec s k 4 d (fun l => moved l (k.src b l).toNat) (exec (.shfl d a b mode) s) ∧
    WritesVec s k 4 d (fun l => moved l (BitVec.ofNat 32 (l % w) ^^^ k.src b l).toNat) (exec (.shflx d a b mode) s) ∧
    WritesVec s k 4 d (fun l => BitVec.ofNat 32 (((List.range 64).find? fun j => k.on j && x j == x l).getD l)) (exec (.matchV d a) s) ∧
    WritesUni s k 4 (match vm with
      | .any => [(.k d, if ballot = 0 then 0 else 1)]
      | .all => [(.k d, if ballot = k.mask then 1 else 0)]
      | .ballot => [(.s d, ballot.setWidth 32), (.s (d + 1), (ballot >>> 32).setWidth 32)]) (exec (.vote d a vm) s)
  ) ∧ (
  ∀ (s : State) (k : Slot) (d a : Nat) (op : ScanOp) (ex : Bool), Issues s k 4 → k.holds [d, a] → k.room 1 = true →
    (k.csr 0x003).toNat ∈ [4, 8, 16, 32, 64] →
    let md : Mode := ⟨(k.csr 0x000).toNat % 8, (k.csr 0x000).getLsbD 3⟩
    let w := (k.csr 0x003).toNat
    let x := fun l => k.w.vget a l
    let before := fun l => (List.range l).filter fun j => k.on j && j / w == l / w
    let run := fun (ls : List Nat) => ls.foldl (fun r j => (scanStep op md r (x j)).1) (scanId op)
    let last := fun l => !((List.range 64).any fun j => k.on j && j / w == l / w && decide (l < j))
    (∃ t u, exec (.scan d a op ex) s = .next t ∧ WaveOnly s t k.h u ∧ Advances k 4 u ∧
      (∀ l, l < 64 → u.vget d l = if k.on l then run (before l ++ if ex then [] else [l]) else k.w.vget d l) ∧
      (∀ y, (y < k.w.vkey d ∨ k.w.vkey d + 64 ≤ y) → Sparse.get 0 u.v y = Sparse.get 0 k.w.v y) ∧
      FlagsOr k u (fun l => if ex && last l then 0 else (scanStep op md (run (before l)) (x l)).2) ∧
      { u.rewound k with v := k.w.v, fflags := k.w.fflags } = k.w) ∧
    (∀ first, first < 64 → k.on first = true → (∀ j, j < first → k.on j = false) →
      let later := fun l => (List.range l).filter fun j => k.on j && decide (first < j)
      let chain := fun (ls : List Nat) => ls.foldl (fun r j => (scanStep op md r (x j)).1) (x first)
      ∃ t u, exec (.vred d a op) s = .next t ∧ WaveOnly s t k.h u ∧ Advances k 4 u ∧
        Uniform k u [(.s d, chain (later 64))] ∧
        FlagsOr k u (fun l => if l = first then 0 else (scanStep op md (chain (later l)) (x l)).2) ∧
        { u.rewound k with s := k.w.s, k := k.w.k, held := k.w.held, fflags := k.w.fflags } = k.w)
  )

/-- R244: RNG is Philox4x32-10, a function of the key, the stream and the lane's counter alone. -/
def Obligations.RandomNumbersArePhilox : Prop :=
  (∀ (s : State) (k : Slot) (d a b stream : Nat), Issues s k 4 → k.holds (a :: (List.range 4).map (d + ·)) →
    let mul := fun (u v : Word) => (BitVec.ofNat 32 (u.toNat * v.toNat / 2 ^ 32), u * v)
    let round := fun (z : (Word × Word × Word × Word) × Word × Word) =>
      let p := mul 0xD2511F53 z.1.1
      let q := mul 0xCD9E8D57 z.1.2.2.1
      ((q.1 ^^^ z.1.2.1 ^^^ z.2.1, q.2, p.1 ^^^ z.1.2.2.2 ^^^ z.2.2, p.2), z.2.1 + 0x9E3779B9, z.2.2 + 0xBB67AE85)
    let c := fun (l : Nat) =>
      ((List.range 10).foldl (fun z _ => round z) ((k.w.vget a l, BitVec.ofNat 32 stream, 0, 0), k.s b, k.s (b + 1))).1
    WritesRun s k 4 d 4 (fun i l => [(c l).1, (c l).2.1, (c l).2.2.1, (c l).2.2.2].getD i 0) (exec (.rng d a b stream) s)) ∧
  ∀ rest, decode (wordBytes 0x96180852 ++ rest) = .ok (.rng 12 2 10 1) rest

/-! ## Traps and control registers -/

/-- R427, R429, R431, R433: taking a trap. Where the wave's own handler takes the cause, the slot stands at CODE plus
UIVEC's offset with its mask and side, UIPC holds the trapped PC, UICAUSE cause, reason and the lowest lane, IN is set
and HSIDE is the side; otherwise the wave stops with the record. Nothing else changes, but waiting places given up and, so
that an access walks again when it executes again (R73), the wave's places in page walks and what walks have left for it. -/
def Obligations.TakingATrap : Prop :=
  ∀ (s : State) (k : Slot) (t : Trap), s.slotOf k.h k.second = some k → k.w.stop = none → t.cause ≠ 0x11 →
    let enables := [(0x12, 0), (0x11, 1), (0x03, 2), (0x06, 3), (0x07, 4), (0x08, 5), (0x0D, 6)]
    let own := k.w.uivec.getLsbD 0 = true ∧ k.w.inH = false ∧ ∃ b, (t.cause, b) ∈ enables ∧ k.w.en / 2 ^ b % 2 = 1
    let lane := if t.lmask = 0 then 0 else ((List.range 64).find? fun l => t.lmask.getLsbD l).getD 0
    (∀ e ∈ (s.trap k t).walks, ∀ x ∈ e.2, ∀ a ∈ x.waiters, a.wave = k.h → a.unit.isSome = true) ∧
    (¬ own → WaveOnly (s.detach k.h) (s.trap k t) k.h
      { k.w with stop := some { trap := t, side := k.f.side }, qstate := .ended none, walkFaults := [], walkLeaves := [] }) ∧
    (own → ∃ w f, WaveOnly (s.detach k.h) (s.trap k t) k.h w ∧ w.frag k.second = some f ∧ f.mask = k.f.mask ∧ f.side = k.f.side ∧
      f.pc = k.l.block.code + BitVec.ofNat 64 (k.w.uivec.toNat / 4 * 4) ∧ w.frag (!k.second) = k.w.frag (!k.second) ∧
      w.uipc = (k.f.pc - k.l.block.code).setWidth 32 ∧
      w.uicause = BitVec.ofNat 32 (lane * 2 ^ 16 + t.reason % 256 * 256 + t.cause) ∧
      w.inH = true ∧ w.hside = k.f.side ∧ w.hdepth = k.w.stack.length ∧ w.hhloop = k.w.hloops.length ∧
      w.walkFaults = [] ∧ w.walkLeaves = [] ∧
      { w with first := k.w.first, second := k.w.second, uipc := k.w.uipc, uicause := k.w.uicause, inH := k.w.inH,
               hside := k.w.hside, hdepth := k.w.hdepth, hhloop := k.w.hhloop,
               walkFaults := k.w.walkFaults, walkLeaves := k.w.walkLeaves } = k.w)

/-- R50, R47, R435, R86: a word that is no instruction raises Illegal Instruction with its words in W12 and W13, and
an address that cannot be fetched raises Page Fault with access 3 and that address, both before the instruction has
any effect. R39, R157, R435: every instruction that names a vector register outside the allocation raises Register Window
Fault with the first such field and the register in W12, and has no effect; TRQ, whose scales are named for integer kinds
alone, and SPAWN, whose records' length its node or queue gives, among them (APXB and APXE are stated with their regions).
It does so once it may issue at all: no acquire holds it back, no counter is full, its tiles are granted (their fields come
before fv) and a small-matrix instruction has the unit. -/
def Obligations.TrapsBeforeExecution : Prop :=
  (
  ∀ (s : State) (k : Slot), s.slot = some k → k.mayIssue = true → k.f.endPend = false → s.agenda = [] →
    (k.second = true ∨ k.det = true ∨ k.w.interruptDue = none) →
    (∀ w0 w1, w0 < 2 ^ 32 → s.fetch k = .bad w0 w1 →
      let t := { k.trap 0x01 0 with w12 := BitVec.ofNat 32 w0, w13 := BitVec.ofNat 32 w1 }
      Traps s k t (exec (.illegalInstructionWord (BitVec.ofNat 32 w0)) s) ∧ Traps s k t (step s)) ∧
    (∀ va reason size, s.fetch k = .fault va reason size →
      let t := { k.trap 0x04 reason with access := 3, addr := va, lmask := k.mask }
      let u := (s.trap k t).modWave k.h fun w => { w with
        walkFaults := w.walkFaults.filter fun f => f.side != k.f.side, walkLeaves := w.walkLeaves.filter fun e => e.1 != k.f.side }
      exec (.instructionFetchPageFault k.second) s = .next u ∧ step s = .next u)
  ) ∧ (
  ∀ (s : State) (k : Slot) (i : Instr) (before after : List (Nat × Nat)) (fld reg : Nat), Issues s k (4 * (encode i).length) →
    k.heldBack = false → (∀ p, k.w.pathCount p < 63) → k.w.matrix = true →
    (∀ e ∈ i.gridNames, e.1 < if e.2 then k.g.accs else k.g.tiles) →
    k.holds (before.map (·.2)) → ¬ k.holds [reg] →
    let t := { k.trap 0x0B with w12 := BitVec.ofNat 32 (reg * 256 + fld) }
    (i.vectorNames = before ++ (fld, reg) :: after → Traps s k t (exec i s)) ∧
    (∀ td aa vx ds, i = .trq td aa vx ds → td < k.g.tiles → aa < k.g.accs → adInt (k.groupCsr (0x220 + aa)) = true →
      vecRun 3 vx 3 = before ++ (fld, reg) :: after → Traps s k t (exec i s)) ∧
    (∀ d a b nd, i = .spawn true d a b → k.det = false → k.w.outs = [] → k.l.block.nodes[(k.s b).toNat]? = some nd → a + nd.recw ≤ 128 →
      vecRun 1 a nd.recw = before ++ (fld, reg) :: after → Traps s k t (exec i s)) ∧
    (∀ d a b key qu, i = .spawn false d a b → k.det = false → k.w.outs = [] → s.boundQueue k d = some (key, qu) →
      k.lanes.length ≤ qu.cap → a + qu.itemw ≤ 128 → vecRun 1 a qu.itemw = before ++ (fld, reg) :: after → Traps s k t (exec i s))
  )

/-- R431 to R433, R441 to R443: TRAP retires and then raises User Trap with its code; URET goes back to CODE + UIPC,
or raises Illegal Control Transfer outside a handler or at another depth, its record naming no target (log 28, DEDUCED); UIMASK returns EN and changes it in one
step; a user interrupt is taken at a boundary of the first slot. -/
def Obligations.UserHandlers : Prop :=
  ∀ (s : State) (k : Slot) (code d bits : Nat) (op : MaskOp),
    let enters := fun (w : Wave) (cause reason info : Nat) (ret : DWord) (side : Bool) (depth loops : Nat) =>
      w.uipc = (ret - k.l.block.code).setWidth 32 ∧ w.uicause = BitVec.ofNat 32 (info * 2 ^ 16 + reason % 256 * 256 + cause) ∧
      w.inH = true ∧ w.hside = side ∧ w.hdepth = depth ∧ w.hhloop = loops
    (Issues s k 4 → (k.after 4).endPend = false → k.w.stop = none →
      ∃ t w, exec (.trap code) s = .next t ∧ WaveOnly (s.detach k.h) t k.h w ∧
        if k.w.uivec.getLsbD 0 = true ∧ k.w.inH = false ∧ k.w.en / 2 % 2 = 1 then
          enters w 0x11 0 code (k.f.pc + 4) k.f.side k.w.stack.length k.w.hloops.length ∧
          (∃ f, w.frag k.second = some f ∧ f.mask = k.f.mask ∧ f.side = k.f.side ∧
            f.pc = k.l.block.code + BitVec.ofNat 64 (k.w.uivec.toNat / 4 * 4))
        else
          Advances k 4 w ∧ w.qstate = .ended none ∧
          w.stop = some { trap := { k.trap 0x11 with w12 := BitVec.ofNat 32 code }, retired := true, side := k.f.side }) ∧
    (IssuesJump s k 4 →
      let back := k.l.block.code + (k.csr 0x012).setWidth 64
      (k.w.inH = false → Traps s k (k.trap 0x02 7) (exec .uret s)) ∧
      (k.w.inH = true → (k.w.stack.length ≠ k.w.hdepth ∨ k.w.hloops.length ≠ k.w.hhloop) →
        Traps s k (k.trap 0x02 6) (exec .uret s)) ∧
      (k.w.inH = true → k.w.stack.length = k.w.hdepth → k.w.hloops.length = k.w.hhloop → back.toNat % 4 = 0 →
        ∃ t w f, exec .uret s = .next t ∧ WaveOnly s t k.h w ∧ w.frag k.second = some f ∧ f.pc = back ∧ f.mask = k.f.mask ∧
          f.side = k.f.side ∧ w.frag (!k.second) = k.w.frag (!k.second) ∧ w.inH = false ∧
          { w.rewound k with inH := k.w.inH } = k.w)) ∧
    (Issues s k 4 → k.second = false → bits < 128 →
      let en := k.w.en % 128
      let new := match op with
        | .write => bits
        | .set => en ||| bits
        | .clr => en &&& (127 - bits)
      ∃ t w, exec (.uimask d op bits) s = .next t ∧ WaveOnly s t k.h w ∧ Advances k 4 w ∧ w.en = new ∧
        (∀ n, Sparse.get 0 w.s n = if n = d then BitVec.ofNat 32 en else Sparse.get 0 k.w.s n) ∧
        { w.rewound k with en := k.w.en, s := k.w.s } = k.w) ∧
    (∀ h source payload rest, s.slotOf h false = some k → k.mayIssue = true → k.det = false → k.w.uivec.getLsbD 0 = true →
      k.w.en % 2 = 1 → k.w.inH = false → k.f.endPend = false → k.f.again = none →
      k.w.pending = (source, payload) :: rest →
      ∃ t w, exec (.userInterrupt h) s = .next t ∧ WaveOnly (s.detach h) t h w ∧ w.pending = rest ∧
        enters w 0x12 source payload k.f.pc k.f.side k.w.stack.length k.w.hloops.length)

/-- R164, R165, R447: what each control and status register reads as; an unassigned address raises Illegal
Instruction. R164 to R166, R246, R248, R433: a CSR write changes its own register and nothing else; an unassigned or
read-only address and a value its register does not allow raise Illegal Instruction; UIMASKST takes EN only. -/
def Obligations.ControlAndStatusRegisters : Prop :=
  (
  ∀ (s : State) (k : Slot) (d a : Nat), Issues s k 4 → k.room 1 = true → a < 1024 →
    let reads := fun (a : Nat) (x : Word) => WritesUni s k 4 [(.s d, x)] (exec (.csrr d a) s)
    let own := [0x000, 0x001, 0x002, 0x003, 0x004, 0x005, 0x006, 0x008, 0x009, 0x00A, 0x010, 0x011, 0x012, 0x013, 0x018]
    let fixed := [(0x019, k.w.wb), (0x01A, k.w.blocks), (0x021, k.g.grpid), (0x028, k.l.block.quantum), (0x100, k.g.nwaves),
      (0x101, k.g.tiles), (0x102, k.g.accs), (0x103, k.g.mats), (0x300, k.g.core), (0x301, k.g.core / 192), (0x302, k.g.core / 576)]
    let part := ((Map.find s.tenants k.l.tenant).bind fun t => Map.find s.parts t.part).getD { clusters := [] }
    let group := (0x200 ≤ a ∧ a < 0x210) ∨ (0x220 ≤ a ∧ a < 0x228)
    let quiet := k.w.flagPend = [] ∧ ∀ o ∈ k.w.outs, o.done = false → ∀ i u v x y z n, o.op = .tile i u v x y z n → tileFp i = false
    (a ∈ own → (a = 0x001 → quiet) → reads a (k.csr a)) ∧
    (∀ e ∈ fixed, reads e.1 (BitVec.ofNat 32 e.2)) ∧ reads 0x020 k.w.waveid ∧
    reads 0x029 (BitVec.ofNat 32 (if k.l.block.det then 1 else
      (if k.l.recording then 2 else 0) + (if k.l.replaying && !k.l.log.ended then 4 else 0))) ∧
    (group → k.second = false → k.w.csrPend = [] →
      reads a (if a < 0x220 then Sparse.get 0 k.g.tdesc (a - 0x200) else Sparse.get 0 k.g.adesc (a - 0x220))) ∧
    reads 0x304 (BitVec.ofNat 32 (part.clusters.map fun c =>
      ((List.range 192).filter fun i => !s.disabled.contains (c * 192 + i)).length).sum) ∧
    reads 0x305 (BitVec.ofNat 32 part.clusters.length) ∧
    (∀ i, i < 16 → reads (0x310 + i) (BitVec.ofNat 32 ((List.range 4).map fun j =>
      (part.hash.getD (4 * i + j) 0).toNat * 2 ^ (8 * j)).sum)) ∧
    (a ∉ own → (∀ e ∈ fixed, e.1 ≠ a) → ¬ group → a ∉ [0x020, 0x029, 0x304, 0x305] → ¬ (0x310 ≤ a ∧ a < 0x320) →
      ∃ t, Traps s k t (exec (.csrr d a) s) ∧ t.cause = 0x01 ∧ t.reason = 0)
  ) ∧ (
  ∀ (s : State) (k : Slot) (d a : Nat), Issues s k 4 → a < 1024 →
    let x := (k.s d).toNat
    let own := [0x000, 0x001, 0x002, 0x003, 0x004, 0x005, 0x006, 0x008, 0x009, 0x00A, 0x010, 0x011, 0x012, 0x013, 0x018]
    let group := (0x200 ≤ a ∧ a < 0x210) ∨ (0x220 ≤ a ∧ a < 0x228)
    let bits := fun hi lo => x / 2 ^ lo % 2 ^ (hi + 1 - lo)
    let allowed := match a with
      | 0x000 => x < 16 ∧ x % 8 < 5
      | 0x001 => x < 32
      | 0x002 => bits 31 17 = 0 ∧ bits 15 1 = 0
      | 0x003 => x ∈ [4, 8, 16, 32, 64]
      | 0x005 => x < 16
      | 0x006 => x < 2
      | 0x010 => bits 1 1 = 0
      | 0x013 => bits 7 7 = 0
      | _ => True
    let block := (([32, 32, 24, 24, 16, 32, 32, 32, 16, 64, 64, 128] : List Nat)[bits 19 16]?).getD 0
    let tile := x = 0 ∨ (bits 31 20 = 0 ∧ bits 7 7 = 0 ∧ 1 ≤ bits 6 0 ∧ bits 6 0 ≤ 64 ∧
      block ≠ 0 ∧ bits 15 8 ≠ 0 ∧ bits 15 8 ≤ 128 ∧ bits 15 8 % block = 0)
    let acc := x = 0 ∨ (bits 31 17 = 0 ∧ bits 15 15 = 0 ∧ bits 7 7 = 0 ∧
      1 ≤ bits 6 0 ∧ bits 6 0 ≤ 64 ∧ 1 ≤ bits 14 8 ∧ bits 14 8 ≤ 64)
    let quiet := k.w.flagPend = [] ∧ ∀ o ∈ k.w.outs, o.done = false → ∀ i u v x y z n, o.op = .tile i u v x y z n → tileFp i = false
    let idle := ∀ o ∈ k.w.outs, o.path ≠ .tl
    (a ∈ own → allowed → (a = 0x001 → quiet) → k.second = false →
      ∃ t w, exec (.csrw d a) s = .next t ∧ WaveOnly s t k.h w ∧ Advances k 4 w ∧
        (if a = 0x013 then w.en = x % 128 else w.csr a = BitVec.ofNat 32 x) ∧
        (∀ c ∈ own, c ≠ a → w.csr c = k.w.csr c) ∧
        { w.rewound k with frm := k.w.frm, fflags := k.w.fflags, accmode := k.w.accmode, subgrp := k.w.subgrp, mtol := k.w.mtol,
                           mtrapen := k.w.mtrapen, u5trap := k.w.u5trap, lc0 := k.w.lc0, lc1 := k.w.lc1, lc2 := k.w.lc2,
                           uivec := k.w.uivec, uicause := k.w.uicause, uipc := k.w.uipc, en := k.w.en,
                           racqtmo := k.w.racqtmo } = k.w) ∧
    (a ∈ own → allowed → (a = 0x001 → quiet) → k.second = true → k.w.held.length < 8 →
      ∃ t w, exec (.csrw d a) s = .next t ∧ WaveOnly s t k.h w ∧ Advances k 4 w ∧
        w.held = k.w.held ++ [{ dst := .csr a, val := some (BitVec.ofNat 32 x), level := k.w.stack.length }] ∧
        { w.rewound k with held := k.w.held } = k.w) ∧
    (group → (if a < 0x220 then tile else acc) → idle → k.second = false → k.det = false →
      ∃ t g, exec (.csrw d a) s = .next t ∧ Map.find t.groups k.w.group = some g ∧
        (∀ n, Sparse.get 0 g.tdesc n = if n + 0x200 = a ∧ a < 0x220 then BitVec.ofNat 32 x else Sparse.get 0 k.g.tdesc n) ∧
        (∀ n, Sparse.get 0 g.adesc n = if n + 0x220 = a ∧ 0x220 ≤ a then BitVec.ofNat 32 x else Sparse.get 0 k.g.adesc n) ∧
        { g with tdesc := k.g.tdesc, adesc := k.g.adesc } = k.g ∧
        (∀ c, c ≠ k.w.group → Map.find t.groups c = Map.find s.groups c) ∧
        Passes { s with groups := t.groups } { k with g := g } 4 (.next t)) ∧
    ((a ∉ own ∧ ¬ group) ∨ (a ∈ own ∧ ¬ allowed ∧ (a = 0x001 → quiet)) ∨
      (group ∧ ¬ (if a < 0x220 then tile else acc) ∧ idle) →
      ∃ t, Traps s k t (exec (.csrw d a) s) ∧ t.cause = 0x01 ∧ t.reason = 0)
  )

/-! ## Control flow -/

/-- R30, R31, R187, R188, R190: uniform branches go to PC plus four times the offset, CALL leaves the return address
in s62:s63, RET goes to the pair's value; a target outside an active hardware loop's body raises Illegal Control
Transfer with the target. R23: a RET to an address that is no multiple of 4 raises Alignment with that address. -/
def Obligations.UniformBranches : Prop :=
  ∀ (s : State) (k : Slot) (a : Nat) (c : UCond) (off : BitVec 17), IssuesJump s k 4 →
    let target := k.f.pc + BitVec.ofInt 64 (4 * off.toInt)
    let inside := fun (pc : DWord) => ∀ b ∈ k.w.loopsOf k.f, b.first ≤ pc ∧ pc ≤ b.last
    let holds := match c with
      | .always => True
      | .k n neg => k.k n = !neg
    let pair := BitVec.ofNat 64 ((k.s a).toNat + 2 ^ 32 * (k.s (a + 1)).toNat)
    let leaves := fun (pc : DWord) => Traps s k { k.trap 0x02 0 with addr := pc }
    (inside target → Jumps s k target (exec (.jmp off) s)) ∧ (¬ inside target → leaves target (exec (.jmp off) s)) ∧
    (holds → inside target → Jumps s k target (exec (.bru c off) s)) ∧
    (holds → ¬ inside target → leaves target (exec (.bru c off) s)) ∧
    (¬ holds → k.strays 4 = false → Passes s k 4 (exec (.bru c off) s) ∧ Passes s k 4 (exec (.call c off) s)) ∧
    (¬ holds → k.strays 4 = true → leaves (k.f.pc + 4) (exec (.bru c off) s) ∧ leaves (k.f.pc + 4) (exec (.call c off) s)) ∧
    (holds → inside target → k.room 2 = true →
      ∃ t w f, exec (.call c off) s = .next t ∧ WaveOnly s t k.h w ∧ w.frag k.second = some f ∧ f.pc = target ∧
        f.mask = k.f.mask ∧ f.side = k.f.side ∧ w.frag (!k.second) = k.w.frag (!k.second) ∧
        Uniform k w [(.s 62, (k.f.pc + 4).setWidth 32), (.s 63, ((k.f.pc + 4) >>> 32).setWidth 32)] ∧
        { w.rewound k with s := k.w.s, k := k.w.k, held := k.w.held } = k.w) ∧
    (holds → ¬ inside target → k.room 2 = true → leaves target (exec (.call c off) s)) ∧
    (pair.toNat % 4 = 0 → inside pair → Jumps s k pair (exec (.ret a) s)) ∧
    (pair.toNat % 4 = 0 → ¬ inside pair → leaves pair (exec (.ret a) s)) ∧
    (pair.toNat % 4 ≠ 0 → Traps s k { k.trap 0x06 with addr := pair, lmask := k.mask } (exec (.ret a) s))

/-- R172, R174 to R176, R183, R184: IF pushes one IF level and splits its fragment into the THEN side, at the next word,
and the ELSE side, at the target; a side without lanes does not run; a second fragment is suspended first; where an
ENDIF stands at the target, the ELSE side arrives there at once; a target whose translation is not to hand is walked
for first (log 13); a full stack raises Mask Stack Overflow. An IF of the second of two slots waits until the first slot is
out of the way. R177, R178, R183, R184: what ELSE and ENDIF do, by the state of the innermost IF level; without an IF level they
raise Illegal Control Transfer. Where the two sides arrive at different ENDIFs, the merged fragment goes on after the one that
arrived first, which the level stores (the model's choice, log 50). R180: when the first slot reaches its ENDIF, the writes held at that level are made,
in the order they were held, so the last write of a register is the one that stays. -/
def Obligations.IfElseAndEndif : Prop :=
  (
  (∀ (s : State) (k : Slot) (p : Nat) (n : Bool) (off : BitVec 17), s.slot = some k → k.placed 4 = true → k.second = true →
    Waits s (exec (.ifP p n off) s)) ∧
  ∀ (s : State) (k : Slot) (p : Nat) (n : Bool) (off : BitVec 17),
    s.slot = some k → k.placed 4 = true → k.second = false → k.strays 4 = false →
    k.deep 4 (k.w.stack.length + 1) = false →
    let target := k.f.pc + BitVec.ofInt 64 (4 * off.toInt)
    let t := k.f.mask &&& (if n then ~~~k.w.pget p else k.w.pget p)
    let e := k.f.mask &&& ~~~t
    let here := (k.f.pc + 4, t, false, (none : Option Mask))
    let there := (target, e, true, (none : Option Mask))
    let loops := k.w.hloops.length
    let level := Level.ifL k.f.side 0 0 0 loops none k.w.nextIf
    let inside := ∀ b ∈ k.w.loopsOf k.f, b.first ≤ target ∧ target ≤ b.last
    let fetched := (∀ va, s.fetchAt k target ≠ .miss va) ∧ s.fetchAt k target ≠ .ok .endif
    let endif := s.fetchAt k target = .ok .endif
    let gives := fun (under : List Level) =>
      (e = 0 → Flows s k (level :: under) (some here) none (exec (.ifP p n off) s)) ∧
      (e ≠ 0 → inside → t = 0 → fetched → Flows s k (level :: under) (some there) none (exec (.ifP p n off) s)) ∧
      (e ≠ 0 → inside → t ≠ 0 → fetched → Flows s k (level :: under) (some here) (some there) (exec (.ifP p n off) s)) ∧
      (e ≠ 0 → inside → t ≠ 0 → endif → k.w.held = [] →
        Flows s k (.ifL k.f.side target 1 e loops none k.w.nextIf :: under) (some here) none (exec (.ifP p n off) s)) ∧
      (e ≠ 0 → inside → t = 0 → endif → k.w.held = [] → k.w.hloops = [] → suspendedTop under = false →
        Flows s k under (some (target + 4, e, k.f.side, none)) none (exec (.ifP p n off) s)) ∧
      (e ≠ 0 → inside → ∀ va, s.fetchAt k target = .miss va → exec (.ifP p n off) s = .next (s.missAll k 2 [va]))
    (k.w.stack.length + 1 ≤ 8 + k.w.spill → k.w.second = none → gives k.w.stack) ∧
    (k.w.stack.length + 1 ≤ 8 + k.w.spill → ∀ f o pc st m l a id under, k.w.second = some f →
      k.w.stack = .ifL o pc st m l a id :: under → gives (.ifL o f.pc 2 f.mask k.w.hloops.length f.again id :: under)) ∧
    (k.w.stack.length + 1 ≤ 8 + k.w.spill → e ≠ 0 → ¬ inside →
      Traps s k { k.trap 0x02 0 with addr := target } (exec (.ifP p n off) s)) ∧
    (8 + k.w.spill < k.w.stack.length + 1 →
      Traps s k { k.trap 0x0C with w12 := BitVec.ofNat 32 k.w.stack.length } (exec (.ifP p n off) s))
  ) ∧ (
  ∀ (s : State) (k : Slot) (off : BitVec 17), s.slot = some k → k.placed 4 = true → k.f.mask ≠ 0 → k.w.held = [] →
    let target := k.f.pc + BitVec.ofInt 64 (4 * off.toInt)
    let arrives := fun (i : Instr) (at_ : DWord) =>
      k.w.hloops = [] → ∀ o pc st other n a id r, k.w.stack = .ifL o pc st other n a id :: r →
        (∀ f, k.w.frag (!k.second) = some f → (k.second = false ∨ k.w.first.isSome) →
          Flows s k (.ifL o at_ 1 k.f.mask n none id :: r) (some f.shape) none (exec i s)) ∧
        (k.w.frag (!k.second) = none → k.second = false →
          (st = 0 → suspendedTop r = false → Flows s k r (some (at_ + 4, k.f.mask, o, none)) none (exec i s)) ∧
          (st = 1 → suspendedTop r = false → Flows s k r (some (pc + 4, k.f.mask ||| other, o, none)) none (exec i s)) ∧
          (st = 2 → other ≠ 0 →
            Flows s k (.ifL o at_ 1 k.f.mask n none id :: r) (some (pc, other, true, a)) none (exec i s)) ∧
          (st = 0 → ∀ o2 pc2 m2 n2 a2 id2 r2, r = .ifL o2 pc2 2 m2 n2 a2 id2 :: r2 → m2 ≠ 0 →
            Flows s k (.ifL o2 pc2 0 0 n2 none id2 :: r2) (some (at_ + 4, k.f.mask, o, none)) (some (pc2, m2, true, a2)) (exec i s)))
    arrives .endif k.f.pc ∧
    (k.f.side = false → arrives (.elseP off) target) ∧
    (k.f.side = true → (∃ o pc st m n a id r, k.w.stack = .ifL o pc st m n a id :: r) → k.deep 4 k.w.stack.length = false →
      k.strays 4 = false → Passes s k 4 (exec (.elseP off) s)) ∧
    ((∀ o pc st m n a id r, k.w.stack ≠ .ifL o pc st m n a id :: r) →
      Traps s k (k.trap 0x02 1) (exec .endif s) ∧ Traps s k { k.trap 0x02 1 with addr := target } (exec (.elseP off) s))
  ) ∧ (
  ∀ (s : State) (k : Slot) (f : Frag) (ws : List (HDst × Word)) (o : Bool) (pc : DWord) (st : Nat) (other : Mask) (n : Nat)
    (a : Option Mask) (id : Nat) (r : List Level),
    s.slot = some k → k.placed 4 = true → k.f.mask ≠ 0 → k.second = false → k.w.second = some f → k.w.hloops = [] →
    k.w.stack = .ifL o pc st other n a id :: r → (∀ e ∈ ws, ∃ m, e.1 = .s m ∨ e.1 = .k m) →
    k.w.held = ws.map (fun e => { dst := e.1, val := some e.2, level := k.w.stack.length }) →
    ∃ t w, exec .endif s = .next t ∧ WaveOnly s t k.h w ∧ w.held = [] ∧
      (∀ m, Sparse.get 0 w.s m = lastOf ws (.s m) (Sparse.get 0 k.w.s m)) ∧
      (∀ m, Sparse.get false w.k m = (lastOf ws (.k m) (BitVec.ofNat 32 (bit (Sparse.get false k.w.k m))) != 0)) ∧
      w.first.map Frag.shape = some f.shape ∧ w.second = none ∧ w.stack = .ifL o k.f.pc 1 k.f.mask n none id :: r
  )

/-- R172, R173: the fragments of a wave stay non-empty and apart. Whatever an instruction of control flow does, no lane stands in two
places of the wave: in a fragment, in what an IF level keeps of the other side, in a loop's broken lanes, or among the
substituted lanes of an approximable region; and the lanes above a loop are lanes still in it. -/
def Obligations.FragmentsStayApart : Prop :=
  ∀ (s t : State) (k : Slot) (p a len : Nat) (n : Bool) (c : UCond) (off : BitVec 17) (w : Wave), s.slot = some k → k.w.Apart →
    ∀ i ∈ [Instr.ifP p n off, .elseP off, .endif, .loop, .brk p n off, .cont p n off, .endloop off, .bru c off, .jmp off, .call c off,
      .ret a, .hloop a len, .hloopEndCheck, .exit, .uret] ++ (if k.f.again = none then [.apxb a, .apxe] else []),
    exec i s = .next t → Map.find t.waves k.h = some w → w.Apart

/-- R174 to R176, R185, R186: LOOP pushes the two levels of a loop, a live second fragment being suspended first; from the second
of two slots it waits; on a full stack it raises Mask Stack Overflow; BREAK and CONT take the lanes whose condition holds out of
the fragment and name the loop's end; when no lane of the fragment is left, the lanes still in the loop begin the next
iteration, or the loop ends; ENDLOOP begins the next iteration with every lane still in the loop. -/
def Obligations.LoopsOfLanes : Prop :=
  ∀ (s : State) (k : Slot) (p : Nat) (n : Bool) (off : BitVec 17),
    s.slot = some k → k.placed 4 = true → k.w.hloops = [] → k.w.held = [] →
    let target := k.f.pc + BitVec.ofInt 64 (4 * off.toInt)
    let x := k.f.mask &&& (if n then ~~~k.w.pget p else k.w.pget p)
    let m := k.f.mask &&& ~~~x
    (k.second = false → k.w.second = none → k.w.stack.length + 2 ≤ 8 + k.w.spill →
      Flows s k (.loopMasks 0 k.f.mask :: .loopAddr 0 k.f.side false k.f.pc :: k.w.stack)
        (some (k.f.pc + 4, k.f.mask, k.f.side, none)) none (exec .loop s)) ∧
    (k.second = false → k.w.stack.length + 2 ≤ 8 + k.w.spill → ∀ f o pc st m l a id under, k.w.second = some f →
      k.w.stack = .ifL o pc st m l a id :: under →
      Flows s k (.loopMasks 0 k.f.mask :: .loopAddr 0 k.f.side false k.f.pc :: .ifL o f.pc 2 f.mask 0 f.again id :: under)
        (some (k.f.pc + 4, k.f.mask, k.f.side, none)) none (exec .loop s)) ∧
    (k.second = true → Waits s (exec .loop s)) ∧
    (k.second = false → 8 + k.w.spill < k.w.stack.length + 2 →
      Traps s k { k.trap 0x0C with w12 := BitVec.ofNat 32 k.w.stack.length } (exec .loop s)) ∧
    (∀ ifs b l endpc o known lp r, (∀ v ∈ ifs, ∃ o pc st m n a id, v = Level.ifL o pc st m n a id) →
      k.w.stack = ifs ++ .loopMasks b l :: .loopAddr endpc o known lp :: r →
      let left := fun (brk : Bool) => ifs ++ (if brk then .loopMasks (b ||| x) (l &&& ~~~x) else .loopMasks b l) ::
        .loopAddr target o true lp :: r
      (known = false ∨ endpc = target →
        (x ≠ 0 → m ≠ 0 →
          let go := some (k.f.pc + 4, m, k.f.side, none)
          let first := if k.second then k.w.first.map Frag.shape else go
          let second := if k.second then go else k.w.second.map Frag.shape
          Flows s k (left true) first second (exec (.brk p n off) s) ∧
          Flows s k (left false) first second (exec (.cont p n off) s)) ∧
        (x = 0 → m ≠ 0 → Passes s k 4 (exec (.brk p n off) s) ∧ Passes s k 4 (exec (.cont p n off) s)) ∧
        (m = 0 → x ≠ 0 → ifs = [] → k.second = false → k.w.second = none →
          (l ≠ 0 → Flows s k (left false) (some (lp + 4, l, o, none)) none (exec (.cont p n off) s)) ∧
          (l &&& ~~~x ≠ 0 → Flows s k (left true) (some (lp + 4, l &&& ~~~x, o, none)) none (exec (.brk p n off) s)) ∧
          (l &&& ~~~x = 0 → suspendedTop r = false →
            Flows s k r (some (target + 4, b ||| x, o, none)) none (exec (.brk p n off) s)))) ∧
      (known = true → endpc ≠ target →
        Traps s k { k.trap 0x02 2 with addr := target } (exec (.brk p n off) s) ∧
        Traps s k { k.trap 0x02 2 with addr := target } (exec (.cont p n off) s)) ∧
      (ifs = [] → lp = target → k.second = false → k.w.second = none →
        Flows s k (.loopMasks b l :: .loopAddr k.f.pc o true lp :: r) (some (target + 4, l, k.f.side, none)) none
          (exec (.endloop off) s)) ∧
      (ifs = [] → lp ≠ target → Traps s k { k.trap 0x02 3 with addr := target } (exec (.endloop off) s)))

/-- R176, R189, R190: HLOOP starts a loop of a count that is not zero and otherwise skips its body; after the body's
last word the counter decides between the first word and the word that follows; a fourth loop raises Illegal Control
Transfer. R176, R178: from the second of two slots HLOOP waits; from the first it suspends the second fragment, which resumes as
the second slot when the loop has ended, at once where the count is zero. -/
def Obligations.HardwareLoops : Prop :=
  ∀ (s : State) (k : Slot) (a len : Nat),
    let counters := fun (w : Wave) (i : Nat) (x : Word) =>
      w.lc0 = (if i = 0 then x else k.w.lc0) ∧ w.lc1 = (if i = 1 then x else k.w.lc1) ∧ w.lc2 = (if i = 2 then x else k.w.lc2)
    let same := fun (w : Wave) => { w.rewound k with lc0 := k.w.lc0, lc1 := k.w.lc1, lc2 := k.w.lc2, hloops := k.w.hloops } = k.w
    let first := k.f.pc + 4
    let last := k.f.pc + BitVec.ofNat 64 (4 * len)
    let inside := fun (pc : DWord) => ∀ b ∈ k.w.loopsOf k.f, b.first ≤ pc ∧ pc ≤ b.last
    (IssuesJump s k 4 → k.second = false → k.w.second = none → k.w.hloops.length < 3 → suspendedTop k.w.stack = false →
      (k.s a ≠ 0 → inside first →
        ∃ t w, exec (.hloop a len) s = .next t ∧ WaveOnly s t k.h w ∧ w.second = none ∧
          w.first.map Frag.shape = some (first, k.f.mask, k.f.side, none) ∧ counters w k.w.hloops.length (k.s a) ∧
          w.hloops = ⟨first, last, k.w.stack.length, []⟩ :: k.w.hloops ∧ same w) ∧
      (k.s a = 0 → inside (last + 4) →
        ∃ t w, exec (.hloop a len) s = .next t ∧ WaveOnly s t k.h w ∧ w.second = none ∧
          w.first.map Frag.shape = some (last + 4, k.f.mask, k.f.side, none) ∧ counters w k.w.hloops.length 0 ∧
          w.hloops = k.w.hloops ∧ same w)) ∧
    (IssuesJump s k 4 → k.second = true → Waits s (exec (.hloop a len) s)) ∧
    (IssuesJump s k 4 → k.second = false → k.w.hloops.length < 3 → ∀ f o pc st m l y id under, k.w.second = some f → f.mask ≠ 0 →
      k.w.stack = .ifL o pc st m l y id :: under →
      (k.s a ≠ 0 → inside first →
        ∃ t w, exec (.hloop a len) s = .next t ∧ WaveOnly s t k.h w ∧ w.second = none ∧
          w.first.map Frag.shape = some (first, k.f.mask, k.f.side, none) ∧ counters w k.w.hloops.length (k.s a) ∧
          w.hloops = ⟨first, last, k.w.stack.length, []⟩ :: k.w.hloops ∧
          w.stack = .ifL o f.pc 2 f.mask k.w.hloops.length f.again id :: under ∧ same { w with stack := k.w.stack }) ∧
      (k.s a = 0 → inside (last + 4) →
        ∃ t w, exec (.hloop a len) s = .next t ∧ WaveOnly s t k.h w ∧
          w.first.map Frag.shape = some (last + 4, k.f.mask, k.f.side, none) ∧
          w.second.map Frag.shape = some (f.pc, f.mask, true, f.again) ∧ counters w k.w.hloops.length 0 ∧ w.hloops = k.w.hloops ∧
          w.stack = .ifL o f.pc 0 0 k.w.hloops.length none id :: under ∧ same { w with stack := k.w.stack })) ∧
    (IssuesJump s k 4 → k.second = false → 3 ≤ k.w.hloops.length → Traps s k (k.trap 0x02 4) (exec (.hloop a len) s)) ∧
    (∀ b r i c, s.slot = some k → k.mayIssue = true → k.f.endPend = true → k.w.inH = false → k.w.hloops = b :: r → r.length = i →
      i < 3 → c = [k.w.lc0, k.w.lc1, k.w.lc2].getD i 0 →
      (1 < c.toNat →
        ∃ t w f, exec .hloopEndCheck s = .next t ∧ WaveOnly s t k.h w ∧ w.frag k.second = some f ∧ f.pc = b.first ∧
          f.mask = k.f.mask ∧ f.side = k.f.side ∧ w.frag (!k.second) = k.w.frag (!k.second) ∧ counters w i (c - 1) ∧
          w.hloops = k.w.hloops ∧ same w) ∧
      (c.toNat ≤ 1 → suspendedTop k.w.stack = false →
        ∃ t w f, exec .hloopEndCheck s = .next t ∧ WaveOnly s t k.h w ∧ w.frag k.second = some f ∧ f.pc = b.last + 4 ∧
          f.mask = k.f.mask ∧ f.side = k.f.side ∧ w.frag (!k.second) = k.w.frag (!k.second) ∧ counters w i 0 ∧
          w.hloops = r ∧ same w) ∧
      (c.toNat ≤ 1 → k.second = false → k.w.second = none → ∀ o pc m n y id under, k.w.stack = .ifL o pc 2 m n y id :: under →
        i ≤ n → m ≠ 0 →
        ∃ t w f, exec .hloopEndCheck s = .next t ∧ WaveOnly s t k.h w ∧ w.first = some f ∧ f.pc = b.last + 4 ∧
          f.mask = k.f.mask ∧ f.side = k.f.side ∧ w.second.map Frag.shape = some (pc, m, true, y) ∧ counters w i 0 ∧
          w.hloops = r ∧ w.stack = .ifL o pc 0 0 n none id :: under ∧ same { w with stack := k.w.stack }))

/-- R175, R177, R191: EXIT ends the active lanes: they leave every mask of the stack and join the exited lanes; the
other side or the level beneath runs on, in a loop the lanes that are still in it, and then those that have left it; with no lane
left the wave ends. R339: from an approximable region the lanes that were substituted go on, and the invocation is closed with none
of its lanes captured, at once or, in a deterministic launch, at the commit. R143, R308: a wave that ends gives up its bindings, and
a queue or catalogue that no other wave has bound is no longer active. -/
def Obligations.ExitEndsLanes : Prop :=
  ∀ (s : State) (k : Slot), s.slot = some k → k.placed 4 = true → k.f.mask ≠ 0 → k.w.held = [] → k.w.hloops = [] →
    let cut := fun (v : Level) => match v with
      | .ifL o pc st m n a id => Level.ifL o pc st (m &&& ~~~k.f.mask) n (a.map (· &&& ~~~k.f.mask)) id
      | .loopMasks b l => .loopMasks (b &&& ~~~k.f.mask) (l &&& ~~~k.f.mask)
      | .apxMasks c u => .apxMasks (c &&& ~~~k.f.mask) (u &&& ~~~k.f.mask)
      | v => v
    let ends := fun (stack : List Level) (first : Option (DWord × Mask × Bool × Option Mask)) =>
      ∃ t w, exec .exit s = .next t ∧ WaveOnly s t k.h w ∧ w.exited = k.w.exited ||| k.f.mask ∧ w.stack = stack ∧
        w.first.map Frag.shape = first ∧ w.second = none ∧
        { w.rewound k with exited := k.w.exited, stack := k.w.stack } = k.w
    let first := fun (t : State) (w : Wave) (stack : List Level) (f : Option (DWord × Mask × Bool × Option Mask)) =>
      exec .exit s = .next t ∧ Map.find t.waves k.h = some w ∧ w.exited = k.w.exited ||| k.f.mask ∧ w.stack = stack ∧
        w.first.map Frag.shape = f ∧ w.second = none
    (k.w.stack = [] → k.second = false → k.w.second = none → k.w.binds = [] → k.w.cat = none → ends [] none) ∧
    (k.w.stack = [] → k.second = false → k.w.second = none → s.waves.Pairwise (fun a b => a.1 < b.1) →
      k.w.binds.Pairwise (fun a b => a.1 < b.1) →
      let bound := fun (w : Wave) (key : Nat) => ∃ b ∈ w.binds, b.2.queue = key
      let others := fun (P : Wave → Prop) => ∃ e ∈ s.waves, e.1 ≠ k.h ∧ P e.2
      ∃ t w, first t w [] none ∧ w.binds = [] ∧ w.cat = none ∧
        (∀ key, (bound k.w key → ¬ others (bound · key) → Map.find t.queues key = none) ∧
          (¬ bound k.w key ∨ others (bound · key) → Map.find t.queues key = Map.find s.queues key)) ∧
        (∀ key, (k.w.cat = some key → ¬ others (·.cat = some key) → Map.find t.cats key = none) ∧
          (k.w.cat ≠ some key ∨ others (·.cat = some key) → Map.find t.cats key = Map.find s.cats key)) ∧
        (∀ x, t.byte (.mem x) = s.byte (.mem x)) ∧
        (∀ x, (∀ key, bound k.w key → x < key + 4 ∨ key + 12 ≤ x) → t.byte (.scr x) = s.byte (.scr x))) ∧
    (∀ b l endpc o known lp r, k.w.stack = .loopMasks b l :: .loopAddr endpc o known lp :: r → k.second = false → k.w.second = none →
      (l &&& ~~~k.f.mask ≠ 0 → ends (k.w.stack.map cut) (some (lp + 4, l &&& ~~~k.f.mask, o, none))) ∧
      (l &&& ~~~k.f.mask = 0 → b &&& ~~~k.f.mask ≠ 0 → suspendedTop r = false →
        ends (r.map cut) (some (endpc + 4, b &&& ~~~k.f.mask, o, none)))) ∧
    (∀ cap sub endpc o rid x inv outs r, k.w.stack = .apxMasks cap sub :: .apxAddr endpc o rid x inv outs :: r → k.second = false →
      k.w.second = none → sub &&& ~~~k.f.mask ≠ 0 → suspendedTop r = false →
      ∃ t w, first t w (r.map cut) (some (endpc + 4, sub &&& ~~~k.f.mask, o, none)) ∧
        { t with waves := s.waves, waiters := s.waiters, regions := s.regions } = s ∧
        (k.det = true → w.qops = k.w.qops ++ [.apxe rid inv []] ∧ t.regions = s.regions) ∧
        (k.det = false → w.qops = k.w.qops ∧ ∀ y, Map.find s.regions (regionKey k.cluster rid) = some y → y.freePend = false →
          ∃ z, Map.find t.regions (regionKey k.cluster rid) = some z ∧ z.openInv = y.openInv - 1 ∧ Map.find z.invs inv = none ∧
            z.committed = y.committed)) ∧
    (∀ o pc st other n a id r f, k.w.stack = .ifL o pc st other n a id :: r → k.w.frag (!k.second) = some f →
      (k.second = false ∨ k.w.first.isSome) → ends (k.w.stack.map cut) (some f.shape)) ∧
    (∀ o pc other n a id r, k.w.stack = .ifL o pc 1 other n a id :: r → k.second = false → k.w.second = none →
      other &&& ~~~k.f.mask ≠ 0 → suspendedTop r = false →
      ends (r.map cut) (some (pc + 4, other &&& ~~~k.f.mask, o, none)))

/-- R58, R117, R118, R167, R192, R193, R379, R447, R462, R465: the instructions that only wait or read: outside a
deterministic launch they end with the PC advanced, WAIT and WAITP once every count is within its ceiling (WAITP's is
the value its register had when it issued), a fence once the slot's earlier accesses have performed; RDCLK reads the cycles and SHRD the store hash; YIELD makes the wave
the youngest. -/
def Obligations.WaitingAndReading : Prop :=
  ∀ (s : State) (k : Slot) (a d ld st cp tl : Nat) (p : Path) (kind : FenceKind) (scope : Scope), Issues s k 4 → k.det = false →
    let count := fun (p : Path) => (k.w.outs.filter fun o => o.counted && o.path == p).length
    let within := fun (p : Path) (n : Nat) => n = 15 ∨ count p ≤ n
    let before := fun (o : Out) => o ∈ k.w.outs ∧ o.done = false ∧ tagOrdered o.tag k.tag = true
    let fits := fun (o : Out) => ∃ load cl rid va locs, o.op = .fit load cl rid va locs
    let reads := fun (o : Out) => o.path = .ld ∨ (∃ op wide det uni ret reqs, o.op = .atomic op wide det uni ret reqs) ∨
      ∃ cl rid va locs, o.op = .fit true cl rid va locs
    let earlier := ∃ o, before o ∧ (if kind = .acq then reads o else o.path = .ld ∨ o.path = .st ∨ fits o)
    let asked := fun (th : Nat) => ∃ x ∈ s.waiters, x.wave = k.h ∧ x.side = k.f.side ∧ x.on = .waitp th
    let alone := ∀ x ∈ s.waiters, x.wave = k.h → x.side ≠ k.f.side
    let moves := ∃ o d src n rb sp dp a m, before o ∧ o.op = .tmov d src n rb sp dp a m
    Passes s k 4 (exec .nop s) ∧ Passes s k 4 (exec .qend s) ∧
    (within .ld ld → within .st st → within .cp cp → within .tl tl → Passes s k 4 (exec (.wait ld st cp tl) s)) ∧
    (¬ (within .ld ld ∧ within .st st ∧ within .cp cp ∧ within .tl tl) → Waits s (exec (.wait ld st cp tl) s)) ∧
    (alone → count p ≤ (k.s a).toNat → Passes s k 4 (exec (.waitp a p) s)) ∧
    (alone → (k.s a).toNat < count p →
      exec (.waitp a p) s = .next { s with waiters := s.waiters ++ [⟨k.h, k.f.side, .waitp (k.s a).toNat⟩] }) ∧
    (∀ th, asked th → (∀ u, asked u → u = th) →
      (count p ≤ th → Passes s k 4 (exec (.waitp a p) s)) ∧ (th < count p → Waits s (exec (.waitp a p) s))) ∧
    (k.room 2 = true → WritesUni s k 4 [(.s d, BitVec.ofNat 32 s.cycle), (.s (d + 1), BitVec.ofNat 32 (s.cycle / 2 ^ 32))]
      (exec (.rdclk d) s)) ∧
    (k.room 1 = true → WritesUni s k 4 [(.s d, k.w.hash)] (exec (.shrd d) s)) ∧
    (∃ t w, exec .yield s = .next t ∧ WaveOnly s t k.h w ∧ Advances k 4 w ∧ w.age = s.cycle ∧ { w.rewound k with age := k.w.age } = k.w) ∧
    (¬ earlier → (kind = .acq ∨ ¬ moves) →
      ∃ t w, exec (.fence kind scope) s = .next t ∧ WaveOnly s t k.h w ∧ Advances k 4 w ∧
        w.codeSeen = (if kind = .full ∧ (scope = .device ∨ scope = .system) then s.codeCount else k.w.codeSeen) ∧
        { w.rewound k with codeSeen := k.w.codeSeen } = k.w) ∧
    (earlier → Waits s (exec (.fence kind scope) s))

/-- R155 to R161: RACQ takes blocks when enough are free and nobody waits, or answers at once with T = 1, or waits;
more than 16 blocks, and releasing more than were acquired, raise Register Allocation Fault; a grant serves the oldest
waiter; a wait past RACQTMO faults; RREL and WBASE change the allocation and the window. In a deterministic launch RACQ.try
is Illegal Instruction, whatever it asks for (R452; log 59). -/
def Obligations.VectorAllocation : Prop :=
  ∀ (s : State) (k : Slot) (kd n b : Nat),
    let blocks := fun (m : Nat) (r : Res) =>
      ∃ t w, r = .next t ∧ WaveOnly s t k.h w ∧ Advances k 4 w ∧ w.blocks = k.w.blocks + m ∧ { w.rewound k with blocks := k.w.blocks } = k.w
    let free := n ≤ s.freeBlocks k.core ∧ s.racqWaiters k.core = []
    (Issues s k 4 → k.second = false →
      (16 < k.w.blocks + n → ∀ t, (t = true → k.det = false) → Traps s k (k.trap 0x0A 1) (exec (.racq t kd n) s)) ∧
      (k.det = true → ∃ t, Traps s k t (exec (.racq true kd n) s) ∧ t.cause = 0x01 ∧ t.reason = 0) ∧
      (k.w.blocks + n ≤ 16 → free → blocks n (exec (.racq false kd n) s)) ∧
      (k.w.blocks + n ≤ 16 → ¬ free → (∀ x ∈ s.waiters, x.wave = k.h → x.side ≠ k.f.side) →
        exec (.racq false kd n) s = .next { s with waiters := s.waiters ++ [⟨k.h, k.f.side, .racq n s.cycle⟩] }) ∧
      (k.w.blocks + n ≤ 16 → k.det = false → ∃ t w, exec (.racq true kd n) s = .next t ∧ WaveOnly s t k.h w ∧ Advances k 4 w ∧
        (∀ j, Sparse.get false w.k j = if j = kd then decide free else Sparse.get false k.w.k j) ∧
        w.blocks = (if free then k.w.blocks + n else k.w.blocks) ∧ { w.rewound k with k := k.w.k, blocks := k.w.blocks } = k.w) ∧
      (k.w.blocks - k.w.base < n → Traps s k (k.trap 0x0A 2) (exec (.rrel n) s)) ∧
      (n ≤ k.w.blocks - k.w.base → (∀ o ∈ k.w.outs, o.path ≠ .ld ∧ o.path ≠ .tl) →
        ∃ t w, exec (.rrel n) s = .next t ∧ WaveOnly s t k.h w ∧ Advances k 4 w ∧ w.blocks = k.w.blocks - n ∧
          (∀ x, Sparse.get 0 w.v x = if (k.w.blocks - n) * 2048 ≤ x ∧ x < (k.w.blocks - n) * 2048 + n * 2048 then 0
            else Sparse.get 0 k.w.v x) ∧
          { w.rewound k with blocks := k.w.blocks, v := k.w.v } = k.w) ∧
      (∃ t w, exec (.wbase b) s = .next t ∧ WaveOnly s t k.h w ∧ Advances k 4 w ∧ w.wb = b ∧ { w.rewound k with wb := k.w.wb } = k.w)) ∧
    (Issues s k 4 → k.second = true →
      Waits s (exec (.racq false kd n) s) ∧ Waits s (exec (.rrel n) s) ∧ Waits s (exec (.wbase b) s)) ∧
    (∀ x since core, s.oldestRacq core = some (x, n, since) → s.slotOf x.wave k.second = some k →
      k.w.bySide x.side = some (k.second, k.f) → n ≤ s.freeBlocks core → k.g.life = .resident → k.w.stop = none →
      blocks n (exec (.racqGrant core) s)) ∧
    (∀ x since wave,
      s.waiters.find? (fun x => x.wave == wave && (match x.on with | .racq _ _ => true | _ => false)) = some x →
      x.on = .racq n since → s.slotOf x.wave k.second = some k → k.w.bySide x.side = some (k.second, k.f) → k.det = false →
      k.w.stop = none → k.g.life = .resident → k.w.racqtmo ≠ 0 → since + k.w.racqtmo.toNat < s.cycle →
      Traps s k (k.trap 0x0A 0) (exec (.racqTimeout wave) s))

/-! ## Memory -/

/-- R90 to R93, R111 to R113, R79, R83, R107, R109: a load that issues sends one operation of the LD path, whose
elements name for each active lane its address, its place and the vector words it will write, each group served by one
sector; a uniform load names uniform registers, held for the second of two slots; the lanes whose address is a fabric address
access at system scope (R486). Nothing else changes until data returns. R387 to R389: PROMOTE is an acquiring load of one element
at device scope, and is marked as the load that promotes when it reads. -/
def Obligations.LoadsAreSent : Prop :=
  (
  ∀ (s : State) (k : Slot) (d a bp wd : Nat) (x : MemExt) (ext : Bool) (place : Nat → Loc) (far : Nat → Bool), wd < 5 →
    let len := if ext then 8 else 4
    let x := if ext then x else { order := .plain, scope := .wave, sx := false, offset := 0 }
    let n := 2 ^ wd
    let regs := (n + 3) / 4
    let off := x.offset.toInt
    let base := (k.s (2 * bp)).toNat + 2 ^ 32 * (k.s (2 * bp + 1)).toNat
    let ga := fun (u : Nat) => BitVec.ofInt 64 (((base + u : Nat) : Int) + off)
    let sa := fun (l : Nat) => (BitVec.ofInt 32 ((((k.s (2 * bp)).toNat + (k.w.vget a l).toNat : Nat) : Int) + off)).setWidth 64
    let acq := decide (x.order = .acq ∨ x.order = .ar)
    let sent := fun (r : Res) (held : List Held) (sysIs : Nat → Bool) (is : Elem → Prop) =>
      ∃ t w chunks sys, r = .next t ∧ WaveOnly s t k.h w ∧ Advances k len w ∧
        w.outs = k.w.outs ++ [{ seq := k.w.nextSeq, path := .ld, tag := k.tag, acq := acq, rel := false, done := false, pc := k.f.pc,
                                hash := k.w.hash, op := .load chunks, second := k.second, mask := k.mask, sys := sys }] ∧
        (∀ l, l < 64 → sys.getLsbD l = sysIs l) ∧
        (∀ e, e ∈ chunks.flatten ↔ is e) ∧ (∀ c ∈ chunks, ∀ e ∈ c, ∀ f ∈ c, e.loc.sector = f.loc.sector) ∧
        w.nextSeq = k.w.nextSeq + 1 ∧ w.held = k.w.held ++ held ∧
        { w.rewound k with outs := k.w.outs, nextSeq := k.w.nextSeq, held := k.w.held, walkFaults := k.w.walkFaults,
                           walkLeaves := k.w.walkLeaves } = k.w
    let lane := fun (va : Nat → DWord) (e : Elem) => ∃ l, l < 64 ∧ k.on l = true ∧
      e = { lane := l, loc := place l, va := va l, n := n, dst := (List.range regs).map fun i => k.w.vkey (d + i) + l,
            sx := x.sx, uni := false }
    let translates := fun (l : Nat) (va : DWord) => va.toNat % n = 0 ∧
      ∃ tier pa, s.xlate k.w k.f.side k.core k.l.tenant va 0 = .ok tier pa ∧ place l = s.placeOf tier pa ∧
        far l = (tier == 2 && bitAt pa 51)
    Issues s k len → k.heldBack = false → (k.w.outs.filter fun o => o.counted && o.path == .ld).length < 63 → k.mask ≠ 0 →
    (k.holds (a :: (List.range regs).map (d + ·)) →
      ((∀ l, l < 64 → k.on l = true → translates l (ga (k.w.vget a l).toNat)) →
        sent (exec (if ext then .ldgX d a bp wd x else .ldg d a bp wd) s) [] (fun l => k.on l && far l) (lane fun l => ga (k.w.vget a l).toNat)) ∧
      ((∀ l, l < 64 → k.on l = true → (sa l).toNat % n = 0 ∧ ∃ key, s.scr k.ctx (sa l).toNat = .ok key ∧ place l = .scr key) →
        sent (exec (if ext then .ldsX d a bp wd x else .lds d a bp wd) s) [] (fun _ => false) (lane sa))) ∧
    (translates 0 (ga (k.s a).toNat) → k.room regs = true →
      sent (exec (if ext then .lduX d a bp wd x else .ldu d a bp wd) s)
        (if k.second then (List.range regs).map fun i =>
          { dst := .s (d + i), val := none, level := k.w.stack.length, seq := k.w.nextSeq, idx := i } else [])
        (fun _ => far 0)
        (fun e => e = { lane := 64, loc := place 0, va := ga (k.s a).toNat, n := n, dst := (List.range regs).map (d + ·),
                        sx := x.sx, uni := true }))
  ) ∧ (
  ∀ (s : State) (k : Slot) (d a bp tier pa : Nat) (wide : Bool),
    let n := if wide then 8 else 4
    let regs := if wide then 2 else 1
    let va := BitVec.ofNat 64 ((k.s (2 * bp)).toNat + 2 ^ 32 * (k.s (2 * bp + 1)).toNat + (k.s a).toNat)
    Issues s k 4 → k.heldBack = false → (k.w.outs.filter fun o => o.counted && o.path == .ld).length < 63 → k.room regs = true →
    va.toNat % n = 0 → s.xlate k.w k.f.side k.core k.l.tenant va 0 = .ok tier pa →
    ∃ t w, exec (.promote d a bp wide) s = .next t ∧ WaveOnly s t k.h w ∧ Advances k 4 w ∧
      w.outs = k.w.outs ++ [{ seq := k.w.nextSeq, path := .ld, tag := k.tag, acq := true, rel := false, done := false, pc := k.f.pc,
                              hash := k.w.hash, op := .load [[{ lane := 64, loc := s.placeOf tier pa, va := va, n := n,
                                                                dst := (List.range regs).map (d + ·), sx := false, uni := true }]]
                              second := k.second, mask := k.mask, promote := true
                              sys := if tier = 2 ∧ bitAt pa 51 = true then BitVec.allOnes 64 else 0 }] ∧
      w.nextSeq = k.w.nextSeq + 1 ∧
      w.held = k.w.held ++ (if k.second then (List.range regs).map fun i =>
        { dst := .s (d + i), val := none, level := k.w.stack.length, seq := k.w.nextSeq, idx := i } else []) ∧
      { w.rewound k with outs := k.w.outs, nextSeq := k.w.nextSeq, held := k.w.held, walkFaults := k.w.walkFaults,
                           walkLeaves := k.w.walkLeaves } = k.w
  )

/-- R80, R90 to R93, R105, R107, R111, R464: a store that issues sends one operation of the ST path that supplies each
byte with the value of the highest active lane that writes it, and the store hash takes every lane's address and data. R486: the
lanes whose address is a fabric address access at system scope. -/
def Obligations.StoresAreSent : Prop :=
  ∀ (s : State) (k : Slot) (d a bp wd : Nat) (x : MemExt) (ext : Bool) (place : Nat → Nat) (far : Nat → Bool), wd < 5 →
    let len := if ext then 8 else 4
    let x := if ext then x else { order := .plain, scope := .wave, sx := false, offset := 0 }
    let n := 2 ^ wd
    let regs := (n + 3) / 4
    let off := x.offset.toInt
    let base := (k.s (2 * bp)).toNat + 2 ^ 32 * (k.s (2 * bp + 1)).toNat
    let ga := fun (u : Nat) => BitVec.ofInt 64 (((base + u : Nat) : Int) + off)
    let sa := fun (l : Nat) => (BitVec.ofInt 32 ((((k.s (2 * bp)).toNat + (k.w.vget a l).toNat : Nat) : Int) + off)).setWidth 64
    let value := fun (word : Nat → Word) => ((List.range regs).map fun i => (word i).toNat * 2 ^ (32 * i)).sum % 2 ^ (8 * n)
    let byteAt := fun (lanes : List Nat) (loc : Nat → Loc) (v : Nat → Nat) (y : Loc) =>
      lanes.reverse.findSome? fun l => ((List.range n).find? fun i => (loc l).add i == y).map fun i => BitVec.ofNat 8 (v l / 2 ^ (8 * i))
    let rel := decide (x.order = .rel ∨ x.order = .ar)
    let sent := fun (r : Res) (lanes : List Nat) (sysIs : Nat → Bool) (va : Nat → DWord) (loc : Nat → Loc) (v : Nat → Nat) =>
      ∃ t w secs sys, r = .next t ∧ WaveOnly s t k.h w ∧ Advances k len w ∧
        w.outs = k.w.outs ++ [{ seq := k.w.nextSeq, path := .st, tag := k.tag, acq := false, rel := rel, done := false, pc := k.f.pc,
                                hash := k.w.hash, op := .store secs, second := k.second, mask := k.mask, scope := x.scope, sys := sys }] ∧
        (∀ l, l < 64 → sys.getLsbD l = sysIs l) ∧
        (∀ y, (secs.flatMap fun c => c.bytes).reverse.findSome? (fun e => if e.1 = y then some e.2 else none) = byteAt lanes loc v y) ∧
        w.nextSeq = k.w.nextSeq + 1 ∧ w.hash = lanes.foldl (fun h l => hashElem h (va l) (v l) n) k.w.hash ∧
        w.qops = (if k.det then k.w.qops ++ [.out k.w.nextSeq] else k.w.qops) ∧
        { w.rewound k with outs := k.w.outs, nextSeq := k.w.nextSeq, hash := k.w.hash, qops := k.w.qops,
                           walkFaults := k.w.walkFaults, walkLeaves := k.w.walkLeaves } = k.w
    let active := (List.range 64).filter k.on
    let lanes := fun l => value fun i => k.w.vget (d + i) l
    let translates := fun (l : Nat) (va : DWord) => va.toNat % n = 0 ∧ place l % n = 0 ∧
      ∃ tier pa, s.xlate k.w k.f.side k.core k.l.tenant va 1 = .ok tier pa ∧ Loc.mem (place l) = s.placeOf tier pa ∧
        far l = (tier == 2 && bitAt pa 51)
    Issues s k len → k.heldBack = false → (k.w.outs.filter fun o => o.counted && o.path == .st).length < 63 → k.mask ≠ 0 →
    (k.holds (a :: (List.range regs).map (d + ·)) →
      ((∀ l ∈ active, translates l (ga (k.w.vget a l).toNat)) →
        sent (exec (if ext then .stgX d a bp wd x else .stg d a bp wd) s) active (fun l => k.on l && far l) (fun l => ga (k.w.vget a l).toNat)
          (fun l => .mem (place l)) lanes) ∧
      ((∀ l ∈ active, (sa l).toNat % n = 0 ∧ place l % n = 0 ∧ s.scr k.ctx (sa l).toNat = .ok (place l)) →
        sent (exec (if ext then .stsX d a bp wd x else .sts d a bp wd) s) active (fun _ => false) sa (fun l => .scr (place l)) lanes)) ∧
    (translates 0 (ga (k.s a).toNat) →
      sent (exec (if ext then .stuX d a bp wd x else .stu d a bp wd) s) [0] (fun _ => far 0) (fun _ => ga (k.s a).toNat) (fun _ => .mem (place 0))
        (fun _ => value fun i => k.s (d + i)))

/-- R13, R42, R81 to R83, R86, R90, R367, R373, R374, R388, R451, R486: a returning sector writes its elements, extended as their
widths say, reads the wave's own earlier stores where they have not performed, else the latest write that has performed
for the wave, else the byte at its home (in a deterministic launch, as the last commit left it), and completes the load
when it is the last. A store that performs writes exactly the bytes it supplies, once everything it must follow has
performed: everyone who can read a byte sees it where the store's scope is as wide as the byte's level, else those who
share the scope's instance with the wave; a release takes every write that its wave sees to its own scope first; the
write goes on to wider scopes with no further instruction. That a store performs whole in one step is the model's
choice (log 19), as is when a write goes on (log 6). The part of a store that goes through fabric addresses performs at system
scope. When a PROMOTE reads, every write of its tenant's waves that has performed at a narrower scope performs at device scope,
the latest in the coherence order standing at home. R108: a path's counts fall in issue order: an operation is off the
counts exactly when it and every earlier operation of its path have completed. -/
def Obligations.DataReturnsAndStoresPerform : Prop :=
  (
  ∀ (s : State) (h seq idx : Nat) (w : Wave) (o : Out), Map.find s.waves h = some w → w.out seq = some o →
    let ordered := fun (p : Out) => p.seq < o.seq ∧ p.done = false ∧ tagOrdered p.tag o.tag = true
    let value := fun (e : Elem) => ((List.range e.n).map fun i => (s.view w o.seq o.tag (e.loc.add i)).toNat * 2 ^ (8 * i)).sum
    let word := fun (e : Elem) (i : Nat) =>
      if e.sx && decide (e.n < 4) && decide (2 ^ (8 * e.n - 1) ≤ value e) then BitVec.ofInt 32 ((value e : Int) - 2 ^ (8 * e.n))
      else BitVec.ofNat 32 (value e / 2 ^ (32 * i))
    (∀ chunks c, o.op = .load chunks → chunks[idx]? = some c → (∀ e ∈ c, e.uni = false ∧ 0 < e.n ∧ e.dst.length = (e.n + 3) / 4) →
      (c.flatMap fun e => e.dst).Nodup → (∀ e ∈ c, s.reaches (s.tenantOf h) e.loc = true) →
      (∀ e ∈ c, ∀ p ∈ w.outs, ordered p → p.touches e.loc e.n = true → ∃ secs, p.op = .store secs ∧ p.path = .st) →
      (s.detWave h = true → ∀ e ∈ c, w.tstDue o.seq e.loc e.n = false) →
      ∃ t t1 u, WaveOnly s t h u ∧ exec (.loadSectorReturn h seq idx) s = .next (if o.promote then t1 else t) ∧
        { t1 with mem := s.mem, scratch := s.scratch, codeLog := s.codeLog, codeCount := s.codeCount, regions := s.regions,
                  flight := s.flight } = t ∧
        (∀ g ∈ t1.flight, s.tenantOf g.wave ≠ s.tenantOf h) ∧
        (∀ x, (∀ f ∈ s.flight, ∀ e ∈ f.bytes, e.1 ≠ x) → t1.byte x = s.byte x) ∧
        (∀ x b before f after, s.flight = before ++ f :: after → s.tenantOf f.wave = s.tenantOf h →
          (f.bytes.reverse.find? fun e => e.1 == x).map (·.2) = some b → (∀ g ∈ after, ∀ e ∈ g.bytes, e.1 ≠ x) → t1.byte x = b) ∧
        (∀ e ∈ c, ∀ i, i < e.dst.length → Sparse.get 0 u.v (e.dst.getD i 0) = word e i) ∧
        (∀ x, (∀ e ∈ c, x ∉ e.dst) → Sparse.get 0 u.v x = Sparse.get 0 w.v x) ∧
        u.outs = (let os := w.outs.map fun p => if p.seq = seq then { p with op := .load (chunks.eraseIdx idx) } else p
          if chunks.length = 1 then retireOuts (os.map fun p => if p.seq = seq then { p with done := true } else p) [] else os) ∧
        { u with v := w.v, outs := w.outs } = w) ∧
    (∀ x, (∀ p ∈ w.outs, ordered p → p.supplies x = none) → w.ownByte o.seq x = none → s.view w o.seq o.tag x = s.homeByte w x) ∧
    (∀ x b before p after, w.outs = before ++ p :: after → ordered p → p.supplies x = some b →
      (∀ q ∈ after, ordered q → q.supplies x = none) → (∀ e, w.ownByte o.seq x = some e → e.1 ≤ p.seq) →
      s.view w o.seq o.tag x = b) ∧
    (∀ x e, (∀ p ∈ w.outs, ordered p → p.supplies x = some e.2 ∨ p.supplies x = none) → w.ownByte o.seq x = some e →
      s.view w o.seq o.tag x = e.2)
  ) ∧ (
  ∀ (s : State) (w : Wave) (x : Loc),
    (s.detSeen w = none → s.flight = [] → s.homeByte w x = s.byte x) ∧
    (∀ n key, s.detSeen w = some n → s.homeByte w (.mem key) = s.codeByte n key) ∧
    (∀ before f after b, s.detSeen w = none → s.flight = before ++ f :: after → f.seenBy w (s.coreFor w) = true →
      (f.bytes.reverse.find? fun e => e.1 == x).map (·.2) = some b →
      (∀ g ∈ after, g.seenBy w (s.coreFor w) = true → ∀ e ∈ g.bytes, e.1 ≠ x) → s.homeByte w x = b)
  ) ∧ (
  ∀ (s : State) (h seq : Nat) (w : Wave) (o : Out) (secs : List StSec), Map.find s.waves h = some w → w.out seq = some o →
    o.op = .store secs → s.detWave h = false →
    let ordered := fun (p : Out) => p.seq < o.seq ∧ p.done = false ∧ tagOrdered p.tag o.tag = true
    let widest := fun (x : Loc) => match x with
      | .mem _ => 4
      | .scr key => if key / 2 ^ 27 % 4 = 3 then 3 else 2
    let shares := fun (v : Wave) => match o.scope with
      | .wave => v.group = w.group ∧ v.idx = w.idx
      | .group => v.group = w.group
      | .cluster => s.coreFor v / 192 = s.coreFor w / 192
      | .die => s.coreFor v / 576 = s.coreFor w / 576
      | _ => True
    let away := fun (c : StSec) => decide (c.lanes &&& o.sys ≠ 0)
    let scopeOf := fun (x : Loc) => if secs.any (fun c => away c && c.bytes.any fun e => e.1 == x) then 5 else o.scope.code
    (∀ c ∈ secs, ∀ d ∈ secs, ∀ e ∈ c.bytes, ∀ f ∈ d.bytes, e.1 = f.1 → away c = away d) →
    (o.rel = true → ∀ p ∈ w.outs, ordered p → p.path ≠ .ld ∧ p.path ≠ .st ∧ ∀ load cl rid va locs, p.op ≠ .fit load cl rid va locs) →
    (∀ c ∈ secs, ∀ e ∈ c.bytes, s.reaches (s.tenantOf h) e.1 = true ∧ ∀ p ∈ w.outs, ordered p → p.touches e.1 1 = false) →
    ∃ t u, exec (.storePerformed h seq) s = .next t ∧ Map.find t.waves h = some u ∧
      (∀ g, g ≠ h → Map.find t.waves g = Map.find s.waves g) ∧
      u.outs = retireOuts (w.outs.map fun p => if p.seq = seq then { p with done := true } else p) [] ∧ { u with outs := w.outs } = w ∧
      { t with waves := s.waves, mem := s.mem, scratch := s.scratch, codeLog := s.codeLog, codeCount := s.codeCount,
               regions := s.regions, flight := s.flight } = s ∧
      (s.flight = [] → ∀ x,
        t.byte x = (if widest x ≤ scopeOf x then (o.supplies x).getD (s.byte x) else s.byte x) ∧
        ∀ v, (shares v → t.inFlight v x = if scopeOf x < widest x then o.supplies x else none) ∧
          (¬ shares v → t.inFlight v x = none)) ∧
      (o.rel = true → ∀ g ∈ t.flight, o.scope.code ≤ g.scope ∨
        ∃ f ∈ s.flight, f.seenBy w (s.coreFor w) = false ∧ f.scope = g.scope ∧ f.wave = g.wave ∧ f.seq = g.seq)
  ) ∧ (
  ∀ (s : State) (f : Flight), (∀ w, Map.find s.waves f.wave = some w → w.out f.seq = none) → s.flight = [f] →
    ∃ t, exec (.storePerformed f.wave f.seq) s = .next t ∧
      (∀ x, t.byte x = if x.widest ≤ f.scope + 1 then ((f.bytes.reverse.find? fun e => e.1 == x).map (·.2)).getD (s.byte x) else s.byte x) ∧
      (∀ g ∈ t.flight, g = { f with scope := f.scope + 1, bytes := f.bytes.filter fun e => decide (f.scope + 1 < e.1.widest) }) ∧
      ((∃ e ∈ f.bytes, f.scope + 1 < e.1.widest) → t.flight ≠ [])
  ) ∧ (
  ∀ (os : List Out),
    retireOuts os [] = (List.range os.length).filterMap fun i =>
      (os[i]?).bind fun o => if o.done && (os.take i).all fun p => p.done || p.path != o.path then none else some o
  )

/-- R85, R86, R99, R360: an access whose address is not a multiple of its width raises Alignment for the failing
lanes; a scratchpad address that names nothing raises Scratch Address Fault; where translation faults, the other lanes
perform and Page Fault is raised with the lanes that have not, which execute again. That the mask of a scratchpad access's
Alignment record holds the misaligned lanes alone, whatever R94 to R98 make of the others, is the model's choice (log 69). -/
def Obligations.FaultingAccesses : Prop :=
  ∀ (s : State) (k : Slot) (d a bp wd : Nat), wd < 5 →
    let n := 2 ^ wd
    let regs := (n + 3) / 4
    let ga := fun (l : Nat) => BitVec.ofNat 64 ((k.s (2 * bp)).toNat + 2 ^ 32 * (k.s (2 * bp + 1)).toNat + (k.w.vget a l).toNat)
    let sa := fun (l : Nat) => (k.s (2 * bp) + k.w.vget a l).setWidth 64
    let mask := fun (f : Nat → Prop) (m : Mask) => ∀ l, l < 64 → (m.getLsbD l = true ↔ k.on l = true ∧ f l)
    let lowest := fun (m : Mask) (l : Nat) => l < 64 ∧ m.getLsbD l = true ∧ ∀ j, j < l → m.getLsbD j = false
    let count := fun (p : Path) => (k.w.outs.filter fun o => o.counted && o.path == p).length
    Issues s k 4 → k.heldBack = false → count .ld < 63 → count .st < 63 → k.holds (a :: (List.range regs).map (d + ·)) →
    (∀ m l, mask (fun l => (ga l).toNat % n ≠ 0) m → lowest m l →
      Traps s k { k.trap 0x06 0 with addr := ga l, lmask := m } (exec (.ldg d a bp wd) s) ∧
      Traps s k { k.trap 0x06 0 with access := 1, addr := ga l, lmask := m } (exec (.stg d a bp wd) s)) ∧
    (∀ m l, mask (fun l => (sa l).toNat % n ≠ 0) m → lowest m l →
      Traps s k { k.trap 0x06 0 with addr := sa l, lmask := m } (exec (.lds d a bp wd) s) ∧
      Traps s k { k.trap 0x06 0 with access := 1, addr := sa l, lmask := m } (exec (.sts d a bp wd) s)) ∧
    (∀ m l r, (∀ l, l < 64 → k.on l = true → (sa l).toNat % n = 0) → mask (fun l => ∃ r, s.scr k.ctx (sa l).toNat = .error r) m →
      lowest m l → s.scr k.ctx (sa l).toNat = .error r →
      Traps s k { k.trap 0x05 r with addr := sa l, lmask := m } (exec (.lds d a bp wd) s) ∧
      Traps s k { k.trap 0x05 r with access := 1, addr := sa l, lmask := m } (exec (.sts d a bp wd) s)) ∧
    (∀ (store : Bool) m f l r sz,
      let x := fun l => s.xlate k.w k.f.side k.core k.l.tenant (ga l) (if store then 1 else 0)
      k.w.stop = none → (∀ l, l < 64 → k.on l = true → (ga l).toNat % n = 0 ∧ x l ≠ .miss ∧ ∀ key, x l ≠ .error key) →
      mask (fun l => ∃ r sz, x l = .fault r sz) f → lowest f l → x l = .fault r sz →
      mask (fun j => (∃ r sz, x j = .fault r sz) ∧ (ga j).toNat / 2 ^ sz = (ga l).toNat / 2 ^ sz) m →
      ∃ t w, exec (if store then .stg d a bp wd else .ldg d a bp wd) s = .next t ∧ WaveOnly (s.detach k.h) t k.h w ∧
        w.stop = some { side := k.f.side, trap :=
          { k.trap 0x04 r with access := if store then 1 else 0, addr := ga l, lmask := m, rmask := f } } ∧
        w.frag k.second = some { k.f with again := some f } ∧ w.frag (!k.second) = k.w.frag (!k.second) ∧
        (if f = k.mask then w.outs = k.w.outs else ∃ o, w.outs = k.w.outs ++ [o] ∧ o.path = (if store then .st else .ld)))

/-- R349 to R355, R363: an atomic that issues sends one operation: merged by address outside deterministic mode, one
entry a lane in it, with the operands read at issue; R486: the lanes whose address is a fabric address act at system scope. -/
def Obligations.AtomicsAreSent : Prop :=
  ∀ (s : State) (k : Slot) (d a bp : Nat) (x : AtomExt) (place : Nat → Loc) (far : Nat → Bool),
    let n := if x.wide then 8 else 4
    let regs := if x.wide then 2 else 1
    let run := (if x.op = .cas then 2 else 1) * regs
    let ga := fun (u : Word) => BitVec.ofNat 64 ((k.s (2 * bp)).toNat + 2 ^ 32 * (k.s (2 * bp + 1)).toNat + u.toNat)
    let operand := fun (word : Nat → Word) (i : Nat) => if (i + 1) * regs ≤ run ∨ !x.wide then
        BitVec.ofNat 64 (((List.range regs).map fun j => if i * regs + j < run then (word (i * regs + j)).toNat * 2 ^ (32 * j) else 0).sum)
      else 0
    let det := x.det || k.det
    let acq := decide (x.order = .acq ∨ x.order = .ar)
    let rel := decide (x.order = .rel ∨ x.order = .ar)
    let count := fun (p : Path) => (k.w.outs.filter fun o => o.counted && o.path == p).length
    let translates := fun (l : Nat) (va : DWord) => va.toNat % n = 0 ∧
      ∃ tier pa, s.xlate k.w k.f.side k.core k.l.tenant va 3 = .ok tier pa ∧ place l = s.placeOf tier pa ∧
        far l = (tier == 2 && bitAt pa 51)
    let sent := fun (r : Res) (uni ret : Bool) (held : List Held) (is : List AReq → Prop) =>
      ∃ t w reqs sys, r = .next t ∧ WaveOnly s t k.h w ∧ Advances k 8 w ∧
        w.outs = k.w.outs ++ [{ seq := k.w.nextSeq, path := if ret then .ld else .st, tag := k.tag, acq := acq, rel := rel, done := false,
                                pc := k.f.pc, hash := k.w.hash, op := .atomic x.op x.wide det uni ret reqs, second := k.second, mask := k.mask
                                scope := x.scope, sys := sys }] ∧
        (∀ l, l < 64 → sys.getLsbD l = if uni then far 0 else k.on l && far l) ∧ is reqs ∧
        w.nextSeq = k.w.nextSeq + 1 ∧ w.held = k.w.held ++ held ∧ w.qops = (if k.det then k.w.qops ++ [.out k.w.nextSeq] else k.w.qops) ∧
        { w.rewound k with outs := k.w.outs, nextSeq := k.w.nextSeq, held := k.w.held, walkFaults := k.w.walkFaults,
                           walkLeaves := k.w.walkLeaves, qops := k.w.qops, gateWait := k.w.gateWait } = k.w
    let part := fun (ret : Bool) (l : Nat) => (l, operand (fun i => k.w.vget (d + i) l) 0, operand (fun i => k.w.vget (d + i) l) 1,
      if ret then (List.range regs).map fun i => k.w.vkey (d + i) + l else [])
    let active := (List.range 64).filter k.on
    let lanes := fun (ret : Bool) (reqs : List AReq) =>
      if det then reqs = active.map fun l => { loc := place l, va := ga (k.w.vget a l), parts := [part ret l], res := none }
      else (reqs.map fun r => r.va).Nodup ∧ (∀ l ∈ active, ∃ r ∈ reqs, r.va = ga (k.w.vget a l)) ∧
        ∀ r ∈ reqs, ∃ l ∈ active, r.va = ga (k.w.vget a l) ∧
          r = { loc := place l, va := r.va, parts := (active.filter fun j => ga (k.w.vget a j) == r.va).map (part ret), res := none }
    Issues s k 8 → k.heldBack = false →
    (k.mask ≠ 0 → k.holds (a :: (List.range run).map (d + ·)) → (∀ l ∈ active, translates l (ga (k.w.vget a l))) →
      (count .ld < 63 → sent (exec (.atom d a bp x) s) false true [] (lanes true)) ∧
      (count .st < 63 → sent (exec (.mred d a bp x) s) false false [] (lanes false))) ∧
    (translates 0 (ga (k.s a)) → count .ld < 63 → k.room regs = true →
      sent (exec (.atomu d a bp x) s) true true
        (if k.second then (List.range regs).map fun i =>
          { dst := .s (d + i), val := none, level := k.w.stack.length, seq := k.w.nextSeq, idx := i } else [])
        (fun reqs => reqs = [{ loc := place 0, va := ga (k.s a), res := none, parts := [(0, operand (fun i => k.s (d + i)) 0,
          operand (fun i => k.s (d + i)) 1, (List.range regs).map (d + ·))] }]))

/-- R350, R351, R353: what one step makes of an element for each operation, and what a group of lanes returns and
leaves. R350, R354 to R358, R363, R373, R374, R486, R490: a request that reaches memory makes one step on its element, which
has the latest value that its wave sees there, and nothing else; where it releases, every write that its wave sees has performed
at its scope, or at system scope for a fabric address, first;
a deterministic one joins its home unit's window of the present 64 cycles, or opens it, and waits where that has closed
already; a settled request's old values reach their registers, and the last of them completes the atomic. R356 to R358,
R490: an entry is admitted to its element's row below 16 entries, to a new row below 64 rows, and refused otherwise; a
64-cycle window whose last cycle has come applies the entries of each row in ascending (WAVEID, lane, issue order),
element by element, and its refused entries open the next window in that order. Which home unit a place of another module has is
the model's choice (log 79). -/
def Obligations.AtomicsPerform : Prop :=
  (
  ∀ (wide : Bool) (m x y : Nat) (xs : List (Nat × Nat)) (op : AtomOp),
    let b := if wide then 64 else 32
    let int := fun (v : Nat) => if v < 2 ^ (b - 1) then (v : Int) else (v : Int) - 2 ^ b
    let is := fun (op : AtomOp) (r : Nat) => atomStep op b m x y = r
    let rne : Mode := ⟨0, false⟩
    (m < 2 ^ b → x < 2 ^ b →
      is .add ((m + x) % 2 ^ b) ∧ is .min (if int x < int m then x else m) ∧ is .max (if int m < int x then x else m) ∧
      is .umin (min m x) ∧ is .umax (max m x) ∧ is .and (m &&& x) ∧ is .or (m ||| x) ∧ is .xor (m ^^^ x) ∧ is .xchg x ∧
      is .cas (if m = x then y else m) ∧ is .fadd (fmtF32.add rne m x).1 ∧ is .fmin (fmtF32.minMax rne false m x).1 ∧
      is .fmax (fmtF32.minMax rne true m x).1) ∧
    (op ≠ .fadd →
      (groupStep op b m xs).2 = xs.foldl (fun v e => atomStep op b v e.1 e.2) m ∧
      ∀ i, i < xs.length → (groupStep op b m xs).1[i]? = some ((xs.take i).foldl (fun v e => atomStep op b v e.1 e.2) m)) ∧
    (let add := fun (u v : Nat) => (fmtF32.add rne u v).1
      ∀ e r, xs = e :: r →
        let fold := fun (n : Nat) => (r.take n).foldl (fun c f => add c f.1) e.1
        (groupStep .fadd b m xs).2 = add m (fold r.length) ∧ (groupStep .fadd b m xs).1[0]? = some m ∧
        ∀ i, i < r.length → (groupStep .fadd b m xs).1[i + 1]? = some (add m (fold i)))
  ) ∧ (
  ∀ (s : State) (h seq idx l : Nat) (x : Launch) (w : Wave) (o : Out) (op : AtomOp) (wide det uni ret : Bool) (reqs : List AReq)
    (r : AReq), Map.find s.waves h = some w → w.out seq = some o → s.launchOf h = some (l, x) →
    o.op = .atomic op wide det uni ret reqs →
    let n := if wide then 8 else 4
    let m := ((List.range n).map fun i => ((s.inFlight w (r.loc.add i)).getD (s.byte (r.loc.add i))).toNat * 2 ^ (8 * i)).sum
    let scope := if ∃ p ∈ r.parts, p.1 < 64 ∧ o.sys.getLsbD p.1 = true then 5 else o.scope.code
    let g := groupStep op (8 * n) m (r.parts.map fun p => (p.2.1.toNat, p.2.2.1.toNat))
    let ordered := fun (p : Out) => p ∈ w.outs ∧ p.seq < o.seq ∧ p.done = false ∧ tagOrdered p.tag o.tag = true
    let ready := r.res = none ∧ r.failed = false ∧ r.bad = none ∧ r.admitted = false ∧ x.block.det = false ∧ x.replaying = false ∧
      s.reaches x.tenant r.loc = true ∧ (∀ p, ordered p → p.touches r.loc n = false) ∧
      (o.rel = true → ∀ p, ordered p → p.path ≠ .ld ∧ p.path ≠ .st ∧ ∀ load cl rid va locs, p.op ≠ .fit load cl rid va locs)
    let reqs' := reqs.set idx { r with res := some (g.1.map (BitVec.ofNat 64)), gated := true }
    let set := w.outs.map fun p => if p.seq = seq then { p with op := .atomic op wide det uni ret reqs' } else p
    (reqs[idx]? = some r → ready → det = false → x.recording = false →
      ∃ t u, exec (.atomicRequest h seq idx) s = .next t ∧ Map.find t.waves h = some u ∧
        (∀ g, g ≠ h → Map.find t.waves g = Map.find s.waves g) ∧
        (o.rel = true → ∀ f ∈ t.flight, scope ≤ f.scope ∨
          ∃ f' ∈ s.flight, f'.seenBy w (s.coreFor w) = false ∧ f'.scope = f.scope ∧ f'.wave = f.wave ∧ f'.seq = f.seq) ∧
        (o.rel = false ∨ s.flight = [] →
          (∀ i, i < n → t.byte (r.loc.add i) = BitVec.ofNat 8 (g.2 / 2 ^ (8 * i))) ∧
          (∀ y, (∀ i, i < n → y ≠ r.loc.add i) → t.byte y = s.byte y)) ∧
        u.outs = (if ret = false ∧ (∀ q ∈ reqs', q.res.isSome = true ∨ q.failed = true) then
          retireOuts (set.map fun p => if p.seq = seq then { p with done := true } else p) [] else set) ∧
        { u with outs := w.outs } = w ∧
        { t with waves := s.waves, mem := s.mem, scratch := s.scratch, codeLog := s.codeLog, codeCount := s.codeCount,
                 regions := s.regions, flight := s.flight } = s) ∧
    let key := s.homeUnit r.loc
    let e : CEntry := { waveid := w.waveid.toNat, lane := ((r.parts[0]?).map fun p => p.1).getD 0, order := o.seq,
                        wave := h, seq := o.seq, idx := idx }
    let v := (Map.find s.windows key).getD { unit := key, launch := none, n := s.cycle / 64, rows := [], refused := [] }
    (reqs[idx]? = some r → ready → det = true →
      (v.n ≠ s.cycle / 64 → Waits s (exec (.atomicRequest h seq idx) s)) ∧
      (v.n = s.cycle / 64 →
        ∃ t u, exec (.atomicRequest h seq idx) s = .next t ∧ Map.find t.waves h = some u ∧ { u with outs := w.outs } = w ∧
          u.outs = w.outs.map (fun p => if p.seq = seq then
            { p with op := .atomic op wide det uni ret (reqs.set idx { r with admitted := true }) } else p) ∧
          (∀ g, g ≠ h → Map.find t.waves g = Map.find s.waves g) ∧
          { t with waves := s.waves, windows := s.windows } = s ∧
          (∀ c, Map.find t.windows c = if c = key then some (v.present (r.loc.elem wide) e) else Map.find s.windows c))) ∧
    (let back := reqs.set idx { r with back := true }
      let outs := (let os := w.outs.map fun p => if p.seq = seq then { p with op := .atomic op wide det uni ret back } else p
        if ∀ q ∈ back, q.back = true then retireOuts (os.map fun p => if p.seq = seq then { p with done := true } else p) [] else os)
      let word := fun (vs : List DWord) (i j : Nat) => BitVec.ofNat 32 ((vs.getD i 0).toNat / 2 ^ (32 * j))
      reqs[idx]? = some r → (r.res.isSome = true ∨ r.failed = true) → r.back = false → ret = true →
      (r.parts.flatMap fun p => p.2.2.2).Nodup → (∀ p ∈ r.parts, p.2.2.2.length = (if wide then 2 else 1)) →
      (∀ vs, r.res = some vs → vs.length = r.parts.length) → (uni = true → ∀ q ∈ w.held, q.seq ≠ seq) →
      ∃ t u, exec (.atomicResultReturn h ⟨seq, idx⟩) s = .next t ∧ WaveOnly s t h u ∧ u.outs = outs ∧
        (uni = false →
          (∀ vs, r.res = some vs → ∀ i p, r.parts[i]? = some p → ∀ j, j < p.2.2.2.length →
            Sparse.get 0 u.v (p.2.2.2.getD j 0) = word vs i j) ∧
          (∀ y, (r.res.isSome = true → ∀ p ∈ r.parts, y ∉ p.2.2.2) → Sparse.get 0 u.v y = Sparse.get 0 w.v y) ∧
          { u with v := w.v, outs := w.outs } = w) ∧
        (uni = true →
          (∀ vs, r.res = some vs → ∀ i p, r.parts[i]? = some p → ∀ j, j < p.2.2.2.length →
            Sparse.get 0 u.s (p.2.2.2.getD j 0) = word vs i j) ∧
          (∀ y, (r.res.isSome = true → ∀ p ∈ r.parts, y ∉ p.2.2.2) → Sparse.get 0 u.s y = Sparse.get 0 w.s y) ∧
          { u with s := w.s, outs := w.outs } = w))
  ) ∧ (
  ∀ (v : Window) (elem : Nat) (e : CEntry),
    let joins := ∃ es, Map.find v.rows elem = some es ∧ es.length < 16
    let opens := Map.find v.rows elem = none ∧ v.rows.length < 64
    (∀ q, q ≠ elem → Map.find (v.present elem e).rows q = Map.find v.rows q) ∧
    (joins ∨ opens → Map.find (v.present elem e).rows elem = some ((Map.find v.rows elem).getD [] ++ [e]) ∧
      (v.present elem e).refused = v.refused) ∧
    (¬ joins → ¬ opens → v.present elem e = { v with refused := v.refused ++ [e] }) ∧
    { v.present elem e with rows := v.rows, refused := v.refused } = v
  ) ∧ (
  ∀ (s : State) (cluster : Nat) (v : Window) (es : List CEntry),
    let before := fun (x y : CEntry) => x.waveid < y.waveid ∨ (x.waveid = y.waveid ∧ (x.lane < y.lane ∨ (x.lane = y.lane ∧ x.order ≤ y.order)))
    (List.Perm (sortEntries es) es ∧ (sortEntries es).Pairwise before) ∧
    (cluster < homeUnits → Map.find s.windows cluster = some v → 64 * v.n + 63 ≤ s.cycle → v.launch = none →
      let t := (v.rows.flatMap fun row => sortEntries row.2).foldl (fun s e => s.performReq e.wave e.seq e.idx) s
      let next := (sortEntries v.refused).foldl (fun (x : Window) e => x.present (s.entryElem e) e)
        { unit := v.unit, launch := none, n := v.n + 1, rows := [], refused := [] }
      exec (.collectionWindowClose cluster) s = .next { t with windows := Map.put t.windows cluster next }) ∧
    (∀ e w o op wide det uni ret reqs r, Map.find s.waves e.wave = some w → w.out e.seq = some o →
      o.op = .atomic op wide det uni ret reqs → reqs[e.idx]? = some r → s.entryElem e = r.loc.elem wide) ∧
    (Map.find s.windows cluster = some v → s.cycle < 64 * v.n + 63 → Waits s (exec (.collectionWindowClose cluster) s))
  )

/-- R106, R108, R114 to R116: TMOV checks its rectangles and sends one move on the CP path; a part that is no multiple of 4
raises Alignment, a rectangle that leaves its allocation Scratch Address Fault with that rectangle's reason, and an overlap,
or rows that overlap in the destination, reason 4, for which the record's address is the destination's by the model's choice
(log 53); a move copies every row and completes, once every earlier access and engine command of its slot has. R106: a source
word that cannot be read is written to none of the rows that share it, and each such word is reported once. -/
def Obligations.RectangleMoves : Prop :=
  ∀ (s : State) (k : Slot) (d a b : Nat),
    let dst := (k.s d).toNat
    let src := (k.s a).toNat
    let rb := (k.s b).toNat % 2 ^ 16
    let n := (k.s b).toNat / 2 ^ 16
    let sp := (k.s (b + 1)).toNat % 2 ^ 16
    let dp := (k.s (b + 1)).toNat / 2 ^ 16
    let apart := fun (d s n rb sp dp : Nat) => ∀ i j, i < n → j < n → d + i * dp + rb ≤ s + j * sp ∨ s + j * sp + rb ≤ d + i * dp
    (Issues s k 4 → k.heldBack = false →
      (rb = 0 ∨ n = 0 → Passes s k 4 (exec (.tmov d a b) s)) ∧
      (0 < rb → 0 < n → (k.w.outs.filter fun o => o.counted && o.path == .cp).length < 63 →
        let fails := fun (cause reason addr : Nat) =>
          Traps s k { k.trap cause reason with access := 4, addr := BitVec.ofNat 64 addr, lmask := k.mask } (exec (.tmov d a b) s)
        let whole := dst % 4 = 0 ∧ src % 4 = 0 ∧ rb % 4 = 0 ∧ sp % 4 = 0 ∧ dp % 4 = 0
        let source := s.scrRange k.ctx src ((n - 1) * sp + rb)
        let target := s.scrRange k.ctx dst ((n - 1) * dp + rb)
        (¬ whole → fails 0x06 0 (if src % 4 = 0 ∧ dst % 4 ≠ 0 then dst else src)) ∧
        (∀ r, whole → source = .error r → fails 0x05 r src) ∧
        (∀ sk r, whole → source = .ok sk → target = .error r → fails 0x05 r dst) ∧
        (∀ sk dk, whole → source = .ok sk → target = .ok dk → ((1 < n ∧ dp < rb) ∨ ¬ apart dk sk n rb sp dp) →
          fails 0x05 4 dst)) ∧
      (∀ dk sk, 0 < rb → 0 < n → (k.w.outs.filter fun o => o.counted && o.path == .cp).length < 63 →
        dst % 4 = 0 → src % 4 = 0 → rb % 4 = 0 → sp % 4 = 0 → dp % 4 = 0 →
        s.scrRange k.ctx src ((n - 1) * sp + rb) = .ok sk → s.scrRange k.ctx dst ((n - 1) * dp + rb) = .ok dk →
        (n = 1 ∨ rb ≤ dp) → apart dk sk n rb sp dp →
        ∃ t w, exec (.tmov d a b) s = .next t ∧ WaveOnly s t k.h w ∧ Advances k 4 w ∧
          w.outs = k.w.outs ++ [{ seq := k.w.nextSeq, path := .cp, tag := k.tag, acq := false, rel := false, done := false, pc := k.f.pc,
                                  hash := k.w.hash, op := .tmov dk sk n rb sp dp src k.mask, second := k.second, mask := k.mask }] ∧
          w.qops = (if k.det then k.w.qops ++ [.out k.w.nextSeq] else k.w.qops) ∧
          { w.rewound k with outs := k.w.outs, nextSeq := k.w.nextSeq, qops := k.w.qops } = k.w)) ∧
    (∀ h seq w o dk sk n rb sp dp ad m, Map.find s.waves h = some w → w.out seq = some o → o.op = .tmov dk sk n rb sp dp ad m →
      s.detWave h = false → w.beforeTmov o.seq o.tag = false → rb % 4 = 0 → 0 < rb → (n = 1 ∨ rb ≤ dp) → apart dk sk n rb sp dp →
      ∃ (t : State) (u : Wave) (xs : List Nat), exec (.tmovCompletion h seq) s =
          .next (xs.foldl (fun s x => s.imprecise h (o.errorTrap 0x20 (BitVec.ofNat 64 (ad + x)) (.scr 0) m)) t) ∧
        xs.Nodup ∧ (∀ x, x ∈ xs ↔ ∃ e ∈ o.bad, x = e.2 / (rb / 4) * sp + 4 * (e.2 % (rb / 4))) ∧
        Map.find t.waves h = some u ∧
        (∀ i j, i < n → j < rb → t.byte (.scr (dk + i * dp + j)) =
          if i * sp + j / 4 * 4 ∈ xs then s.byte (.scr (dk + i * dp + j)) else s.byte (.scr (sk + i * sp + j))) ∧
        (∀ x, (∀ i j, i < n → j < rb → x ≠ .scr (dk + i * dp + j)) → t.byte x = s.byte x) ∧
        (∀ g, g ≠ h → Map.find t.waves g = Map.find s.waves g) ∧
        u.outs = retireOuts (w.outs.map fun p => if p.seq = seq then { p with done := true } else p) [] ∧ { u with outs := w.outs } = w ∧
        { t with waves := s.waves, scratch := s.scratch } = s)

/-- R72 to R76: the oldest waiting miss of a die gets a walker while fewer than 512 walk; a completed walk, where any
access it serves may use its leaf, sets A in the leaf's entry, and D where one of those writes, gives the leaf to each such
access and to the caches on its path, and tells the others of the fault, that of a table entry that cannot be read among
them (log 13); the waiting writes of a recorder go on with what its walk found; an access that takes the leaf of a walk over whose
range an invalidation has begun is one that the invalidation waits for, whenever it attached; an invalidation completes once the accesses and walks it waits for are gone, and leaves nothing cached over
the ranges of what it dropped. R64 to R68: what one page-table entry gives at its level, in the order of R68, a contiguous
group of R65 among them, which a reserved bit in a sibling breaks too by the model's choice (log 65). -/
def Obligations.PageTables : Prop :=
  (
  ∀ (s : State) (die idx : Nat),
    let ws := (Map.find s.walks die).getD []
    (∀ before x after, ws = before ++ x :: after → (∀ y ∈ before, y.result.isSome = true) → x.result = none →
      (ws.filter fun y => y.result.isSome).length < 512 →
      ∃ t r, exec (.pageWalk die) s = .next t ∧
        Map.find t.walks die = some (before ++ { x with result := some r } :: after) ∧
        r = (s.walkPage die x.tenant x.page).2 ∧
        { t with walks := s.walks, mem := s.mem, codeLog := s.codeLog, codeCount := s.codeCount, regions := s.regions,
                 wcache := s.wcache, hostBad := s.hostBad } = s) ∧
    (512 ≤ (ws.filter fun y => y.result.isSome).length → Waits s (exec (.pageWalk die) s)) ∧
    (∀ x, (ws.filter fun y => y.result.isSome)[idx]? = some x → (∀ a ∈ x.waiters, a.log = none) →
      ∃ t, exec (.walkCompletion die idx) s = .next t ∧
        Map.find t.walks die = some (ws.filter fun y => !(y.tenant == x.tenant && y.page == x.page && y.result.isSome)) ∧
        (∀ a ∈ x.waiters,
          let told := fun (reason size : Nat) => match a.unit with
            | none => ∀ w, Map.find s.waves a.wave = some w →
                ∃ u, Map.find t.waves a.wave = some u ∧ ⟨a.side, x.page, reason, size, a.need⟩ ∈ u.walkFaults
            | some (out, _) => ∃ u ∈ t.xunits, u.wave = a.wave ∧ u.out = out ∧ ⟨a.side, x.page, reason, size, a.need⟩ ∈ u.faults
          (∀ reason size, x.result = some (.fault reason size) → told reason size) ∧
          (∀ key, x.result = some (.error key) → told 6 key) ∧
          (∀ leaf entry, x.result = some (.leaf leaf entry) → leaf.permits a.need = false → told 1 leaf.size) ∧
          (∀ leaf entry, x.result = some (.leaf leaf entry) → leaf.permits a.need = true →
            let leaf := { leaf with d := leaf.d || x.waiters.any fun a => (a.need == 1 || a.need == 3) && leaf.permits a.need }
            (∀ core, a.unit = none → s.coreOf a.wave = some core →
              (a.need ≠ 2 → ∃ u, Map.find t.waves a.wave = some u ∧ (a.side, leaf) ∈ u.walkLeaves) ∧
              (x.stale = false → leaf ∈ (Map.find t.utlb core).getD [] ∧ leaf ∈ (Map.find t.ctlb (core / 192)).getD [])) ∧
            (∀ out cluster, a.unit = some (out, cluster) →
              (∃ u ∈ t.xunits, u.wave = a.wave ∧ u.out = out ∧ leaf ∈ u.leaves) ∧
              (x.stale = false → leaf ∈ (Map.find t.ctlb cluster).getD [])))) ∧
        (∀ leaf entry, x.result = some (.leaf leaf entry) → (∃ a ∈ x.waiters, leaf.permits a.need = true) →
          t.byte (.mem (entry + 1)) = s.byte (.mem (entry + 1)) |||
            (if ∃ a ∈ x.waiters, (a.need = 1 ∨ a.need = 3) ∧ leaf.permits a.need = true then 3 else 1)) ∧
        (∀ y, (∀ leaf entry a, x.result = some (.leaf leaf entry) → a ∈ x.waiters → leaf.permits a.need = true → y ≠ .mem (entry + 1)) →
          t.byte y = s.byte y) ∧
        (x.stale = false → t.invals = s.invals) ∧
        (∀ i v a, Map.find s.invals i = some v → v.tenant = x.tenant → (x.cluster / 3, x.page) ∈ v.walks → x.stale = true →
          a ∈ x.waiters → (∃ leaf entry, x.result = some (.leaf leaf entry) ∧ leaf.permits a.need = true) →
          ∃ v', Map.find t.invals i = some v' ∧ match a.unit with
            | some (out, _) => (a.wave, out) ∈ v'.units
            | none => (a.wave, ((Map.find s.waves a.wave).map (·.nextSeq)).getD 0) ∈ v'.slots) ∧
        { t with walks := s.walks, waves := s.waves, utlb := s.utlb, ctlb := s.ctlb, xunits := s.xunits, mem := s.mem,
                 codeLog := s.codeLog, codeCount := s.codeCount, regions := s.regions, invals := s.invals } = s) ∧
    (∀ x a l cluster r, (ws.filter fun y => y.result.isSome)[idx]? = some x → x.waiters = [a] → a.log = some (l, cluster) →
      x.result = some r →
      ∃ (t : State) (r' : WalkRes), exec (.walkCompletion die idx) s = .next (t.pump l (some r')) ∧
        (r' = match r with
          | .leaf leaf entry => if leaf.permits a.need then
              .leaf { leaf with d := leaf.d || (a.need == 1 || a.need == 3) } entry else .fault 1 leaf.size
          | _ => r) ∧
        (∀ leaf entry, r' = .leaf leaf entry →
          t.byte (.mem (entry + 1)) = s.byte (.mem (entry + 1)) ||| (if a.need = 1 ∨ a.need = 3 then 3 else 1) ∧
          (x.stale = false → leaf ∈ (Map.find t.ctlb cluster).getD [])) ∧
        (∀ y, (∀ leaf entry, r' = .leaf leaf entry → y ≠ .mem (entry + 1)) → t.byte y = s.byte y) ∧
        Map.find t.walks die = some (ws.filter fun y => !(y.tenant == x.tenant && y.page == x.page && y.result.isSome)) ∧
        { t with walks := s.walks, ctlb := s.ctlb, mem := s.mem, codeLog := s.codeLog, codeCount := s.codeCount,
                 regions := s.regions } = s) ∧
    (∀ v, Map.find s.invals idx = some v → v.cmd = none →
      (∀ e ∈ v.waits, ∀ w, Map.find s.waves e.1 = some w → w.out e.2 = none) →
      (∀ e ∈ v.walks, ∀ y ∈ (Map.find s.walks e.1).getD [], ¬ (y.tenant = v.tenant ∧ y.page = e.2 ∧ y.stale = true)) →
      let drops := fun (l : Tlb) => ∃ r ∈ v.ranges, l.page * 2 ^ l.size < r.2 ∧ r.1 < (l.page + 1) * 2 ^ l.size
      (∀ e ∈ v.slots, ∀ w, Map.find s.waves e.1 = some w → (∀ x ∈ w.walkLeaves, ¬ drops x.2) ∧
        ∀ o ∈ w.outs, e.2 ≤ o.seq → o.done = false → o.uses v.ranges = false) →
      (∀ e ∈ v.units, ∀ u ∈ s.xunits, ¬ (u.wave = e.1 ∧ u.out = e.2)) →
      ∃ t, exec (.translationInvalidationComplete idx) s = .next t ∧ Map.find t.invals idx = none ∧
        (∀ e ∈ t.utlb ++ t.ctlb, ∀ l ∈ e.2, l.tenant = v.tenant → ¬ drops l) ∧
        (v.ranges ≠ [] → ∀ e ∈ t.wcache, ∀ x ∈ e.2, x.tenant ≠ v.tenant) ∧
        t.syscs = s.syscs.map (fun e => if e.2.inval = some idx then (e.1, { e.2 with inval := none, status := some 0 }) else e) ∧
        { t with invals := s.invals, utlb := s.utlb, ctlb := s.ctlb, wcache := s.wcache, regions := s.regions, syscs := s.syscs } = s)
  ) ∧ (
  ∀ (tenant page e level : Nat) (grp : List Nat), level ≤ 4 → e < 2 ^ 64 →
    let bits := fun (hi lo : Nat) => e / 2 ^ lo % 2 ^ (hi + 1 - lo)
    let size := 48 - 9 * level
    let cap := if bits 7 6 = 0 then 768 * 10 ^ 9 else if bits 7 6 = 1 then 1536 * 10 ^ 9 else 2 ^ 52
    let pa := bits 51 12 * 4096
    let clean := bits 0 0 = 1 ∧ bits 63 52 = 0 ∧ bits 11 10 = 0
    let sound := bits 63 52 = 0 ∧ bits 11 10 = 0 ∧ bits 5 5 = 0 ∧ bits 7 6 ≠ 3
    let entry := fun (i : Nat) => grp.getD i 0
    let part := fun (i hi lo : Nat) => entry i / 2 ^ lo % 2 ^ (hi + 1 - lo)
    let whole := part 0 51 12 % 16 = 0 ∧ ∀ i, i < 16 → part i 63 52 = 0 ∧ part i 11 10 = 0 ∧ part i 0 0 = 1 ∧ part i 1 1 = 1 ∧
      part i 5 5 = 1 ∧ part i 7 6 = part 0 7 6 ∧ part i 4 2 = part 0 4 2 ∧ part i 51 12 = part 0 51 12 + i
    let leaf := fun (size pa : Nat) => if pa + page * 4096 % 2 ^ size < cap then
        Entry.leaf { tenant := tenant, page := page * 4096 / 2 ^ size, size := size, tier := bits 7 6, pa := pa, rd := bits 2 2 == 1,
                     w := bits 3 3 == 1, x := bits 4 4 == 1, d := bits 9 9 == 1 }
      else .fault 4 size
    (bits 0 0 = 0 → examine tenant page e level grp = .fault 0 size) ∧
    (bits 0 0 = 1 → (bits 63 52 ≠ 0 ∨ bits 11 10 ≠ 0) → bits 5 5 = 0 → examine tenant page e level grp = .fault 2 size) ∧
    (bits 0 0 = 1 → bits 1 1 = 1 → level < 2 → examine tenant page e level grp = .fault 2 size) ∧
    (bits 0 0 = 1 → bits 1 1 = 0 → level = 4 → examine tenant page e level grp = .fault 2 size) ∧
    (bits 0 0 = 1 → sound → bits 1 1 = 0 → bits 4 2 = 0 → level < 4 →
      examine tenant page e level grp = if pa < cap then .next (bits 7 6) pa else .fault 4 size) ∧
    (bits 0 0 = 1 → sound → bits 1 1 = 1 → 2 ≤ level → pa % 2 ^ size = 0 → examine tenant page e level grp = leaf size pa) ∧
    (bits 0 0 = 1 → (bits 5 5 = 1 ∧ level ≠ 4) ∨ (bits 1 1 = 0 ∧ bits 4 2 ≠ 0) ∨ (bits 1 1 = 1 ∧ 2 ≤ level ∧ level < 4 ∧ pa % 2 ^ size ≠ 0) →
      examine tenant page e level grp = .fault 2 size) ∧
    (clean → bits 5 5 = 0 → bits 7 6 = 3 → (bits 1 1 = 0 ∧ bits 4 2 = 0 ∧ level < 4) ∨ (bits 1 1 = 1 ∧ 2 ≤ level ∧ pa % 2 ^ size = 0) →
      examine tenant page e level grp = .fault 5 size) ∧
    (level = 4 → bits 0 0 = 1 → bits 1 1 = 1 → bits 5 5 = 1 → entry (page % 16) = e →
      (¬ whole → examine tenant page e level grp = .fault 2 16) ∧
      (whole → bits 7 6 = 3 → examine tenant page e level grp = .fault 5 size) ∧
      (whole → bits 7 6 ≠ 3 → examine tenant page e level grp = leaf 16 (part 0 51 12 * 4096)))
  )

/-- R88, R106, R361, R434, R435, R486, R487: an error at a load's sector, or at a word of a scratchpad load, takes the
lanes it serves off the load, and their elements stay; a store meets one only in a sector or word that it writes in part,
or beyond a host port or the fabric, and then its bytes are written for a memory error (on a host port so by the model's
choice, log 52) and lost for a fabric error; a TMOV meets one at a word of its source, and tells of it as it completes; the step of an atomic that meets one is not performed, and its count falls.
Each stops the wave with an imprecise record that names the sector and its lanes: for the slot that issued the access, or
for the first where that slot holds no fragment any more (log 51). That a scratchpad word is named by the address of the lane that
the load serves first is the model's choice (log 68). -/
def Obligations.AccessErrors : Prop :=
  ∀ (s : State) (h seq idx : Nat) (w : Wave) (o : Out) (f : Frag), Map.find s.waves h = some w → w.out seq = some o →
    let second := o.second && w.second.isSome
    w.stop = none → w.frag second = some f → seq ≠ w.nextSeq →
    let sector := fun (x : Loc) => match x with
      | .mem k => BitVec.ofNat 64 (k / 64 * 64 % 2 ^ 52)
      | .scr _ => (0 : DWord)
    let shown := fun (va : DWord) (x : Loc) => match x with
      | .mem _ => BitVec.ofNat 64 (va.toNat / 64 * 64)
      | .scr _ => va
    let cause := fun (x : Loc) => if x.onFabric then 0x21 else 0x20
    let fails := fun (x : Loc) => exec (if x.onFabric then .fabricError h seq idx else .memoryError h seq idx) s
    let stopped := fun (u : Wave) (va : DWord) (x : Loc) (m : Mask) =>
      u.stop = some { side := f.side, trap :=
        { cause := cause x, precise := false, second := second, pc := o.pc, addr := shown va x, paddr := sector x, lmask := m,
          rmask := f.again.getD f.mask } }
    let stops := fun (t : State) (u : Wave) (va : DWord) (x : Loc) (m : Mask) =>
      Map.find t.waves h = some u ∧ (∀ g, g ≠ h → Map.find t.waves g = Map.find s.waves g) ∧ stopped u va x m ∧
      { u with stop := w.stop, qstate := w.qstate, outs := w.outs, walkFaults := w.walkFaults, walkLeaves := w.walkLeaves } = w
    let lanes := fun (ls : List Nat) (m : Mask) => ∀ l, l < 64 → (m.getLsbD l = true ↔ l ∈ ls)
    let marked := fun (r : Res) (cause : Nat) => ∃ t u, r = .next t ∧ WaveOnly s t h u ∧ { u with outs := w.outs } = w ∧
      u.outs = w.outs.map fun p => if p.seq = seq then { p with bad := p.bad ++ [(cause, idx)] } else p
    let without := fun (op : Op) (last : Bool) => (let os := w.outs.map fun p => if p.seq = seq then { p with op := op } else p
      if last then retireOuts (os.map fun p => if p.seq = seq then { p with done := true } else p) [] else os)
    (∀ chunks i n c e, o.op = .load chunks → idx = i + 2 ^ 16 * n → i < 2 ^ 16 → chunks[i]? = some c → c.head? = some e →
      (match e.loc with
        | .mem _ => n = 0
        | .scr _ => n = 0 ∨ 4 * n < e.n) →
      let va := e.va + BitVec.ofNat 64 (4 * n)
      (∀ m, (∀ e ∈ c, e.uni = false) → lanes (c.map (·.lane)) m →
        ∃ t u, fails e.loc = .next t ∧ stops t u va e.loc m ∧ u.outs = without (.load (chunks.eraseIdx i)) (decide (chunks.length = 1)) ∧
          ∀ x, t.byte x = s.byte x) ∧
      (e.uni = true → ∃ t u, fails e.loc = .next t ∧ Map.find t.waves h = some u ∧ stopped u va e.loc o.mask ∧
        (∀ q ∈ u.held, q.seq = seq → q.val ≠ none) ∧ ∀ x, t.byte x = s.byte x)) ∧
    (∀ secs c x b r, o.op = .store secs → secs[idx]? = some c → c.bytes = (x, b) :: r →
      let partly := (c.bytes.map (·.1)).eraseDups.length < (match x with
        | .mem _ => 64
        | .scr _ => 4)
      let fallible := partly ∨ x.onHost = true ∨ x.onFabric = true
      (¬ fallible → Waits s (fails x)) ∧
      (fallible → s.detWave h = false → (o.rel = true → w.earlier o.seq o.tag = false) →
        (∀ c ∈ secs, ∀ e ∈ c.bytes, ∀ p ∈ w.outs, p.seq < o.seq → p.done = false → tagOrdered p.tag o.tag = true → p.touches e.1 1 = false) →
        ∃ t u, fails x = .next t ∧ stops t u c.va x c.lanes ∧ u.outs = without (.store (secs.eraseIdx idx)) (decide (secs.length = 1)) ∧
          (s.flight = [] → ∀ y,
            let put := if x.onFabric then none else (c.bytes.reverse.find? fun e => e.1 == y).map (·.2)
            t.byte y = (if y.widest ≤ (if c.lanes &&& o.sys ≠ 0 then 5 else o.scope.code) then put else none).getD (s.byte y) ∧
            (t.inFlight w y).getD (t.byte y) = put.getD (s.byte y))) ∧
      (fallible → s.detWave h = true → marked (fails x) (cause x))) ∧
    (∀ d a n rb sp dp va m, o.op = .tmov d a n rb sp dp va m → idx / (rb / 4) < n → marked (exec (.memoryError h seq idx) s) 0x20) ∧
    (∀ op wide det uni ret reqs r, o.op = .atomic op wide det uni ret reqs → reqs[idx]? = some r → r.res = none → r.failed = false →
      let with_ := fun (r : AReq) => w.outs.map fun p =>
        if p.seq = seq then { p with op := .atomic op wide det uni ret (reqs.set idx r) } else p
      (∃ t u, fails r.loc = .next t ∧ WaveOnly s t h u ∧ u.outs = with_ { r with bad := some (cause r.loc) } ∧ { u with outs := w.outs } = w) ∧
      (∀ l x m, r.bad = some (cause r.loc) → s.launchOf h = some (l, x) → x.block.det = false → x.replaying = false → r.admitted = false →
        det = false → uni = false → lanes (r.parts.map (·.1)) m → s.atomicReady w x.tenant o det wide r = true →
        ∃ t u, exec (.atomicRequest h seq idx) s = .next t ∧ stops t u r.va r.loc m ∧ (∀ y, t.byte y = s.byte y) ∧
          u.outs = (let os := with_ { r with failed := true, gated := true }
            if ret = false ∧ ∀ q ∈ reqs.set idx { r with failed := true, gated := true }, q.res.isSome = true ∨ q.failed = true then
              retireOuts (os.map fun p => if p.seq = seq then { p with done := true } else p) [] else os)))

/-! ## Queues, barriers, phases and engines -/

/-- R121, R131 to R134, R140, R142: QPSH and QTRY.PUSH on q0 and q2 send the eight words as an engine command, on CP
and into the cluster's intake, with its sequence number; QPOP and QTRY.POP on q1 and q3 take the oldest completion
record; QTRY never waits. -/
def Obligations.CommandsAndRecords : Prop :=
  ∀ (s : State) (k : Slot) (q a d kd : Nat), Issues s k 4 → k.heldBack = false → k.det = false →
    let cp := (k.w.outs.filter fun o => o.counted && o.path == .cp).length
    let gather := q == 2
    let key := k.g.core / 192 * 2 + (if gather then 1 else 0)
    let intake := (Map.find s.intakes key).getD []
    let sends := fun (i : Instr) (ws : List (HDst × Word)) =>
      ∃ t w, exec i s = .next t ∧ Map.find t.waves k.h = some w ∧ (∀ g, g ≠ k.h → Map.find t.waves g = Map.find s.waves g) ∧
        Advances k 4 w ∧ Uniform k w ws ∧
        w.outs = k.w.outs ++ [{ seq := k.w.nextSeq, path := .cp, tag := k.tag, acq := false, rel := false, done := false, pc := k.f.pc,
                                hash := k.w.hash, op := .engine, second := k.second, mask := k.mask }] ∧ w.nextSeq = k.w.nextSeq + 1 ∧
        w.seq0 = (if gather then k.w.seq0 else k.w.seq0 + 1) ∧ w.seq2 = (if gather then k.w.seq2 + 1 else k.w.seq2) ∧
        { w.rewound k with s := k.w.s, k := k.w.k, held := k.w.held, outs := k.w.outs, nextSeq := k.w.nextSeq, seq0 := k.w.seq0,
                           seq2 := k.w.seq2 } = k.w ∧
        Map.find t.intakes key = some (intake ++ [{
          wave := k.h, launch := k.g.launch, group := k.w.group, tenant := k.l.tenant, core := k.g.core, gather := gather,
          words := (List.range 8).map fun i => k.s (a + i), seqNo := if gather then k.w.seq2 else k.w.seq0, out := k.w.nextSeq,
          tag := k.tag }]) ∧ (∀ j, j ≠ key → Map.find t.intakes j = Map.find s.intakes j) ∧
        { t with waves := s.waves, waiters := s.waiters, intakes := s.intakes } = s
    let records := if q = 1 then k.w.q1 else k.w.q3
    let takes := fun (i : Instr) (rs : List (List Word)) (ws : List (HDst × Word)) =>
      ∃ t w, exec i s = .next t ∧ WaveOnly s t k.h w ∧ Advances k 4 w ∧ Uniform k w ws ∧
        w.q1 = (if q = 1 then rs else k.w.q1) ∧ w.q3 = (if q = 1 then k.w.q3 else rs) ∧
        { w.rewound k with s := k.w.s, k := k.w.k, held := k.w.held, q1 := k.w.q1, q3 := k.w.q3 } = k.w
    let words := fun (d : Nat) (r : List Word) => (List.range r.length).map fun i => (HDst.s (d + i), r.getD i 0)
    (q = 0 ∨ q = 2 →
      (cp < 63 → intake.length < 256 → sends (.qpsh q a) [] ∧ (k.room 1 = true → sends (.qtry .push kd a q) [(.k kd, 1)])) ∧
      (cp < 63 → 256 ≤ intake.length → (∀ x ∈ s.waiters, x.wave = k.h → x.side ≠ k.f.side) →
        exec (.qpsh q a) s = .next { s with waiters :=
          s.waiters ++ [⟨k.h, k.f.side, .push q [(List.range 8).map fun i => k.s (a + i)]⟩] }) ∧
      (63 ≤ cp ∨ 256 ≤ intake.length → k.room 1 = true → WritesUni s k 4 [(.k kd, 0)] (exec (.qtry .push kd a q) s)) ∧
      (63 ≤ cp → Waits s (exec (.qpsh q a) s)) ∧
      (k.room 3 = true → WritesUni s k 4 [(.s a, BitVec.ofNat 32 (63 - cp)), (.s (a + 1), 0), (.k kd, if 63 ≤ cp then 0 else 1)]
        (exec (.qtry .query kd a q) s))) ∧
    (q = 1 ∨ q = 3 →
      (∀ r rs, records = r :: rs →
        (k.room 8 = true → takes (.qpop d q) rs (words d r)) ∧
        (k.room 9 = true → takes (.qtry .pop kd a q) rs (words a r ++ [(.k kd, 1)]))) ∧
      (records = [] → k.room 1 = true → WritesUni s k 4 [(.k kd, 0)] (exec (.qtry .pop kd a q) s)) ∧
      (records = [] → k.room 8 = true → (∀ x ∈ s.waiters, x.wave = k.h → x.side ≠ k.f.side) →
        exec (.qpop d q) s = .next { s with waiters := s.waiters ++ [⟨k.h, k.f.side, .record q d⟩] }) ∧
      (k.room 3 = true → WritesUni s k 4 [(.s a, BitVec.ofNat 32 records.length), (.s (a + 1), 0), (.k kd, if records = [] then 0 else 1)]
        (exec (.qtry .query kd a q) s)))

/-- R135 to R138, R140 to R143: a bound queue is a ring in scratchpad: a push writes the item at TAIL and a pop reads
the one at HEAD, with HEAD and TAIL kept in the header; an empty or full queue makes QPSH and QPOP wait and QTRY
answer 0, as an earlier access that has not performed makes QTRY.PUSH do; a push is one event of KIND 1 for the drained phases
that count pushes into the queue (R150, R151); QBIND checks the header, a fill above CAP
breaking it by the model's choice (log 55), and binds; an instruction on an unbound register raises Illegal Instruction. -/
def Obligations.BoundQueues : Prop :=
  ∀ (s : State) (k : Slot) (q a kd : Nat), Issues s k 4 → k.heldBack = false → k.det = false → 8 ≤ q →
    (∀ key qu, s.boundQueue k q = some (key, qu) → a + qu.itemw ≤ 64 → 0 < qu.cap →
      s.queueWaiter key true = none → s.queueWaiter key false = none →
      let fill := (qu.tail - qu.head).toNat
      let al := ((Map.find k.w.binds q).map fun b => b.allowance).getD 0
      let slot := fun (i : Word) => key + 32 + 4 * qu.itemw * (i.toNat % qu.cap)
      let kept := fun (t : State) (qu' : Queue) => Map.find t.queues key = some qu' ∧
        (∀ j, j ≠ key → Map.find t.queues j = Map.find s.queues j) ∧
        t.word (.scr (key + 4)) = qu'.head ∧ t.word (.scr (key + 8)) = qu'.tail ∧
        (∀ g, g ≠ k.h → Map.find t.waves g = Map.find s.waves g) ∧
        { t with waves := s.waves, waiters := s.waiters, scratch := s.scratch, queues := s.queues, phases := s.phases } = s
      let header := fun (y : Loc) => ∃ i, i < 8 ∧ y = Loc.scr (key + 4 + i)
      let pushes := fun (i : Instr) (ws : List (HDst × Word)) =>
        ∃ t w, exec i s = .next t ∧ Map.find t.waves k.h = some w ∧ Advances k 4 w ∧ Uniform k w ws ∧
          kept t { qu with tail := qu.tail + 1 } ∧ (∀ j, Map.find t.phases j = (Map.find s.phases j).map fun p =>
            let es := p.entries.map fun e => if e.1 = 1 ∧ e.2.1 = key then (e.1, e.2.1, e.2.2 - 1) else e
            { p with entries := es, complete := p.complete || es.all fun e => e.2.2 == 0 }) ∧ (∀ i, i < qu.itemw → t.word (.scr (slot qu.tail + 4 * i)) = k.s (a + i)) ∧
          (∀ y, (∀ i, i < 4 * qu.itemw → y ≠ .scr (slot qu.tail + i)) → ¬ header y → t.byte y = s.byte y) ∧
          ((Map.find w.binds q).map fun b => b.allowance) = some ((if al = 0 then qu.cap - fill else al) - 1) ∧
          { w.rewound k with s := k.w.s, k := k.w.k, held := k.w.held, binds := k.w.binds } = k.w
      let item := (List.range qu.itemw).map fun i => (HDst.s (a + i), s.word (.scr (slot qu.head + 4 * i)))
      let pops := fun (i : Instr) (ws : List (HDst × Word)) =>
        ∃ t w, exec i s = .next t ∧ Map.find t.waves k.h = some w ∧ Advances k 4 w ∧ Uniform k w ws ∧
          kept t { qu with head := qu.head + 1 } ∧ t.phases = s.phases ∧ (∀ y, ¬ header y → t.byte y = s.byte y) ∧
          { w.rewound k with s := k.w.s, k := k.w.k, held := k.w.held } = k.w
      (k.busy = false → fill < qu.cap → pushes (.qpsh q a) [] ∧ (k.room 1 = true → pushes (.qtry .push kd a q) [(.k kd, 1)])) ∧
      (k.busy = true ∨ qu.cap ≤ fill → k.room 1 = true → WritesUni s k 4 [(.k kd, 0)] (exec (.qtry .push kd a q) s)) ∧
      (0 < fill → k.room (qu.itemw + 1) = true →
        pops (.qpop a q) item ∧ pops (.qtry .pop kd a q) (item ++ [(.k kd, 1)])) ∧
      (fill = 0 → k.room 1 = true → WritesUni s k 4 [(.k kd, 0)] (exec (.qtry .pop kd a q) s)) ∧
      (k.room 3 = true → WritesUni s k 4 [(.s a, BitVec.ofNat 32 fill), (.s (a + 1), BitVec.ofNat 32 al), (.k kd, if fill = 0 then 0 else 1)]
        (exec (.qtry .query kd a q) s)) ∧
      ((∀ x ∈ s.waiters, x.wave = k.h → x.side ≠ k.f.side) →
        (k.busy = false → qu.cap ≤ fill → exec (.qpsh q a) s = .next { s with waiters :=
          s.waiters ++ [⟨k.h, k.f.side, .push q [(List.range qu.itemw).map fun i => k.s (a + i)]⟩] }) ∧
        (fill = 0 → k.room qu.itemw = true →
          exec (.qpop a q) s = .next { s with waiters := s.waiters ++ [⟨k.h, k.f.side, .pop q a⟩] }))) ∧
    (k.w.boundTo q = none →
      (∀ i ∈ [Instr.qpsh q a, .qpop a q, .qtry .push kd a q, .qtry .pop kd a q, .qtry .query kd a q],
        ∃ t, Traps s k t (exec i s) ∧ t.cause = 0x01 ∧ t.reason = 0) ∧
      (∀ at_ key, at_ = (k.s a).toNat → at_ % 32 = 0 → s.scrRange k.ctx at_ 32 = .ok key → Map.find s.queues key = none → k.room 1 = true →
        let word := fun (i : Nat) => s.seenNum k (.scr (key + 4 * i)) 4 % 2 ^ 32
        let cap := word 0 % 2 ^ 16
        let itemw := word 0 / 2 ^ 16 % 16
        let sound := word 0 / 2 ^ 20 = 0 ∧ 1 ≤ itemw ∧ itemw ≤ 8 ∧ (∃ i, 1 ≤ i ∧ i ≤ 12 ∧ cap = 2 ^ i) ∧
          (BitVec.ofNat 32 (word 2) - BitVec.ofNat 32 (word 1)).toNat ≤ cap ∧ (∀ i, 3 ≤ i → i < 8 → word i = 0)
        let ctl := if at_ / 2 ^ 28 % 16 = 3 then 16 + k.g.core / 576 else k.g.core / 192
        (∃ all, s.scrRange k.ctx at_ (32 + 4 * cap * itemw) = .ok all) →
        (¬ sound → WritesUni s k 4 [(.k kd, 0)] (exec (.qbind false q a kd) s)) ∧
        (sound → (s.queues.filter fun e => e.2.ctl == ctl).length < 64 → s.waiters = [] →
          ∃ t w, exec (.qbind false q a kd) s = .next t ∧ Map.find t.waves k.h = some w ∧ Advances k 4 w ∧ Uniform k w [(.k kd, 1)] ∧
            (∀ b, Map.find w.binds b = if b = q then some ⟨key, 0⟩ else Map.find k.w.binds b) ∧
            { w.rewound k with s := k.w.s, k := k.w.k, held := k.w.held, binds := k.w.binds } = k.w ∧
            Map.find t.queues key = some
              { ctl := ctl, cap := cap, itemw := itemw, head := BitVec.ofNat 32 (word 1), tail := BitVec.ofNat 32 (word 2) } ∧
            (∀ j, j ≠ key → Map.find t.queues j = Map.find s.queues j) ∧ (∀ g, g ≠ k.h → Map.find t.waves g = Map.find s.waves g) ∧
            { t with waves := s.waves, queues := s.queues } = s))) ∧
    (∀ b, Map.find k.w.binds q = some b → (∃ g w, g ≠ k.h ∧ Map.find s.waves g = some w ∧ ∃ r c, Map.find w.binds r = some c ∧ c.queue = b.queue) →
      ∃ t w, exec (.qbind true q a kd) s = .next t ∧ WaveOnly s t k.h w ∧ Advances k 4 w ∧
        (∀ c, Map.find w.binds c = if c = q then none else Map.find k.w.binds c) ∧ { w.rewound k with binds := k.w.binds } = k.w)

/-- R144 to R149: a barrier's operations: BARI clears it, BARX posts, BARA arrives, each settling the phase; BARW goes
on in a phase that is not its present one, waits in the present one, and raises Barrier Overrun once OVER is set. R151: a BARA is
one event of KIND 3 for the drained phases that count arrivals there. R451, R452: in a deterministic launch they act on the word as
the wave's own buffered writes leave it, waiting for a tile store that has yet to supply its bytes, and BARI, BARX and BARA are
buffered for the commit. -/
def Obligations.BarrierOperations : Prop :=
  (
  ∀ (s : State) (k : Slot) (a b key : Nat), Issues s k 4 → k.heldBack = false → k.det = false →
    (k.s a).toNat % 8 = 0 → s.scrRange k.ctx (k.s a).toNat 8 = .ok key → k.conflicts (.scr key) 8 = false →
    let x := ((List.range 8).map fun i => (s.byte (.scr (key + i))).toNat * 2 ^ (8 * i)).sum
    let armed := x / 2 ^ 49 % 2
    let ovr := x / 2 ^ 48 % 2
    let phase := x / 2 ^ 32 % 2 ^ 16
    let pending := BitVec.ofNat 32 x
    let settled := fun (armed : Bool) (p : Word) => if armed ∧ p.toInt ≤ 0 then
        (if p.toInt < 0 ∨ ovr = 1 then 1 else 0) * 2 ^ 48 + (phase + 1) % 2 ^ 16 * 2 ^ 32 + p.toNat
      else (if armed then 1 else 0) * 2 ^ 49 + ovr * 2 ^ 48 + phase * 2 ^ 32 + p.toNat
    let leaves := fun (i : Instr) (arrives : Bool) (v : Nat) =>
      ∃ t w, exec i s = .next t ∧ Map.find t.waves k.h = some w ∧ (∀ g, g ≠ k.h → Map.find t.waves g = Map.find s.waves g) ∧
        Advances k 4 w ∧ w.rewound k = k.w ∧ (∀ i, i < 8 → t.byte (.scr (key + i)) = BitVec.ofNat 8 (v / 2 ^ (8 * i))) ∧
        (∀ y, (∀ i, i < 8 → y ≠ .scr (key + i)) → t.byte y = s.byte y) ∧
        (arrives = false → t.phases = s.phases) ∧
        (arrives = true → ∀ j, Map.find t.phases j = (Map.find s.phases j).map fun p =>
          let es := p.entries.map fun e => if e.1 = 3 ∧ e.2.1 = key then (e.1, e.2.1, e.2.2 - 1) else e
          { p with entries := es, complete := p.complete || es.all fun e => e.2.2 == 0 }) ∧
        { t with waves := s.waves, waiters := s.waiters, scratch := s.scratch, phases := s.phases } = s
    leaves (.bari a) false 0 ∧
    ((k.s b).toNat < 2 ^ 31 → leaves (.barx a b) false (settled true (pending + k.s b))) ∧
    ((k.s b).toNat < 2 ^ 31 → k.busy = false → leaves (.bara a b) true (settled (armed == 1) (pending - k.s b))) ∧
    (2 ^ 31 ≤ (k.s b).toNat → ∀ i ∈ [Instr.barx a b, .bara a b], ∃ t, Traps s k t (exec i s) ∧ t.cause = 0x01 ∧ t.reason = 0) ∧
    ((∀ y ∈ s.waiters, y.wave = k.h → y.side ≠ k.f.side) → s.seenNum k (.scr key) 8 = x →
      (ovr = 1 → Traps s k { k.trap 0x08 with addr := (k.s a).setWidth 64, w12 := pending, w13 := BitVec.ofNat 32 (x / 2 ^ 32) }
        (exec (.barw a b) s)) ∧
      (ovr = 0 → phase ≠ (k.s b).toNat % 2 ^ 16 → Passes s k 4 (exec (.barw a b) s)) ∧
      (ovr = 0 → phase = (k.s b).toNat % 2 ^ 16 →
        exec (.barw a b) s = .next { s with waiters := s.waiters ++ [⟨k.h, k.f.side, .barw key phase false⟩] })) ∧
    (∀ p before after woken, s.waiters = before ++ ⟨k.h, k.f.side, .barw key p woken⟩ :: after →
      (∀ y ∈ before, y.wave = k.h → y.side ≠ k.f.side) → (woken = true ∨ phase ≠ p) → Passes s k 4 (exec (.barw a b) s))
  ) ∧ (
  ∀ (s : State) (k : Slot) (a b key : Nat), Issues s k 4 → k.heldBack = false → k.det = true →
    (k.s a).toNat % 8 = 0 → s.scrRange k.ctx (k.s a).toNat 8 = .ok key →
    let x := s.seenNum k (.scr key) 8
    let armed := x / 2 ^ 49 % 2
    let ovr := x / 2 ^ 48 % 2
    let phase := x / 2 ^ 32 % 2 ^ 16
    let pending := BitVec.ofNat 32 x
    let settled := fun (armed : Bool) (p : Word) => if armed ∧ p.toInt ≤ 0 then
        (if p.toInt < 0 ∨ ovr = 1 then 1 else 0) * 2 ^ 48 + (phase + 1) % 2 ^ 16 * 2 ^ 32 + p.toNat
      else (if armed then 1 else 0) * 2 ^ 49 + ovr * 2 ^ 48 + phase * 2 ^ 32 + p.toNat
    let buffers := fun (i : Instr) (op count v : Nat) =>
      ∃ t w, exec i s = .next t ∧ WaveOnly s t k.h w ∧ Advances k 4 w ∧ w.qops = k.w.qops ++ [.bar op key count] ∧
        w.own = k.w.own ++ (List.range 8).map (fun i => (k.w.nextSeq, .scr (key + i), BitVec.ofNat 8 (v / 2 ^ (8 * i)))) ∧
        { w.rewound k with qops := k.w.qops, own := k.w.own } = k.w
    let free := ∀ y ∈ s.waiters, y.wave = k.h → y.side ≠ k.f.side
    (k.w.tstDue k.w.nextSeq (.scr key) 8 = true →
      ((k.s b).toNat < 2 ^ 31 → ∀ i ∈ [Instr.bari a, .barx a b, .bara a b], Waits s (exec i s)) ∧ (free → Waits s (exec (.barw a b) s))) ∧
    (k.w.tstDue k.w.nextSeq (.scr key) 8 = false →
      buffers (.bari a) 0 0 0 ∧
      ((k.s b).toNat < 2 ^ 31 → buffers (.barx a b) 1 (k.s b).toNat (settled true (pending + k.s b)) ∧
        buffers (.bara a b) 2 (k.s b).toNat (settled (armed == 1) (pending - k.s b))) ∧
      (free → ovr = 1 → Traps s k { k.trap 0x08 with
        addr := (k.s a).setWidth 64, w12 := pending, w13 := BitVec.ofNat 32 (x / 2 ^ 32) } (exec (.barw a b) s)) ∧
      (free → ovr = 0 → phase ≠ (k.s b).toNat % 2 ^ 16 → Passes s k 4 (exec (.barw a b) s)))
  )

/-- R150 to R152: PHBEG registers the phase that a sound header describes, joins one that is registered, and answers 0
on a header that is not sound, a TARGET of any alignment being sound by the model's choice (log 57), and a PHBEG on a header whose phase is active joining it whatever PHID it names now, as the
model reads R152 (log 31); PHEND goes on when the phase is complete, waits until it is, and raises Illegal Instruction for a phase that is not registered; an event counts every entry of its kind and target down, and the phase
is complete when all have reached zero. -/
def Obligations.DrainedPhases : Prop :=
  ∀ (s : State) (k : Slot) (kd a key : Nat), Issues s k 4 → k.heldBack = false → k.det = false →
    (k.s a).toNat % 8 = 0 → s.scrRange k.ctx (k.s a).toNat 8 = .ok key →
    let word := fun (i : Nat) => s.seenNum k (.scr (key + 4 * i)) 4
    let n := word 0 % 2 ^ 8
    let entry := fun (j : Nat) (e : Nat × Nat × Nat) =>
      let e1 := word (3 + 2 * j)
      e.1 = e1 / 2 ^ 28 % 16 ∧ 1 ≤ e.1 ∧ e.1 ≤ 3 ∧ e.2.2 = e1 % 2 ^ 28 ∧ 1 ≤ e.2.2 ∧ s.scr k.ctx (word (2 + 2 * j)) = .ok e.2.1 ∧
        ((k.s a).toNat / 2 ^ 28 % 16 ≠ 3 → word (2 + 2 * j) / 2 ^ 28 % 16 ≠ 3)
    let unknown := ∀ p, Map.find s.phases key = some p → p.complete = true ∧ p.phid ≠ word 0 / 2 ^ 8 % 2 ^ 8
    (∀ all, s.scrRange k.ctx (k.s a).toNat (8 + 8 * n) = .ok all → k.room 1 = true →
      (∀ p, Map.find s.phases key = some p → (p.complete = false ∨ p.phid = word 0 / 2 ^ 8 % 2 ^ 8) →
        WritesUni s k 4 [(.k kd, 1)] (exec (.phbeg kd a) s)) ∧
      (unknown → (word 0 / 2 ^ 16 % 2 ^ 16 ≠ 0 ∨ n = 0 ∨ 15 < n ∨ word 1 ≠ 0 ∨ ∃ j, j < n ∧ ∀ e, ¬ entry j e) →
        WritesUni s k 4 [(.k kd, 0)] (exec (.phbeg kd a) s)) ∧
      (unknown → word 0 / 2 ^ 16 % 2 ^ 16 = 0 → 1 ≤ n → n ≤ 15 → word 1 = 0 →
        (s.phases.filter fun e => e.2.die == k.die && !e.2.complete).length < 16 →
        ∀ es : List (Nat × Nat × Nat), es.length = n → (∀ j e, es[j]? = some e → entry j e) →
        ∃ t w, exec (.phbeg kd a) s = .next t ∧ Map.find t.waves k.h = some w ∧ Advances k 4 w ∧ Uniform k w [(.k kd, 1)] ∧
          { w.rewound k with s := k.w.s, k := k.w.k, held := k.w.held } = k.w ∧ (∀ g, g ≠ k.h → Map.find t.waves g = Map.find s.waves g) ∧
          Map.find t.phases key = some { phid := word 0 / 2 ^ 8 % 2 ^ 8, entries := es, complete := false, die := k.die } ∧
          (∀ j, j ≠ key → Map.find t.phases j = Map.find s.phases j) ∧
          { t with waves := s.waves, waiters := s.waiters, phases := s.phases } = s)) ∧
    ((∀ y ∈ s.waiters, y.wave = k.h → y.side ≠ k.f.side) →
      (∀ p, Map.find s.phases key = some p → p.complete = true → Passes s k 4 (exec (.phend a) s)) ∧
      (∀ p, Map.find s.phases key = some p → p.complete = false →
        exec (.phend a) s = .next { s with waiters := s.waiters ++ [⟨k.h, k.f.side, .phend key false⟩] }) ∧
      (Map.find s.phases key = none → ∃ t, Traps s k t (exec (.phend a) s) ∧ t.cause = 0x01 ∧ t.reason = 0)) ∧
    (∀ kind target p, Map.find s.phases key = some p →
      let es := p.entries.map fun e => if e.1 = kind ∧ e.2.1 = target then (e.1, e.2.1, e.2.2 - 1) else e
      Map.find (s.phaseEvent kind target).phases key =
        some { p with entries := es, complete := p.complete || es.all fun e => e.2.2 == 0 })

/-- R121 to R134: the oldest command of an intake goes to a free engine of its kind; a command without a fault moves
its words, arrives at its barrier with its byte count, comes off CP and posts a record unless it asked for none; a
command that fails a check moves nothing and posts its fault; one that meets a memory error at a source word has moved the
words before it. The words that move are those of its rows, each from and to the place that its side's address names: by
pitch, or by the index array, whose scratchpad rows are held whole to their side's own level. A byte that the command writes twice keeps the later row's, for copies as
R127 says it for scatters (log 58), and an indexed scratchpad row's address counts modulo 2^32 (log 70). That checks and moves are made
in one step, at the command's completion or fault, is the model's choice (log 25). -/
def Obligations.EngineCommands : Prop :=
  ∀ (s : State) (cluster engine : Nat) (c : Command) (r : List Command),
    let word := fun (i : Nat) => (c.words.getD i 0).toNat
    let taken := fun (i : Instr) (gather alt : Bool) (engine : Nat) =>
      Map.find s.intakes (cluster * 2 + (if gather then 1 else 0)) = some (c :: r) → (word 0 / 2 ^ 26 % 2 = 1 ↔ alt = true) →
      Map.find s.engines (cluster * 9 + engine) = none → (gather = true ↔ engine = 8) → engine ≤ 8 →
      (∀ x ∈ s.waiters, ∀ q items, x.on ≠ .push q items) →
      ∃ t, exec i s = .next t ∧ Map.find t.intakes (cluster * 2 + (if gather then 1 else 0)) = some r ∧
        Map.find t.engines (cluster * 9 + engine) = some { c with started := true } ∧
        (∀ j, j ≠ cluster * 2 + (if gather then 1 else 0) → Map.find t.intakes j = Map.find s.intakes j) ∧
        (∀ j, j ≠ cluster * 9 + engine → Map.find t.engines j = Map.find s.engines j) ∧
        { t with intakes := s.intakes, engines := s.engines } = s
    taken (.copyCommand cluster engine) false false engine ∧ taken (.rectangleCopyCommand cluster engine) false true engine ∧
    taken (.gatherCommand cluster) true false 8 ∧ taken (.scatterCommand cluster) true true 8 ∧
    (∀ w, Map.find s.engines (cluster * 9 + engine) = some c → Map.find s.waves c.wave = some w → w.earlier c.out c.tag = false →
      w.first.isSome = true → (if c.gather then w.q3 else w.q1).length < 64 → (∀ x ∈ s.waiters, ∀ q d, x.on ≠ .record q d) →
      let lost := if c.gather then w.lost3 else w.lost1
      let ends := fun (t : State) (f : EngFail) (bytes : Nat) (quiet : Prop) => ∃ u, Map.find t.waves c.wave = some u ∧
        (∀ g, g ≠ c.wave → Map.find t.waves g = Map.find s.waves g) ∧ Map.find t.engines (cluster * 9 + engine) = none ∧
        u.outs = retireOuts (w.outs.map fun p => if p.seq = c.out then { p with done := true } else p) [] ∧
        (quiet → { u with outs := w.outs } = w) ∧
        (¬ quiet → (if c.gather then u.q3 else u.q1) = (if c.gather then w.q3 else w.q1) ++
            [[BitVec.ofNat 32 (f.side * 2 ^ 16 + f.reason * 2 ^ 8 + f.status) ||| BitVec.ofNat 32 (min lost 255 * 2 ^ 24), c.seqNo,
              f.faddr.setWidth 32, (f.faddr >>> 32).setWidth 32, f.paddr.setWidth 32, (f.paddr >>> 32).setWidth 32, BitVec.ofNat 32 bytes, 0]] ∧
          (if c.gather then u.lost3 else u.lost1) = 0 ∧
          { u with outs := w.outs, q1 := w.q1, q3 := w.q3, lost1 := w.lost1, lost3 := w.lost3 } = w)
      let m := State.engResolve c c.steps { s := s }
      let aligned := fun (x : Loc) => match x with
        | .mem k => k % 4 = 0
        | .scr k => k % 4 = 0
      let final := fun (ps : List (Loc × Loc)) (p : Loc × Loc) =>
        ∃ i : Nat, ps[i]? = some p ∧ ∀ (j : Nat) (q : Loc × Loc), i < j → ps[j]? = some q → q.2 ≠ p.2
      let plain := fun (ps : List (Loc × Loc)) => (∀ p ∈ ps, aligned p.1 ∧ aligned p.2) ∧ ∀ p ∈ ps, ∀ q ∈ ps, p.2 ≠ q.1
      let moved := fun (t : State) (ps : List (Loc × Loc)) => (∀ p, final ps p → t.word p.2 = s.word p.1) ∧
        ∀ y, (∀ p ∈ ps, ∀ i, i < 4 → y ≠ p.2.add i) → t.byte y = s.byte y
      (s.engCheck c = none → m.fail = none → m.wait = false → plain m.places →
        (c.bar = 0 → ∃ t, exec (.engineCommandCompletion cluster engine) s = .next t ∧ ends t { status := 0 } c.count (c.ncr = true) ∧
          moved t m.places) ∧
        (∀ place, c.bar ≠ 0 → s.scr c.ctx c.barAddr = .ok place →
          (∀ p ∈ m.places, ∀ i j, i < 4 → j < 8 → p.2.add i ≠ Loc.scr (place + j)) →
          ∃ t, exec (.engineCommandCompletion cluster engine) s = .next t ∧ ends t { status := 0 } c.count (c.ncr = true) ∧
            (∀ p, final m.places p → t.word p.2 = s.word p.1) ∧
            t.num (.scr place) 8 = ((barOf (s.num (.scr place) 8)).arrive c.count).num)) ∧
      (let linear := c.gather = false ∧ word 0 / 2 ^ 26 % 2 = 0
        let rows := if linear then 1 else word 1 / 2 ^ 16
        let bytes := if linear then word 1 else word 1 % 2 ^ 16
        let scratch := fun (side : Nat) => word 0 / 2 ^ (if side = 0 then 25 else 24) % 2 = 1
        let start := fun (side : Nat) => word (4 + 2 * side) + 2 ^ 32 * word (5 + 2 * side)
        let indexed := fun (side : Nat) => c.gather = true ∧ (word 0 / 2 ^ 26 % 2 = 1 ↔ side = 1)
        ∀ (index : Nat → Nat) (place : Nat → Nat → Nat → Loc),
          let row := fun (side j : Nat) => start side + (if indexed side then index j * word 3
            else j * (if c.gather ∨ linear then bytes else word (2 + side)))
          let addr := fun (side j off : Nat) => BitVec.ofNat 64 (row side j + off)
          (c.gather = true → ∀ j, j < rows → ∃ key, s.scr c.ctx (word 2 + 4 * j) = .ok key ∧ s.num (.scr key) 4 = index j) →
          (∀ side j off, side < 2 → j < rows → off < bytes → off % 4 = 0 →
            if scratch side then
              (indexed side → ∃ key, s.scrRange c.ctx (row side j % 2 ^ 32) bytes = .ok key ∧
                row side j % 2 ^ 32 / 2 ^ 28 = start side / 2 ^ 28 % 2 ^ 4 ∧ place side j off = .scr (key + off)) ∧
              (¬ indexed side → ∃ key, s.scrRange c.ctx (addr side j off).toNat 4 = .ok key ∧ place side j off = .scr key)
            else canonical (addr side j off) = true ∧ ∃ l : Tlb,
              (s.xunit c.wave c.out).leaves.find? (fun l => l.covers c.tenant (addr side j off) && l.grants side) = some l ∧
              l.phys (addr side j off) < tierCapacity l.tier ∧ place side j off = s.placeOf l.tier (l.phys (addr side j off)) ∧
              s.reaches c.tenant (place side j off) = true) →
          (s.xunit c.wave c.out).faults = [] →
          let places := (List.range rows).flatMap fun j => (List.range (bytes / 4)).map fun i => (place 0 j (4 * i), place 1 j (4 * i))
          (m.fail = none ∧ m.wait = false ∧ m.places = places) ∧
          (∀ j i, s.engCheck c = none → plain places → j < rows → i < bytes / 4 → (place 0 j (4 * i)).onFabric = false →
            let n := j * (bytes / 4) + i
            ∃ t, exec (.engineCommandFault cluster engine (4 * n)) s = .next t ∧ moved t (places.take n) ∧
              ends t { status := 5, side := 0, faddr := addr 0 j (4 * i), paddr := match place 0 j (4 * i) with
                | .mem k => BitVec.ofNat 64 (k / 64 * 64 % 2 ^ 52)
                | .scr _ => 0 } (4 * n) False)) ∧
      (∀ f, s.engCheck c = some f → f.status ≠ 0 →
        ∃ t, exec (.engineCommandFault cluster engine 0) s = .next t ∧ ends t f 0 False ∧ ∀ y, t.byte y = s.byte y)) ∧
    (let rows := if c.gather || word 0 / 2 ^ 26 % 2 == 1 then word 1 / 2 ^ 16 else 1
      let bytes := if c.gather || word 0 / 2 ^ 26 % 2 == 1 then word 1 % 2 ^ 16 else word 1
      (rows = 0 ∨ bytes = 0 ∨ bytes % 4 ≠ 0 ∨ word 0 / 2 ^ 16 % 2 ^ 5 ≠ 0 → s.engCheck c = some { status := 1 }) ∧
      (c.malformed = false → word 4 % 4 ≠ 0 → s.engCheck c = some { status := 4, side := 0, faddr := c.start 0 }) ∧
      (c.malformed = false → word 4 % 4 = 0 → word 6 % 4 ≠ 0 → s.engCheck c = some { status := 4, side := 1, faddr := c.start 1 }))

/-! ## Tiles and small matrices -/

/-- R250 to R257, R259 to R263, R266 to R274: a tile instruction whose names are granted and whose descriptors, kinds,
shapes and addresses pass its checks sends one operation on the TL path with what it has read, a second slot's integer
multiply in saturating mode with an entry of the held-write buffer for its SAT; its first failing check raises the
exception of its kind, with no effect. R253: one that would be the ninth to write an accumulator waits, oldest first. That TCVT, TTRQ
and TRQ report a wrong shape before a wrong kind is the model's choice (log 75). -/
def Obligations.TileInstructionsAreSent : Prop :=
  ∀ (s : State) (k : Slot) (td ta tb tm ad va : Nat) (z sd ss ds acc : Bool) (place scales : Nat → Nat), Issues s k 4 →
    (k.w.outs.filter fun o => o.counted && o.path == .tl).length < 63 →
    let mine := fun (x : Waiter) => x.wave = k.h ∧ x.side = k.f.side
    let places := fun (r : Prop) => (∀ a, s.accWriters k.w.group a < 8) → (k.det = true → s.tilesBefore k.w.group k.w.waveid k.l.block.quantum = false) →
      (k.det = false → ∀ x ∈ s.waiters, ∀ a, x.on = .acc a → mine x) → r
    (ad < k.g.accs → k.det = false → (∀ x ∈ s.waiters, ¬ mine x) →
      (8 ≤ s.accWriters k.w.group ad ∨ ∃ x w, x ∈ s.waiters ∧ x.on = .acc ad ∧ Map.find s.waves x.wave = some w ∧ w.group = k.w.group) →
      exec (.tzero ad true) s = .next { s with waiters := s.waiters ++ [⟨k.h, k.f.side, .acc ad⟩] } ∧
      (k.holds [va, va + 1] →
        exec (.twrrow ad va false true) s = .next { s with waiters := s.waiters ++ [⟨k.h, k.f.side, .acc ad⟩] })) ∧
    places (
    td < k.g.tiles → ta < k.g.tiles → tb < k.g.tiles → tm < k.g.tiles → ad < k.g.accs →
    let dc := k.adesc ad
    let sent := fun (i : Instr) (desc : List Word) (regs : List Nat) (locs : List (Nat × Loc × Option Loc)) (key : Nat) =>
      let sat := decide ((k.csr 0x002).getLsbD 0 = true ∧ desc.length = 4 ∧ dc.toNat / 2 ^ 16 % 2 = 1)
      (sat = true → k.room 1 = true) →
      ∃ t w, exec i s = .next t ∧ WaveOnly s t k.h w ∧ Advances k 4 w ∧
        w.outs = k.w.outs ++ [{ seq := k.w.nextSeq, path := .tl, tag := k.tag, acq := false, rel := false, done := false, pc := k.f.pc,
                                hash := k.w.hash, op := .tile i k.mask desc (regs.map fun j => (List.range 64).map fun l => k.w.vget j l)
                                                          locs key ((k.csr 0x002).getLsbD 0), second := k.second, mask := k.mask }] ∧
        w.nextSeq = k.w.nextSeq + 1 ∧ (k.det = false → w.qops = k.w.qops) ∧
        w.held = k.w.held ++ (if sat && k.second then
          [{ dst := .sat, val := none, level := k.w.stack.length, seq := k.w.nextSeq, idx := 0 }] else []) ∧
        { w.rewound k with outs := k.w.outs, nextSeq := k.w.nextSeq, qops := k.w.qops, held := k.w.held } = k.w
    let refuses := fun (i : Instr) (reason : Nat) => ∃ t, Traps s k t (exec i s) ∧ t.cause = 0x01 ∧ t.reason = reason
    let dd := k.tdesc td
    let da := k.tdesc ta
    let db := k.tdesc tb
    let rows := fun (x : Word) => x.toNat % 2 ^ 7
    let bytes := fun (x : Word) => x.toNat / 2 ^ 8 % 2 ^ 8
    let kind := fun (x : Word) => x.toNat / 2 ^ 16 % 2 ^ 4
    let active := (List.range 64).filter k.on
    (if acc then sent (.tzero ad true) [] [] [] 0 else sent (.tzero td false) [] [] [] 0) ∧
    (k.holds [va] → sent (.trdrow va (if acc then ad else ta) sd acc) [] [va] [] (k.w.vkey va)) ∧
    (k.holds [va, va + 1] → sent (.twrrow (if acc then ad else td) va sd acc) [] [va, va + 1] [] 0) ∧
    (k.holds ([va] ++ if sd then [va + 1] else []) → k.heldBack = false →
      let addr := fun (l : Nat) => (k.w.vget va l).toNat
      let addr2 := fun (l : Nat) => (k.w.vget (va + 1) l).toNat
      let found := fun (x : Word) => ∀ l ∈ active, l < rows x → addr l % 8 = 0 ∧ s.scrRange k.ctx (addr l) (bytes x) = .ok (place l) ∧
        (sd = true → addr2 l % 8 = 0 ∧ s.scrRange k.ctx (addr2 l) 8 = .ok (scales l))
      let locs := fun (x : Word) => (active.filter fun l => decide (l < rows x)).map fun l =>
        (l, Loc.scr (place l), if sd then some (Loc.scr (scales l)) else none)
      (dd ≠ 0 → found dd → sent (.tld td va sd) [dd] ([va] ++ if sd then [va + 1] else []) (locs dd) 0) ∧
      (da ≠ 0 → found da → sent (.tst ta va sd) [da] ([va] ++ if sd then [va + 1] else []) (locs da) 0) ∧
      (dd = 0 → refuses (.tld td va sd) 1) ∧ (da = 0 → refuses (.tst ta va sd) 1) ∧
      (dd ≠ 0 → ∀ m l, (∀ j, j < 64 → (m.getLsbD j = true ↔ k.on j = true ∧ j < rows dd ∧ addr j % 8 ≠ 0)) → sd = false →
        l < 64 → m.getLsbD l = true → (∀ j, j < l → m.getLsbD j = false) →
        Traps s k { k.trap 0x06 0 with addr := BitVec.ofNat 64 (addr l), lmask := m } (exec (.tld td va sd) s))) ∧
    (∀ f first, k.holds [va] → first ∈ active → (∀ j, j < first → k.on j = false) → k.w.vget va first = f →
      ((∀ l ∈ active, k.w.vget va l = f) →
        (mmaReason f da db dc false = none → sent (.tmma ad ta tb va z) [f, da, db, dc] [] [] 0) ∧
        (mmaReason f da db dc true = none → sent (.tmmas ad ta tb va tm z) [f, da, db, dc] [] [] 0) ∧
        (∀ r, mmaReason f da db dc false = some r → refuses (.tmma ad ta tb va z) r) ∧
        (∀ r, mmaReason f da db dc true = some r → refuses (.tmmas ad ta tb va tm z) r)) ∧
      (∀ m, (∀ l, l < 64 → (m.getLsbD l = true ↔ k.on l = true ∧ k.w.vget va l ≠ f)) → m ≠ 0 →
        Traps s k { k.trap 0x03 0 with lmask := m, w12 := f } (exec (.tmma ad ta tb va z) s) ∧
        Traps s k { k.trap 0x03 0 with lmask := m, w12 := f } (exec (.tmmas ad ta tb va tm z) s))) ∧
    (dd ≠ 0 → da ≠ 0 →
      (rows dd = rows da → tdK dd = tdK da → kind dd ≠ 5 → (ds = true → kind dd ≤ 4) → sent (.tcvt td ta ss ds) [dd, da] [] [] 0) ∧
      ((rows dd ≠ rows da ∨ tdK dd ≠ tdK da) → refuses (.tcvt td ta ss ds) 2) ∧
      (rows dd = rows da → tdK dd = tdK da → (kind dd = 5 ∨ (ds = true ∧ 4 < kind dd)) → refuses (.tcvt td ta ss ds) 6) ∧
      (rows dd = tdK da → tdK dd = rows da → kind dd ≤ 4 → kind da ≤ 4 → sent (.ttrq td ta) [dd, da] [] [] 0) ∧
      ((rows dd ≠ tdK da ∨ tdK dd ≠ rows da) → refuses (.ttrq td ta) 2) ∧
      (rows dd = tdK da → tdK dd = rows da → (4 < kind dd ∨ 4 < kind da) → refuses (.ttrq td ta) 6)) ∧
    ((dd = 0 ∨ da = 0) → refuses (.tcvt td ta ss ds) 1 ∧ refuses (.ttrq td ta) 1) ∧
    (dd ≠ 0 → dc ≠ 0 → rows dd = rows dc → tdK dd = bytes dc % 2 ^ 7 →
      (dc.toNat / 2 ^ 16 % 2 = 1 → k.holds [va, va + 1, va + 2] →
        (ds = false → (kind dd = 6 ∨ kind dd = 7 ∨ kind dd = 8) → sent (.trq td ad va ds) [dd, dc] [va, va + 1, va + 2] [] 0) ∧
        (ds = true ∨ (kind dd ≠ 6 ∧ kind dd ≠ 7 ∧ kind dd ≠ 8) → refuses (.trq td ad va ds) 6)) ∧
      (dc.toNat / 2 ^ 16 % 2 = 0 →
        ((kind dd ≤ 4 ∨ (ds = false ∧ (kind dd = 9 ∨ kind dd = 10))) → sent (.trq td ad 0 ds) [dd, dc] [] [] 0) ∧
        (5 ≤ kind dd → (ds = true ∨ (kind dd ≠ 9 ∧ kind dd ≠ 10)) → refuses (.trq td ad 0 ds) 6))))

/-- R259, R260: the format words that TMMA and TMMAS accept, and the accumulator that each needs. R209, R211, R213 to
R215, R250, R251, R258, R262, R263, R266, R268, R269, R271 to R274: what the oldest tile instruction of a wave does
when it is performed: it writes its own register or bytes, merges its flags, and comes off TL. -/
def Obligations.TileInstructionsPerform : Prop :=
  (
  ∀ (a b n : Nat) (sc : Bool) (sparse : Bool), a < 16 → b < 16 → n < 32 →
    let f := BitVec.ofNat 32 ((if sc then 2 ^ 13 else 0) + n * 2 ^ 8 + b * 2 ^ 4 + a)
    let count := if sparse then 1 ≤ n ∧ n ≤ 16 else n = 0
    let narrow := fun (x : Nat) => x ∈ [2, 3, 4]
    let fp32 := (narrow a ∧ narrow b) ∨ (a ∈ [0, 1] ∧ (b ∈ [0, 1] ∨ narrow b)) ∨ (b ∈ [0, 1] ∧ narrow a) ∨
      (sc = true ∧ ((a = 5 ∧ b ≤ 7) ∨ (b = 5 ∧ a ≤ 7))) ∨ (sc = false ∧ sparse = false ∧ ((a = 9 ∧ b = 9) ∨ (a = 10 ∧ b = 10)))
    let int32 := sc = false ∧ a ∈ [6, 7] ∧ b ∈ [6, 7]
    formatOk f sparse = if count ∧ int32 then some true else if count ∧ fp32 then some false else none
  ) ∧ (
  ∀ (s : State) (h : Nat) (w : Wave) (o : Out) (g : Group) (i : Instr) (mask : Mask) (desc : List Word) (fv : List (List Word))
    (locs : List (Nat × Loc × Option Loc)) (key : Nat) (sat : Bool),
    Map.find s.waves h = some w → w.nextTile = some o → s.tileWaits h w o = false → Map.find s.groups w.group = some g →
    (∀ e ∈ w.held, e.seq = o.seq → e.val.isSome = true) →
    o.op = .tile i mask desc fv locs key sat →
    let d := fun (n : Nat) => desc.getD n 0
    let bytes := fun (x : Word) => x.toNat / 2 ^ 8 % 2 ^ 8
    let x := fun (n l : Nat) => ((fv.getD n []).getD l 0)
    let tile := fun (g : Group) (t r b : Nat) => Sparse.get (0 : Byte) g.t ((t * 64 + r) * 128 + b)
    let side := fun (g : Group) (t r b : Nat) => Sparse.get (0 : Byte) g.side (t * 512 + r * 8 + b)
    let acc := fun (g : Group) (a r c : Nat) => Sparse.get (0 : Word) g.a ((a * 64 + r) * 64 + c)
    let word := fun (b : Nat → Byte) => BitVec.ofNat 32 ((List.range 4).map fun j => (b j).toNat * 2 ^ (8 * j)).sum
    let retired := retireOuts (w.outs.map fun p => if p.seq = o.seq then { p with done := true } else p) []
    -- the group's storage after the instruction; other groups, waves and memory are as they were
    let gives := fun (q : Group → Wave → Prop) =>
      ∃ t g' u, exec (.tileInstructionCompletion h) s = .next t ∧ Map.find t.groups w.group = some g' ∧ Map.find t.waves h = some u ∧
        (∀ j, j ≠ w.group → Map.find t.groups j = Map.find s.groups j) ∧ (∀ j, j ≠ h → Map.find t.waves j = Map.find s.waves j) ∧
        u.outs = retired ∧ { t with waves := s.waves, groups := s.groups } = s ∧
        { g' with t := g.t, side := g.side, a := g.a } = g ∧ q g' u
    let quiet := fun (u : Wave) => { u with outs := w.outs } = w
    let flagged := fun (u : Wave) (r : TileRes) => u.fflags = w.fflags ||| BitVec.ofNat 32 r.flags ∧
      u.accmode = (if r.sat then w.accmode ||| 0x10000 else w.accmode) ∧
      { u with outs := w.outs, fflags := w.fflags, accmode := w.accmode } = w
    let sameT := fun (g' : Group) (f : Nat → Prop) => ∀ y, ¬ f y → Sparse.get 0 g'.t y = Sparse.get 0 g.t y
    let sameS := fun (g' : Group) (f : Nat → Prop) => ∀ y, ¬ f y → Sparse.get 0 g'.side y = Sparse.get 0 g.side y
    let row := fun (t l y : Nat) => (t * 64 + l) * 128 ≤ y ∧ y < (t * 64 + l) * 128 + 128
    let on := fun (l : Nat) => l < 64 ∧ mask.getLsbD l = true
    (∀ t, i = .tzero t false → gives fun g' u => quiet u ∧ g'.a = g.a ∧
      (∀ l b, on l → b < 128 → tile g' t l b = 0) ∧ (∀ l b, on l → b < 8 → side g' t l b = 0) ∧
      sameT g' (fun y => ∃ l, on l ∧ row t l y) ∧ sameS g' (fun y => ∃ l b, on l ∧ b < 8 ∧ y = t * 512 + l * 8 + b)) ∧
    (∀ a, i = .tzero a true → gives fun g' u => quiet u ∧ g'.t = g.t ∧ g'.side = g.side ∧
      (∀ l c, on l → c < 64 → acc g' a l c = 0) ∧
      (∀ y, (∀ l c, on l → c < 64 → y ≠ (a * 64 + l) * 64 + c) → Sparse.get 0 g'.a y = Sparse.get 0 g.a y)) ∧
    (∀ t va sd, i = .tld t va sd → (locs.map fun e => e.1).Nodup → (∀ e ∈ locs, e.1 < 64) → bytes (d 0) ≤ 128 →
      gives fun g' u => quiet u ∧ g'.a = g.a ∧
        (∀ e ∈ locs, ∀ b, b < bytes (d 0) → tile g' t e.1 b = s.view w o.seq o.tag (e.2.1.add b)) ∧
        (∀ e ∈ locs, ∀ y, e.2.2 = some y → ∀ b, b < 8 → side g' t e.1 b = s.view w o.seq o.tag (y.add b)) ∧
        sameT g' (fun y => ∃ e ∈ locs, ∃ b, b < bytes (d 0) ∧ y = (t * 64 + e.1) * 128 + b) ∧
        sameS g' (fun y => ∃ e ∈ locs, e.2.2 ≠ none ∧ ∃ b, b < 8 ∧ y = t * 512 + e.1 * 8 + b)) ∧
    (∀ t va sd, i = .tst t va sd → s.detWave h = false →
      ∃ u v, exec (.tileInstructionCompletion h) s = .next v ∧ Map.find v.waves h = some u ∧ u.outs = retired ∧ quiet u ∧
        (∀ j, j ≠ h → Map.find v.waves j = Map.find s.waves j) ∧
        (∀ y, (∀ e ∈ locs, (∀ b, b < bytes (d 0) → y ≠ e.2.1.add b) ∧ (∀ z, e.2.2 = some z → ∀ b, b < 8 → y ≠ z.add b)) →
          v.byte y = s.byte y) ∧
        ((∀ e ∈ locs, e.2.2 = none ∧ ∃ n, n % 4 = 0 ∧ e.2.1 = .scr n) → bytes (d 0) % 4 = 0 → ∀ y, v.byte y =
          (locs.reverse.findSome? fun e => ((List.range (bytes (d 0))).find? fun b => e.2.1.add b == y).map fun b => tile g t e.1 b).getD
            (s.byte y)) ∧
        { v with waves := s.waves, mem := s.mem, scratch := s.scratch, codeLog := s.codeLog, codeCount := s.codeCount,
                 regions := s.regions } = s) ∧
    (∀ vx t sd a, i = .trdrow vx t sd a → ∃ u v, exec (.tileInstructionCompletion h) s = .next v ∧ WaveOnly s v h u ∧ u.outs = retired ∧
      (∀ l, on l → Sparse.get 0 u.v (key + l) =
        if sd then word fun j => side g t l (4 * ((x 0 l).toNat % 2) + j)
        else if a then acc g t l ((x 0 l).toNat % 64)
        else word fun j => tile g t l (4 * ((x 0 l).toNat % 32) + j)) ∧
      (∀ y, (∀ l, on l → y ≠ key + l) → Sparse.get 0 u.v y = Sparse.get 0 w.v y) ∧ { u with outs := w.outs, v := w.v } = w) ∧
    (∀ t vx sd a, i = .twrrow t vx sd a → gives fun g' u => quiet u ∧
      (∀ l, on l → x 1 l =
        if sd then word fun j => side g' t l (4 * ((x 0 l).toNat % 2) + j)
        else if a then acc g' t l ((x 0 l).toNat % 64)
        else word fun j => tile g' t l (4 * ((x 0 l).toNat % 32) + j)) ∧
      (sd = false → g'.side = g.side ∧ (a = true → g'.t = g.t) ∧ (a = false → g'.a = g.a ∧
        sameT g' (fun y => ∃ l j, on l ∧ j < 4 ∧ y = (t * 64 + l) * 128 + 4 * ((x 0 l).toNat % 32) + j))) ∧
      (sd = true → g'.t = g.t ∧ g'.a = g.a ∧ sameS g' (fun y => ∃ l j, on l ∧ j < 4 ∧ y = t * 512 + l * 8 + 4 * ((x 0 l).toNat % 2) + j))) ∧
    (∀ ad ta tb m, (∃ vf z, i = .tmma ad ta tb vf z ∧ m = mmaOf ad ta tb (d 0) (d 1) (d 2) (d 3) z none) ∨
        (∃ vf tm z, i = .tmmas ad ta tb vf tm z ∧ m = mmaOf ad ta tb (d 0) (d 1) (d 2) (d 3) z (some tm)) → m.cols ≤ 64 →
      gives fun g' u => g'.t = g.t ∧ g'.side = g.side ∧
        (∀ l c, on l → l < m.rows → c < m.cols → acc g' ad l c = (m.elem g sat l c).1) ∧
        (∀ y, (∀ l c, on l → l < m.rows → c < m.cols → y ≠ (ad * 64 + l) * 64 + c) → Sparse.get 0 g'.a y = Sparse.get 0 g.a y) ∧
        (∀ b, b < 32 → u.fflags.getLsbD b = (w.fflags.getLsbD b || ((List.range 64).any fun l => mask.getLsbD l && decide (l < m.rows) &&
          ((List.range m.cols).any fun c => (m.elem g sat l c).2.1.testBit b)))) ∧
        u.accmode = (if (List.range 64).any fun l => mask.getLsbD l && decide (l < m.rows) &&
          ((List.range m.cols).any fun c => (m.elem g sat l c).2.2) then w.accmode ||| 0x10000 else w.accmode) ∧
        { u with outs := w.outs, fflags := w.fflags, accmode := w.accmode } = w) ∧
    (∀ r, (∃ td ta ss ds, i = .tcvt td ta ss ds ∧ r = tcvtRes g mask td ta ss ds (d 0) (d 1) none) ∨
        (∃ td ta, i = .ttrq td ta ∧ r = ttrqRes g mask td ta (d 0) (d 1) none) ∨
        (∃ td aa vx ds, i = .trq td aa vx ds ∧ r = trqRes g mask td aa ds (d 0) (d 1) fv none) →
      gives fun g' u => g' = r.g ∧ flagged u r ∧ g'.a = g.a)
  )

/-- R211, R214, R262, R263, R269: an integer matrix multiply adds the exact sum of the products of its row and column,
over the stored elements when B is sparse, and clips or wraps it once. R194, R199, R200: the exact value of an element's code. R213
to R215, R270: a floating-point one adds, for each group of 32 in order, the exact sum of the group's products under its scales, with
one rounding to nearest even; a NaN, infinities and zeros of the group or of the accumulator come out as R215 says. R204, R207, R272:
a value converted to each kind. R217: a block of 32 values converted under the scale it gets. R272 to R274: TCVT, TTRQ and TRQ write
into the active rows those conversions of the values they read, and the scales of those blocks, and nothing else; a conversion applies
block scales to kinds 0 to 5 alone, as the model reads R247 (log 33). -/
def Obligations.MatrixMultiplyAndTileConversions : Prop :=
  let bits := fun (kd : Nat) => if kd = 2 ∨ kd = 3 then 6 else if kd = 4 ∨ kd = 8 then 4 else if kd = 9 ∨ kd = 10 then 16
    else if kd = 11 then 32 else 8
  let row := fun (g : Group) (t r n : Nat) =>
    ((List.range n).map fun b => (Sparse.get (0 : Byte) g.t ((t * 64 + r) * 128 + b)).toNat * 2 ^ (8 * b)).sum
  let num := fun (n : Bool) (m : Nat) => if n then -(m : Int) else (m : Int)
  -- the narrow formats: kind, exponent and mantissa bits, bias, greatest exponent, significand and code of the largest value, NaN
  let narrow : List (Nat × Nat × Nat × Nat × Nat × Nat × Nat × Nat) :=
    [(0, 4, 3, 7, 8, 14, 0x7E, 0x7F), (1, 5, 2, 15, 15, 7, 0x7B, 0x7E), (2, 3, 2, 3, 4, 7, 0x1F, 0), (3, 2, 3, 1, 2, 15, 0x1F, 0),
      (4, 2, 1, 1, 2, 3, 0x7, 0)]
  (
  ∀ (m : Mma) (g : Group) (sat : Bool) (i j : Nat), m.ak ∈ [6, 7] → m.bk ∈ [6, 7] →
    let tile := fun (t r b : Nat) => (Sparse.get (0 : Byte) g.t ((t * 64 + r) * 128 + b)).toNat
    let val := fun (kind raw : Nat) => if kind = 7 ∨ raw < 128 then (raw : Int) else (raw : Int) - 256
    let a := fun (k : Nat) => if k < m.rba then val m.ak (tile m.ta i k) else 0
    let c := if m.z then 0 else (Sparse.get (0 : Word) g.a ((m.ad * 64 + i) * 64 + j)).toInt
    let result := fun (b : Nat → Int) =>
      let sum := ((List.range (32 * m.groups)).map fun k => a k * b k).foldl (· + ·) c
      m.elem g sat i j = (if sat then BitVec.ofInt 32 (max (-(2 ^ 31)) (min (2 ^ 31 - 1) sum)) else BitVec.ofInt 32 sum, 0,
        sat && (decide (sum < -(2 ^ 31)) || decide (2 ^ 31 - 1 < sum)))
    (m.sparse = none → result fun k => if k < m.rbb then val m.bk (tile m.tb j k) else 0) ∧
    (∀ n tm, m.sparse = some (n, tm) → m.groups ≤ 32 → result fun k =>
      let bitOf := fun (p : Nat) => tile tm j (4 * (k / 32) + p / 8) / 2 ^ (p % 8) % 2
      let rank := ((List.range (k % 32)).filter fun p => bitOf p == 1).length
      let at_ := k / 32 * n + rank
      if bitOf (k % 32) = 1 ∧ rank < n ∧ at_ < m.rbb then val m.bk (tile m.tb j at_) else 0)
  ) ∧ (
  ∀ (kd eb mb bias raw : Nat), raw < 2 ^ bits kd →
    let E := raw / 2 ^ mb % 2 ^ eb
    let M := raw % 2 ^ mb
    let S := decide (raw / 2 ^ (eb + mb) % 2 = 1)
    let term := fun (s h : Nat) => if h = 7 then (0 : Int) else num (s == 1) (2 ^ (6 - h))
    let two := fun (n : Nat) => if raw < 2 ^ (n - 1) then (raw : Int) else (raw : Int) - 2 ^ n
    ((kd, eb, mb, bias) ∈ [(0, 4, 3, 7), (1, 5, 2, 15), (2, 3, 2, 3), (3, 2, 3, 1), (4, 2, 1, 1), (9, 8, 7, 127), (10, 5, 10, 15), (11, 8, 23, 127)] →
      if kd ∈ [1, 9, 10, 11] ∧ E = 2 ^ eb - 1 then (M = 0 → kindVal kd raw = .inf S) ∧ (M ≠ 0 → ∃ q, kindVal kd raw = .nan q)
      else if kd = 0 ∧ E = 15 ∧ M = 7 then ∃ q, kindVal kd raw = .nan q
      else kindVal kd raw = .fin S (if E = 0 then M else 2 ^ mb + M) ((if E = 0 then 1 else (E : Int)) - bias - mb)) ∧
    (kd = 5 →
      let v := term (raw / 2 ^ 7) (raw / 2 ^ 4 % 2 ^ 3) + term (raw / 2 ^ 3 % 2) (raw % 2 ^ 3)
      kindVal kd raw = .fin (decide (v < 0)) v.natAbs (-6)) ∧
    (kd ∈ [6, 7, 8] →
      let v := if kd = 6 then two 8 else if kd = 7 then (raw : Int) else two 4
      kindVal kd raw = .fin (decide (v < 0)) v.natAbs 0)
  ) ∧ (
  ∀ (m : Mma) (g : Group) (sat : Bool) (i j : Nat), m.ak ≤ 11 → m.bk ≤ 11 → ¬ (m.ak ∈ [6, 7, 8] ∧ m.bk ∈ [6, 7, 8]) → m.groups ≤ 32 →
    let a := fun (k : Nat) => kindVal m.ak (row g m.ta i m.rba / 2 ^ (k * bits m.ak) % 2 ^ bits m.ak)
    let stored := fun (k : Nat) => kindVal m.bk (row g m.tb j m.rbb / 2 ^ (k * bits m.bk) % 2 ^ bits m.bk)
    let scale := fun (t r b : Nat) => (Sparse.get (0 : Byte) g.side (t * 512 + r * 8 + b)).toNat
    ∀ b : Nat → FVal,
    (m.sparse = none → ∀ k, b k = stored k) →
    (∀ n tm, m.sparse = some (n, tm) → ∀ k,
      let bitOf := fun (p : Nat) => (Sparse.get (0 : Byte) g.t ((tm * 64 + j) * 128 + 4 * (k / 32) + p / 8)).toNat / 2 ^ (p % 8) % 2
      let rank := ((List.range (k % 32)).filter fun p => bitOf p == 1).length
      b k = if bitOf (k % 32) = 1 ∧ rank < n then stored (k / 32 * n + rank) else .fin false 0 0) →
    ∃ (acc : Nat → Word) (fl : Nat → Nat),
      acc 0 = (if m.z then 0 else Sparse.get (0 : Word) g.a ((m.ad * 64 + i) * 64 + j)) ∧
      m.elem g sat i j = (acc m.groups, ((List.range m.groups).map fl).foldl (· ||| ·) 0, false) ∧
      ∀ x, x < m.groups →
        let each := fun (p : FVal → FVal → Prop) => ∃ k, k < 32 ∧ p (a (32 * x + k)) (b (32 * x + k))
        let isNan := fun (v : FVal) => ∃ q, v = .nan q
        let isInf := fun (v : FVal) => ∃ n, v = .inf n
        let isZero := fun (v : FVal) => ∃ n e, v = .fin n 0 e
        let sign := fun (v : FVal) => match v with
          | .nan _ => false
          | .inf n => n
          | .fin n _ _ => n
        let infinite := fun (n : Bool) => each fun u v => (isInf u ∨ isInf v) ∧ ¬ isNan u ∧ ¬ isNan v ∧ ¬ isZero u ∧ ¬ isZero v ∧
          xor (sign u) (sign v) = n
        let nan := (each fun u v => isNan u ∨ isNan v ∨ (isInf u ∧ isZero v) ∨ (isZero u ∧ isInf v)) ∨
          (m.s = true ∧ (scale m.ta i x = 255 ∨ scale m.tb j x = 255)) ∨ (infinite false ∧ infinite true)
        let gives := fun (r : Nat × Nat) => ((acc (x + 1)).toNat, fl x) = r
        let c := fmtF32.decode (acc x).toNat
        (nan → gives (0x7FC00000, 16)) ∧
        (¬ nan → ∀ q, c = .nan q → gives (0x7FC00000, if q then 16 else 0)) ∧
        (∀ n, ¬ nan → infinite n → ¬ isNan c →
          (c = .inf (!n) → gives (0x7FC00000, 16)) ∧ (c ≠ .inf (!n) → gives (if n then 0xFF800000 else 0x7F800000, 0))) ∧
        (¬ nan → ¬ infinite false → ¬ infinite true →
          (∀ n, c = .inf n → gives (if n then 0xFF800000 else 0x7F800000, 0)) ∧
          (∀ nc mc ec, c = .fin nc mc ec → ∀ (na nb : Nat → Bool) (ma mb : Nat → Nat) (ea eb : Nat → Int),
            (∀ k, k < 32 → a (32 * x + k) = .fin (na k) (ma k) (ea k) ∧ b (32 * x + k) = .fin (nb k) (mb k) (eb k)) →
            ∃ (q e : Int) (n : Bool) (mm : Nat), (∀ k, k < 32 → ma k * mb k ≠ 0 → q ≤ ea k + eb k) ∧
              (let shift : Int := if m.s then (scale m.ta i x : Int) + scale m.tb j x - 254 else 0
              let sum := ((List.range 32).map fun k => num (xor (na k) (nb k)) (ma k * mb k) * 2 ^ (ea k + eb k - q).toNat).sum
              e ≤ ec ∧ (sum ≠ 0 → e ≤ q + shift) ∧
              num n mm = num nc mc * 2 ^ (ec - e).toNat + sum * 2 ^ (q + shift - e).toNat ∧
              (mm = 0 → gives (0, 0)) ∧ (0 < mm → gives (fmtF32.round 0 false n mm e false)))))
  ) ∧ (
  ∀ (kd : Nat) (int : Bool) (v : FVal),
    let z := convKind kd int v
    (∀ eb mb bias emax top code nan, (kd, eb, mb, bias, emax, top, code, nan) ∈ narrow →
      let sign := fun (n : Bool) => if n then 2 ^ (eb + mb) else 0
      (∀ q, v = .nan q → z = (nan, 16)) ∧
      (∀ n, v = .inf n → z = if kd = 1 then (sign n + 0x7C, 0) else (sign n + code, 4)) ∧
      (∀ n e, v = .fin n 0 e → z = (sign n, 0)) ∧
      (∀ (n : Bool) (m : Nat) (e : Int) (b : Nat), v = .fin n m e → 2 ^ b ≤ m → m < 2 ^ (b + 1) →
        let lead := e + b
        let r0 := (roundAt 0 n m e false (lead - mb)).1
        let q := max (lead - mb) (1 - (bias : Int) - mb)
        let r := roundAt 0 n m e false q
        let beyond := (emax : Int) < lead ∨ (lead = emax ∧ top < r0)
        (beyond → z = (sign n + code, 5)) ∧
        (¬ beyond → ∃ M E, z.1 < 2 ^ (1 + eb + mb) ∧ kindVal kd z.1 = .fin n M E ∧ q ≤ E ∧ M * 2 ^ (E - q).toNat = r.1 ∧
          z.2 = (if r.2 then 1 else 0) + (if r.2 = true ∧ lead + (if r0 = 2 ^ (mb + 1) then 1 else 0) < 1 - (bias : Int) then 2 else 0)))) ∧
    (∀ f : Fmt, (kd, f) ∈ [(9, fmtBF16), (10, fmtF16), (11, fmtF32)] →
      (∀ q, v = .nan q → z = (f.nan, if q then 16 else 0)) ∧ (∀ n, v = .inf n → z = (f.inf n, 0)) ∧
      (∀ n e, v = .fin n 0 e → z = (f.sign n, 0)) ∧ (∀ n m e, v = .fin n m e → 0 < m → z = f.round 0 false n m e false)) ∧
    (∀ lo hi : Int, (kd, lo, hi) ∈ [(6, -128, 127), (7, 0, 255), (8, -8, 7)] →
      let code := fun (y : Int) => (y % 2 ^ bits kd).toNat
      (∀ q, v = .nan q → z = (0, 16)) ∧ (∀ n, v = .inf n → z = (code (if n then lo else hi), 16)) ∧
      (∀ n m e, v = .fin n m e →
        let r := roundAt 0 n m e false 0
        let y := max lo (min hi (num n r.1))
        z = (code y, if int then 0 else if y ≠ num n r.1 then 16 else if r.2 then 1 else 0)))
  ) ∧ (
  ∀ (kd : Nat) (xs : List FVal) (top : Int) (k0 b0 : Nat), kd ≤ 4 →
    let z := scaleBlock kd xs
    let emax : Int := if kd = 0 then 8 else if kd = 1 then 15 else if kd = 2 then 4 else 2
    let finite := ∀ v ∈ xs, ∃ n m e, v = .fin n m e
    (¬ finite → z = (255, xs.map fun _ => 0, 16)) ∧
    ((∀ v ∈ xs, ∃ n e, v = .fin n 0 e) → z = (0, xs.map fun _ => 0, 0)) ∧
    (finite → (∃ n m e, xs[k0]? = some (.fin n m e) ∧ 2 ^ b0 ≤ m ∧ m < 2 ^ (b0 + 1) ∧ e + b0 = top) →
      (∀ (n : Bool) (m : Nat) (e : Int) (b : Nat), .fin n m e ∈ xs → 2 ^ b ≤ m → m < 2 ^ (b + 1) → e + b ≤ top) →
      let x := max (-127) (min 127 (top - emax))
      let each := xs.map fun v => match v with
        | .fin n m e => convKind kd false (.fin n m (e - x))
        | _ => (0, 0)
      z.1 = (x + 127).toNat ∧ z.2.1 = each.map (·.1) ∧ ∀ b, z.2.2.testBit b = each.any fun y => y.2.testBit b)
  ) ∧ (
  ∀ (g : Group) (mask : Mask) (td ta : Nat) (ss ds : Bool) (dd da : Word) (fv : List (List Word)),
    let bytes := fun (x : Word) => x.toNat / 2 ^ 8 % 2 ^ 8
    let kind := fun (x : Word) => x.toNat / 2 ^ 16 % 2 ^ 4
    let rows := fun (x : Word) => x.toNat % 2 ^ 7
    let len := fun (x : Word) => bytes x * 8 / bits (kind x)
    let sound := fun (x : Word) => kind x ≤ 11 ∧ bytes x ≤ 128 ∧ len x * bits (kind x) = bytes x * 8 ∧ len x % 32 = 0 ∧ rows x ≤ 64
    let el := fun (g : Group) (t r : Nat) (x : Word) (k : Nat) => row g t r (bytes x) / 2 ^ (k * bits (kind x)) % 2 ^ bits (kind x)
    let scale := fun (g : Group) (t r b : Nat) => (Sparse.get (0 : Byte) g.side (t * 512 + r * 8 + b)).toNat
    -- a code under a block scale
    let scaled := fun (c : Nat) (v : FVal) => match v with
      | .nan q => FVal.nan q
      | .inf n => if c = 255 then .nan false else .inf n
      | .fin n m e => if c = 255 then .nan false else .fin n m (e + (c : Int) - 127)
    let on := fun (l : Nat) => l < 64 ∧ mask.getLsbD l = true
    -- the `n` active rows of td hold `x` converted, by blocks or one by one, with these flags, and nothing else has changed
    let writes := fun (r : TileRes) (n : Nat) (ds int : Bool) (x : Nat → Nat → FVal) =>
      let block := fun (l b : Nat) => scaleBlock (kind dd) ((List.range 32).map fun p => x l (32 * b + p))
      (ds = false → (∀ l k, on l → l < n → k < len dd → el r.g td l dd k = (convKind (kind dd) int (x l k)).1) ∧ r.g.side = g.side ∧
        ∀ f, r.flags.testBit f = (List.range 64).any fun l => mask.getLsbD l && decide (l < n) &&
          (List.range (len dd)).any fun k => (convKind (kind dd) int (x l k)).2.testBit f) ∧
      (ds = true → (∀ l k, on l → l < n → k < len dd → some (el r.g td l dd k) = (block l (k / 32)).2.1[k % 32]?) ∧
        (∀ l b, on l → l < n → b < len dd / 32 → scale r.g td l b = (block l b).1) ∧
        (∀ y, (∀ l b, on l → l < n → b < len dd / 32 → y ≠ td * 512 + l * 8 + b) → Sparse.get 0 r.g.side y = Sparse.get 0 g.side y) ∧
        ∀ f, r.flags.testBit f = (List.range 64).any fun l => mask.getLsbD l && decide (l < n) &&
          (List.range (len dd / 32)).any fun b => (block l b).2.2.testBit f) ∧
      (∀ y, (∀ l b, on l → l < n → b < bytes dd → y ≠ (td * 64 + l) * 128 + b) → Sparse.get 0 r.g.t y = Sparse.get 0 g.t y) ∧
      r.sat = false ∧ { r.g with t := g.t, side := g.side } = g
    let source := fun (sc : Bool) (r k : Nat) =>
      let v := kindVal (kind da) (el g ta r da k)
      if sc ∧ kind da ≤ 5 then scaled (scale g ta r (k / 32)) v else v
    sound dd →
    (sound da → len dd = len da → kind dd ≠ 5 → (ds = true → kind dd ≤ 4) →
      writes (tcvtRes g mask td ta ss ds dd da none) (rows da) ds (decide (kind da ∈ [6, 7, 8])) (source ss)) ∧
    (sound da → len dd = rows da → kind dd ≤ 4 → kind da ≤ 4 →
      writes (ttrqRes g mask td ta dd da none) (len da) true false fun c r => source true r c) ∧
    (let cols := da.toNat / 2 ^ 8 % 2 ^ 7
      let acc := fun (l j : Nat) => Sparse.get (0 : Word) g.a ((ta * 64 + l) * 64 + j)
      len dd = cols →
      (da.toNat / 2 ^ 16 % 2 = 1 → kind dd ∈ [6, 7, 8] → writes (trqRes g mask td ta ds dd da fv none) (rows da) false true fun l j =>
        let arg := fun (i : Nat) => (fv.getD i []).getD l 0
        let sh := (arg 1).toNat % 64
        let t := ((acc l j).toInt * (arg 0).toInt + 2 ^ 30) / 2 ^ 31
        let t := if 0 < sh then (t + 2 ^ (sh - 1)) / 2 ^ sh else t
        let hi : Int := if kind dd = 6 then 127 else if kind dd = 7 then 255 else 7
        let lo : Int := if kind dd = 6 then -128 else if kind dd = 7 then 0 else -8
        let y := max lo (min hi ((arg 2).toInt + t))
        .fin (decide (y < 0)) y.natAbs 0) ∧
      (da.toNat / 2 ^ 16 % 2 = 0 → (kind dd ≤ 4 ∨ (ds = false ∧ kind dd ∈ [9, 10])) →
        writes (trqRes g mask td ta ds dd da fv none) (rows da) ds false fun l j => fmtF32.decode (acc l j).toNat))
  )

/-- R277 to R281, R283, R284, R287, R288, R293: the element-wise instructions, products, transposes and moves of the
small matrices: shapes, elements rounded one operation at a time, +0 outside the shape; a lane whose shapes do not fit
is left alone and marked; a condition that MTRAPEN enables raises Matrix Exception with the lanes, their conditions and the pivot
index of the lowest. That results are written when an instruction issues and its flags merge when it completes is the
model's choice (log 22). -/
def Obligations.SmallMatrixArithmetic : Prop :=
  ∀ (s : State) (k : Slot) (md ma mb v i j rows cols : Nat) (src : Src), Issues s k 4 → k.w.matrix = true → k.holds (v :: src.vecs) →
    let fm : Mode := ⟨(k.csr 0x000).toNat % 8, (k.csr 0x000).getLsbD 3⟩
    let a := k.w.mat ma
    let b := k.w.mat mb
    let d := k.w.mat md
    let ra := fun (l : Nat) => k.w.mshape ma l / 8
    let ca := fun (l : Nat) => k.w.mshape ma l % 8
    let rb := fun (l : Nat) => k.w.mshape mb l / 8
    let cb := fun (l : Nat) => k.w.mshape mb l % 8
    let rd := fun (l : Nat) => k.w.mshape md l / 8
    let cd := fun (l : Nat) => k.w.mshape md l % 8
    let marks := fun (c : Nat) => ({ cond := c } : MatRes)
    let makes := fun (rows cols : Nat) (f : Nat → Nat → Flagged) =>
      ({ m := some (rows * 8 + cols, (matOf rows cols f).1), flags := (matOf rows cols f).2 } : MatRes)
    let sum := fun (start : Flagged) (ks : List Nat) (l i j : Nat) => ks.foldl (fun (acc : Flagged) n =>
      let r := fmtF32.fma fm false false (melem (a l) i n) (melem (b l) n j) acc.1
      (r.1, acc.2 ||| r.2)) start
    -- an instruction with a matrix result does in each active lane what `f` says, unless an enabled condition arises
    let does := fun (i : Instr) (vd : Nat) (f : Nat → MatRes) =>
      let en := (k.csr 0x005).toNat % 16
      ((∀ l, l < 64 → k.on l = true → (f l).cond &&& en = 0) → MatStep s k md vd f (exec i s)) ∧
      ((∃ l, l < 64 ∧ k.on l = true ∧ (f l).cond &&& en ≠ 0) → ∃ m x, Traps s k { k.trap 0x07 with lmask := m, w12 := x } (exec i s) ∧
        (∀ l, l < 64 → (m.getLsbD l = true ↔ k.on l = true ∧ (f l).cond &&& en ≠ 0)) ∧
        (∀ b, b < 8 → (x.getLsbD b = true ↔ ∃ l, l < 64 ∧ m.getLsbD l = true ∧ (f l).cond.testBit b = true)) ∧
        ∀ l, l < 64 → m.getLsbD l = true → (∀ j, j < l → m.getLsbD j = false) → x.toNat / 2 ^ 8 = (f l).col)
    does (.mshape md rows cols) 0 (fun l =>
      { m := some (rows * 8 + cols, (matOf (min rows (rd l)) (min cols (cd l)) fun i j => (melem (d l) i j, 0)).1) }) ∧
    does (.mmul md ma mb) 0 (fun l => if ca l ≠ rb l then marks 4
      else makes (ra l) (cb l) fun i j => sum (fmtF32.mul fm (melem (a l) i 0) (melem (b l) 0 j)) ((List.range (ca l)).drop 1) l i j) ∧
    does (.mmad md ma mb) 0 (fun l => if ca l ≠ rb l ∨ k.w.mshape md l ≠ ra l * 8 + cb l then marks 4
      else makes (ra l) (cb l) fun i j => sum (melem (d l) i j, 0) (List.range (ca l)) l i j) ∧
    does (.madd md ma mb) 0 (fun l => if k.w.mshape ma l ≠ k.w.mshape mb l then marks 4
      else makes (ra l) (ca l) fun i j => fmtF32.add fm (melem (a l) i j) (melem (b l) i j)) ∧
    does (.msub md ma mb) 0 (fun l => if k.w.mshape ma l ≠ k.w.mshape mb l then marks 4
      else makes (ra l) (ca l) fun i j => fmtF32.sub fm (melem (a l) i j) (melem (b l) i j)) ∧
    does (.mtrn md ma) 0 (fun l => makes (ca l) (ra l) fun i j => (melem (a l) j i, 0)) ∧
    does (.mscl md ma src) 0 (fun l => makes (ra l) (ca l) fun i j => fmtF32.mul fm (melem (a l) i j) (k.src src l).toNat) ∧
    does (.msete md v i j) 0 (fun l => if i < rd l ∧ j < cd l then
        { m := some (k.w.mshape md l, (d l).set (6 * i + j) (k.w.vget v l).toNat) } else marks 8) ∧
    MatStep s k 0 v (fun l => { v := some (BitVec.ofNat 32 (melem (a l) i j)) }) (exec (.mgete v ma i j) s) ∧
    (∀ c, ∃ t w, exec (.mstat v c) s = .next t ∧ WaveOnly s t k.h w ∧ Advances k 4 w ∧
      (∀ l, l < 64 → w.vget v l = if k.on l then Sparse.get 0 k.w.msts l else k.w.vget v l) ∧
      (∀ l, l < 64 → Sparse.get 0 w.msts l = if c && k.on l then 0 else Sparse.get 0 k.w.msts l) ∧
      (∀ x, (x < k.w.vkey v ∨ k.w.vkey v + 64 ≤ x) → Sparse.get 0 w.v x = Sparse.get 0 k.w.v x) ∧
      { w.rewound k with v := k.w.v, msts := k.w.msts } = k.w)

/-- R280, R281, R283, R284, R289 to R292: factorisations and solves in each active lane; a pivot that is not above the tolerance is a
condition of its lane, and so is a shape that does not fit; a condition that MTRAPEN enables raises Matrix Exception with the lanes,
their conditions and the pivot index of the lowest; MINV leaves its matrix where the factorisation fails. Each element of a Cholesky
factor, of an LU factor of the permuted matrix and of a solution is the inner product of its entry, one `fma` at a time in ascending
order, with its one division or square root; the pivot of an LU column is the greatest candidate, of rows that tie in the first
column the lowest, and MLUP's permutation holds each row once. Results at issue, flags at completion: the model's choice (log 22). -/
def Obligations.SmallMatrixFactorisations : Prop :=
  (∀ (s : State) (k : Slot) (md ma mb v : Nat) (ch : Bool) (mode : SolveMode), Issues s k 4 → k.w.matrix = true → k.holds [v] →
    let fm : Mode := ⟨(k.csr 0x000).toNat % 8, (k.csr 0x000).getLsbD 3⟩
    let tol := k.csr 0x004
    let a := k.w.mat ma
    let sh := k.w.mshape ma
    let n := fun (l : Nat) => sh l / 8
    let square := fun (l : Nat) => sh l / 8 = sh l % 8
    let cond := fun (c : Nat) (x : Factor) => if x.fail.isSome then c else 0
    let marks := ({ cond := 4 } : MatRes)
    let perm := fun (l : Nat) => if mode = .lu then (List.range (n l)).map fun i => (k.w.vget v l).toNat / 2 ^ (3 * i) % 8
      else List.range (n l)
    let taken := fun (y p : List Nat) => (List.range 36).map fun e => if e / 6 < p.length then melem y (p.getD (e / 6) 0) (e % 6) else 0
    let does := fun (i : Instr) (vd : Nat) (f : Nat → MatRes) =>
      let en := (k.csr 0x005).toNat % 16
      ((∀ l, l < 64 → k.on l = true → (f l).cond &&& en = 0) → MatStep s k md vd f (exec i s)) ∧
      ((∃ l, l < 64 ∧ k.on l = true ∧ (f l).cond &&& en ≠ 0) → ∃ m x, Traps s k { k.trap 0x07 with lmask := m, w12 := x } (exec i s) ∧
        (∀ l, l < 64 → (m.getLsbD l = true ↔ k.on l = true ∧ (f l).cond &&& en ≠ 0)) ∧
        (∀ b, b < 8 → (x.getLsbD b = true ↔ ∃ l, l < 64 ∧ m.getLsbD l = true ∧ (f l).cond.testBit b = true)) ∧
        ∀ l, l < 64 → m.getLsbD l = true → (∀ j, j < l → m.getLsbD j = false) → x.toNat / 2 ^ 8 = (f l).col)
    does (.mchol md ma) 0 (fun l => if ¬ square l then marks else
      let x := chol fm tol (a l) (n l)
      { m := some (sh l, x.m), cond := cond 1 x, col := x.fail.getD 0, flags := x.flags }) ∧
    does (.mlup md ma v) v (fun l => if ¬ square l then marks else
      let x := lu fm tol (a l) (n l)
      { m := some (sh l, x.m), v := some (BitVec.ofNat 32 (((List.range 6).map fun i => x.perm.getD i 0 * 2 ^ (3 * i)).foldl (· + ·) 0)),
        cond := cond 2 x, col := x.fail.getD 0, flags := x.flags }) ∧
    does (.msolv md ma mb v mode) 0 (fun l => if ¬ square l ∨ k.w.mshape mb l / 8 ≠ n l ∨ ¬ (∀ r, r < n l → r ∈ perm l) then marks else
      let c := k.w.mshape mb l % 8
      let x := solve fm mode (a l) (taken (k.w.mat mb l) (perm l)) (n l) c
      { m := some (n l * 8 + c, x.m), flags := x.flags }) ∧
    does (.minv md ma ch) 0 (fun l => if ¬ square l then marks else
      let x := if ch then chol fm tol (a l) (n l) else lu fm tol (a l) (n l)
      if x.fail.isSome then { cond := if ch then 1 else 2, col := x.fail.getD 0, flags := x.flags } else
      let one := (matOf (n l) (n l) fun i j => (if i = j then 0x3F800000 else 0, 0)).1
      let y := solve fm (if ch then .chol else .lu) x.m (taken one (x.perm.take (n l))) (n l) (n l)
      { m := some (sh l, y.m), flags := x.flags ||| y.flags })) ∧
  (∀ (fm : Mode) (tol : Word) (a : List Nat) (n : Nat), n ≤ 6 → a.length = 36 →
    let dot := fun (start : Nat) (ks : List Nat) (p q : Nat → Nat) => ks.foldl (fun (acc : Flagged) k =>
      let r := fmtF32.fma fm true false (p k) (q k) acc.1
      (r.1, acc.2 ||| r.2)) (start, 0)
    let above := fun (x : Nat) => (fmtF32.decode tol.toNat).lt (fmtF32.operand fm.ftz x) = true
    let mag := fun (x : Nat) => fmtF32.operand fm.ftz (x % 2 ^ 31)
    let greater := fun (x y : Nat) => (mag y).isNan = false ∧ ((mag x).isNan = true ∨ (mag y).lt (mag x) = true)
    (let x := chol fm tol a n
      let J := x.fail.getD n
      let L := melem x.m
      let t := fun (j : Nat) => dot (melem a j j) (List.range j) (L j) (L j)
      let u := fun (i j : Nat) => dot (melem a i j) (List.range j) (L i) (L j)
      x.m.length = 36 ∧ (∀ j, x.fail = some j → j < n) ∧
      (∀ j, j < J → above (t j).1 ∧ L j j = (fmtF32.sqrt fm (t j).1).1) ∧ (J < n → ¬ above (t J).1) ∧
      (∀ i j, j < J → j < i → i < n → L i j = (fmtF32.div fm (u i j).1 (L j j)).1) ∧
      (∀ i j, i < 6 → j < 6 → (J ≤ j ∨ i < j ∨ n ≤ i) → L i j = 0) ∧
      ∀ b, x.flags.testBit b = true ↔
        (∃ j, j < n ∧ j ≤ J ∧ (t j).2.testBit b = true) ∨ (∃ j, j < J ∧ (fmtF32.sqrt fm (t j).1).2.testBit b = true) ∨
        ∃ i j, j < J ∧ j < i ∧ i < n ∧ ((u i j).2.testBit b = true ∨ (fmtF32.div fm (u i j).1 (L j j)).2.testBit b = true)) ∧
    (let x := lu fm tol a n
      let J := x.fail.getD n
      let W := melem x.m
      let p := fun (i : Nat) => x.perm.getD i 0
      let after := fun (k i j : Nat) => dot (melem a (p i) j) (List.range k) (W i) fun m => W m j
      let cand := fun (i k : Nat) => after k i k
      x.m.length = 36 ∧ (∀ j, x.fail = some j → j < n) ∧ List.Perm x.perm (List.range 6) ∧ (∀ i, n ≤ i → i < 6 → p i = i) ∧
      (∀ k, k < J → above ((cand k k).1 % 2 ^ 31)) ∧ (J < n → ¬ above ((cand J J).1 % 2 ^ 31)) ∧
      (∀ k j, k < J → k ≤ j → j < n → W k j = (after k k j).1) ∧
      (∀ i k, k < J → k < i → i < n → W i k = (fmtF32.div fm (cand i k).1 (W k k)).1 ∧ ¬ greater (cand i k).1 (cand k k).1) ∧
      (∀ i j, J ≤ i → J ≤ j → i < n → j < n → W i j = 0) ∧ (∀ i j, i < 6 → j < 6 → (n ≤ i ∨ n ≤ j) → W i j = melem a (p i) j) ∧
      (0 < n → ∀ i, i < n → ¬ greater (melem a i 0) (melem a (p 0) 0) ∧ (i < p 0 → greater (melem a (p 0) 0) (melem a i 0))) ∧
      ∀ b, x.flags.testBit b = true ↔
        (∃ i k, k < n ∧ k ≤ J ∧ k ≤ i ∧ i < n ∧ (cand i k).2.testBit b = true) ∨
        (∃ k j, k < J ∧ k < j ∧ j < n ∧ (after k k j).2.testBit b = true) ∨
        ∃ i k, k < J ∧ k < i ∧ i < n ∧ (fmtF32.div fm (cand i k).1 (W k k)).2.testBit b = true) ∧
    (∀ (mode : SolveMode) (y : List Nat) (cols : Nat), y.length = 36 → cols ≤ 6 →
      let x := solve fm mode a y n cols
      let inside := fun (i c : Nat) => i < n ∧ c < cols
      let others := fun (p q : Nat → Nat → Nat) => ∀ i c, i < 6 → c < 6 → ¬ inside i c → q i c = p i c
      -- a step that takes `start` to `done`: entry (i, c) from its own inner product over `ks i`, divided or not
      let step := fun (start done u : Nat → Nat → Nat) (ks : Nat → List Nat) (unit : Bool) (flags : Nat → Bool) =>
        let s := fun (i c : Nat) => dot (start i c) (ks i) (u i) fun k => done k c
        (∀ i c, inside i c → done i c = if unit then (s i c).1 else (fmtF32.div fm (s i c).1 (u i i)).1) ∧ others start done ∧
        ∀ b, flags b = true ↔ ∃ i c, inside i c ∧
          ((s i c).2.testBit b = true ∨ (unit = false ∧ (fmtF32.div fm (s i c).1 (u i i)).2.testBit b = true))
      let below := fun (i : Nat) => List.range i
      let beyond := fun (i : Nat) => (List.range n).filter fun k => decide (i < k)
      ∃ (f : Nat → Nat → Nat) (g h : Nat → Bool), (∀ b, x.flags.testBit b = (g b || h b)) ∧
        match mode with
        | .chol => step (melem y) f (melem a) below false g ∧ step f (melem x.m) (fun i k => melem a k i) beyond false h
        | .lu => step (melem y) f (melem a) below true g ∧ step f (melem x.m) (melem a) beyond false h
        | .lo => step (melem y) (melem x.m) (melem a) below false g ∧ ∀ b, h b = false
        | .up => step (melem y) (melem x.m) (melem a) beyond false g ∧ ∀ b, h b = false))

/-- R278, R279, R286, R209: MLD and MST move each active lane's matrix between its registers and scratchpad, after the
slot's earlier accesses; an instruction of a group without the unit raises Matrix Register Fault; flags merge when an
instruction completes. That a matrix is written when its instruction issues, and its flags merged when it completes, is the
model's choice (log 22). -/
def Obligations.SmallMatrixMemory : Prop :=
  ∀ (s : State) (k : Slot) (md v rows cols : Nat) (place : Nat → Nat), Issues s k 4 → k.heldBack = false →
    let addr := fun (l : Nat) => (k.w.vget v l).toNat
    let words := fun (l : Nat) => k.w.mshape md l / 8 * (k.w.mshape md l % 8)
    (k.w.matrix = false → ∀ i ∈ [Instr.mld md v rows cols, .mst md v, .mmul md v v, .mstat v true],
      Traps s k (k.trap 0x0E) (exec i s)) ∧
    (k.w.matrix = true → k.holds [v] → k.det = false → k.busy = false → 1 ≤ cols → cols ≤ 6 → rows ≤ 6 →
      (∀ l, l < 64 → k.on l = true → addr l % 4 = 0 ∧ s.scrRange k.ctx (addr l) (4 * (rows * cols)) = .ok (place l)) →
      ∃ t w, exec (.mld md v rows cols) s = .next t ∧ WaveOnly s t k.h w ∧ Advances k 4 w ∧
        (∀ n l, l < 64 → if n = md ∧ k.on l = true then
            w.mshape n l = rows * 8 + cols ∧ ∀ i j, i < 6 → j < 6 → Sparse.get 0 w.m ((n * 64 + l) * 36 + (6 * i + j)) =
              if i < rows ∧ j < cols then BitVec.ofNat 32 (s.seenNum k (.scr (place l + 4 * (i * cols + j))) 4) else 0
          else w.mshape n l = k.w.mshape n l ∧
            ∀ e, e < 36 → Sparse.get 0 w.m ((n * 64 + l) * 36 + e) = Sparse.get 0 k.w.m ((n * 64 + l) * 36 + e)) ∧
        { w.rewound k with m := k.w.m, shape := k.w.shape } = k.w) ∧
    (k.w.matrix = true → k.holds [v] → k.det = false → k.busy = false →
      (∀ l, l < 64 → k.on l = true → addr l % 4 = 0 ∧ s.scrRange k.ctx (addr l) (4 * words l) = .ok (place l)) →
      ∃ t w, exec (.mst md v) s = .next t ∧ Map.find t.waves k.h = some w ∧ (∀ g, g ≠ k.h → Map.find t.waves g = Map.find s.waves g) ∧
        Advances k 4 w ∧ w.rewound k = k.w ∧
        (∀ l i j, l < 64 → k.on l = true → (∀ m, l < m → m < 64 → k.on m = true →
            place m + 4 * words m ≤ place l ∨ place l + 4 * words l ≤ place m) →
          i < k.w.mshape md l / 8 → j < k.w.mshape md l % 8 →
          t.num (.scr (place l + 4 * (i * (k.w.mshape md l % 8) + j))) 4 = melem (k.w.mat md l) i j) ∧
        (∀ y, (∀ l n, l < 64 → k.on l = true → n < 4 * words l → y ≠ .scr (place l + n)) → t.byte y = s.byte y) ∧
        { t with waves := s.waves, waiters := s.waiters, scratch := s.scratch } = s) ∧
    (∀ h w f r, Map.find s.waves h = some w → w.flagPend = f :: r →
      ∃ t u, exec (.smallMatrixCompletion h) s = .next t ∧ WaveOnly s t h u ∧ u.fflags = w.fflags ||| f ∧ u.flagPend = r ∧
        { u with fflags := w.fflags, flagPend := w.flagPend } = w)

/-! ## Catalogue and Fitting Engine -/

/-- R299, R304, R312, R313: SLBIND checks the address and the header, answers 0 and changes nothing where one is not
acceptable, and otherwise binds the wave; .init also zeroes entries, log and H3 to H7; .u ends the binding; a binding
that is the catalogue's last takes its live copy and scored set with it. -/
def Obligations.CatalogueBinding : Prop :=
  ∀ (s : State) (k : Slot) (kd a : Nat), Issues s k 4 → k.heldBack = false → k.det = false → k.busy = false →
    let at_ := (k.s a).toNat
    let bound := fun (t : State) (c : Option Nat) (ws : List (HDst × Word)) =>
      ∃ w, Map.find t.waves k.h = some w ∧ Advances k 4 w ∧ w.cat = c ∧ Uniform k w ws ∧
      { w.rewound k with cat := k.w.cat, s := k.w.s, k := k.w.k, held := k.w.held } = k.w ∧
      (∀ g, g ≠ k.h → Map.find t.waves g = Map.find s.waves g)
    let refuses := fun (m : BindMode) => WritesUni s k 4 [(.k kd, 0)] (exec (.slbind m kd a) s)
    -- .u
    (∃ t, exec (.slbind .unbind kd a) s = .next t ∧ bound t none [] ∧ { t with waves := s.waves, waiters := s.waiters, cats := s.cats } = s ∧
      (∀ key, k.w.cat ≠ some key → Map.find t.cats key = Map.find s.cats key) ∧
      (∀ key, k.w.cat = some key → (∃ g w, g ≠ k.h ∧ Map.find s.waves g = some w ∧ w.cat = some key) →
        Map.find t.cats key = Map.find s.cats key) ∧
      (∀ key, k.w.cat = some key → (s.waves.map (·.1)).Pairwise (· < ·) → (∀ g w, g ≠ k.h → Map.find s.waves g = some w → w.cat ≠ some key) →
        Map.find t.cats key = none)) ∧
    -- the address
    (∀ m ∈ [BindMode.bind, .init], at_ % 64 ≠ 0 → ∃ t, Traps s k t (exec (.slbind m kd a) s) ∧ t.cause = 0x06) ∧
    (∀ m ∈ [BindMode.bind, .init], at_ % 64 = 0 → at_ / 2 ^ 28 % 16 ≠ 2 → k.room 1 = true → refuses m) ∧
    -- the header
    (∀ key, at_ % 64 = 0 → at_ / 2 ^ 28 % 16 = 2 → s.scrRange k.ctx at_ 64 = .ok key → k.room 1 = true →
      let live := Map.find s.cats key
      let hdr : List Word := match live with
        | some c => c.hdr ++ List.replicate 7 0
        | none => (List.range 16).map fun i => BitVec.ofNat 32 (s.seenNum k (.scr (key + 4 * i)) 4)
      let h := fun (i : Nat) => (hdr.getD i 0).toNat
      let bits := fun (i hi lo : Nat) => h i / 2 ^ lo % 2 ^ (hi + 1 - lo)
      let len := bits 0 12 0
      let finth := fmtF16.decode (bits 1 15 0)
      let reopth := fmtF16.decode (bits 1 31 16)
      let minf := bits 2 15 0
      let maxf := bits 2 31 16
      let size := (64 + 10 * len + 7) / 8 * 8
      let sound := fun (init : Bool) =>
        bits 0 31 17 = 0 ∧ bits 0 15 13 = 0 ∧ bits 5 31 13 = 0 ∧ bits 6 31 13 = 0 ∧ bits 7 31 13 = 0 ∧ bits 8 31 16 = 0 ∧
        (∀ x ∈ hdr.drop 9, x = 0) ∧ 1 ≤ len ∧ len ≤ 4096 ∧ finth.isNan = false ∧ reopth.isNan = false ∧ finth.lt reopth = false ∧
        minf ≤ len ∧ maxf ≤ len ∧ (maxf ≠ 0 → minf ≤ maxf) ∧
        (init = false → h 5 ≤ len ∧ h 6 ≤ len ∧ h 7 ≤ (if bits 0 16 16 = 1 then h 6 else h 5)) ∧
        (live = none → (s.cats.filter fun e => e.1 / 2 ^ 27 / 4 % 16 == k.g.core / 192).length < 16)
      (¬ sound false → refuses .bind) ∧ (¬ sound true → refuses .init) ∧
      (∀ r, s.scrRange k.ctx at_ size = .error r →
        (∀ m ∈ [BindMode.bind, .init], sound (m == .init) → ∃ t, Traps s k t (exec (.slbind m kd a) s) ∧ t.cause = 0x05 ∧ t.reason = r)) ∧
      (∀ all, s.scrRange k.ctx at_ size = .ok all →
        let cats := fun (t : State) (c : Cat) => ∀ j, Map.find t.cats j = if j = key then some c else Map.find (s.uncat k.h).cats j
        (sound false → ∃ t, exec (.slbind .bind kd a) s = .next t ∧ bound t (some key) [(.k kd, 1)] ∧
          cats t ((Map.find (s.uncat k.h).cats key).getD { hdr := hdr.take 9 }) ∧
          { t with waves := s.waves, waiters := s.waiters, cats := s.cats } = s) ∧
        (sound true → live.isSome = true → refuses .init) ∧
        (sound true → live = none → ∃ t, exec (.slbind .init kd a) s = .next t ∧ bound t (some key) [(.k kd, 1)] ∧
          cats t { hdr := (List.range 9).map fun i => if 3 ≤ i ∧ i < 8 then 0 else hdr.getD i 0 } ∧
          (∀ i, (12 ≤ i ∧ i < 32 ∨ 64 ≤ i ∧ i < size) → t.byte (.scr (key + i)) = 0) ∧
          (∀ y, (∀ i, (12 ≤ i ∧ i < 32 ∨ 64 ≤ i ∧ i < size) → y ≠ .scr (key + i)) → t.byte y = s.byte y) ∧
          { t with waves := s.waves, waiters := s.waiters, cats := s.cats, scratch := s.scratch } = s)))

/-- R301 to R303, R305, R310, R311, R314 to R321: what each slot instruction does to the catalogue the wave is bound
to, and what it answers; without a binding each raises Illegal Instruction. The order of slots whose confidence is NaN
is the model's (log 15), and so is that SLFIN writes no log word at or beyond LEN (log 23), and that an SLEMIT with fewer free places
than records emits as many as there are places (log 77). -/
def Obligations.CatalogueInstructions : Prop :=
  ∀ (s : State) (k : Slot) (d a b : Nat), Issues s k 4 → k.heldBack = false → k.det = false →
    (k.w.cat = none → k.holds [d, d + 1, a, b] →
      ∀ i ∈ [Instr.slscor d a b, .slfin d a, .slropn d a, .slst d a true, .slst d a false, .slkvc d a, .slemit d],
        ∃ t, Traps s k t (exec i s) ∧ t.cause = 0x01 ∧ t.reason = 0) ∧
    (∀ key c, k.w.cat = some key → Map.find s.cats key = some c → k.busy = false →
      let h := fun (i : Nat) => (c.hdr.getD i 0).toNat
      let len := h 0 % 2 ^ 13
      let pass := h 3 % 2 ^ 8
      let ent := fun (s : State) (q : Nat) => ((List.range 8).map fun i => (s.byte (.scr (key + 64 + 8 * q + i))).toNat * 2 ^ (8 * i)).sum
      let e := ent s
      let state := fun (e : Nat) => e % 4
      let conf := fun (e : Nat) => e / 2 ^ 16 % 2 ^ 16
      let kv := fun (e : Nat) => e / 4 % 2 = 1
      let bad := fun (e : Nat) => state e = 3 ∨ e / 2 ^ 56 ≠ 0 ∨ e / 2 ^ 12 % 16 ≠ 0 ∨ e / 8 % 2 = 1 ∨ kv e ∧ state e ≠ 2
      let final := fun (e : Nat) => state e = 2 ∧ ¬ bad e
      let q := fun (l : Nat) => (k.w.vget a l).toNat % 2 ^ 16
      let live := fun (l : Nat) => l < 64 ∧ k.on l = true ∧ q l < len ∧ ¬ bad (e (q l))
      let entries := fun (t : State) (f : Nat → Nat → Prop) => ∀ p, p < len → f p (ent t p)
      let inEntries := fun (y : Loc) => ∃ i, i < 8 * len ∧ y = Loc.scr (key + 64 + i)
      let rest := fun (t : State) => (∀ g, g ≠ k.h → Map.find t.waves g = Map.find s.waves g) ∧
        (∀ j, j ≠ key → Map.find t.cats j = Map.find s.cats j) ∧
        { t with waves := s.waves, waiters := s.waiters, scratch := s.scratch, cats := s.cats } = s
      let status := fun (w : Wave) (d : Nat) (f : Nat → Nat → Prop) =>
        (∀ l, l < 64 → if k.on l then ∃ n, w.vget d l = BitVec.ofNat 32 n ∧ f l n else w.vget d l = k.w.vget d l) ∧
        (∀ x, (x < k.w.vkey d ∨ k.w.vkey d + 64 ≤ x) → Sparse.get 0 w.v x = Sparse.get 0 k.w.v x) ∧ { w.rewound k with v := k.w.v } = k.w
      let header := fun (t : State) (c' : Cat) => Map.find t.cats key = some c' ∧ ∀ i, i < 5 → t.word (.scr (key + 12 + 4 * i)) = c'.hdr.getD (i + 3) 0
      let inHeader := fun (y : Loc) => ∃ i, i < 20 ∧ y = Loc.scr (key + 12 + i)
      -- SLSCOR
      (k.holds [d, a, b] →
        let score := fun (l : Nat) => (k.w.vget a l).toNat / 2 ^ 16
        let open_ := fun (l : Nat) => live l ∧ state (e (q l)) ≠ 2 ∧ (fmtF16.decode (score l)).isNan = false
        let wins := fun (l : Nat) => open_ l ∧ ∀ l', l < l' → open_ l' → q l' ≠ q l
        ∃ t w, exec (.slscor d a b) s = .next t ∧ Map.find t.waves k.h = some w ∧ Advances k 4 w ∧ rest t ∧
          status w d (fun l n => (len ≤ q l ∧ n = 2) ∨ (q l < len ∧ bad (e (q l)) ∧ n = 3) ∨ (live l ∧ state (e (q l)) = 2 ∧ n = 1) ∨
            (live l ∧ state (e (q l)) ≠ 2 ∧ (fmtF16.decode (score l)).isNan = true ∧ n = 5) ∨ (open_ l ∧ ¬ wins l ∧ n = 4) ∨ (wins l ∧ n = 0)) ∧
          entries t (fun p x => (∀ l, wins l → q l = p → x = 1 + pass * 16 + score l * 2 ^ 16 + (k.w.vget b l).toNat % 2 ^ 24 * 2 ^ 32) ∧
            ((∀ l, wins l → q l ≠ p) → x = e p)) ∧
          (∀ y, ¬ inEntries y → t.byte y = s.byte y) ∧
          ∃ sc, Map.find t.cats key = some { c with scored := sc } ∧ ∀ p, p ∈ sc ↔ p ∈ c.scored ∨ ∃ l, wins l ∧ q l = p) ∧
      -- SLROPN
      (k.holds [d, a] →
        let first := fun (l : Nat) => ∀ l', l' < l → live l' → q l' ≠ q l
        ∃ t w, exec (.slropn d a) s = .next t ∧ Map.find t.waves k.h = some w ∧ Advances k 4 w ∧ rest t ∧
          status w d (fun l n => (len ≤ q l ∧ n = 2) ∨ (q l < len ∧ bad (e (q l)) ∧ n = 3) ∨ (live l ∧ state (e (q l)) = 2 ∧ n = 1) ∨
            (live l ∧ state (e (q l)) = 1 ∧ first l ∧ n = 0) ∨ (live l ∧ (state (e (q l)) = 0 ∨ (state (e (q l)) = 1 ∧ ¬ first l)) ∧ n = 6)) ∧
          entries t (fun p x => ((∃ l, live l ∧ q l = p) ∧ state (e p) = 1 → x = pass * 16) ∧
            (¬ ((∃ l, live l ∧ q l = p) ∧ state (e p) = 1) → x = e p)) ∧
          (∀ y, ¬ inEntries y → t.byte y = s.byte y) ∧
          ∃ sc, Map.find t.cats key = some { c with scored := sc } ∧
            ∀ p, p ∈ sc ↔ p ∈ c.scored ∧ ¬ ((∃ l, live l ∧ q l = p) ∧ state (e p) = 1)) ∧
      -- SLKVC
      (k.holds [d, a] → (∀ o ∈ k.w.outs, o.path = .st → o.done = true) →
        let first := fun (l : Nat) => ∀ l', l' < l → live l' → q l' ≠ q l
        ∃ t w, exec (.slkvc d a) s = .next t ∧ Map.find t.waves k.h = some w ∧ Advances k 4 w ∧ rest t ∧
          status w d (fun l n => (len ≤ q l ∧ n = 2) ∨ (q l < len ∧ bad (e (q l)) ∧ n = 3) ∨ (live l ∧ state (e (q l)) ≠ 2 ∧ n = 6) ∨
            (live l ∧ state (e (q l)) = 2 ∧ (kv (e (q l)) ∨ ¬ first l) ∧ n = 7) ∨
            (live l ∧ state (e (q l)) = 2 ∧ ¬ kv (e (q l)) ∧ first l ∧ n = 0)) ∧
          entries t (fun p x => ((∃ l, live l ∧ q l = p) ∧ state (e p) = 2 ∧ ¬ kv (e p) → x = e p + 4) ∧
            (¬ ((∃ l, live l ∧ q l = p) ∧ state (e p) = 2 ∧ ¬ kv (e p)) → x = e p)) ∧
          (∀ y, ¬ inEntries y → t.byte y = s.byte y) ∧ Map.find t.cats key = some c) ∧
      (k.holds [d, a] → (∃ o ∈ k.w.outs, o.path = .st ∧ o.done = false) → Waits s (exec (.slkvc d a) s)) ∧
      -- SLST
      (k.holds [d, d + 1, a] → ∀ acq, WritesRun s k 4 d 2 (fun i l =>
        BitVec.ofNat 32 ((if len ≤ q l then 3 else e (q l)) / 2 ^ (32 * i))) (exec (.slst d a acq) s)) ∧
      -- SLFIN
      (k.holds [a] →
        let scored := (List.range len).filter fun p => decide (p ∈ c.scored ∧ state (e p) = 1 ∧ ¬ bad (e p))
        let finth := h 1 % 2 ^ 16
        let reopth := fmtF16.decode (h 1 / 2 ^ 16)
        let above := (scored.filter fun p => f16ge (conf (e p)) finth).length
        let n := max (if h 2 / 2 ^ 16 = 0 then above else min above (h 2 / 2 ^ 16)) (min (h 2 % 2 ^ 16) scored.length)
        ∃ order, List.Perm order scored ∧
          order.Pairwise (fun x y => slotBefore (x, conf (e x)) (y, conf (e y)) = true) ∧
          ∃ t w, exec (.slfin d a) s = .next t ∧ Map.find t.waves k.h = some w ∧ Advances k 4 w ∧ rest t ∧
            (∀ l, l < 64 → (w.pget d).getLsbD l = if k.on l then decide (q l ∈ order.take n) else (k.w.pget d).getLsbD l) ∧
            (∀ p, p ≠ d → w.pget p = k.w.pget p) ∧ { w.rewound k with p := k.w.p } = k.w ∧
            entries t (fun p x =>
              (p ∈ order.take n → x = 2 + pass * 16 + conf (e p) * 2 ^ 16 + e p / 2 ^ 32 % 2 ^ 24 * 2 ^ 32) ∧
              (p ∈ order.drop n → x = if (fmtF16.decode (conf (e p))).lt reopth then pass * 16 else e p) ∧ (p ∉ order → x = e p)) ∧
            (∃ asc, List.Perm asc (order.take n) ∧ asc.Pairwise (· < ·) ∧
              ∀ i, i < len → (t.num (.scr (key + 64 + 8 * len + 2 * i)) 2) =
                if h 6 ≤ i ∧ i < h 6 + asc.length then asc.getD (i - h 6) 0 else s.num (.scr (key + 64 + 8 * len + 2 * i)) 2) ∧
            (∀ y, ¬ inEntries y → ¬ inHeader y → (∀ i, i < 2 * len → y ≠ .scr (key + 64 + 8 * len + i)) → t.byte y = s.byte y) ∧
            ∃ fpl, fpl ≤ len ∧ (∀ p, p < fpl → final (ent t p)) ∧ (fpl < len → ¬ final (ent t fpl)) ∧
              let nfin := BitVec.ofNat 32 ((h 6 + (order.take n).length) % 2 ^ 13)
              header t { hdr := ((c.hdr.set 3 (c.hdr.getD 3 0 + 1)).set 5 (BitVec.ofNat 32 fpl)).set 6 nfin, scored := [] }) ∧
      -- SLEMIT
      (k.room 1 = true →
        let event := h 0 / 2 ^ 16 % 2 = 1
        let slot := fun (i : Nat) => if event then s.num (.scr (key + 64 + 8 * len + 2 * (h 7 + i))) 2 % 2 ^ 12 else h 7 + i
        let due := fun (i : Nat) => (event → h 7 + i < h 6) ∧ slot i < len ∧ final (e (slot i)) ∧ kv (e (slot i))
        let intake := ((Map.find s.tenants k.l.tenant).map (·.intake)).getD []
        let record := fun (i : Nat) => [c.hdr.getD 4 0 + BitVec.ofNat 32 i, BitVec.ofNat 32 (h 8 * 2 ^ 16 + slot i),
          BitVec.ofNat 32 (e (slot i) / 2 ^ 32 % 2 ^ 24), BitVec.ofNat 32 (conf (e (slot i)) * 2 ^ 16 + e (slot i) / 16 % 2 ^ 8)]
        ∀ r, r ≤ 64 → (∀ i, i < r → due i) → (r < 64 → ¬ due r) →
          let n := min r (256 - intake.length)
          (0 < r → n = 0 → Waits s (exec (.slemit d) s)) ∧
          ((r = 0 ∨ 0 < n) → ∃ t w, exec (.slemit d) s = .next t ∧ Map.find t.waves k.h = some w ∧ Advances k 4 w ∧
            Uniform k w [(.s d, BitVec.ofNat 32 n)] ∧ { w.rewound k with s := k.w.s, k := k.w.k, held := k.w.held } = k.w ∧
            (∀ T, Map.find s.tenants k.l.tenant = some T →
              Map.find t.tenants k.l.tenant = some { T with intake := T.intake ++ (List.range n).map record }) ∧
            (∀ j, j ≠ k.l.tenant → Map.find t.tenants j = Map.find s.tenants j) ∧ rest { t with tenants := s.tenants } ∧
            (∀ y, ¬ inHeader y → t.byte y = s.byte y) ∧
            header t { c with hdr := (c.hdr.set 4 (c.hdr.getD 4 0 + BitVec.ofNat 32 n)).set 7 (BitVec.ofNat 32 ((h 7 + n) % 2 ^ 13)) })))

/-- R331, R336, R342 to R345: FITCFG gives the number of the region of a descriptor, making one where there is none,
or an error code; FITINV makes a region INVALID, FITST reads its status; FITLD and FITSV are sent on CP and completed
later, as weights replaced or written; a training step takes the oldest samples when it begins and changes every
weight when it completes. A number that names no region of the launch in the cluster raises Illegal Instruction. The model's
choices: a region made again keeps STEPS, COMMITTED and its entry (log 24), a new region gets any free number (log 2), and a weight transfer acts on the region that has its number when it
performs (log 78). -/
def Obligations.FittingRegions : Prop :=
  (∀ (s : State) (k : Slot) (d a : Nat) (place : Nat → Loc), Issues s k 4 → k.heldBack = false → k.det = false →
    let va := k.s64 a
    let cluster := k.g.core / 192
    let desc := (List.range 32).map fun i => BitVec.ofNat 32 (s.seenNum k (place i) 4)
    let answers := fun (word : Word) (t : State) => ∃ w, exec (.fitcfg d a) s = .next t ∧ Map.find t.waves k.h = some w ∧
      (∀ g, g ≠ k.h → Map.find t.waves g = Map.find s.waves g) ∧ Advances k 4 w ∧ Uniform k w [(.s d, word)] ∧
      { w.rewound k with s := k.w.s, k := k.w.k, held := k.w.held, walkFaults := k.w.walkFaults,
                         walkLeaves := k.w.walkLeaves } = k.w ∧
      { t with waves := s.waves, waiters := s.waiters, regions := s.regions, tick := s.tick } = s
    let same := fun (word : Word) => ∃ t, answers word t ∧ t.regions = s.regions
    let here := fun (e : Nat × Region) => e ∈ s.regions ∧ e.2.launch = k.g.launch ∧ e.2.va = va ∧ e.1 / 64 = cluster
    let sbuf := dw desc 4
    let inPlace := sbuf / 2 ^ 28 % 16 = 2 ∧ sbuf % 64 = 0 ∧ ∃ key, s.scrRange k.ctx sbuf (4 * (regNin desc + regNout desc) * regCap desc) = .ok key
    (va.toNat % 128 ≠ 0 → ∃ t, Traps s k t (exec (.fitcfg d a) s) ∧ t.cause = 0x06) ∧
    (va.toNat % 128 = 0 → k.room 1 = true →
      (∀ i, i < 32 → ∃ tier pa, s.xlate k.w k.f.side k.core k.l.tenant (va + BitVec.ofNat 64 (4 * i)) 0 = .ok tier pa ∧ place i = s.placeOf tier pa ∧
        s.reaches k.l.tenant (place i) = true) →
      (∀ key r, here (key, r) → (∀ e, here e → e = (key, r)) →
        ∃ t, answers (BitVec.ofNat 32 (key % 64)) t ∧ t.regions = if r.state = 6 then Map.put s.regions key
          { r with state := 1, worst := 0, weights := freshWeights r.desc, slots := [], orders := 1, freePend := false, invs := [], step := none }
          else s.regions) ∧
      ((∀ e, ¬ here e) →
        (regOk desc = false → same 0x80000001) ∧
        (regOk desc = true → ¬ inPlace → same 0x80000003) ∧
        (regOk desc = true → inPlace → (∀ rid, rid < 64 → (Map.find s.regions (cluster * 64 + rid)).isSome = true) → same 0x80000002) ∧
        (regOk desc = true → inPlace → (∃ rid, rid < 64 ∧ Map.find s.regions (cluster * 64 + rid) = none) →
          ∃ t rid, rid < 64 ∧ Map.find s.regions (cluster * 64 + rid) = none ∧ answers (BitVec.ofNat 32 rid) t ∧
            t.regions = Map.put s.regions (cluster * 64 + rid) { launch := k.g.launch, va := va, desc := desc, weights := freshWeights desc })))) ∧
  (∀ (s : State) (k : Slot) (d a b : Nat), Issues s k 4 → k.heldBack = false → k.det = false →
    let rid := (k.s a).toNat
    let key := k.g.core / 192 * 64 + rid
    let illegal := fun (i : Instr) => ∃ t, Traps s k t (exec i s) ∧ t.cause = 0x01 ∧ t.reason = 0
    ((63 < rid ∨ ∀ r, Map.find s.regions key = some r → r.launch ≠ k.g.launch) →
      ∀ i ∈ [Instr.fitinv a true, .fitinv a false, .fitst d a, .fitld a b, .fitsv a b], illegal i) ∧
    (∀ r, rid < 64 → Map.find s.regions key = some r → r.launch = k.g.launch →
      (∀ free, ∃ t w, exec (.fitinv a free) s = .next t ∧ Map.find t.waves k.h = some w ∧ Advances k 4 w ∧ w.rewound k = k.w ∧
        (∀ g, g ≠ k.h → Map.find t.waves g = Map.find s.waves g) ∧
        { t with waves := s.waves, waiters := s.waiters, regions := s.regions } = s ∧ (∀ j, j ≠ key → Map.find t.regions j = Map.find s.regions j) ∧
        Map.find t.regions key = if (r.freePend || free) = true ∧ r.openInv = 0 then none
          else some (let r' : Region := if r.state = 6 then r else { r with state := 6, step := none, worst := 0, invs := [] }
            { r' with freePend := r.freePend || free })) ∧
      (k.room 4 = true → WritesUni s k 4 [(.s d, BitVec.ofNat 32 ((if r.freePend then 8 else 0) + r.state)), (.s (d + 1), BitVec.ofNat 32 r.steps),
        (.s (d + 2), BitVec.ofNat 32 r.committed), (.s (d + 3), r.worst)] (exec (.fitst d a) s)) ∧
      (∀ load, let i := if load then Instr.fitld a b else .fitsv a b
        (k.w.outs.filter fun o => o.counted && o.path == .cp).length < 63 →
        ((k.s64 b).toNat % 4 ≠ 0 → ∃ t, Traps s k t (exec i s) ∧ t.cause = 0x06) ∧
        (∀ locs : List Loc, (k.s64 b).toNat % 4 = 0 → locs.length = regNW r.desc →
          (∀ j x, locs[j]? = some x → ∃ tier pa,
            s.xlate k.w k.f.side k.core k.l.tenant (k.s64 b + BitVec.ofNat 64 (4 * j)) (if load then 0 else 1) = .ok tier pa ∧ x = s.placeOf tier pa) →
          ∃ t w, exec i s = .next t ∧ WaveOnly s t k.h w ∧ Advances k 4 w ∧
            w.outs = k.w.outs ++ [{ seq := k.w.nextSeq, path := .cp, tag := k.tag, acq := false, rel := false, done := false, pc := k.f.pc,
                                    hash := k.w.hash, op := .fit load (k.g.core / 192) rid (k.s64 b) locs, second := k.second,
                                    mask := k.mask }] ∧
            { w.rewound k with outs := k.w.outs, nextSeq := k.w.nextSeq, walkFaults := k.w.walkFaults, walkLeaves := k.w.walkLeaves } = k.w)))) ∧
  (∀ (s : State) (h seq : Nat) (w : Wave) (o : Out) (load : Bool) (cluster rid : Nat) (va : DWord) (locs : List Loc)
    (r : Region), Map.find s.waves h = some w → w.out seq = some o → o.op = .fit load cluster rid va locs → Map.find s.regions (cluster * 64 + rid) = some r →
    s.detWave h = false → (∀ x ∈ locs, s.reaches (s.tenantOf h) x = true) →
    (∀ p ∈ w.outs, p.seq < o.seq → p.done = false → tagOrdered p.tag o.tag = true → p.isAccess = false) →
    (load = false → locs.Pairwise fun x y => ∀ i j, i < 4 → j < 4 → x.add i ≠ y.add j) →
    ∃ t u, exec (.fitTransferCompletion h seq) s = .next t ∧ Map.find t.waves h = some u ∧ (∀ g, g ≠ h → Map.find t.waves g = Map.find s.waves g) ∧
      u.outs = retireOuts (w.outs.map fun p => if p.seq = seq then { p with done := true } else p) [] ∧ { u with outs := w.outs } = w ∧
      (load = true → { t with waves := s.waves, regions := s.regions } = s ∧ ∀ j, Map.find t.regions j = if j ≠ cluster * 64 + rid then
          Map.find s.regions j else some { r with
            weights := locs.map s.word, step := none, state := if r.state = 6 then 6 else 3, worst := if r.state = 6 then r.worst else 0,
            trial := if r.state = 6 then r.trial else 0 }) ∧
      (load = false → (∀ j x, locs[j]? = some x → t.word x = r.weights.getD j 0) ∧
        (∀ y, (∀ x ∈ locs, ∀ i, i < 4 → y ≠ x.add i) → t.byte y = s.byte y) ∧
        { t with waves := s.waves, mem := s.mem, scratch := s.scratch, regions := s.regions, codeLog := s.codeLog, codeCount := s.codeCount } = s)) ∧
  (∀ (s : State) (cluster rid : Nat) (r : Region), Map.find s.regions (cluster * 64 + rid) = some r →
    let n := regNin r.desc
    let words := fun (e : Nat × Sample) => (List.range (n + regNout r.desc)).map fun i => s.word (.scr (sampleKey cluster r e.1 + 4 * i))
    let batch := r.samples.take (regB r.desc)
    let puts := fun (i : Instr) (r' : Region) => exec i s = .next { s with regions := Map.put s.regions (cluster * 64 + rid) r' }
    (r.state = 2 → r.step = none → regB r.desc ≤ r.samples.length →
      (r.samples.Pairwise fun x y => x.2.order ≤ y.2.order) ∧
      ∃ r', puts (.trainingStepBegin cluster rid) r' ∧ r'.step = some (batch.map fun e => ((words e).take n, (words e).drop n)) ∧
        (∀ i, Map.find r'.slots i = (Map.find r.slots i).map fun x => if i ∈ batch.map (·.1) then { x with state := 3 } else x) ∧
        { r' with step := r.step, slots := r.slots } = r) ∧
    (r.state ≠ 2 ∨ r.step ≠ none ∨ r.samples.length < regB r.desc → Waits s (exec (.trainingStepBegin cluster rid) s)) ∧
    (∀ xs, r.step = some xs → puts (.trainingStepCompletion cluster rid) (
      let w := (train r.desc r.wts (xs.map fun e => (e.1.map (·.toNat), e.2.map (·.toNat)))).map (BitVec.ofNat 32)
      let r1 : Region := { r with weights := w, step := none, steps := r.steps + 1, round := r.round + 1 }
      if r.state = 2 ∧ dw r.desc 8 ≤ r.round + 1 then { r1 with state := 3, worst := 0, trial := 0 } else r1)) ∧
    (r.step = none → Waits s (exec (.trainingStepCompletion cluster rid) s)))

/-- R330 to R335, R338 to R341, R492: APXB gives substituted lanes the surrogate's results, captures running lanes,
counts and pushes two levels; APXE commits the samples of the lanes that arrive, compares them where the state says
so, moves the region on and joins the substituted lanes again. Bad entries and ends raise Illegal Control Transfer
reason 5, and an APXE whose resolved OUT register has lost its block Register Window Fault. The inputs and results compared are those in the sample buffer, by the model's choice (log 24). An APXB that is the
region's first walks for the pages of its body that miss, and records those that have a translation (R332). -/
def Obligations.ApproximableRegions : Prop :=
  (∀ (s : State) (k : Slot) (a : Nat) (r : Region), Issues s k 4 → k.heldBack = false → k.det = false →
    let rid := (k.s a).toNat
    let key := k.g.core / 192 * 64 + rid
    (k.second = true → Waits s (exec (.apxb a) s)) ∧
    (k.second = false → (63 < rid ∨ ∀ x, Map.find s.regions key = some x → x.launch ≠ k.g.launch) →
      ∃ t, Traps s k t (exec (.apxb a) s) ∧ t.cause = 0x01 ∧ t.reason = 0) ∧
    (k.second = false → rid < 64 → Map.find s.regions key = some r → r.launch = k.g.launch →
      let d := r.desc
      let ins := regIns d
      let outs := regOuts d
      let word := fun (l j : Nat) => k.w.vget (ins.getD j 0) l
      let x := fun (l : Nat) => (List.range ins.length).map (word l)
      let fits := fun (xs : List Word) => ∀ v ∈ xs, finite v.toNat = true
      let y := fun (l : Nat) => surrogate d r.wts ((x l).map (·.toNat))
      let on := fun (l : Nat) => l < 64 ∧ k.on l = true
      let sub := fun (l : Nat) => on l ∧ r.state = 4 ∧ (Sparse.get 0 k.w.ic l).toNat % regS d ≠ 0 ∧ fits (x l) ∧ ∀ v ∈ y l, finite v = true
      let endpc := k.f.pc + BitVec.ofNat 64 (4 * regLen d)
      (∀ e, r.entry = some e → e ≠ k.f.pc → Traps s k (k.trap 0x02 5) (exec (.apxb a) s)) ∧
      ((∀ e, r.entry = some e → e = k.f.pc) → k.holds (ins ++ outs) →
        (8 + k.w.spill < k.w.stack.length + 2 →
          Traps s k { k.trap 0x0C with w12 := BitVec.ofNat 32 k.w.stack.length } (exec (.apxb a) s)) ∧
        -- the pages of the body, which only the region's first APXB needs
        let pages := (List.range ((k.f.pc.toNat + 4 * regLen d) / 4096 - k.f.pc.toNat / 4096 + 1)).map fun i =>
          (BitVec.ofNat 64 ((k.f.pc.toNat / 4096 + i) * 4096) : DWord)
        let leaf := fun (va : DWord) => s.xlate k.w k.f.side k.g.core k.l.tenant va 4
        (k.w.stack.length + 2 ≤ 8 + k.w.spill → k.busy = false → r.entry = none → (∃ va ∈ pages, leaf va = .miss) →
          exec (.apxb a) s = .next (s.missAll k 4 (pages.filter fun va => leaf va == .miss))) ∧
        (k.w.stack.length + 2 ≤ 8 + k.w.spill → k.busy = false → k.deep 4 (k.w.stack.length + 2) = false →
          (r.entry = none → ∀ va ∈ pages, leaf va ≠ .miss) →
          ((∃ l, on l ∧ ¬ sub l) ∨ (k.w.second = none ∧ k.w.hloops = [] ∧ k.f.mask ≠ 0 ∧ k.f.again = none ∧ suspendedTop k.w.stack = false ∧
            k.w.held = [])) →
          ∃ (cap : List (Nat × Nat)) (subs : Mask) (t : State) (w : Wave) (r' : Region),
            exec (.apxb a) s = .next t ∧ Map.find t.waves k.h = some w ∧ (∀ g, g ≠ k.h → Map.find t.waves g = Map.find s.waves g) ∧
            { w.rewound k with v := k.w.v, ic := k.w.ic, stack := k.w.stack, walkFaults := k.w.walkFaults, walkLeaves := k.w.walkLeaves } =
              k.w ∧ t.nextReq = s.nextReq + 1 ∧
            (∀ y, (∀ e ∈ cap, ∀ j, j < 4 * ins.length → y ≠ sampleKey (k.g.core / 192) r e.2 + j) → t.byte (.scr y) = s.byte (.scr y)) ∧
            { t with waves := s.waves, waiters := s.waiters, scratch := s.scratch, regions := s.regions, nextReq := s.nextReq } = s ∧
            (∀ j, j ≠ key → Map.find t.regions j = Map.find s.regions j) ∧
            -- the lanes
            (∀ l, l < 64 → (subs.getLsbD l = true ↔ sub l)) ∧
            (∀ i l, i < outs.length → l < 64 → (∀ j, i < j → j < outs.length → outs.getD j 0 ≠ outs.getD i 0) →
              (sub l → w.vget (outs.getD i 0) l = BitVec.ofNat 32 ((y l).getD i 0)) ∧
              (¬ sub l → w.vget (outs.getD i 0) l = k.w.vget (outs.getD i 0) l)) ∧
            (∀ j l, l < 64 → j ∉ outs → w.vget j l = k.w.vget j l) ∧
            (∀ l, l < 64 → Sparse.get 0 w.ic l = Sparse.get 0 k.w.ic l + if k.on l then 1 else 0) ∧
            -- the captures
            ((∃ l, on l ∧ ¬ sub l) → Map.find t.regions key = some r' ∧ Map.find r'.invs s.nextReq = some cap ∧ r'.openInv = r.openInv + 1) ∧
            (cap.map (·.1)).Pairwise (· < ·) ∧ (cap.map (·.2)).Nodup ∧
            (cap.Pairwise fun e f => (r.slotAt e.2).order ≤ (r.slotAt f.2).order) ∧
            (∀ e ∈ cap, on e.1 ∧ ¬ sub e.1 ∧ fits (x e.1) ∧ r.state ≠ 6 ∧ e.2 < regCap d ∧ (r.slotAt e.2).state ≠ 1 ∧
              (∀ j, j < ins.length → t.word (.scr (sampleKey (k.g.core / 192) r e.2 + 4 * j)) = word e.1 j) ∧
              ∀ i, i < regCap d → i ∉ cap.map (·.2) → (r.slotAt i).state ≠ 1 →
                (r.slotAt e.2).order < (r.slotAt i).order ∨ ((r.slotAt e.2).order = (r.slotAt i).order ∧ e.2 < i)) ∧
            (r.state ≠ 6 → ∀ l, on l → ¬ sub l → fits (x l) → l ∉ cap.map (·.1) → ∀ i, i < regCap d → i ∉ cap.map (·.2) → (r.slotAt i).state = 1) ∧
            ((∃ l, on l ∧ ¬ sub l) → (∀ i, i ∉ cap.map (·.2) → Map.find r'.slots i = Map.find r.slots i) ∧
              (∀ e ∈ cap, (r'.slotAt e.2).state = 1) ∧ r'.entry = some k.f.pc ∧ (r.entry.isSome = true → r'.pages = r.pages) ∧
              (r.entry = none → ∀ n, n ∈ r'.pages ↔ ∃ va ∈ pages, ∃ tier pa, leaf va = .ok tier pa ∧ n = (s.placeOf tier pa).key / 4096) ∧
              r'.state = (if r.state = 5 ∧ r.hold ≤ k.lanes.length then 2 else r.state) ∧
              r'.hold = (if r.state = 5 then r.hold - k.lanes.length else r.hold)) ∧
            -- the flow
            ((∃ l, on l ∧ ¬ sub l) → ∃ f masks addr, w.first = some f ∧ w.second = none ∧ f.pc = k.f.pc + 4 ∧ f.side = k.f.side ∧
              (∀ l, l < 64 → (f.mask.getLsbD l = true ↔ on l ∧ ¬ sub l)) ∧
              w.stack = masks :: addr :: k.w.suspendSecond.stack ∧ masks = .apxMasks (maskOf (cap.map (·.1))) subs ∧
              addr = .apxAddr endpc k.f.side rid ((cap.map (·.2)).headD 0) s.nextReq (outs.map fun j => (j, k.w.vkey j))) ∧
            ((∀ l, on l → sub l) → w.stack = k.w.stack ∧ w.first.map Frag.shape = some (endpc + 4, k.f.mask, k.f.side, none) ∧ w.second = none)))) ∧
  (∀ (s : State) (k : Slot), Issues s k 4 → k.heldBack = false → k.det = false →
    ((∀ cap sub e o rid slot inv outs r, k.w.stack ≠ .apxMasks cap sub :: .apxAddr e o rid slot inv outs :: r) →
      Traps s k (k.trap 0x02 5) (exec .apxe s)) ∧
    (∀ cap sub endpc o rid slot inv outs below,
      k.w.stack = .apxMasks cap sub :: .apxAddr endpc o rid slot inv outs :: below →
      (k.f.pc ≠ endpc → Traps s k (k.trap 0x02 5) (exec .apxe s)) ∧
      (∀ before x after, k.f.pc = endpc → outs = before ++ x :: after → (∀ y ∈ before, y.2 / 2048 < k.w.blocks) → k.w.blocks ≤ x.2 / 2048 →
        Traps s k { k.trap 0x0B with w12 := BitVec.ofNat 32 (x.1 * 256 + 6) } (exec .apxe s)) ∧
      (k.f.pc = endpc → (∀ x ∈ outs, x.2 / 2048 < k.w.blocks) → k.busy = false → k.w.hloops = [] → k.w.frag (!k.second) = none →
        suspendedTop below = false → k.mask ||| sub ≠ 0 → k.w.held = [] →
        ∃ t w, exec .apxe s = .next t ∧ Map.find t.waves k.h = some w ∧ (∀ g, g ≠ k.h → Map.find t.waves g = Map.find s.waves g) ∧
          w.stack = below ∧ w.first.map Frag.shape = some (endpc + 4, k.mask ||| sub, o, none) ∧ w.second = none ∧
          { w.rewound k with stack := k.w.stack } = k.w ∧
          { t with waves := s.waves, waiters := s.waiters, scratch := s.scratch, regions := s.regions } = s ∧
          let key := k.g.core / 192 * 64 + rid
          (Map.find s.regions key = none → t.regions = s.regions ∧ t.scratch = s.scratch) ∧
          (∀ r, Map.find s.regions key = some r → outs.length = regNout r.desc →
            let d := r.desc
            let nin := regNin d
            let caps := (Map.find r.invs inv).getD []
            let y := fun (l : Nat) => k.w.wordsAt (outs.map (·.2)) l
            let done := fun (e : Nat × Nat) => decide (e.1 < 64 ∧ k.on e.1 = true ∧ cap.getLsbD e.1 = true ∧ ∀ v ∈ y e.1, finite v.toNat = true)
            let x := fun (i : Nat) => (List.range nin).map fun j => (s.word (.scr (sampleKey (k.g.core / 192) r i + 4 * j))).toNat
            let n := (caps.filter done).length
            let bad := caps.any fun e => done e && tooFar d (laneError d (surrogate d r.wts (x e.2)) ((y e.1).map (·.toNat)))
            (caps.map (·.1)).Nodup → (caps.map (·.2)).Nodup →
            (∀ e ∈ caps, done e = true → ∀ j, j < regNout d →
              t.word (.scr (sampleKey (k.g.core / 192) r e.2 + 4 * (nin + j))) = (y e.1).getD j 0) ∧
            (r.freePend = true → r.state = 6 → r.openInv = 1 → Map.find t.regions key = none) ∧
            (¬ (r.freePend = true ∧ r.state = 6 ∧ r.openInv ≤ 1) → ∃ r', Map.find t.regions key = some r' ∧ r'.openInv = r.openInv - 1 ∧
              Map.find r'.invs inv = none ∧ r'.committed = r.committed + n ∧
              (∀ i, (r'.slotAt i).state = match caps.find? fun e => e.2 == i with
                | some e => if Map.find r.slots i = none then 0 else if done e then 2 else 3
                | none => (r.slotAt i).state) ∧
              r'.state = (if r.state = 1 then (if regB d ≤ r'.samples.length then 2 else 1)
                else if r.state = 3 then (if bad then 2 else if regTlen d ≤ r.trial + n then 4 else 3)
                else if r.state = 4 then (if bad then 5 else 4) else r.state) ∧
              (r.state = 3 → bad = false → r.trial + n < regTlen d → r'.trial = r.trial + n) ∧
              (r.state = 4 → bad = true → r'.hold = dw d 7) ∧ r'.weights = r.weights))))))

/-! ## Launches, scheduling, determinism and the host -/

/-- R431, R438 to R440: SYSC sends a request once the slot's earlier accesses have performed and, in a second slot, two
held writes have room, and waits; the Milliner serves it, with a status and for each function its effect; the completion
writes status and result and the slot goes on. The pages a MAP takes are the model's operand (log 8); that the Milliner
walks at once for what it reads is log 13; the status of a function beyond the table, of an image that cannot be read and
of an image for an imprecise or retired trap, and what RESUME and SKIP of these do, is log 29; what MAP counts as mapped,
and which wave of a shared WAVEID SIGNAL takes, is log 30; that an ABORT's group ends with a KILL that the Curator sends is
log 37. That a slot that comes to its SYSC again finds its own request and waits for it, and that a request takes no fault
identifier, is log 28 (DEDUCED). -/
def Obligations.SystemCalls : Prop :=
  (∀ (s : State) (k : Slot) (d fn : Nat), Issues s k 4 → k.heldBack = false → k.det = false →
    let mine := fun (e : Nat × Sysc) => e ∈ s.syscs ∧ e.2.wave = k.h ∧ e.2.side = k.f.side ∧ e.2.pc = k.f.pc ∧ e.2.inH = k.w.isHandler k.f
    ((∃ e, mine e) ∨ k.busy = true ∨ k.room 2 = false → Waits s (exec (.sysc d fn) s)) ∧
    ((∀ e, ¬ mine e) → k.busy = false → k.room 2 = true → exec (.sysc d fn) s = .next { s with
      nextReq := s.nextReq + 1
      syscs := Map.put s.syscs s.nextReq { wave := k.h, side := k.f.side, tenant := k.l.tenant, fn := fn, d := d,
                                           args := (List.range 8).map fun i => k.s (d + i), pc := k.f.pc, mask := k.mask,
                                           inH := k.w.isHandler k.f } })) ∧
  (∀ (s : State) (req : Nat) (r : Sysc), Map.find s.syscs req = some r →
    (∀ status k, (if 8 < r.fn then some (r.status.getD 1) else r.status) = some status → s.caller r = some k → k.room 2 = true → k.det = false →
      ∃ t w, exec (.sysCompletion req) s = .next t ∧ Map.find t.waves k.h = some w ∧ (∀ g, g ≠ k.h → Map.find t.waves g = Map.find s.waves g) ∧
        Advances k 4 w ∧ Uniform k w [(.s r.d, status), (.s (r.d + 1), r.result)] ∧
        { w.rewound k with s := k.w.s, k := k.w.k, held := k.w.held } = k.w ∧
        { t with waves := s.waves, waiters := s.waiters, syscs := s.syscs } = s ∧ t.syscs = Map.erase s.syscs req) ∧
    (r.fn ≤ 8 → r.status = none → Waits s (exec (.sysCompletion req) s)) ∧
    (s.caller r = none → Waits s (exec (.sysCompletion req) s)) ∧
    (r.status = none → r.inval = none → r.posting = false →
      let serve := fun (t : State) (v : Word) => { t with syscs := Map.modify t.syscs req fun x => { x with status := some v } }
      let arg := fun (i : Nat) => r.args.getD i 0
      let va : DWord := arg 1 ++ arg 0
      let n := (arg 2).toNat
      (r.fn = 0 → exec (.sysNull req) s = .next (serve s 0)) ∧
      -- MAP
      (r.fn = 1 → ∀ T h l pages, Map.find s.tenants r.tenant = some T → s.launchOf r.wave = some (h, l) →
        let flags := (arg 3).toNat
        let tier := flags / 2 ^ 6 % 4
        let sound := n ≠ 0 ∧ va.toNat % 4096 = 0 ∧ flags &&& 0xDC = flags ∧ tier ≠ 3 ∧ canonicalRange va n = true
        let free := ∀ i, i < n → s.lookup T r.tenant (va.toNat / 4096 + i) = none
        let fits := ∀ c ∈ l.chain, ∀ m, c.memb = some m → T.memb c.va + 4096 * n ≤ m
        (¬ sound → exec (.sysMap req pages) s = .next (serve s 2)) ∧ (sound → ¬ free → exec (.sysMap req pages) s = .next (serve s 2)) ∧
        (sound → free → ¬ fits → ∀ k, s.caller r = some k →
          exec (.sysMap req pages) s = .next ({ s with syscs := Map.erase s.syscs req }.trap k (k.trap 0x30))) ∧
        (sound → free → fits → s.pagesFree tier pages = true → ∀ t ps ms,
          (List.range n).foldl (fun (acc : Option (State × List Nat × List Mapped)) i => acc.bind fun a =>
            (a.1.mapPage (va.toNat / 4096 + i) flags tier 5 0 T.rootTier T.rootPA a.2.1).map fun x =>
              (x.1, x.2.1, a.2.2 ++ [{ page := va.toNat / 4096 + i, tier := tier, pa := x.2.2 * 4096, chain := l.chain.map (·.va) }]))
            (some (s, pages, [])) = some (t, ps, ms) → ps = [] →
          exec (.sysMap req pages) s = .next (serve { t with tenants := Map.modify t.tenants r.tenant fun T =>
            { T with mapped := T.mapped ++ ms } } 0)) ∧
        -- one page whose table is there
        (∀ (u : State) (page tt tp p : Nat) (rest : List Nat), tier < 3 →
          let at_ := (u.placeOf tt (tp + 8 * (page % 512))).key
          let here := fun (i : Nat) => (u.placeOf tier (p * 4096)).key + i
          ∃ t, u.mapPage page flags tier 1 4 tt tp (p :: rest) = some (t, rest, p) ∧
            (∀ i, i < 8 → t.byte (.mem (at_ + i)) = BitVec.ofNat 8 ((p * 4096 + flags + 3) / 2 ^ (8 * i))) ∧
            (∀ i, i < 4096 → (∀ j, j < 8 → here i ≠ at_ + j) → t.byte (.mem (here i)) = 0) ∧
            (∀ y, (∀ j, j < 8 → y ≠ .mem (at_ + j)) → (∀ i, i < 4096 → y ≠ .mem (here i)) → t.byte y = u.byte y))) ∧
      -- UNMAP
      (r.fn = 2 → ∀ T, Map.find s.tenants r.tenant = some T →
        let page := va.toNat / 4096
        let sound := n ≠ 0 ∧ va.toNat % 4096 = 0 ∧ n ≤ T.mapped.length ∧ ∀ i, i < n → ∃ m ∈ T.mapped, m.page = page + i
        (¬ sound → exec (.sysUnmap req) s = .next (serve s 2)) ∧
        (sound → exec (.sysUnmap req) s = .next (State.awaitInval (
          let t := (List.range n).foldl (fun s i => s.unmapPage (page + i) 5 0 T.rootTier T.rootPA) s
          { t with tenants := Map.modify t.tenants r.tenant fun T =>
            { T with mapped := T.mapped.filter fun m => !(decide (page ≤ m.page) && decide (m.page < page + n)) } }) req r.tenant va (4096 * n)))) ∧
      -- RESUME, SKIP, ABORT
      (∀ c ∈ [(3, Instr.sysResume req), (4, .sysSkip req), (5, .sysAbort req)], r.fn = c.1 → s.faulted r.tenant (arg 0) = none →
        exec c.2 s = .next (serve s 3)) ∧
      (∀ h w stop k, s.faulted r.tenant (arg 0) = some (h, w, stop) → ((w.bySide stop.side).bind fun e => s.slotOf h e.1) = some k → w.errs = [] →
        Map.find s.waves h = some w →
        let settled := s.settled h (arg 0).toNat
        let image : DWord := arg 3 ++ arg 2
        let c := s.codeAt k 3
        let past := w.setFrag k.second (some (k.after (c.2.length k)))
        (r.fn = 3 → exec (.sysResume req) s = .next (serve (settled.setWave h { w with stop := none }) 0)) ∧
        (r.fn = 4 → stop.retired = false → stop.trap.precise = true → image = 0 → exec (.sysSkip req) s =
          .next (serve ((c.1.settled h (arg 0).toNat).setWave h { past with stop := none }) 0)) ∧
        (r.fn = 4 → stop.retired = false → stop.trap.precise = true → image ≠ 0 →
          let none_ := ∃ t, exec (.sysSkip req) s = .next (serve t 2) ∧ Map.find t.waves h = Map.find s.waves h
          (∀ i, c.2 = .ok i → ∀ d,
            (∃ a b x n, i = .ldg d a b 2 ∨ i = .lds d a b 2 ∨ i = .ldgX d a b 2 x ∨ i = .ldsX d a b 2 n) →
            -- every word read: lane l of RMASK has the word at image + 4l
            let word := fun (t : State) (l : Nat) => (t.hostRead r.tenant (image + BitVec.ofNat 64 (4 * l)) 4)
            let reads := (lanesOf stop.trap.rmask).foldl (fun (a : Option (State × List (Nat × Word))) l => a.bind fun a =>
              (word a.1 l).2.map fun bs => ((word a.1 l).1, a.2 ++ [(l, (bs.getD 3 0 ++ bs.getD 2 0 ++ bs.getD 1 0 ++ bs.getD 0 0 : Word))]))
              (some (c.1, []))
            (∀ t xs, reads = some (t, xs) → ∃ v, exec (.sysSkip req) s =
                .next (serve ((t.settled h (arg 0).toNat).setWave h { past with stop := none, v := v }) 0) ∧
              (∀ l x, (l, x) ∈ xs → Sparse.get 0 v (k.w.vkey d + l) = x) ∧
              (∀ j, (∀ l ∈ lanesOf stop.trap.rmask, j ≠ k.w.vkey d + l) → Sparse.get 0 v j = Sparse.get 0 w.v j)) ∧
            (reads = none → none_)) ∧
          ((∀ i, c.2 = .ok i → imageReg i = none) → none_)) ∧
        (r.fn = 4 → (stop.retired = true ∨ stop.trap.precise = false) → image = 0 →
          exec (.sysSkip req) s = .next (serve (settled.setWave h { w with stop := none }) 0)) ∧
        (r.fn = 4 → (stop.retired = true ∨ stop.trap.precise = false) → image ≠ 0 → exec (.sysSkip req) s = .next (serve s 2)) ∧
        (r.fn = 5 → exec (.sysAbort req) s = .next (serve { settled with
          waves := Map.put s.waves h { w with stop := some { stop with route := .killing } }, kills := s.kills ++ [w.group] } 0))) ∧
      -- SIGNAL, NOTIFY, INVAL
      (r.fn = 6 → (s.waveByID r.tenant (arg 0) = none → exec (.sysSignal req) s = .next (serve s 2)) ∧
        (∀ h w, s.waveByID r.tenant (arg 0) = some h → Map.find s.waves h = some w →
          exec (.sysSignal req) s = .next (serve (s.setWave h (if w.pending.length < 8 then
            { w with pending := w.pending ++ [(1, (arg 1).toNat % 2 ^ 16)] } else { w with lost := min 255 (w.lost + 1) })) 0))) ∧
      (r.fn = 7 → ∃ t, exec (.sysNotify req) s = .next t ∧ t.syscs = (Map.put s.syscs req { r with posting := true }) ∧
        { t with syscs := s.syscs, devs := s.devs } = s ∧
        ∀ d, Map.find s.devs r.tenant = some d → ∀ q, Map.find d.vqs 1 = some q →
          Map.find t.devs r.tenant = some { d with vqs := Map.put d.vqs 1 { q with recs := q.recs ++ [(req, r.args)] } }) ∧
      (r.fn = 8 → let len := (arg 3 ++ arg 2 : DWord).toNat
        let whole := va.toNat % 4096 = 0 ∧ len ≠ 0 ∧ len % 4096 = 0
        (¬ whole → exec (.sysInval req) s = .next (serve s 2)) ∧
        (whole → exec (.sysInval req) s = .next (s.awaitInval req r.tenant va len)))))

/-- R400, R401, R405, R406, R408 to R411, R413, R416, R418, R423: SPAWN appends one item per active lane to a queue,
or hands one record per active lane to a node's batches, waits for room, and raises Illegal Instruction where it must;
a batch of 64 records, or one whose timer has lapsed, is launched; the first pending gang that fits is placed and its
waves begin; gangs age and slots are boosted. That a SPAWN to a queue, however many items it appends, is one event for the
phases of KIND 1 that count pushes into it is log 31. How reservations and ageing shape the capacity that a gang is tried on, and
that a gang is placed while its command links have permits, is the model's reading (log 37), as are the limits on sums of
scratchpad (log 61), the wait for a WAVEID that is still held (log 63), the cycle in which a lapsed timer is acted on
(log 62), and since when a slot counts as ready (log 43). -/
def Obligations.WorkIsSpawnedAndPlaced : Prop :=
  (∀ (s : State) (k : Slot) (d a b : Nat), Issues s k 4 → k.heldBack = false → k.det = false →
    let n := k.lanes.length
    let illegal := fun (i : Instr) => ∃ t, Traps s k t (exec i s) ∧ t.cause = 0x01 ∧ t.reason = 0
    -- to a queue
    (k.busy = true → Waits s (exec (.spawn false d a b) s) ∧ Waits s (exec (.spawn true d a b) s)) ∧
    (k.busy = false → k.w.boundTo d = none → illegal (.spawn false d a b)) ∧
    (∀ key qu, k.busy = false → s.boundQueue k d = some (key, qu) →
      (qu.cap < n ∨ 128 < a + qu.itemw → illegal (.spawn false d a b)) ∧
      (n ≤ qu.cap → a + qu.itemw ≤ 128 → k.holds ((List.range qu.itemw).map (a + ·)) →
        let fill := (qu.tail - qu.head).toNat
        let slot := fun (i : Word) => key + 32 + 4 * qu.itemw * (i.toNat % qu.cap)
        let lane := fun (j : Nat) => k.lanes.getD j 0
        (fill + n ≤ qu.cap → (∃ e, qu.cap = 2 ^ e ∧ e ≤ 32) → s.queueWaiter key true = none → s.queueWaiter key false = none →
          ∃ t w, exec (.spawn false d a b) s = .next t ∧ Map.find t.waves k.h = some w ∧ Advances k 4 w ∧
            (∀ g, g ≠ k.h → Map.find t.waves g = Map.find s.waves g) ∧ { w.rewound k with binds := k.w.binds } = k.w ∧
            Map.find t.queues key = some { qu with tail := qu.tail + BitVec.ofNat 32 n } ∧
            (∀ j, j ≠ key → Map.find t.queues j = Map.find s.queues j) ∧
            (0 < n → t.word (.scr (key + 8)) = qu.tail + BitVec.ofNat 32 n) ∧
            (∀ j i, j < n → i < qu.itemw → t.word (.scr (slot (qu.tail + BitVec.ofNat 32 j) + 4 * i)) = k.w.vget (a + i) (lane j)) ∧
            (∀ y, (∀ j i, j < n → i < 4 * qu.itemw → y ≠ .scr (slot (qu.tail + BitVec.ofNat 32 j) + i)) →
              (∀ i, i < 8 → y ≠ .scr (key + 4 + i)) → t.byte y = s.byte y) ∧
            (∀ j, Map.find t.phases j = (Map.find s.phases j).map fun p =>
              let es := p.entries.map fun e => if e.1 = 1 ∧ e.2.1 = key then (e.1, e.2.1, e.2.2 - 1) else e
              { p with entries := es, complete := p.complete || es.all fun e => e.2.2 == 0 }) ∧
            { t with waves := s.waves, waiters := s.waiters, scratch := s.scratch, queues := s.queues, phases := s.phases } = s) ∧
        (0 < n → qu.cap < fill + n → (∀ x ∈ s.waiters, x.wave = k.h → x.side ≠ k.f.side) →
          exec (.spawn false d a b) s = .next { s with waiters := s.waiters ++ [⟨k.h, k.f.side,
            .push d ((List.range n).map fun j => (List.range qu.itemw).map fun i => k.w.vget (a + i) (lane j))⟩] }))) ∧
    -- to a node
    (let m := (k.s b).toNat
    let l := k.l.lapse s.cycle
    (k.busy = false → k.l.block.nodes.length ≤ m → illegal (.spawn true d a b)) ∧
    (∀ nd, k.busy = false → k.l.block.nodes[m]? = some nd →
      (128 < a + nd.recw → illegal (.spawn true d a b)) ∧
      (a + nd.recw ≤ 128 → k.holds ((List.range nd.recw).map (a + ·)) →
        -- the node's batches that are not placed, its open one once what has lapsed is launched, and what they still take
        let held : List Batch := l.batches.filter fun b => b.node == m
        let room := (nd.backlog - held.length) * 64 + ((held.find? fun b => !b.launched).map fun b => 64 - b.recs.length).getD 0
        (room < n → Waits s (exec (.spawn true d a b) s)) ∧
        (n ≤ room → ∃ t w, exec (.spawn true d a b) s = .next t ∧ Map.find t.waves k.h = some w ∧ Advances k 4 w ∧ w.rewound k = k.w ∧
          (∀ g, g ≠ k.h → Map.find t.waves g = Map.find s.waves g) ∧ { t with waves := s.waves, waiters := s.waiters, launches := s.launches } = s ∧
          (∀ j, j ≠ k.g.launch → Map.find t.launches j = Map.find s.launches j) ∧
          Map.find t.launches k.g.launch = some ((List.range n).foldl (fun l j =>
            l.takeRecord m s.cycle ((List.range nd.recw).map fun i => k.w.vget (a + i) (k.lanes.getD j 0))) k.l)))))) ∧
  -- batches: what has lapsed is launched, in the order of first records, before a record enters
  (∀ (x : Launch) (m now : Nat) (r : List Word),
    let y := x.lapse now
    let open_ := fun (b : Batch) => b.node = m ∧ b.launched = false
    ((∀ b ∈ y.batches, ¬ open_ b) → x.takeRecord m now r = { y with batches := y.batches ++ [{ node := m, recs := [r], since := now }] }) ∧
    (∀ before b after, y.batches = before ++ b :: after → open_ b → (∀ c ∈ before ++ after, ¬ open_ c) →
      (b.recs.length < 63 → x.takeRecord m now r = { y with batches := before ++ { b with recs := b.recs ++ [r] } :: after }) ∧
      (b.recs.length = 63 → x.takeRecord m now r = { y with
        batches := before ++ { b with recs := b.recs ++ [r], launched := true, num := y.nbatch } :: after
        pend := y.pend ++ [{ gang := nodeGangs + y.nbatch }], nbatch := y.nbatch + 1 }))) ∧
  (∀ (x : Launch) (now : Nat), (∀ (i j : Nat) (b c : Batch), i < j → x.batches[i]? = some b → x.batches[j]? = some c → b.launched = false →
      c.launched = false → b.node ≠ c.node) →
    let lapsed := fun (b : Batch) => !b.launched && (x.block.nodes.getD b.node {}).timer != 0 &&
      decide (b.since + (x.block.nodes.getD b.node {}).timer < now)
    let n := (x.batches.filter lapsed).length
    ∃ bs, x.lapse now = { x with
        batches := bs, pend := x.pend ++ (List.range n).map fun i => { gang := nodeGangs + x.nbatch + i }, nbatch := x.nbatch + n } ∧
      ∀ i, bs[i]? = (x.batches[i]?).map fun b => if lapsed b then
        { b with launched := true, num := x.nbatch + ((x.batches.take i).filter lapsed).length } else b) ∧
  (∀ (s : State) (launch node : Nat) (x : Launch), Map.find s.launches launch = some x →
    let lapsed := (x.block.nodes.getD node {}).timer ≠ 0 ∧
      ∃ b ∈ x.batches, b.node = node ∧ b.launched = false ∧ b.since + (x.block.nodes.getD node {}).timer < s.cycle
    (x.block.det = false → x.killed = none → lapsed → exec (.nodeBatchTimer launch node) s =
      .next (({ s with launches := Map.put s.launches launch (x.lapse s.cycle) }).revisit (s.partOf x))) ∧
    (x.block.det = true ∨ x.killed.isSome = true ∨ ¬ lapsed → Waits s (exec (.nodeBatchTimer launch node) s))) ∧
  -- placement: the pending gangs in the order of R413, and the first that fits within its budgets
  (∀ (s : State) (part : Nat), let ws := s.pending part
    ws.Pairwise (fun a b => keysLt b.key a.key = false) ∧
    (∀ w, w ∈ ws ↔ ∃ e ∈ s.launches, s.partOf e.2 = some part ∧ ∃ p ∈ e.2.pend, w = ⟨e.1, e.2, p⟩) ∧
    (∀ before w after gs, ws = before ++ w :: after → (∀ e ∈ before, e.p.since.isSome = true ∧ s.tryPlace part (s.freeOf (s.clustersOf part)) e = none) →
      s.tryPlace part (s.freeOf (s.clustersOf part)) w = some gs → s.visit part = (s, some (w, gs)) ∧ s.budgetsHold w.x gs = true)) ∧
  (∀ (s : State) (part : Nat), let z := s.visit part
    (z.2 = none → exec (.place part) s = .next z.1) ∧
    (∀ w gs, z.2 = some (w, gs) → w.p.saved = false → z.1.permitted gs = true → exec (.place part) s =
      .next ((gs.foldl (fun s g => s.startGroup part w g) (z.1.unpend w.l w.p.gang)).revisit (some part)))) ∧
  (∀ (s : State) (part gh : Nat) (x : Launch) (g : Group) (i : Nat) (recs : List (List Word)),
    ∃ w, Map.find (s.startWave part gh x g i recs).waves s.nextWave = some w ∧ w.group = gh ∧ w.idx = i ∧ w.second = none ∧ w.stack = [] ∧
      w.outs = [] ∧ w.blocks = g.regs ∧ w.wb = 0 ∧ w.frm = 0 ∧ w.uivec = 0 ∧ w.k = [] ∧ w.p = [] ∧
      (g.node = none → w.v = [] ∧ (w.first.map fun f => (f.pc, f.mask, f.side)) =
        some (x.block.code + ((x.block.roles.getD g.role {}).entry).zeroExtend 64, BitVec.allOnes 64, false)) ∧
      (∀ j, Sparse.get 0 w.s j = if g.node = none ∧ j < 16 then x.record.getD j 0 else 0) ∧
      (∀ b, g.node = some b → recs.length ≤ 64 → ∀ j l, j < (x.block.nodes.getD g.role {}).recw → l < recs.length →
        w.vget j l = (recs.getD l []).getD j 0) ∧
      (x.handlerOf = none → x.block.det = true ∨ x.recording = true ∨ x.replaying = true → w.waveid = BitVec.ofNat 32 (g.grpid * 16 + i)) ∧
      ∀ h, h ≠ s.nextWave → Map.find (s.startWave part gh x g i recs).waves h = Map.find s.waves h) ∧
  (∀ (s : State) (launch gang : Nat) (x : Launch), Map.find s.launches launch = some x →
    ∃ t, exec (.ageingLimit launch gang) s = .next t ∧ { t with launches := s.launches } = s ∧
      (∀ j, j ≠ launch → Map.find t.launches j = Map.find s.launches j) ∧
      ∃ ps, Map.find t.launches launch = some { x with pend := ps } ∧ ps.length = x.pend.length ∧
        ∀ (i : Nat) (p q : Pend), x.pend[i]? = some p → ps[i]? = some q →
          (p.gang = gang ∧ (∃ c, p.since = some c ∧ c + 262144 ≤ s.cycle) → q = { p with aged := true }) ∧
          (¬ (p.gang = gang ∧ ∃ c, p.since = some c ∧ c + 262144 ≤ s.cycle) → q = p)) ∧
  -- the boost of a slot that has waited
  (∀ (s : State) (wave : Nat) (second v : Bool) (w : Wave), Map.find s.waves wave = some w →
    let at_ := (if second then 2 else 0) + (if v then 1 else 0)
    (∀ c, Map.find w.since at_ = some c → c + 256 ≤ s.cycle → at_ ∉ w.boosts →
      exec (.starvationBoost wave second v) s = .next (s.setWave wave { w with boosts := w.boosts ++ [at_] })) ∧
    ((∀ c, Map.find w.since at_ = some c → s.cycle < c + 256) ∨ at_ ∈ w.boosts → Waits s (exec (.starvationBoost wave second v) s)) ∧
    -- the count runs while the slot is ready, and starts again once it is not
    (∀ n now, (Map.find (w.noteReady n now true).since n = some ((Map.find w.since n).getD now) ∧ (w.noteReady n now true).boosts = w.boosts) ∧
      Map.find (w.noteReady n now false).since n = none ∧ n ∉ (w.noteReady n now false).boosts) ∧
    -- a boosted slot ranks before one that is not
    (∀ k j, s.starved k.w (bit k.second * 2 + bit v) = true → s.starved j.w (bit j.second * 2 + bit v) = false →
      keysLt (s.rank k v) (s.rank j v) = true))

/-- R385, R397, R404, R419, R429, R434, R436 to R438, R441, R442, R444, R446, R466, R467, R478: a gang is pre-empted, saved
into shadows, restored and made resident; a fault gets the tenant's next free identifier and goes to a handler group, to the
host or kills its launch; a killed launch's groups end, while what they have issued goes on; a group whose waves are over is gone
with its allocations, every write of it performed at system scope; a launch with nothing left completes, once its log is written,
with status 0, 16 or 38. That a handler group's fault acts on the launch it serves is log 35; that the log's open runs and header
are written at completion, and a killed deterministic launch's buffered operations perform at its commit, is log 38. A gang saved, a gang restored, a fault and a group's end are reports, which wait for a permit
of their link and are acted on in its order (R421). Which gang is the victim and which gang fits is the model's reading of
R413 to R419 (log 37); that a deterministic gang does not stop within a commit, nor while what it has issued needs one, is
log 44; that a visit follows each change is log 37. -/
def Obligations.PreemptionFaultsAndEnds : Prop :=
  -- a report that is due is sent once every link has a permit left, and acted on once it is the next of each of its links
  let sends := fun (s : State) (r : Report) (clusters : List Nat) (res : Res) => (∀ e ∈ s.reports, e.2 ≠ r) →
    if ∀ c ∈ clusters, (s.reports.filter fun e => e.1 == c).length < 16 then res = .next { s with reports := s.reports ++ clusters.map fun c => (c, r) }
    else Waits s res
  let acts := fun (s : State) (r : Report) => (∃ e ∈ s.reports, e.2 = r) ∧
    ∀ e ∈ s.reports, e.2 = r → (s.reports.find? fun f => f.1 == e.1).map (·.2) = some r
  let heard := fun (s : State) (r : Report) => { s with reports := s.reports.filter fun e => e.2 != r }
  (∀ (s : State) (launch gang : Nat) (x : Launch), Map.find s.launches launch = some x →
    let gs := s.gangOn launch gang
    let living := fun (l : Life) => gs.filter fun e => e.2.life == l
    let lives := fun (l m : Life) (s : State) => (living l).foldl (fun s e => s.modGroup e.1 fun g => { g with life := m }) s
    -- PREEMPT: the waves lose their waiting places, but for a WAITP's threshold
    (∀ part v, s.partOf x = some part → s.victim part = some v → v.l = launch → v.p.gang = gang → s.permitted (gs.map (·.2)) = true →
      s.mayStop x gs = true → exec (.preempt launch gang) s = .next {
        gs.foldl (fun s e => s.modGroup e.1 fun g => { g with life := if g.life = .resident then .stopping else g.life }) s with
        waiters := s.waiters.filter fun q => !(gs.any fun e => e.2.waves.contains q.wave) || (match q.on with
          | .waitp _ => true
          | _ => false) }) ∧
    (s.mayStop x gs = false ∨ (s.partOf x).bind s.victim = none → Waits s (exec (.preempt launch gang) s)) ∧
    -- SAVED
    (let gs := living .stopping
    let cores := (gs.map (·.2.core)).eraseDups
    let r := Report.saved launch gang
    gs ≠ [] → (∀ e ∈ gs, ∀ w ∈ s.wavesOf e.2, w.flagPend = [] ∧ ∀ o ∈ w.outs, o.done = true ∨ match o.op with
        | .load _ | .tile _ _ _ _ _ _ _ | .atomic _ _ _ _ _ _ => False
        | _ => o.path ≠ .tl) →
      (∀ c ∈ cores, ((Map.find s.shadows c).getD []).length < 2) →
      sends s r (gs.map fun e => e.2.core / 192).eraseDups (exec (.saved launch gang) s) ∧
      (acts s r → exec (.saved launch gang) s = .next (State.revisit (
        let t := lives .stopping .saved (heard s r)
        let shadows := cores.foldl (fun m c =>
          Map.put m c (((Map.find m c).getD []) ++ [((gs.find? fun e => e.2.core == c).map (·.1)).getD 0])) t.shadows
        ({ t with shadows := shadows }).modLaunch launch fun x => { x with pend := x.pend ++
          [({ gang := gang, target := cores, since := some s.cycle, saved := true } : Pend)] }) (s.partOf x)))) ∧
    -- RESTORE, RESTORED
    (∀ part w ws, s.partOf x = some part → (s.visit part).2 = some (w, ws) → w.l = launch → w.p.gang = gang → w.p.saved = true →
      (s.visit part).1.permitted ws = true → exec (.restore launch gang) s = .next (State.revisit (
        (((s.visit part).1.gangOn launch gang).filter fun e => e.2.life == .saved).foldl
          (fun s e => s.modGroup e.1 fun g => { g with life := .restoring }) ((s.visit part).1.unpend launch gang)) (some part))) ∧
    (let gs := living .restoring
    let r := Report.restored launch gang
    gs ≠ [] → sends s r (gs.map fun e => e.2.core / 192).eraseDups (exec (.restored launch gang) s) ∧
      (acts s r → exec (.restored launch gang) s = .next { lives .restoring .resident (heard s r) with
        shadows := s.shadows.map fun e => (e.1, e.2.filter fun h => !(gs.any fun g => g.1 == h)) })) ∧
    (∀ c ∈ [(Life.stopping, Instr.saved launch gang), (.restoring, .restored launch gang)], living c.1 = [] → (∀ e ∈ s.reports, e.2 ≠ .saved launch gang ∧
      e.2 ≠ .restored launch gang) → Waits s (exec c.2 s))) ∧
  (∀ (s : State) (core : Nat), exec (.shadowStreamOut core) s =
    .next { s with shadows := Map.modify s.shadows core fun xs => xs.drop 1 }) ∧
  -- FAULT
  (∀ (s : State) (h l : Nat) (x : Launch) (w : Wave) (t : Stop), Map.find s.waves h = some w → s.launchOf h = some (l, x) → w.stop = some t →
    let root := x.handlerOf.getD l
    let r := Report.fault h
    (t.route ≠ .unsent → (∀ e ∈ s.reports, e.2 ≠ r) → Waits s (exec (.fault h) s)) ∧
    (t.route ≠ .unsent → acts s r → exec (.fault h) s = .next (heard s r)) ∧
    (t.route = .unsent → ∀ X, Map.find s.launches root = some X → X.killed = none →
      sends s r ((s.coreOf h).map (· / 192)).toList (exec (.fault h) s) ∧
      (acts s r → ∀ n T, Map.find s.tenants x.tenant = some T →
        n = s.freshFid x.tenant T.nextFid (s.waves.length + 1) →
        let stopped := fun (r : Route) => { w with stop := some { t with fid := n, route := r } }
        let rcb := x.chain.headD {}
        let act := (X.chain.headD {}).notify
        ((s.faulted x.tenant (BitVec.ofNat 32 T.nextFid) = none → n = T.nextFid) ∧
        (x.handlerOf.isSome = true ∨ rcb.handler = none → ∃ u, exec (.fault h) s = .next u ∧
          Map.find u.tenants x.tenant = some { T with nextFid := n % (2 ^ 32 - 1) + 1 } ∧
          (∀ g, g ≠ h → Map.find u.waves g = Map.find s.waves g) ∧
          Map.find u.waves h = some (stopped (if act then .posting else .killing)) ∧
          (act = true → u.launches = s.launches ∧ ∀ D, Map.find s.devs X.tenant = some D → ∃ D' q, Map.find u.devs X.tenant = some D' ∧
            Map.find D'.vqs 0 = some q ∧ q.recs = ((Map.find D.vqs 0).map (·.recs)).getD [] ++ [(n, s.recordOf w { t with fid := n })]) ∧
          (act = false → u.devs = s.devs ∧ Map.find u.launches root = some { X with killed := some n } ∧
            ∀ j, j ≠ root → Map.find u.launches j = Map.find s.launches j)) ∧
        (∀ va, x.handlerOf = none → rcb.handler = some va →
          let given : State := { heard s r with
            waves := Map.put s.waves h { w with stop := some { t with fid := n } }
            tenants := Map.put s.tenants x.tenant { T with nextFid := n % (2 ^ 32 - 1) + 1 } }
          (s.handlersOf l < 16 → x.handlerQueue = [] → exec (.fault h) s = .next (given.startHandler l h n va)) ∧
          (16 ≤ s.handlersOf l ∨ x.handlerQueue ≠ [] → exec (.fault h) s = .next ((given.setRoute h .queued).modLaunch l fun x =>
            { x with handlerQueue := x.handlerQueue ++ [n] }))))))) ∧
  -- the record of a trap
  (∀ (t : Trap) (fid : Nat) (id : Word) (grp : Nat), t.cause < 2 ^ 8 → t.reason < 2 ^ 8 → t.access < 8 →
    let r := trapRecord t fid id grp
    r.length = 16 ∧ (r.getD 0 0).toNat % 2 ^ 8 = t.cause ∧ (r.getD 0 0).toNat / 2 ^ 8 % 2 ^ 8 = t.reason ∧
      (r.getD 0 0).getLsbD 16 = t.second ∧ (r.getD 0 0).getLsbD 17 = t.precise ∧ r.getD 1 0 = BitVec.ofNat 32 fid ∧
      (r.getD 3 0 ++ r.getD 2 0 : BitVec 64) = t.pc ∧ (r.getD 5 0 ++ r.getD 4 0 : BitVec 64) = t.addr ∧
      (r.getD 7 0 ++ r.getD 6 0 : BitVec 64) = t.paddr ∧ (r.getD 9 0 ++ r.getD 8 0 : BitVec 64) = t.lmask ∧
      (r.getD 11 0 ++ r.getD 10 0 : BitVec 64) = t.rmask ∧ r.getD 12 0 = t.w12 ∧ r.getD 13 0 = t.w13 ∧ r.getD 14 0 = id ∧
      r.getD 15 0 = BitVec.ofNat 32 grp) ∧
  -- KILL
  (∀ (s : State) (launch : Nat) (x : Launch), Map.find s.launches launch = some x →
    -- the groups that an ABORT has ended
    (x.killed = none → exec (.kill launch) s = .next ((s.kills.filter fun gh => match Map.find s.groups gh with
      | some g => g.launch == launch || (Map.find s.launches g.launch).bind (·.handlerOf) == some launch
      | none => true).foldl State.killGroup s)) ∧
    (x.killed.isSome = true → (∀ e ∈ s.launches, e.2.handlerOf ≠ some launch) → exec (.kill launch) s = .next (State.revisit (
      ((s.groups.filter fun e => e.2.launch == launch).map (·.1)).foldl State.killGroup (s.modLaunch launch fun x =>
        { x with pend := [], batches := [], handlerQueue := [] })) (s.partOf x)))) ∧
  (∀ (s : State) (gh : Nat) (g : Group), Map.find s.groups gh = some g → g.life ≠ .ending → g.life ≠ .retired →
    (s.permitted [g] = false → s.killGroup gh = s) ∧
    (s.permitted [g] = true → gh ∉ (s.killGroup gh).kills ∧ (Map.find (s.killGroup gh).groups gh).map (·.life) =
      some (if g.life = .saved then .retired else .ending) ∧
      -- its waves run no more, and what they have issued and buffered is kept
      ∀ h w, h ∈ g.waves → Map.find s.waves h = some w → w.stack = [] → ∃ w', Map.find (s.killGroup gh).waves h = some w' ∧
        w'.first = none ∧ w'.second = none ∧ w'.outs = w.outs ∧ w'.qops = w.qops)) ∧
  -- ENDED and LAUNCH_COMPLETION
  (∀ (s : State) (group : Nat) (g : Group) (x : Launch), Map.find s.groups group = some g → Map.find s.launches g.launch = some x →
    g.life ≠ .saved → g.life ≠ .restoring → s.groupOver group g = true → s.turnToRetire x g = true →
    let r := Report.ended group
    let t := ((heard s r).widen 5 fun f => f.group == group).retire group g
    sends s r [g.core / 192] (exec (.ended group) s) ∧
      (acts s r → exec (.ended group) s = .next (((t.flush g.launch).handlerOver g.launch x g.fid).revisit (s.partOf x))) ∧
      Map.find t.groups group = none ∧ (∀ h ∈ g.waves, Map.find t.waves h = none) ∧ (∀ h, h ∉ g.waves → Map.find t.waves h = Map.find s.waves h) ∧
      (∀ i, i < 2 ^ 27 → t.byte (.scr (coreKey group + i)) = 0) ∧
      ((∀ e ∈ s.groups, e.1 ≠ group → e.2.launch = g.launch → e.2.core / 192 ≠ g.core / 192) →
        (∀ i, i < 2 ^ 27 → t.byte (.scr (clusterKey g.launch (g.core / 192) + i)) = 0) ∧
        ∀ e ∈ t.regions, ¬ (e.1 / 64 = g.core / 192 ∧ e.2.launch = g.launch)) ∧
      (∀ f ∈ t.flight, f.group ≠ group) ∧ (s.flight = [] → t.mem = s.mem)) ∧
  (∀ (s : State) (launch : Nat) (x : Launch), Map.find s.launches launch = some x →
    (s.launchOver launch x = false ∨ x.handlerOf.isSome = true → Waits s (exec (.launchCompletion launch) s)) ∧
    (s.launchOver launch x = true → x.handlerOf = none →
      let cluster := (((s.partOf x).map s.clustersOf).getD []).headD 0
      let t := if x.recording = false then s
        else if x.log.closed = true then s.pump launch none
        else (s.flushLog launch cluster).modLaunch launch fun x => { x with log := { x.log with closed := true } }
      ∀ y, Map.find t.launches launch = some y →
        -- a write of the log waits for its translation
        (y.log.todo ≠ [] → exec (.launchCompletion launch) s = .next t) ∧
        (y.log.todo = [] → exec (.launchCompletion launch) s = .next (
          let u := { t with launches := Map.erase t.launches launch }
          ((if x.killed = some 0 then u.resetOver x.tenant else u).complete x.ring x.seq
            (match x.killed with
              | none => 0
              | some 0 => 38
              | some _ => 16) (x.killed.getD 0) (wordsOfBytes x.signature)).removed x.tenant))))

/-- R307, R346, R431, R448 to R450, R452, R454: in a deterministic launch a quantum ends with the wave's QUANTUM-th instruction
or with an instruction that the table defers to the commit; a round is committed once it has ended, in turns of ascending
WAVEID that apply each wave's buffered operations in program order, its deferred instruction last; then engine
commands, TMOVs and FITLDs; then, when every SYSC has completed, user interrupts are delivered and each wave begins its next
quantum. Which accesses count as performed at a turn is log 54, that a store's byte waits for the wave's earlier atomic to it is
log 64, that the commit stands at a turn or at a late operation that has to wait and goes on from there is log 39 (R307 says so of
SLEMIT), that the timers of nodes lapse at the round's end is log 62, and that RACQ.try is illegal whatever it asks for is
log 59. -/
def Obligations.DeterministicRounds : Prop :=
  (∀ (s : State) (h l : Nat) (w : Wave) (x : Launch), Map.find s.waves h = some w → s.launchOf h = some (l, x) →
    (x.block.det = true → w.qstate = .running → x.block.quantum ≤ w.qret →
      exec (.quantumEnd h) s = .next { s with waves := Map.put s.waves h { w with qstate := .ended none } }) ∧
    (x.block.det = false ∨ w.qstate ≠ .running ∨ w.qret < x.block.quantum → Waits s (exec (.quantumEnd h) s))) ∧
  (∀ (s : State) (k : Slot) (d fn : Nat), Issues s k 4 → k.heldBack = false → k.det = true → k.w.qstate = .running → k.second = false →
    let defers := fun (i : Instr) => exec i s = .next { s with waves := Map.put s.waves k.h { k.w with qstate := .ended (some i) } }
    defers .qend ∧ defers .yield ∧
    ((∀ e ∈ s.syscs, e.2.wave ≠ k.h) → defers (.sysc d fn)) ∧
    (∀ q a kd, (q = 1 ∨ q = 3) → defers (.qpop d q) ∧ defers (.qtry .pop kd a q)) ∧
    (∀ q a kd key qu, s.boundQueue k q = some (key, qu) → 8 ≤ q → a + qu.itemw ≤ 64 →
      defers (.qpsh q a) ∧ defers (.qpop a q) ∧ ∀ op, defers (.qtry op kd a q)) ∧
    (∀ node q a b, defers (.spawn node q a b) ∧ defers (.qbind true q a b) ∧ defers (.slbind .unbind a b)) ∧
    (k.holds [d, d + 1] → s.catOf k ≠ none → ∀ acq, defers (.slropn d d) ∧ defers (.slkvc d d) ∧ defers (.slst d d acq)) ∧
    (s.catOf k ≠ none → defers (.slemit d))) ∧
  (∀ (s : State) (k : Slot) (d a b : Nat), Issues s k 4 → k.heldBack = false → k.det = true → k.second = false →
    ∀ i ∈ [Instr.fitst d a, .fitsv a b, .racq true d b], ∃ t, Traps s k t (exec i s) ∧ t.cause = 0x01 ∧ t.reason = 0) ∧
  -- presented at the commit, a deferred instruction runs as in any other launch
  (∀ (s : State) (m : BindMode) (op : QtryOp) (u : Bool) (d a b q : Nat),
    ∀ i ∈ [Instr.qpsh q a, .qpop d q, .qtry op d a q, .qbind u q a b, .spawn u d a b, .phbeg d a, .fitcfg d a, .slbind m d a, .slscor d a b,
      .slfin d a, .slropn d a, .slst d a u, .slkvc d a, .slemit d, .sysc d q, .yield, .qend], s.runDeferred i = exec i s) ∧
  (∀ (s : State) (l : Nat), (s.waves.map (·.1)).Pairwise (· < ·) → (s.inTurn l).Pairwise (fun g h => ∀ v w,
      Map.find s.waves g = some v → Map.find s.waves h = some w → v.waveid.toNat ≤ w.waveid.toNat)) ∧
  (∀ (s : State) (l : Nat) (x : Launch), Map.find s.launches l = some x →
    (x.commit = none → s.roundEnded l x = false → Waits s (exec (.roundCommit l) s)) ∧
    (x.commit = none → s.roundEnded l x = true → s.windows = [] → exec (.roundCommit l) s =
      .next (State.turnsFrom l x false (s.inTurn l) { s with launches := Map.put s.launches l { x with commit := some (.turns (s.inTurn l)) } })) ∧
    (∀ hs, x.commit = some (.turns hs) → exec (.roundCommit l) s = .next (State.turnsFrom l x true hs s)) ∧
    (∀ ops, x.commit = some (.late ops) → exec (.roundCommit l) s = .next (State.lateFrom l x ops s)) ∧
    (x.commit = some .calls → exec (.roundCommit l) s = .next (s.endRound l x))) ∧
  (∀ (s : State) (l : Nat) (x : Launch), s.roundEnded l x = true →
    x.block.det = true ∧ x.commit = none ∧ s.inTurn l ≠ [] ∧
    (∀ e ∈ s.groups, e.2.launch = l → e.2.life ∈ [Life.resident, .ending, .retired]) ∧ ∀ h ∈ s.inTurn l, ∀ w, Map.find s.waves h = some w →
      (w.first = none ∧ w.second = none) ∨ w.stop ≠ none ∨ w.qstate ≠ .running ∨ x.block.quantum ≤ w.qret) ∧
  -- the turns, in order: a wave's operations, then its last instruction; one that has to wait is where the commit stands
  (∀ (s : State) (l : Nat) (x : Launch) (h : Nat) (r : List Nat),
    State.turnsFrom l x false [] s = s.turnsOver l x ∧
    (s.windows = [] → (∀ g ∈ s.inTurn l, ∀ q ∈ s.opsOf g, s.isLate g q = true) →
      let t := (s.inTurn l).foldl State.returnAtomics s
      s.turnsOver l x = State.lateFrom l x ((s.inTurn l).flatMap fun g => ((t.opsOf g).filter fun q => t.isLate g q).map fun q => (g, q)) t) ∧
    (∀ w, Map.find s.waves h = some w → w.qops = [] →
      (∀ t, s.lastAct h = some t → State.turnsFrom l x false (h :: r) s = State.turnsFrom l x false r t) ∧
      (s.lastAct h = none → State.turnsFrom l x false (h :: r) s = s.modLaunch l fun x => { x with commit := some (.turns (h :: r)) }))) ∧
  -- a wave's operations, in program order
  (∀ (s : State) (l h : Nat) (later : List Nat) (q : QOp) (ops : List QOp) (wait : List (Nat × QOp)),
    let z := s.applyOp h l q
    (s.isLate h q = true → State.takeOps l later h (q :: ops) wait s = State.takeOps l later h ops wait s) ∧
    (s.isLate h q = false → z.1.windows = [] →
      (z.2 = true → State.takeOps l later h (q :: ops) wait s =
        State.takeOps l later h ops wait (z.1.modWave h fun w => { w with qops := w.qops.erase q })) ∧
      (z.2 = false → State.takeOps l later h (q :: ops) wait s = State.takeOps l later h ops (wait ++ [(h, q)]) z.1))) ∧
  -- a store whose bytes have no earlier access left to wait for
  (∀ (s : State) (l h : Nat) (w : Wave) (o : Out) (secs : List StSec), Map.find s.waves h = some w → w.out o.seq = some o →
    o.op = .store secs → o.rel = false → o.bad = [] → s.flight = [] →
    (∀ c ∈ secs, ∀ e ∈ c.bytes, s.reaches (s.tenantOf h) e.1 = true ∧
      ∀ p ∈ w.outs, p.seq < o.seq → p.done = false → tagOrdered p.tag o.tag = true → p.touches e.1 1 = false) →
    ∃ t u, s.applyOp h l (.out o.seq) = (t, true) ∧
      (∀ y, t.byte y = ((secs.flatMap fun c => c.bytes).reverse.find? (fun (e : Loc × Byte) => e.1 == y)).elim (s.byte y) (·.2)) ∧
      Map.find t.waves h = some u ∧ u.outs = retireOuts (w.outs.map fun p => if p.seq = o.seq then { p with done := true } else p) [] ∧
      { u with outs := w.outs } = w ∧ ∀ g, g ≠ h → Map.find t.waves g = Map.find s.waves g) ∧
  -- step 1: one operation at a time
  (∀ (s : State) (l : Nat) (x : Launch) (h : Nat) (q : QOp) (r : List (Nat × QOp)),
    State.lateFrom l x [] s = ((s.lapseNodes l).revisit (s.partOf x)).endRound l x ∧
    (∀ t, s.applyLate h q = .ok t → State.lateFrom l x ((h, q) :: r) s =
      State.lateFrom l x r (t.modWave h fun w => { w with qops := w.qops.erase q })) ∧
    (∀ t, s.applyLate h q = .error t → State.lateFrom l x ((h, q) :: r) s =
      t.modLaunch l fun x => { x with commit := some (.late ((h, q) :: r)) })) ∧
  -- the end of a round
  (∀ (s : State) (l : Nat) (x : Launch), Map.find s.launches l = some x →
    (∀ e ∈ s.syscs, e.2.wave ∈ s.inTurn l → s.endRound l x = { s with launches := Map.put s.launches l { x with commit := some .calls } }) ∧
    ((∀ e ∈ s.syscs, e.2.wave ∉ s.inTurn l) → ∀ h w, s.inTurn l = [h] → Map.find s.waves h = some w → w.pending = [] →
      (∀ f, w.first = some f → f.endPend = false) →
      ∃ u, s.endRound l x = { s with
          waves := Map.put s.waves h u, waiters := s.waiters.filter fun q => q.wave != h
          launches := Map.put s.launches l { x with round := x.round + 1, commit := none, seen := s.codeCount } } ∧
        u = { w with quanta := w.quanta + 1, qret := 0, own := [], badWord := none, qstate :=
          if w.stop.isSome then .ended none
          else match w.qstate with
            | .ended (some i) => .ended (some i)
            | _ => .running }) ∧
    -- a pending user interrupt is delivered between the rounds
    ((∀ e ∈ s.syscs, e.2.wave ∉ s.inTurn l) → ∀ h w f source payload rest, s.inTurn l = [h] → Map.find s.waves h = some w →
      w.first = some f → f.endPend = false → f.again = none → w.stop = none → w.inH = false → w.uivec.getLsbD 0 = true → w.en % 2 = 1 →
      w.pending = (source, payload) :: rest →
      ∃ u g, Map.find (s.endRound l x).waves h = some u ∧ u.pending = rest ∧ u.first = some g ∧ g.mask = f.mask ∧ g.side = f.side ∧
        g.pc = x.block.code + ((w.uivec &&& 0xFFFFFFFC).zeroExtend 64) ∧ u.uipc = (f.pc - x.block.code).truncate 32 ∧
        u.uicause = BitVec.ofNat 32 (payload * 2 ^ 16 + source % 256 * 256 + 0x12) ∧ u.inH = true ∧ u.hside = f.side ∧
        u.hdepth = w.stack.length ∧ u.hhloop = w.hloops.length ∧ u.qstate = .running ∧ u.quanta = w.quanta + 1 ∧ u.qret = 0))

/-- R463, R466 to R470: a recording or replaying launch runs one fragment a wave. Each request of a recording launch is one step on
its element: steps of one wave in a row make a run, whose chunk is written when another wave takes a step there or at the
launch's completion; an element gets its index and its entry of the address table at its first step; where either area is full, OVF
is set and nothing more is recorded. The Order Gate lets a request perform when its wave is that of the element's current chunk,
holds it, or refuses it with Replay Divergence (0x09) for reason 0, 1 or 2, which ends replay for the launch. Which waves of a
replaying launch are still to come is the model's reading (log 45); that the recorder's writes wait for walks as an engine's, and
one that faults is lost, is log 13; that the header is written as the recorder goes on is log 38. -/
def Obligations.RecordingAndReplay : Prop :=
  (∀ (k : Slot), (k.l.recording = true ∨ k.l.replaying = true → k.second = true → k.mayIssue = false) ∧
    ∀ e ∈ k.w.gateWait, e.1 = k.f.side → k.mayIssue = false) ∧
  -- one write of the log, behind those that wait
  (∀ (s : State) (l : Nat) (who : Option (Nat × DWord)) (cluster : Nat) (va : DWord) (v n : Nat) (x : Launch),
    Map.find s.launches l = some x → x.log.todo = [] →
    let t := s.unitPut l (who, cluster) va v n
    let leaf := ((Map.find s.ctlb cluster).getD []).find? fun e => e.covers x.tenant va && (e.w && e.d)
    let lost := Map.find t.launches l = some x ∧ ∀ y, t.byte y = s.byte y
    (canonical va = false → lost) ∧
    (∀ e, canonical va = true → leaf = some e → tierCapacity e.tier ≤ e.phys va → lost) ∧
    (∀ e, canonical va = true → leaf = some e → e.phys va < tierCapacity e.tier →
      let y := s.placeOf e.tier (e.phys va)
      (s.reaches x.tenant y = false → who = none → lost) ∧
      (∀ h pc, s.reaches x.tenant y = false → who = some (h, pc) → ∃ b : State,
        t = b.imprecise h { cause := (Loc.mem y.key).errorCause, pc := pc, addr := errAddr va (.mem y.key), paddr := (Loc.mem y.key).sectorPA } ∧
        Map.find b.launches l = some x ∧ { b with launches := s.launches } = s) ∧
      (s.reaches x.tenant y = true → Map.find t.launches l = some x ∧ (∀ i, i < n → t.byte (y.add i) = BitVec.ofNat 8 (v / 2 ^ (8 * i))) ∧
        ∀ z, (∀ i, i < n → z ≠ y.add i) → t.byte z = s.byte z)) ∧
    (canonical va = true → leaf = none → (∀ y, t.byte y = s.byte y) ∧
      Map.find t.launches l = some { x with log := { x.log with todo := [⟨who, cluster, va, v, n⟩] } } ∧
      ∃ w ∈ (Map.find t.walks (cluster / 3)).getD [], w.tenant = x.tenant ∧ w.page = va.toNat / 4096 ∧
        ∃ a ∈ w.waiters, a.log = some (l, cluster) ∧ a.need = 1)) ∧
  -- the header, a chunk, and a step on an element
  (∀ (s : State) (l : Nat) (c : LogFor) (x : Launch), Map.find s.launches l = some x →
    let now := fun (s : State) (f : Log → Log) => s.modLaunch l fun x => { x with log := f x.log }
    let off := fun (n : Nat) => x.log.buf + BitVec.ofNat 64 n
    s.writeLogHeader l c = ((s.unitPut l c (off 0) x.log.nchunk 4).unitPut l c (off 4) x.log.naddr 4).unitPut l c (off 8) (if x.log.ovf then 1 else 0) 4 ∧
    (∀ aidx wave run hash,
      (x.log.ovf = true → s.writeChunk l c aidx wave run hash = s) ∧
      (x.log.ovf = false → x.log.ccap ≤ x.log.nchunk →
        s.writeChunk l c aidx wave run hash = (now s fun g => { g with ovf := true }).writeLogHeader l c) ∧
      (x.log.ovf = false → x.log.nchunk < x.log.ccap →
        let base := 64 + 8 * x.log.acap + 16 * x.log.nchunk
        let t := (((s.unitPut l c (off base) aidx 4).unitPut l c (off (base + 4)) wave.toNat 4).unitPut l c (off (base + 8)) run 4).unitPut l c
          (off (base + 12)) hash.toNat 4
        s.writeChunk l c aidx wave run hash = (now t fun g => { g with nchunk := g.nchunk + 1 }).writeLogHeader l c)) ∧
    (∀ elem va wave hash,
      let runs := fun (s : State) (i : Nat) (e : Word × Nat × Word) => now s fun g => { g with runs := Map.put g.runs i e }
      (x.log.ovf = true → s.recordStep l c elem va wave hash = s) ∧
      (∀ i, x.log.ovf = false → Map.find x.log.elems elem = some i →
        (Map.find x.log.runs i = none → s.recordStep l c elem va wave hash = runs s i (wave, 1, hash)) ∧
        ∀ w n h, Map.find x.log.runs i = some (w, n, h) →
          (w = wave → s.recordStep l c elem va wave hash = runs s i (w, n + 1, h)) ∧
          (w ≠ wave → s.recordStep l c elem va wave hash = runs (s.writeChunk l c i w n h) i (wave, 1, hash))) ∧
      (x.log.ovf = false → Map.find x.log.elems elem = none → x.log.acap ≤ x.log.naddr →
        s.recordStep l c elem va wave hash = (now s fun g => { g with ovf := true }).writeLogHeader l c) ∧
      (x.log.ovf = false → Map.find x.log.elems elem = none → x.log.naddr < x.log.acap → Map.find x.log.runs x.log.naddr = none →
        let t := s.unitPut l c (off (64 + 8 * x.log.naddr)) va.toNat 8
        s.recordStep l c elem va wave hash = runs ((now t fun g =>
          { g with naddr := x.log.naddr + 1, elems := Map.put g.elems elem x.log.naddr }).writeLogHeader l c) x.log.naddr (wave, 1, hash))) ∧
    (∀ cluster, s.flushLog l cluster =
      (x.log.runs.foldl (fun s e => s.writeChunk l (none, cluster) e.1 e.2.1 e.2.2.1 e.2.2.2) s).writeLogHeader l (none, cluster))) ∧
  (∀ (s : State) (h seq idx l : Nat) (x : Launch) (w : Wave) (o : Out) (op : AtomOp) (wide uni ret : Bool) (reqs : List AReq) (r : AReq),
    Map.find s.waves h = some w → w.out seq = some o → s.launchOf h = some (l, x) → o.op = .atomic op wide false uni ret reqs →
    reqs[idx]? = some r →
    let ordered := fun (p : Out) => p ∈ w.outs ∧ p.seq < o.seq ∧ p.done = false ∧ tagOrdered p.tag o.tag = true
    let n := if wide then 8 else 4
    let ready := r.res = none ∧ r.failed = false ∧ r.bad = none ∧ r.admitted = false ∧ x.block.det = false ∧
      s.reaches x.tenant r.loc = true ∧ (∀ p, ordered p → p.touches r.loc n = false) ∧
      (o.rel = true → ∀ p, ordered p → p.path ≠ .ld ∧ p.path ≠ .st ∧ ∀ load cl rid va locs, p.op ≠ .fit load cl rid va locs)
    let elem := match r.loc with
      | .mem key => key * 2
      | .scr key => key * 2
    let went := fun (f : Log → Log) => { x with log := f x.log }
    ready →
      -- a step of a recording launch
      (x.recording = true → x.replaying = false →
        let plain := { s with launches := Map.put s.launches l { x with recording := false } }
        ∃ t, exec (.atomicRequest h seq idx) plain = .next t ∧ exec (.atomicRequest h seq idx) s = .next (({ t with launches := s.launches }).recordStep
          l (some (h, o.pc), (s.coreOf h).getD 0 / 192) elem r.va w.waveid o.hash)) ∧
      -- a request that is gated no more
      (x.replaying = true → x.log.ended = true → exec (.atomicRequest h seq idx) s = .next (s.performReq h seq idx)) ∧
      -- at the gate
      (x.replaying = true → x.log.ended = false →
        let asked := exec (.atomicRequest h seq idx) s
        let there := fun (id : Word) => (∃ e ∈ s.waves, e.2.waveid = id ∧ (e.2.first ≠ none ∨ e.2.second ≠ none) ∧
          ∃ g, Map.find s.groups e.2.group = some g ∧ g.launch = l) ∨ x.toCome id.toNat = true
        let refused := fun (reason : Nat) (logged : Word) =>
          (w.stop ≠ none → Waits s asked) ∧
          (∀ second f, w.stop = none → w.ownHandler 0x09 = false →
            w.bySide (((w.gateWait.find? fun e => e.2 == seq).map fun e => e.1).getD false) = some (second, f) →
            let kept := reqs.filter fun q => q.res.isSome || q.failed
            let left := maskOf ((reqs.filter fun q => !(q.res.isSome || q.failed)).flatMap fun q => q.parts.map fun p => p.1) |||
              (if f.pc = o.pc then f.again.getD 0 else 0)
            let outs := w.outs.map fun p => if p.seq = seq then { p with op := .atomic op wide false uni ret kept } else p
            ∃ (a : State) (u : Wave), asked = .next (a.endReplay l) ∧ Map.find a.waves h = some u ∧ (∀ g, g ≠ h → Map.find a.waves g = Map.find s.waves g) ∧
              u.stop = some { trap := { cause := 0x09, reason := reason, access := 2, second := second, pc := o.pc, addr := r.va,
                                        rmask := if uni then f.mask else left, w12 := logged, w13 := o.hash }, side := f.side } ∧
              u.frag second = some { f with pc := o.pc, again := if uni then f.again else some left, endPend := false } ∧
              u.outs = (if kept = [] then w.outs.filter fun p => p.seq != seq
                else if ret then outs else retireOuts (outs.map fun p => if p.seq = seq then { p with done := true } else p) []) ∧
              (∀ y, a.byte y = s.byte y) ∧
              a.launches = Map.put s.launches l (went fun g => { g with held := g.held.filter fun e => !(e.1 == h && e.2.1 == seq) }))
        (Map.find x.log.gate elem = none → refused 1 0) ∧
        (∀ b, Map.find x.log.gate elem = some ([], b) → refused 1 0) ∧
        (∀ id run hash cs begun, Map.find x.log.gate elem = some ((id, run, hash) :: cs, begun) →
          (id = w.waveid → (begun = true ∨ o.hash = hash) → asked = .next (
            let t := { s with launches := Map.put s.launches l (went fun g => { g with
              gate := Map.put g.gate elem (if run ≤ 1 then (cs, false) else ((id, run - 1, hash) :: cs, true))
              held := g.held.filter fun e => e != (h, seq, idx) }) }
            (t.performReq h seq idx).gateDone h seq)) ∧
          (id = w.waveid → begun = false → o.hash ≠ hash → refused 0 hash) ∧
          (id ≠ w.waveid → there id → (h, seq, idx) ∈ x.log.held → Waits s asked) ∧
          (id ≠ w.waveid → there id → (h, seq, idx) ∉ x.log.held → asked =
            .next { s with launches := Map.put s.launches l (went fun g => { g with held := g.held ++ [(h, seq, idx)] }) }) ∧
          (id ≠ w.waveid → ¬ there id → refused 2 hash)))) ∧
  -- the slot goes on once the gate has accepted all of its atomic
  (∀ (s : State) (h seq : Nat) (w : Wave), Map.find s.waves h = some w →
    let open_ := ∃ o op wide det uni ret reqs, w.out seq = some o ∧ o.op = .atomic op wide det uni ret reqs ∧
      ∃ r ∈ reqs, r.res = none ∧ r.failed = false
    ∃ u, Map.find (s.gateDone h seq).waves h = some u ∧ { u with gateWait := w.gateWait } = w ∧ (open_ → u = w) ∧
      (¬ open_ → u.gateWait = w.gateWait.filter fun e => e.2 != seq)) ∧
  -- the end of replay: what the gate has held performs in its order of arrival
  (∀ (s : State) (l : Nat) (x : Launch), Map.find s.launches l = some x →
    ∃ b, s.endReplay l = x.log.held.foldl (fun s e => s.admitReq e.1 e.2.1 e.2.2) b ∧
      Map.find b.launches l = some { x with log := { x.log with ended := true, held := [] } } ∧
      (∀ j, j ≠ l → Map.find b.launches j = Map.find s.launches j) ∧
      (∀ h, Map.find b.waves h = (Map.find s.waves h).map fun w =>
        if (Map.find s.groups w.group).map (fun g => g.launch) = some l then { w with gateWait := [] } else w) ∧
      { b with waves := s.waves, launches := s.launches } = s) ∧
  (∀ (s : State) (h seq idx : Nat) (w : Wave) (o : Out) (op : AtomOp) (wide uni ret : Bool) (reqs : List AReq) (r : AReq),
    Map.find s.waves h = some w → w.out seq = some o → o.op = .atomic op wide false uni ret reqs → reqs[idx]? = some r →
    (r.res = none → r.failed = false → r.admitted = false → s.admitReq h seq idx = s.performReq h seq idx) ∧
    (r.res.isSome = true ∨ r.failed = true → s.admitReq h seq idx = s))

/-- R397, R414, R438, R477 to R480, R484, R485, R487: a command that a thread takes is accepted when its SEQ is the
next one and answered 34 otherwise; a management opcode needs the port semaphore, reserved bits are refused, and each
opcode then has its effect and its status; a completion echoes SEQ and carries status and FID, in the buffer of its
command. The order of the statuses, 34 before 32 and 35 and these before 33, and status 33 for an empty PCREATE mask, for a
partition or tenant that is not there and for a SIGNAL of no wave, are log 40 (DEDUCED); the order of LAUNCH's checks within those of
R489 is log 36 (DEDUCED). That buffers and rings lie in host memory as virtio has them, and what a completion buffer of fewer than 96 bytes
takes, is log 9; what the Milliner walks for, log 13. -/
def Obligations.HostCommands : Prop :=
  (∀ (s : State) (lq : Nat) (x : Cmd), s.nextCmd lq = some x →
    let taken := s.take lq x
    let q := taken.vq x.dev x.vq
    let s1 := taken.putVq x.dev x.vq { q with acc := x.seq, running := q.running ++ [(x.seq, some x.comp)] }
    let answer := fun (t : State) (status : Nat) => t.complete (x.dev, x.vq) x.seq status
    let refused := taken.putUsed x.dev x.vq x.comp (completion 34 x.seq 0 [])
    let management := fun (opc : Nat) => 0x80 ≤ opc ∧ opc ≠ 0x86
    let course := fun (i : Instr) (opc need : Nat) (masks : List (Nat × Word)) (ok : State) => x.opc = opc → known x.dev opc = true →
      (x.seq ≠ q.acc + 1 → exec i s = .next refused) ∧
      (x.seq = q.acc + 1 →
        (management opc → s.psem ≠ x.port + 1 → exec i s = .next (answer s1 35)) ∧
        ((management opc → s.psem = x.port + 1) →
          (x.comp.2 < 96 ∨ x.reserved need masks = true → exec i s = .next (answer s1 33)) ∧
          (96 ≤ x.comp.2 → x.reserved need masks = false → exec i s = .next ok)))
    let arg := fun (i : Nat) => (x.c i).toNat
    let range := arg 2 + 2 ^ 32 * arg 3
    let len := arg 4 + 2 ^ 32 * arg 5
    let resolved := fun (z : State × Word) => answer z.1 (if z.2 = 0 then 0 else if z.2 = 3 then 39 else 33)
    course (.inval lq) 0x02 6 (fullWords 2 5) (if range % 4096 = 0 ∧ len ≠ 0 ∧ len % 4096 = 0 then
        (s1.startInval x.dev (x.c64 2) len (some ((x.dev, x.vq), x.seq))).1 else answer s1 33) ∧
    course (.resume lq) 0x03 3 (fullWords 2 2) (resolved (s1.resolve x.dev 3 (x.c 2) 0)) ∧
    course (.skip lq) 0x04 6 (fullWords 2 2 ++ fullWords 4 5) (resolved (s1.resolve x.dev 4 (x.c 2) (x.c64 4))) ∧
    course (.abort lq) 0x05 3 (fullWords 2 2) (resolved (s1.resolve x.dev 5 (x.c 2) 0)) ∧
    course (.signal lq) 0x06 4 (fullWords 2 2 ++ [(3, 0xFFFF)]) (match s1.waveByID x.dev (x.c 2) with
      | some h => answer (s1.modWave h (·.interrupt 0 (arg 3))) 0
      | none => answer s1 33) ∧
    (let mask := (List.range 12).filter fun c => (x.c 2).getLsbD c
    let free := fun (c : Nat) => c ∈ s1.enabledClusters ∧ ∀ e ∈ s1.parts, c ∉ e.2.clusters
    course (.pcreate lq) 0x80 4 [(2, 0xFFF), (3, 31)] (
      if mask = [] ∨ ¬ (∀ c ∈ mask, c ∈ s1.enabledClusters) then answer s1 33
      else if (Map.find s1.parts (arg 3)).isSome = true ∨ ¬ (∀ c ∈ mask, free c) then answer s1 37
      else answer { s1 with parts := Map.put s1.parts (arg 3) { clusters := mask, hash := sha3 (s1.shape mask) } } 0)) ∧
    course (.premove lq) 0x81 4 [(3, 31)] (
      if Map.find s1.parts (arg 3) = none then answer s1 33
      else if ∃ e ∈ s1.tenants, e.2.part = arg 3 then answer s1 37
      else answer { s1 with parts := Map.erase s1.parts (arg 3) } 0) ∧
    (let pa := arg 4 + 2 ^ 32 * arg 5
    let tier := arg 6 % 4
    course (.tcreate lq) 0x82 7 (fullWords 2 5 ++ [(6, 0x103)]) (
      if 31 < arg 2 ∨ (Map.find s1.tenants (arg 2)).isSome = true ∨ Map.find s1.parts (arg 3) = none ∨ pa % 4096 ≠ 0 ∨ tierCapacity tier ≤ pa then
        answer s1 33
      else answer { s1 with
        tenants := Map.put s1.tenants (arg 2) { part := arg 3, rootPA := pa, rootTier := tier, hport := arg 6 / 2 ^ 8 % 2 }
        devs := Map.put s1.devs (arg 2) { failed := false } } 0)) ∧
    course (.tremove lq) 0x83 3 (fullWords 2 2) (match Map.find s1.tenants (arg 2) with
      | none => answer s1 33
      | some t => if t.removing.isSome then answer s1 37
        else (({ s1 with tenants := Map.put s1.tenants (arg 2) { t with removing := some ((x.dev, x.vq), x.seq) } }.tenantReset
          (arg 2)).removed (arg 2))) ∧
    (let image := s1.hostBytes range (arg 4)
    course (.fwload lq) 0x84 5 (fullWords 2 4) (
      if Config.signatureVerifies image then answer { s1 with staged := image } 0 else answer s1 36)) ∧
    course (.mreset lq) 0x85 2 [] s1.useStaged.moduleReset ∧
    (let nonce := (List.range 16).flatMap fun i => bytesOfNat (arg (2 + i)) 4
    let digest := sha3 (nonce ++ bytesOfNat s1.fwver.toNat 8 ++ firmwareDigest s1.fwver ++ (Map.values s1.parts).flatMap (·.hash))
    let signature := (List.range 4627).map (Config.signatureByte digest)
    course (.attest lq) 0x86 20 (fullWords 2 19) (
      answer (s1.pokes (placeBytes (.mem (memKey 2 ((x.c64 18).toNat % 2 ^ 52))) signature)) 0)) ∧
    (∀ T, Map.find s.tenants x.dev = some T → (x.opc = 1 → 256 ≤ s.admitted T.part → known x.dev 1 = true → Waits s (exec (.launch lq) s)) ∧
      (s.admitted T.part < 256 → course (.launch lq) 0x01 10 (fullWords 2 6 ++ [(7, 6)] ++ fullWords 8 9) (
        if (x.c 7).getLsbD 2 = true ∧ x.c64 8 = 0 then answer s1 33
        else
          let z := s1.launchChecks T x lq
          match z.2 with
          | .error e => answer z.1 e
          | .ok l => { z.1 with
              nextLaunch := z.1.nextLaunch + 1
              launches := Map.put z.1.launches z.1.nextLaunch { l with seen := z.1.codeCount } }.revisit (some T.part)))) ∧
    (known x.dev x.opc = false →
      (x.seq = q.acc + 1 → exec (.unknownOpcodeCommand lq) s = .next (answer s1 32)) ∧
      (x.seq ≠ q.acc + 1 → exec (.unknownOpcodeCommand lq) s = .next refused))) ∧
  -- a command's words and buffer are those at the head of its ring
  (∀ (s : State) (lq : Nat), (lq ∉ s.awake → s.nextCmd lq = none) ∧ ∀ x, s.nextCmd lq = some x →
    ∃ e ∈ s.devs, ∃ q ∈ e.2.vqs, ∃ b r, e.1 = x.dev ∧ q.1 = x.vq ∧ q.2.avail = b :: r ∧ q.2.enabled = true ∧ q.2.lq = lq ∧ q.2.port = x.port ∧
      x.comp = b.2 ∧ ∀ i, 4 * i + 4 ≤ b.1.2 → x.c i = s.word ((hostLoc b.1.1).add (4 * i))) ∧
  -- completions
  (∀ (s : State) (dev vq : Nat) (seq : Word) (status fid : Nat) (sig : List Word) (d : Dev) (q : Vq), status < 2 ^ 8 →
    Map.find s.devs dev = some d → Map.find d.vqs vq = some q → sig.length = 16 ∨ sig = [] →
    let words := completion status seq fid sig
    let t := s.complete (dev, vq) seq status fid sig
    let holds := fun (b : Buf) =>
      (∀ i, i < 96 → t.byte ((hostLoc b.1).add i) = BitVec.ofNat 8 ((words.getD (i / 4) 0).toNat / 2 ^ (8 * (i % 4)))) ∧
      ∀ y, (∀ i, i < 96 → y ≠ (hostLoc b.1).add i) → t.byte y = s.byte y
    let becomes := fun (used : List Buf) (held : List (List Word)) (bufs : List Buf) =>
      ∃ d' q', Map.find t.devs dev = some d' ∧ Map.find d'.vqs vq = some q' ∧ q'.used = used ∧ q'.heldUsed = held ∧ q'.bufs = bufs ∧
        q'.running = q.running.filter (fun e => e.1 != seq) ∧ q'.acc = q.acc ∧
        (seq = q.cmp + 1 → q.ahead = [] → q'.cmp = seq) ∧ (seq ≠ q.cmp + 1 → q.ahead = [] → q'.cmp = q.cmp)
    (words.length = 24 ∧ words.getD 0 0 = BitVec.ofNat 32 status ∧ words.getD 1 0 = seq ∧ words.getD 2 0 = BitVec.ofNat 32 fid ∧
      (∀ i, 3 ≤ i → i < 8 → words.getD i 0 = 0) ∧ ∀ i, i < 16 → words.getD (8 + i) 0 = sig.getD i 0) ∧
    (∀ b, q.running.find? (fun e => e.1 == seq) = some (seq, some b) → 96 ≤ b.2 → holds b ∧ becomes (q.used ++ [(b.1, 96)]) q.heldUsed q.bufs) ∧
    -- accepted before a reset of the virtqueue: held until the new driver has made a buffer available
    (q.running.find? (fun e => e.1 == seq) = some (seq, none) →
      (q.enabled = false ∨ q.bufs = [] → becomes q.used (q.heldUsed ++ [words]) q.bufs ∧ { t with devs := s.devs } = s) ∧
      (∀ b r, q.enabled = true → q.heldUsed = [] → q.bufs = b :: r → 96 ≤ b.2 → holds b ∧ becomes (q.used ++ [(b.1, 96)]) [] r)) ∧
    ((∀ e ∈ q.running, e.1 ≠ seq) → t = s)) ∧
  -- the merge order
  (∀ (s : State) (lq : Nat), s.nextCmd lq = none → ∀ i ∈ [Instr.launch lq, .inval lq, .resume lq, .skip lq, .abort lq, .signal lq, .pcreate lq,
    .premove lq, .tcreate lq, .tremove lq, .fwload lq, .mreset lq, .attest lq, .unknownOpcodeCommand lq], Waits s (exec i s)) ∧
  (∀ (s : State) (lq dev c : Nat) (d : Dev), s.devs = [(dev, d)] → dev ≠ 32 → Map.find s.cursors lq = some c →
    (d.vqs.map (·.1)).Pairwise (· < ·) →
    let here := fun (v : Nat) => ∃ q, Map.find d.vqs v = some q ∧ q.enabled = true ∧ q.lq = lq ∧ q.avail ≠ [] ∧ 3 ≤ v ∧ v ≤ 63
    ∀ x, s.nextCmd lq = some x → here x.vq ∧ x.dev = dev ∧
      ((∃ v, c < v ∧ here v) → c < x.vq ∧ ∀ v, c < v → here v → x.vq ≤ v) ∧ ((∀ v, here v → v ≤ c) → ∀ v, here v → x.vq ≤ v))

/-- R4, R70, R350, R446, R474 to R477, R481 to R488: what the driver does to a virtqueue, how records are posted,
tenant and device reset, the port semaphore and its break, link states, firmware verification at boot, module reset,
and accesses from outside. That a record longer than its buffer is cut, and that buffers and rings lie in host memory, is log 9; what
a module reset keeps is log 11; that a module's boot waits for its parent's is log 41; what accesses from outside beyond a tier's
end or above bit 51 do is log 42. -/
def Obligations.HostSide : Prop :=
  let after := fun (psem : Nat) (w : Nat × Nat) =>
    if w.2 = w.1 + 1 ∧ psem = 0 then w.1 + 1 else if w.2 = 0 ∧ psem = w.1 + 1 then 0 else psem
  (∀ (s : State) (dev vq : Nat) (d : Dev), Map.find s.devs dev = some d →
    let q := s.vq dev vq
    let offered := d.failed = false ∧ (if dev = 32 then vq = 0 else vq < 64)
    let sets := fun (i : Instr) (q' : Vq) => exec i s = .next { s with devs := Map.put s.devs dev { d with vqs := Map.put d.vqs vq q' } }
    let idle := fun (i : Instr) => Waits s (exec i s)
    -- queue_size, queue_notify_off and its multiplier
    (s.queueSize dev vq = 0 ↔ ¬ offered ∨ q.enabled = false ∧ 1024 ≤ s.enabledQueues.length) ∧ s.notifyOff dev vq = q.lq ∧
    notifyMultiplier = 4 ∧
    (¬ offered → ∀ off cmds bufs port lq, idle (.queueNotify dev vq off ⟨cmds, bufs⟩) ∧ idle (.queueEnable port dev vq) ∧ idle (.lqWrite dev vq lq) ∧
      idle (.virtqueueReset dev vq)) ∧
    (offered → ∀ off cmds bufs port lq,
      let got := { q with avail := if (if dev = 32 then vq = 0 else 3 ≤ vq) then q.avail ++ cmds else q.avail, bufs := q.bufs ++ bufs }
      let awake := if off % 4 = 0 ∧ off / 4 < 64 ∧ off / 4 ∉ s.awake then s.awake ++ [off / 4] else s.awake
      (q.enabled = false → idle (.queueNotify dev vq off ⟨cmds, bufs⟩)) ∧
      (q.enabled = true → q.heldUsed = [] → exec (.queueNotify dev vq off ⟨cmds, bufs⟩) s =
        .next { s with devs := Map.put s.devs dev { d with vqs := Map.put d.vqs vq got }, awake := awake }) ∧
      (∀ k b r, q.enabled = true → q.heldUsed = [k] → q.bufs ++ bufs = b :: r → ∃ t, exec (.queueNotify dev vq off ⟨cmds, bufs⟩) s = .next t ∧
        t.awake = awake ∧ t.vq dev vq = { got with heldUsed := [], bufs := r, used := q.used ++ [(b.1, min b.2 (4 * k.length))] } ∧
        ∀ i, i < b.2 → i < 4 * k.length →
          t.byte ((hostLoc b.1).add i) = BitVec.ofNat 8 ((k.getD (i / 4) 0).toNat / 2 ^ (8 * (i % 4)))) ∧
      (let taken := ∃ e ∈ s.enabledQueues, e.1 ≠ dev ∧ e.2.2.lq = q.lq
      (q.enabled = true ∨ 1 < port ∨ (dev ≠ 32 ∧ q.lq = 0) ∨ taken ∨ 1024 ≤ s.enabledQueues.length → idle (.queueEnable port dev vq)) ∧
      (q.enabled = false → port ≤ 1 → ¬ (dev ≠ 32 ∧ q.lq = 0) → ¬ taken → s.enabledQueues.length < 1024 →
        sets (.queueEnable port dev vq) { q with enabled := true, port := port })) ∧
      (q.enabled = true ∨ dev = 32 ∨ 63 < lq → idle (.lqWrite dev vq lq)) ∧
      (q.enabled = false → dev ≠ 32 → lq ≤ 63 → sets (.lqWrite dev vq lq) { q with lq := lq }) ∧
      (d.features.getLsbD 40 = true → sets (.virtqueueReset dev vq)
        { q with enabled := false, avail := [], bufs := [], used := [], running := q.running.map fun e => (e.1, none) }) ∧
      (d.features.getLsbD 40 = false → idle (.virtqueueReset dev vq))) ∧
    (∀ features, (d.failed = true → idle (.featureNegotiation dev features) ∧ idle (.deviceReset dev)) ∧
      ((∃ b, b < 64 ∧ features.getLsbD b = true ∧ b ∉ [29, 32, 33, 34, 40]) → idle (.featureNegotiation dev features)) ∧
      (d.failed = false → (∀ b, b < 64 → features.getLsbD b = true → b ∈ [29, 32, 33, 34, 40]) →
        exec (.featureNegotiation dev features) s = .next { s with devs := Map.put s.devs dev { d with features := features } }) ∧
      (d.failed = false → exec (.deviceReset dev) s = .next (let t := (if dev = 32 then s else s.tenantReset dev).orphan dev
        { t with devs := Map.put t.devs dev { failed := false } })))) ∧
  -- records
  (∀ (s : State) (dev vq addr size : Nat) (bufs : List Buf) (d : Dev), Map.find s.devs dev = some d → d.failed = false → dev < 32 → vq ≤ 2 →
    let q := s.vq dev vq
    let waiting := if vq = 2 then (((Map.find s.tenants dev).map (·.intake)).getD []).map (fun (r : List Word) => (0, r)) else q.recs
    let body := if vq = 0 then 64 else if vq = 1 then 32 else 16
    let n := min waiting.length (size / (8 + body))
    let words := (List.range n).flatMap fun i => [q.post + BitVec.ofNat 32 (i + 1),
      BitVec.ofNat 32 ((vq + 1) * 2 ^ 16 + 4 * (waiting.getD i (0, [])).2.length)] ++ (waiting.getD i (0, [])).2
    q.enabled = true → q.bufs = (addr, size) :: bufs → waiting ≠ [] →
    ∃ t d' q', exec (.recordPost dev vq) s = .next t ∧ Map.find t.devs dev = some d' ∧ Map.find d'.vqs vq = some q' ∧
      q' = { q with bufs := bufs, post := q.post + BitVec.ofNat 32 n, used := q.used ++ [(addr, min size (4 * words.length))],
                    recs := if vq = 2 then q.recs else q.recs.drop n } ∧
      (∀ i, i < size → i < 4 * words.length →
        t.byte ((hostLoc addr).add i) = BitVec.ofNat 8 ((words.getD (i / 4) 0).toNat / 2 ^ (8 * (i % 4)))) ∧
      (∀ y, (∀ i, i < size → y ≠ (hostLoc addr).add i) → t.byte y = s.byte y) ∧
      (∀ T, Map.find s.tenants dev = some T →
        Map.find t.tenants dev = some (if vq = 2 then { T with intake := T.intake.drop n } else T)) ∧
      (∀ r tag, vq = 1 → tag ∈ (waiting.take n).map (·.1) → Map.find s.syscs tag = some r → r.posting = true →
        Map.find t.syscs tag = some { r with posting := false, status := some 0 })) ∧
  -- ports and links
  (∀ (s : State) (port val : Nat),
    -- the writes of a cycle take effect port 0 first
    (port ≤ 1 → let ws := s.psemWrites ++ [(port, val)]
      exec (.psemWrite port val) s = .next { s with
        psemWrites := ws, psem := ((ws.filter fun w => w.1 == 0) ++ ws.filter fun w => w.1 == 1).foldl after s.psemFrom }) ∧
    (∀ n, 0 < n → (s.cycles n).psemWrites = [] ∧ (s.cycles n).psemFrom = s.psem) ∧ (1 < port → Waits s (exec (.psemWrite port val) s)) ∧
    (let out := if s.psem = 1 then s.link0 else if s.psem = 2 then s.link1 else none
    (∀ c, out = some c → c + 12000000 ≤ s.cycle → exec .psemBreak s = .next { s with psem := 0, psemFrom := 0, psemWrites := [] }) ∧
    (∀ c, out = some c → s.cycle < c + 12000000 → Waits s (exec .psemBreak s)) ∧ (out = none → Waits s (exec .psemBreak s))) ∧
    exec (.hostLinkLeavesL0 0) s = .next { s with link0 := some (s.link0.getD s.cycle) } ∧
    exec (.hostLinkLeavesL0 1) s = .next { s with link1 := some (s.link1.getD s.cycle) } ∧
    exec (.hostLinkReturnsToL0 0) s = .next { s with link0 := none } ∧ exec (.hostLinkReturnsToL0 1) s = .next { s with link1 := none } ∧
    (s.cycle < s.eolAt + 4320000000000 → Waits s (exec .eolUpdate s)) ∧
    (s.eolAt + 4320000000000 ≤ s.cycle → exec .eolUpdate s = .next { s with
      eolHour := s.eolHour + 1, eol := (List.range 5).map (Config.wear (s.eolHour + 1)), eolAt := s.eolAt + 4320000000000 })) ∧
  -- a tenant's reset: launches killed, regions off, calls answered, and at its end nothing of the tenant in a translation cache
  (∀ (s : State) (tenant : Nat), (∀ e ∈ s.groups, e.2.life ≠ .saved) →
    let t := s.tenantReset tenant
    let clean := fun (t : State) => (∀ c ∈ t.utlb ++ t.ctlb, ∀ x ∈ c.2, x.tenant ≠ tenant) ∧ (∀ c ∈ t.wcache, ∀ x ∈ c.2, x.tenant ≠ tenant) ∧
      ∀ d ∈ t.walks, ∀ x ∈ d.2, x.tenant ≠ tenant
    let allGone := fun (s : State) => ∀ e ∈ s.launches, e.2.tenant = tenant → e.2.killed ≠ some 0
    (∀ l, Map.find t.launches l = (Map.find s.launches l).map fun x =>
      if x.tenant = tenant then { x with killed := some 0, log := { x.log with ended := true } } else x) ∧
    (∀ e ∈ t.regions, ∀ x, Map.find s.launches e.2.launch = some x → x.tenant ≠ tenant) ∧
    (∀ e ∈ t.syscs, e.2.tenant = tenant → e.2.status.isSome = true) ∧
    ((∀ e ∈ s.launches, e.2.tenant ≠ tenant) → clean t) ∧
    (¬ allGone s → s.resetOver tenant = s) ∧
    (allGone s → clean (s.resetOver tenant) ∧
      { s.resetOver tenant with utlb := s.utlb, ctlb := s.ctlb, wcache := s.wcache, walks := s.walks } = s) ∧
    (∀ T ring seq, Map.find s.tenants tenant = some T → T.removing = some (ring, seq) →
      ((∃ e ∈ s.launches, e.2.tenant = tenant) → s.removed tenant = s) ∧
      ((∀ e ∈ s.launches, e.2.tenant ≠ tenant) → ∃ u, s.removed tenant = u.complete ring seq 0 ∧ clean u ∧
        u.tenants = Map.erase s.tenants tenant ∧ u.devs = Map.put s.devs tenant { failed := true } ∧
        u.invals = s.invals.filter fun e => e.2.tenant != tenant))) ∧
  -- configuration space
  (∀ (s : State) (dev i q : Nat) (T : Tenant) (p : Part), Map.find s.tenants dev = some T → Map.find s.parts T.part = some p →
    let is := fun (off n v : Nat) => i < n → s.tenantConfig dev (off + i) = BitVec.ofNat 8 (v / 2 ^ (8 * i))
    is 0 4 (T.part * 256 + dev) ∧ is 4 4 (((List.range 64).filter fun q => s.queueSize dev q != 0).length) ∧
    (i < 64 → s.tenantConfig dev (0x40 + i) = p.hash.getD i 0) ∧ (i < 289 → s.tenantConfig dev (0x80 + i) = (s.shape p.clusters).getD i 0) ∧
    (q < 64 → let v := s.vq dev q
      is (0x200 + 16 * q) 4 v.lq ∧ is (0x204 + 16 * q) 4 v.acc.toNat ∧ is (0x208 + 16 * q) 4 v.cmp.toNat ∧ is (0x20C + 16 * q) 4 v.post.toNat)) ∧
  (∀ (s : State) (i j : Nat),
    let is := fun (off n v : Nat) => i < n → s.mgmtConfig (off + i) = BitVec.ofNat 8 (v / 2 ^ (8 * i))
    is 0 8 s.fwver.toNat ∧ is 8 4 s.psem ∧ is 0xC 4 s.bootst ∧ (j < 5 → is (0x10 + 2 * j) 2 (s.eol.getD j 0).toNat)) ∧
  -- module reset and boot
  (∀ (s : State), ∃ t, exec .moduleReset s = .next t ∧ t.waves = [] ∧ t.groups = [] ∧ t.launches = [] ∧ t.tenants = [] ∧ t.parts = [] ∧
    t.scratch = [] ∧ t.utlb = [] ∧ t.ctlb = [] ∧ t.wcache = [] ∧ t.queues = [] ∧ t.cats = [] ∧ t.regions = [] ∧ t.intakes = [] ∧ t.engines = [] ∧
    t.devs = [(32, { failed := false })] ∧ t.psem = 0 ∧ t.cycle = 0 ∧ t.bootst = 0 ∧ t.mem = s.mem ∧ t.fwver = s.fwver ∧ t.moduleNo = s.moduleNo ∧
    t.disabled = s.disabled) ∧
  (∀ (s : State) (m : Nat),
    let good := Config.signatureVerifies (firmwareDigest s.fwver) = true
    (s.bootOf m ≠ some 0 → Waits s (exec (.bootImageVerify m) s)) ∧
    (s.bootOf m = some 0 → m ≠ 0 → (s.bootParent m).bind s.bootOf ≠ some 1 → Waits s (exec (.bootImageVerify m) s)) ∧
    (s.bootOf m = some 0 → (m = 0 ∨ (s.bootParent m).bind s.bootOf = some 1) →
      ∃ st, (good → st = 1) ∧ (¬ good → st = 2) ∧ exec (.bootImageVerify m) s =
        .next (if m = s.moduleNo then { s with bootst := st } else { s with links := Map.put s.links m st }))) ∧
  -- accesses from outside
  (∀ (s : State) (tier pa n : Nat) (bs : List Byte) (op : AtomOp) (wide : Bool) (x y : DWord),
    let may := fun (i : RemoteAccess → Instr) =>
      (∀ len, exec (i (.read len)) s = .next s) ∧
      (pa + bs.length ≤ tierCapacity tier → ∃ t, exec (i (.write bs)) s = .next t ∧
        (∀ j, j < bs.length → t.byte (.mem (memKey tier pa + j)) = bs.getD j 0) ∧
        (∀ z, (∀ j, j < bs.length → z ≠ .mem (memKey tier pa + j)) → t.byte z = s.byte z) ∧
        { t with mem := s.mem, codeLog := s.codeLog, codeCount := s.codeCount, regions := s.regions } = s) ∧
      (tierCapacity tier < pa + bs.length → exec (i (.write bs)) s = .next s) ∧
      (n = (if wide then 8 else 4) → pa + n ≤ tierCapacity tier → pa % n = 0 →
        let m := ((List.range n).map fun j => (s.byte (.mem (memKey tier pa + j))).toNat * 2 ^ (8 * j)).sum
        ∃ t, exec (i (.atomic op wide x y)) s = .next t ∧
          (∀ j, j < n → t.byte (.mem (memKey tier pa + j)) =
            BitVec.ofNat 8 ((groupStep op (8 * n) m [(x.toNat, y.toNat)]).2 / 2 ^ (8 * j))) ∧
          (∀ z, (∀ j, j < n → z ≠ .mem (memKey tier pa + j)) → t.byte z = s.byte z))
    (tier ≤ 2 → ¬ (tier = 2 ∧ 2 ^ 51 ≤ pa) → may (.hostDeviceMemoryAccess tier pa)) ∧
    (tier ≤ 1 → s.bootst = 1 → may (.fabricRemoteAccess tier pa)) ∧
    ((1 < tier ∨ s.bootst ≠ 1) → ∀ acc, Waits s (exec (.fabricRemoteAccess tier pa acc) s)) ∧
    ((2 < tier ∨ (tier = 2 ∧ 2 ^ 51 ≤ pa)) → ∀ acc, Waits s (exec (.hostDeviceMemoryAccess tier pa acc) s)))
end

