-- ==== Sys2Proof/Laws/Maps.lean ====
section
/-! SUPPORT. Reading after writing in maps and sparse files, and the canonical form of a sparse file. -/

namespace Sys2Proof.Machine

@[simp] theorem Map.find_nil (k : Nat) : Map.find ([] : List (Nat × α)) k = none := rfl

theorem Map.find_cons (j : Nat) (x : α) (r : List (Nat × α)) (k : Nat) :
    Map.find ((j, x) :: r) k = if j = k then some x else Map.find r k := rfl

@[simp] theorem Map.find_put_self (xs : List (Nat × α)) (k : Nat) (x : α) : Map.find (Map.put xs k x) k = some x := by
  induction xs with
  | nil => simp [Map.put, Map.find]
  | cons e r ih =>
    obtain ⟨j, y⟩ := e
    simp only [Map.put]
    split
    · rename_i h
      rw [Map.find_cons, if_neg (by omega), ih]
    · split <;> simp [Map.find]

theorem Map.find_put_of_ne {xs : List (Nat × α)} {k i : Nat} {x : α} (h : i ≠ k) :
    Map.find (Map.put xs k x) i = Map.find xs i := by
  induction xs with
  | nil => simp [Map.put, Map.find, Ne.symm h]
  | cons e r ih =>
    obtain ⟨j, y⟩ := e
    simp only [Map.put]
    split
    · rw [Map.find_cons, Map.find_cons, ih]
    · split
      · rename_i _ e
        subst e
        simp [Map.find, Ne.symm h]
      · simp [Map.find, Ne.symm h]

theorem Map.find_put (xs : List (Nat × α)) (k i : Nat) (x : α) :
    Map.find (Map.put xs k x) i = if i = k then some x else Map.find xs i := by
  by_cases h : i = k
  · subst h; simp
  · rw [Map.find_put_of_ne h, if_neg h]

@[simp] theorem Map.find_erase_self (xs : List (Nat × α)) (k : Nat) : Map.find (Map.erase xs k) k = none := by
  induction xs with
  | nil => rfl
  | cons e r ih =>
    obtain ⟨j, y⟩ := e
    by_cases h : j = k <;> simp_all [Map.erase, Map.find]

theorem Map.find_filter_of (p : Nat → Bool) (xs : List (Nat × α)) (k : Nat) :
    Map.find (xs.filter fun e => p e.1) k = if p k then Map.find xs k else none := by
  induction xs with
  | nil => simp [Map.find]
  | cons e r ih =>
    obtain ⟨j, y⟩ := e
    rw [List.filter_cons]
    by_cases hj : p j = true
    · simp only [hj, if_true, Map.find_cons, ih]
      by_cases h : j = k
      · subst h; simp [hj]
      · simp [h]
    · simp only [hj, Bool.false_eq_true, if_false, ih, Map.find_cons]
      by_cases h : j = k
      · subst h; simp [hj]
      · simp [h]

theorem Map.find_erase_of_ne {xs : List (Nat × α)} {k i : Nat} (h : i ≠ k) :
    Map.find (Map.erase xs k) i = Map.find xs i := by
  have := Map.find_filter_of (fun j => j != k) xs i
  simp only [bne_iff_ne, ne_eq, h, not_false_eq_true, if_true] at this
  exact this

theorem Map.find_modify (xs : List (Nat × α)) (k i : Nat) (f : α → α) :
    Map.find (Map.modify xs k f) i = if i = k then (Map.find xs k).map f else Map.find xs i := by
  unfold Map.modify
  by_cases h : i = k
  · subst h; split <;> simp_all
  · split <;> simp [h, Map.find_put_of_ne]

@[simp] theorem Map.find_modify_self (xs : List (Nat × α)) (k : Nat) (f : α → α) :
    Map.find (Map.modify xs k f) k = (Map.find xs k).map f := by simp [Map.find_modify]

theorem Map.find_modify_of_ne {xs : List (Nat × α)} {k i : Nat} {f : α → α} (h : i ≠ k) :
    Map.find (Map.modify xs k f) i = Map.find xs i := by simp [Map.find_modify, h]

theorem Map.find_append (xs ys : List (Nat × α)) (k : Nat) :
    Map.find (xs ++ ys) k = (Map.find xs k).or (Map.find ys k) := by
  induction xs with
  | nil => simp
  | cons e r ih =>
    obtain ⟨j, y⟩ := e
    simp only [List.cons_append, Map.find_cons, ih]
    split <;> simp

@[simp] theorem Map.put_put (xs : List (Nat × α)) (k : Nat) (x y : α) : Map.put (Map.put xs k x) k y = Map.put xs k y := by
  induction xs with
  | nil => simp [Map.put]
  | cons e r ih =>
    obtain ⟨j, z⟩ := e
    by_cases h : j < k
    · simp [Map.put, h, ih]
    · by_cases h2 : j = k <;> simp [Map.put, h, h2]

theorem Map.modify_modify (xs : List (Nat × α)) (k : Nat) (f g : α → α) :
    Map.modify (Map.modify xs k f) k g = Map.modify xs k fun x => g (f x) := by
  unfold Map.modify
  cases h : Map.find xs k <;> simp [h]

/-! ## Sparse files -/

theorem Sparse.find_run [DecidableEq α] (d : α) (b : Nat) (f : Nat → α) (is : List Nat) (k : Nat) :
    Map.find (is.filterMap fun i => if f i = d then none else some (b + i, f i)) k =
      if b ≤ k ∧ k - b ∈ is ∧ f (k - b) ≠ d then some (f (k - b)) else none := by
  induction is with
  | nil => simp
  | cons i r ih =>
    rw [List.filterMap_cons]
    by_cases hd : f i = d
    · simp only [hd, if_true, ih]
      by_cases hk : k - b = i
      · simp [hk, hd]
      · simp [hk]
    · simp only [hd, if_false, Map.find_cons, ih]
      by_cases hk : b + i = k
      · subst hk
        simp [hd]
      · rw [if_neg hk]
        by_cases hb : b ≤ k
        · have : ¬ k - b = i := by omega
          simp [hb, this]
        · simp [hb]

/-- Reading a sparse file after a run of entries was replaced. -/
theorem Sparse.get_setRun [DecidableEq α] (d : α) (xs : List (Nat × α)) (b n : Nat) (f : Nat → α) (k : Nat) :
    Sparse.get d (Sparse.setRun d xs b n f) k = if b ≤ k ∧ k < b + n then f (k - b) else Sparse.get d xs k := by
  unfold Sparse.get Sparse.setRun
  rw [Map.find_append, Map.find_append, Sparse.find_run]
  have low := Map.find_filter_of (fun j => decide (j < b)) xs k
  have high := Map.find_filter_of (fun j => decide (b + n ≤ j)) xs k
  rw [low, high]
  by_cases h1 : k < b
  · have : ¬ b ≤ k := by omega
    have h2 : ¬ b + n ≤ k := by omega
    simp [h1, this, h2]
  · by_cases h2 : k < b + n
    · have hb : b ≤ k := by omega
      have h3 : ¬ b + n ≤ k := by omega
      have h4 : k - b ∈ List.range n := by simp; omega
      by_cases hd : f (k - b) = d
      · simp [h1, h2, hb, h3, hd]
      · have h5 : k - b < n := by omega
        simp [h1, h2, hb, h3, hd, h5]
    · have hb : b ≤ k := by omega
      have h3 : b + n ≤ k := by omega
      have h4 : k - b ∉ List.range n := by simp; omega
      have h5 : ¬ k - b < n := by omega
      simp [h1, h2, hb, h3, h5]

theorem Sparse.get_set [DecidableEq α] (d : α) (xs : List (Nat × α)) (k i : Nat) (x : α) :
    Sparse.get d (Sparse.set d xs k x) i = if i = k then x else Sparse.get d xs i := by
  unfold Sparse.set
  rw [Sparse.get_setRun]
  by_cases h : i = k
  · subst h; simp
  · rw [if_neg h, if_neg (by omega)]

@[simp] theorem Sparse.get_set_self [DecidableEq α] (d : α) (xs : List (Nat × α)) (k : Nat) (x : α) :
    Sparse.get d (Sparse.set d xs k x) k = x := by simp [Sparse.get_set]

theorem Sparse.get_clear (d : α) (xs : List (Nat × α)) (b n k : Nat) :
    Sparse.get d (Sparse.clear xs b n) k = if b ≤ k ∧ k < b + n then d else Sparse.get d xs k := by
  unfold Sparse.get Sparse.clear
  have both := Map.find_filter_of (fun j => decide (j < b) || decide (b + n ≤ j)) xs k
  rw [both]
  by_cases h : b ≤ k ∧ k < b + n
  · have : ¬ k < b := by omega
    have : ¬ b + n ≤ k := by omega
    simp [*]
  · by_cases h1 : k < b
    · simp [h1, h]
    · have : b + n ≤ k := by omega
      simp [this, h]

@[simp] theorem Sparse.get_nil (d : α) (k : Nat) : Sparse.get d [] k = d := rfl

/-! ## The canonical form -/

/-- The canonical form as a property of the list: keys rise, and no entry is the default. -/
theorem Sparse.wf_iff [DecidableEq α] (d : α) (xs : List (Nat × α)) :
    Sparse.wf d xs = true ↔ xs.Pairwise (fun a b => a.1 < b.1) ∧ ∀ e ∈ xs, e.2 ≠ d := by
  induction xs with
  | nil => simp [Sparse.wf]
  | cons e r ih =>
    obtain ⟨j, x⟩ := e
    cases r with
    | nil => simp [Sparse.wf]
    | cons e' r' =>
      obtain ⟨k, y⟩ := e'
      simp only [Sparse.wf, Bool.and_eq_true, decide_eq_true_eq, ih]
      constructor
      · rintro ⟨⟨h1, h2⟩, h3, h4⟩
        refine ⟨?_, ?_⟩
        · rw [List.pairwise_cons]
          refine ⟨?_, h3⟩
          intro a ha
          rcases List.mem_cons.1 ha with rfl | ha
          · exact h2
          · exact Nat.lt_trans h2 ((List.pairwise_cons.1 h3).1 a ha)
        · intro e he
          rcases List.mem_cons.1 he with rfl | he
          · exact h1
          · exact h4 e he
      · rintro ⟨h1, h2⟩
        rw [List.pairwise_cons] at h1
        exact ⟨⟨h2 (j, x) (by simp), h1.1 (k, y) (by simp)⟩, h1.2, fun e he => h2 e (List.mem_cons_of_mem _ he)⟩

theorem Sparse.wf_nil [DecidableEq α] (d : α) : Sparse.wf d [] = true := rfl

theorem Sparse.wf_filter [DecidableEq α] (d : α) (xs : List (Nat × α)) (p : Nat × α → Bool) (h : Sparse.wf d xs = true) :
    Sparse.wf d (xs.filter p) = true := by
  rw [Sparse.wf_iff] at *
  exact ⟨h.1.filter _, fun e he => h.2 e (List.mem_filter.1 he).1⟩

/-- Clearing a run keeps the canonical form. -/
theorem Sparse.wf_clear [DecidableEq α] (d : α) (xs : List (Nat × α)) (b n : Nat) (h : Sparse.wf d xs = true) :
    Sparse.wf d (Sparse.clear xs b n) = true := Sparse.wf_filter d xs _ h

theorem Sparse.mem_run [DecidableEq α] {d : α} {b n : Nat} {f : Nat → α} {e : Nat × α}
    (h : e ∈ (List.range n).filterMap fun i => if f i = d then none else some (b + i, f i)) :
    b ≤ e.1 ∧ e.1 < b + n ∧ e.2 ≠ d := by
  rw [List.mem_filterMap] at h
  obtain ⟨i, hi, he⟩ := h
  have := List.mem_range.1 hi
  by_cases hd : f i = d
  · simp [hd] at he
  · simp only [hd, if_false, Option.some.injEq] at he
    subst he
    exact ⟨by simp, by simp; omega, hd⟩

/-- Replacing a run keeps the canonical form. -/
theorem Sparse.wf_setRun [DecidableEq α] (d : α) (xs : List (Nat × α)) (b n : Nat) (f : Nat → α)
    (h : Sparse.wf d xs = true) : Sparse.wf d (Sparse.setRun d xs b n f) = true := by
  rw [Sparse.wf_iff] at *
  obtain ⟨h1, h2⟩ := h
  unfold Sparse.setRun
  refine ⟨?_, ?_⟩
  · rw [List.pairwise_append, List.pairwise_append]
    refine ⟨⟨h1.filter _, ?_, ?_⟩, h1.filter _, ?_⟩
    · rw [List.pairwise_filterMap]
      refine List.Pairwise.imp ?_ List.pairwise_lt_range
      intro i j hij a ha a' ha'
      by_cases hi : f i = d <;> by_cases hj : f j = d <;> simp_all
      subst ha ha'
      simp; omega
    · intro a ha c hc
      have := Sparse.mem_run hc
      have := (List.mem_filter.1 ha).2
      simp at this
      omega
    · intro a ha c hc
      have hc' := (List.mem_filter.1 hc).2
      simp at hc'
      rcases List.mem_append.1 ha with ha | ha
      · have := (List.mem_filter.1 ha).2
        simp at this
        omega
      · have := Sparse.mem_run ha
        omega
  · intro e he
    rcases List.mem_append.1 he with he | he
    · rcases List.mem_append.1 he with he | he
      · exact h2 e (List.mem_filter.1 he).1
      · exact (Sparse.mem_run he).2.2
    · exact h2 e (List.mem_filter.1 he).1

theorem Sparse.wf_set [DecidableEq α] (d : α) (xs : List (Nat × α)) (k : Nat) (x : α) (h : Sparse.wf d xs = true) :
    Sparse.wf d (Sparse.set d xs k x) = true := Sparse.wf_setRun d xs k 1 _ h

end Sys2Proof.Machine
end

