-- ==== Sys2Proof/Laws/State.lean ====
section
/-! SUPPORT. One lemma per field per update of the state and of a wave. -/

namespace Sys2Proof.Machine

/-! ### State.setWave -/

@[simp] theorem State.setWave_agenda (s : State) (h : Nat) (w : Wave) : (s.setWave h w).agenda = s.agenda := rfl
@[simp] theorem State.setWave_cur (s : State) (h : Nat) (w : Wave) : (s.setWave h w).cur = s.cur := rfl
@[simp] theorem State.setWave_tick (s : State) (h : Nat) (w : Wave) : (s.setWave h w).tick = s.tick := rfl
@[simp] theorem State.setWave_nextWave (s : State) (h : Nat) (w : Wave) : (s.setWave h w).nextWave = s.nextWave := rfl
@[simp] theorem State.setWave_nextGroup (s : State) (h : Nat) (w : Wave) : (s.setWave h w).nextGroup = s.nextGroup := rfl
@[simp] theorem State.setWave_nextLaunch (s : State) (h : Nat) (w : Wave) : (s.setWave h w).nextLaunch = s.nextLaunch := rfl
@[simp] theorem State.setWave_nextReq (s : State) (h : Nat) (w : Wave) : (s.setWave h w).nextReq = s.nextReq := rfl
@[simp] theorem State.setWave_disabled (s : State) (h : Nat) (w : Wave) : (s.setWave h w).disabled = s.disabled := rfl
@[simp] theorem State.setWave_fwver (s : State) (h : Nat) (w : Wave) : (s.setWave h w).fwver = s.fwver := rfl
@[simp] theorem State.setWave_staged (s : State) (h : Nat) (w : Wave) : (s.setWave h w).staged = s.staged := rfl
@[simp] theorem State.setWave_bootst (s : State) (h : Nat) (w : Wave) : (s.setWave h w).bootst = s.bootst := rfl
@[simp] theorem State.setWave_moduleNo (s : State) (h : Nat) (w : Wave) : (s.setWave h w).moduleNo = s.moduleNo := rfl
@[simp] theorem State.setWave_links (s : State) (h : Nat) (w : Wave) : (s.setWave h w).links = s.links := rfl
@[simp] theorem State.setWave_wires (s : State) (h : Nat) (w : Wave) : (s.setWave h w).wires = s.wires := rfl
@[simp] theorem State.setWave_eol (s : State) (h : Nat) (w : Wave) : (s.setWave h w).eol = s.eol := rfl
@[simp] theorem State.setWave_eolHour (s : State) (h : Nat) (w : Wave) : (s.setWave h w).eolHour = s.eolHour := rfl
@[simp] theorem State.setWave_mem (s : State) (h : Nat) (w : Wave) : (s.setWave h w).mem = s.mem := rfl
@[simp] theorem State.setWave_scratch (s : State) (h : Nat) (w : Wave) : (s.setWave h w).scratch = s.scratch := rfl
@[simp] theorem State.setWave_codeLog (s : State) (h : Nat) (w : Wave) : (s.setWave h w).codeLog = s.codeLog := rfl
@[simp] theorem State.setWave_codeCount (s : State) (h : Nat) (w : Wave) : (s.setWave h w).codeCount = s.codeCount := rfl
@[simp] theorem State.setWave_cycle (s : State) (h : Nat) (w : Wave) : (s.setWave h w).cycle = s.cycle := rfl
@[simp] theorem State.setWave_utlb (s : State) (h : Nat) (w : Wave) : (s.setWave h w).utlb = s.utlb := rfl
@[simp] theorem State.setWave_ctlb (s : State) (h : Nat) (w : Wave) : (s.setWave h w).ctlb = s.ctlb := rfl
@[simp] theorem State.setWave_wcache (s : State) (h : Nat) (w : Wave) : (s.setWave h w).wcache = s.wcache := rfl
@[simp] theorem State.setWave_walks (s : State) (h : Nat) (w : Wave) : (s.setWave h w).walks = s.walks := rfl
@[simp] theorem State.setWave_invals (s : State) (h : Nat) (w : Wave) : (s.setWave h w).invals = s.invals := rfl
@[simp] theorem State.setWave_groups (s : State) (h : Nat) (w : Wave) : (s.setWave h w).groups = s.groups := rfl
@[simp] theorem State.setWave_launches (s : State) (h : Nat) (w : Wave) : (s.setWave h w).launches = s.launches := rfl
@[simp] theorem State.setWave_parts (s : State) (h : Nat) (w : Wave) : (s.setWave h w).parts = s.parts := rfl
@[simp] theorem State.setWave_tenants (s : State) (h : Nat) (w : Wave) : (s.setWave h w).tenants = s.tenants := rfl
@[simp] theorem State.setWave_waiters (s : State) (h : Nat) (w : Wave) : (s.setWave h w).waiters = s.waiters := rfl
@[simp] theorem State.setWave_syscs (s : State) (h : Nat) (w : Wave) : (s.setWave h w).syscs = s.syscs := rfl
@[simp] theorem State.setWave_shadows (s : State) (h : Nat) (w : Wave) : (s.setWave h w).shadows = s.shadows := rfl
@[simp] theorem State.setWave_intakes (s : State) (h : Nat) (w : Wave) : (s.setWave h w).intakes = s.intakes := rfl
@[simp] theorem State.setWave_engines (s : State) (h : Nat) (w : Wave) : (s.setWave h w).engines = s.engines := rfl
@[simp] theorem State.setWave_queues (s : State) (h : Nat) (w : Wave) : (s.setWave h w).queues = s.queues := rfl
@[simp] theorem State.setWave_phases (s : State) (h : Nat) (w : Wave) : (s.setWave h w).phases = s.phases := rfl
@[simp] theorem State.setWave_cats (s : State) (h : Nat) (w : Wave) : (s.setWave h w).cats = s.cats := rfl
@[simp] theorem State.setWave_regions (s : State) (h : Nat) (w : Wave) : (s.setWave h w).regions = s.regions := rfl
@[simp] theorem State.setWave_windows (s : State) (h : Nat) (w : Wave) : (s.setWave h w).windows = s.windows := rfl
@[simp] theorem State.setWave_devs (s : State) (h : Nat) (w : Wave) : (s.setWave h w).devs = s.devs := rfl
@[simp] theorem State.setWave_cursors (s : State) (h : Nat) (w : Wave) : (s.setWave h w).cursors = s.cursors := rfl
@[simp] theorem State.setWave_psem (s : State) (h : Nat) (w : Wave) : (s.setWave h w).psem = s.psem := rfl
@[simp] theorem State.setWave_link0 (s : State) (h : Nat) (w : Wave) : (s.setWave h w).link0 = s.link0 := rfl
@[simp] theorem State.setWave_link1 (s : State) (h : Nat) (w : Wave) : (s.setWave h w).link1 = s.link1 := rfl
@[simp] theorem State.setWave_eolAt (s : State) (h : Nat) (w : Wave) : (s.setWave h w).eolAt = s.eolAt := rfl
@[simp] theorem State.setWave_flight (s : State) (h : Nat) (w : Wave) : (s.setWave h w).flight = s.flight := rfl
@[simp] theorem State.setWave_xunits (s : State) (h : Nat) (w : Wave) : (s.setWave h w).xunits = s.xunits := rfl
@[simp] theorem State.setWave_hostBad (s : State) (h : Nat) (w : Wave) : (s.setWave h w).hostBad = s.hostBad := rfl
@[simp] theorem State.setWave_reports (s : State) (h : Nat) (w : Wave) : (s.setWave h w).reports = s.reports := rfl
@[simp] theorem State.setWave_kills (s : State) (h : Nat) (w : Wave) : (s.setWave h w).kills = s.kills := rfl
@[simp] theorem State.setWave_psemFrom (s : State) (h : Nat) (w : Wave) : (s.setWave h w).psemFrom = s.psemFrom := rfl
@[simp] theorem State.setWave_psemWrites (s : State) (h : Nat) (w : Wave) : (s.setWave h w).psemWrites = s.psemWrites := rfl
@[simp] theorem State.setWave_awake (s : State) (h : Nat) (w : Wave) : (s.setWave h w).awake = s.awake := rfl

/-! ### State.modWave -/

@[simp] theorem State.modWave_agenda (s : State) (h : Nat) (f : Wave → Wave) : (s.modWave h f).agenda = s.agenda := rfl
@[simp] theorem State.modWave_cur (s : State) (h : Nat) (f : Wave → Wave) : (s.modWave h f).cur = s.cur := rfl
@[simp] theorem State.modWave_tick (s : State) (h : Nat) (f : Wave → Wave) : (s.modWave h f).tick = s.tick := rfl
@[simp] theorem State.modWave_nextWave (s : State) (h : Nat) (f : Wave → Wave) : (s.modWave h f).nextWave = s.nextWave := rfl
@[simp] theorem State.modWave_nextGroup (s : State) (h : Nat) (f : Wave → Wave) : (s.modWave h f).nextGroup = s.nextGroup := rfl
@[simp] theorem State.modWave_nextLaunch (s : State) (h : Nat) (f : Wave → Wave) : (s.modWave h f).nextLaunch = s.nextLaunch := rfl
@[simp] theorem State.modWave_nextReq (s : State) (h : Nat) (f : Wave → Wave) : (s.modWave h f).nextReq = s.nextReq := rfl
@[simp] theorem State.modWave_disabled (s : State) (h : Nat) (f : Wave → Wave) : (s.modWave h f).disabled = s.disabled := rfl
@[simp] theorem State.modWave_fwver (s : State) (h : Nat) (f : Wave → Wave) : (s.modWave h f).fwver = s.fwver := rfl
@[simp] theorem State.modWave_staged (s : State) (h : Nat) (f : Wave → Wave) : (s.modWave h f).staged = s.staged := rfl
@[simp] theorem State.modWave_bootst (s : State) (h : Nat) (f : Wave → Wave) : (s.modWave h f).bootst = s.bootst := rfl
@[simp] theorem State.modWave_moduleNo (s : State) (h : Nat) (f : Wave → Wave) : (s.modWave h f).moduleNo = s.moduleNo := rfl
@[simp] theorem State.modWave_links (s : State) (h : Nat) (f : Wave → Wave) : (s.modWave h f).links = s.links := rfl
@[simp] theorem State.modWave_wires (s : State) (h : Nat) (f : Wave → Wave) : (s.modWave h f).wires = s.wires := rfl
@[simp] theorem State.modWave_eol (s : State) (h : Nat) (f : Wave → Wave) : (s.modWave h f).eol = s.eol := rfl
@[simp] theorem State.modWave_eolHour (s : State) (h : Nat) (f : Wave → Wave) : (s.modWave h f).eolHour = s.eolHour := rfl
@[simp] theorem State.modWave_mem (s : State) (h : Nat) (f : Wave → Wave) : (s.modWave h f).mem = s.mem := rfl
@[simp] theorem State.modWave_scratch (s : State) (h : Nat) (f : Wave → Wave) : (s.modWave h f).scratch = s.scratch := rfl
@[simp] theorem State.modWave_codeLog (s : State) (h : Nat) (f : Wave → Wave) : (s.modWave h f).codeLog = s.codeLog := rfl
@[simp] theorem State.modWave_codeCount (s : State) (h : Nat) (f : Wave → Wave) : (s.modWave h f).codeCount = s.codeCount := rfl
@[simp] theorem State.modWave_cycle (s : State) (h : Nat) (f : Wave → Wave) : (s.modWave h f).cycle = s.cycle := rfl
@[simp] theorem State.modWave_utlb (s : State) (h : Nat) (f : Wave → Wave) : (s.modWave h f).utlb = s.utlb := rfl
@[simp] theorem State.modWave_ctlb (s : State) (h : Nat) (f : Wave → Wave) : (s.modWave h f).ctlb = s.ctlb := rfl
@[simp] theorem State.modWave_wcache (s : State) (h : Nat) (f : Wave → Wave) : (s.modWave h f).wcache = s.wcache := rfl
@[simp] theorem State.modWave_walks (s : State) (h : Nat) (f : Wave → Wave) : (s.modWave h f).walks = s.walks := rfl
@[simp] theorem State.modWave_invals (s : State) (h : Nat) (f : Wave → Wave) : (s.modWave h f).invals = s.invals := rfl
@[simp] theorem State.modWave_groups (s : State) (h : Nat) (f : Wave → Wave) : (s.modWave h f).groups = s.groups := rfl
@[simp] theorem State.modWave_launches (s : State) (h : Nat) (f : Wave → Wave) : (s.modWave h f).launches = s.launches := rfl
@[simp] theorem State.modWave_parts (s : State) (h : Nat) (f : Wave → Wave) : (s.modWave h f).parts = s.parts := rfl
@[simp] theorem State.modWave_tenants (s : State) (h : Nat) (f : Wave → Wave) : (s.modWave h f).tenants = s.tenants := rfl
@[simp] theorem State.modWave_waiters (s : State) (h : Nat) (f : Wave → Wave) : (s.modWave h f).waiters = s.waiters := rfl
@[simp] theorem State.modWave_syscs (s : State) (h : Nat) (f : Wave → Wave) : (s.modWave h f).syscs = s.syscs := rfl
@[simp] theorem State.modWave_shadows (s : State) (h : Nat) (f : Wave → Wave) : (s.modWave h f).shadows = s.shadows := rfl
@[simp] theorem State.modWave_intakes (s : State) (h : Nat) (f : Wave → Wave) : (s.modWave h f).intakes = s.intakes := rfl
@[simp] theorem State.modWave_engines (s : State) (h : Nat) (f : Wave → Wave) : (s.modWave h f).engines = s.engines := rfl
@[simp] theorem State.modWave_queues (s : State) (h : Nat) (f : Wave → Wave) : (s.modWave h f).queues = s.queues := rfl
@[simp] theorem State.modWave_phases (s : State) (h : Nat) (f : Wave → Wave) : (s.modWave h f).phases = s.phases := rfl
@[simp] theorem State.modWave_cats (s : State) (h : Nat) (f : Wave → Wave) : (s.modWave h f).cats = s.cats := rfl
@[simp] theorem State.modWave_regions (s : State) (h : Nat) (f : Wave → Wave) : (s.modWave h f).regions = s.regions := rfl
@[simp] theorem State.modWave_windows (s : State) (h : Nat) (f : Wave → Wave) : (s.modWave h f).windows = s.windows := rfl
@[simp] theorem State.modWave_devs (s : State) (h : Nat) (f : Wave → Wave) : (s.modWave h f).devs = s.devs := rfl
@[simp] theorem State.modWave_cursors (s : State) (h : Nat) (f : Wave → Wave) : (s.modWave h f).cursors = s.cursors := rfl
@[simp] theorem State.modWave_psem (s : State) (h : Nat) (f : Wave → Wave) : (s.modWave h f).psem = s.psem := rfl
@[simp] theorem State.modWave_link0 (s : State) (h : Nat) (f : Wave → Wave) : (s.modWave h f).link0 = s.link0 := rfl
@[simp] theorem State.modWave_link1 (s : State) (h : Nat) (f : Wave → Wave) : (s.modWave h f).link1 = s.link1 := rfl
@[simp] theorem State.modWave_eolAt (s : State) (h : Nat) (f : Wave → Wave) : (s.modWave h f).eolAt = s.eolAt := rfl
@[simp] theorem State.modWave_flight (s : State) (h : Nat) (f : Wave → Wave) : (s.modWave h f).flight = s.flight := rfl
@[simp] theorem State.modWave_xunits (s : State) (h : Nat) (f : Wave → Wave) : (s.modWave h f).xunits = s.xunits := rfl
@[simp] theorem State.modWave_hostBad (s : State) (h : Nat) (f : Wave → Wave) : (s.modWave h f).hostBad = s.hostBad := rfl
@[simp] theorem State.modWave_reports (s : State) (h : Nat) (f : Wave → Wave) : (s.modWave h f).reports = s.reports := rfl
@[simp] theorem State.modWave_kills (s : State) (h : Nat) (f : Wave → Wave) : (s.modWave h f).kills = s.kills := rfl
@[simp] theorem State.modWave_psemFrom (s : State) (h : Nat) (f : Wave → Wave) : (s.modWave h f).psemFrom = s.psemFrom := rfl
@[simp] theorem State.modWave_psemWrites (s : State) (h : Nat) (f : Wave → Wave) : (s.modWave h f).psemWrites = s.psemWrites := rfl
@[simp] theorem State.modWave_awake (s : State) (h : Nat) (f : Wave → Wave) : (s.modWave h f).awake = s.awake := rfl

/-! ### State.modGroup -/

@[simp] theorem State.modGroup_agenda (s : State) (g : Nat) (f : Group → Group) : (s.modGroup g f).agenda = s.agenda := rfl
@[simp] theorem State.modGroup_cur (s : State) (g : Nat) (f : Group → Group) : (s.modGroup g f).cur = s.cur := rfl
@[simp] theorem State.modGroup_tick (s : State) (g : Nat) (f : Group → Group) : (s.modGroup g f).tick = s.tick := rfl
@[simp] theorem State.modGroup_nextWave (s : State) (g : Nat) (f : Group → Group) : (s.modGroup g f).nextWave = s.nextWave := rfl
@[simp] theorem State.modGroup_nextGroup (s : State) (g : Nat) (f : Group → Group) : (s.modGroup g f).nextGroup = s.nextGroup := rfl
@[simp] theorem State.modGroup_nextLaunch (s : State) (g : Nat) (f : Group → Group) : (s.modGroup g f).nextLaunch = s.nextLaunch := rfl
@[simp] theorem State.modGroup_nextReq (s : State) (g : Nat) (f : Group → Group) : (s.modGroup g f).nextReq = s.nextReq := rfl
@[simp] theorem State.modGroup_disabled (s : State) (g : Nat) (f : Group → Group) : (s.modGroup g f).disabled = s.disabled := rfl
@[simp] theorem State.modGroup_fwver (s : State) (g : Nat) (f : Group → Group) : (s.modGroup g f).fwver = s.fwver := rfl
@[simp] theorem State.modGroup_staged (s : State) (g : Nat) (f : Group → Group) : (s.modGroup g f).staged = s.staged := rfl
@[simp] theorem State.modGroup_bootst (s : State) (g : Nat) (f : Group → Group) : (s.modGroup g f).bootst = s.bootst := rfl
@[simp] theorem State.modGroup_moduleNo (s : State) (g : Nat) (f : Group → Group) : (s.modGroup g f).moduleNo = s.moduleNo := rfl
@[simp] theorem State.modGroup_links (s : State) (g : Nat) (f : Group → Group) : (s.modGroup g f).links = s.links := rfl
@[simp] theorem State.modGroup_wires (s : State) (g : Nat) (f : Group → Group) : (s.modGroup g f).wires = s.wires := rfl
@[simp] theorem State.modGroup_eol (s : State) (g : Nat) (f : Group → Group) : (s.modGroup g f).eol = s.eol := rfl
@[simp] theorem State.modGroup_eolHour (s : State) (g : Nat) (f : Group → Group) : (s.modGroup g f).eolHour = s.eolHour := rfl
@[simp] theorem State.modGroup_mem (s : State) (g : Nat) (f : Group → Group) : (s.modGroup g f).mem = s.mem := rfl
@[simp] theorem State.modGroup_scratch (s : State) (g : Nat) (f : Group → Group) : (s.modGroup g f).scratch = s.scratch := rfl
@[simp] theorem State.modGroup_codeLog (s : State) (g : Nat) (f : Group → Group) : (s.modGroup g f).codeLog = s.codeLog := rfl
@[simp] theorem State.modGroup_codeCount (s : State) (g : Nat) (f : Group → Group) : (s.modGroup g f).codeCount = s.codeCount := rfl
@[simp] theorem State.modGroup_cycle (s : State) (g : Nat) (f : Group → Group) : (s.modGroup g f).cycle = s.cycle := rfl
@[simp] theorem State.modGroup_utlb (s : State) (g : Nat) (f : Group → Group) : (s.modGroup g f).utlb = s.utlb := rfl
@[simp] theorem State.modGroup_ctlb (s : State) (g : Nat) (f : Group → Group) : (s.modGroup g f).ctlb = s.ctlb := rfl
@[simp] theorem State.modGroup_wcache (s : State) (g : Nat) (f : Group → Group) : (s.modGroup g f).wcache = s.wcache := rfl
@[simp] theorem State.modGroup_walks (s : State) (g : Nat) (f : Group → Group) : (s.modGroup g f).walks = s.walks := rfl
@[simp] theorem State.modGroup_invals (s : State) (g : Nat) (f : Group → Group) : (s.modGroup g f).invals = s.invals := rfl
@[simp] theorem State.modGroup_waves (s : State) (g : Nat) (f : Group → Group) : (s.modGroup g f).waves = s.waves := rfl
@[simp] theorem State.modGroup_launches (s : State) (g : Nat) (f : Group → Group) : (s.modGroup g f).launches = s.launches := rfl
@[simp] theorem State.modGroup_parts (s : State) (g : Nat) (f : Group → Group) : (s.modGroup g f).parts = s.parts := rfl
@[simp] theorem State.modGroup_tenants (s : State) (g : Nat) (f : Group → Group) : (s.modGroup g f).tenants = s.tenants := rfl
@[simp] theorem State.modGroup_waiters (s : State) (g : Nat) (f : Group → Group) : (s.modGroup g f).waiters = s.waiters := rfl
@[simp] theorem State.modGroup_syscs (s : State) (g : Nat) (f : Group → Group) : (s.modGroup g f).syscs = s.syscs := rfl
@[simp] theorem State.modGroup_shadows (s : State) (g : Nat) (f : Group → Group) : (s.modGroup g f).shadows = s.shadows := rfl
@[simp] theorem State.modGroup_intakes (s : State) (g : Nat) (f : Group → Group) : (s.modGroup g f).intakes = s.intakes := rfl
@[simp] theorem State.modGroup_engines (s : State) (g : Nat) (f : Group → Group) : (s.modGroup g f).engines = s.engines := rfl
@[simp] theorem State.modGroup_queues (s : State) (g : Nat) (f : Group → Group) : (s.modGroup g f).queues = s.queues := rfl
@[simp] theorem State.modGroup_phases (s : State) (g : Nat) (f : Group → Group) : (s.modGroup g f).phases = s.phases := rfl
@[simp] theorem State.modGroup_cats (s : State) (g : Nat) (f : Group → Group) : (s.modGroup g f).cats = s.cats := rfl
@[simp] theorem State.modGroup_regions (s : State) (g : Nat) (f : Group → Group) : (s.modGroup g f).regions = s.regions := rfl
@[simp] theorem State.modGroup_windows (s : State) (g : Nat) (f : Group → Group) : (s.modGroup g f).windows = s.windows := rfl
@[simp] theorem State.modGroup_devs (s : State) (g : Nat) (f : Group → Group) : (s.modGroup g f).devs = s.devs := rfl
@[simp] theorem State.modGroup_cursors (s : State) (g : Nat) (f : Group → Group) : (s.modGroup g f).cursors = s.cursors := rfl
@[simp] theorem State.modGroup_psem (s : State) (g : Nat) (f : Group → Group) : (s.modGroup g f).psem = s.psem := rfl
@[simp] theorem State.modGroup_link0 (s : State) (g : Nat) (f : Group → Group) : (s.modGroup g f).link0 = s.link0 := rfl
@[simp] theorem State.modGroup_link1 (s : State) (g : Nat) (f : Group → Group) : (s.modGroup g f).link1 = s.link1 := rfl
@[simp] theorem State.modGroup_eolAt (s : State) (g : Nat) (f : Group → Group) : (s.modGroup g f).eolAt = s.eolAt := rfl
@[simp] theorem State.modGroup_flight (s : State) (g : Nat) (f : Group → Group) : (s.modGroup g f).flight = s.flight := rfl
@[simp] theorem State.modGroup_xunits (s : State) (g : Nat) (f : Group → Group) : (s.modGroup g f).xunits = s.xunits := rfl
@[simp] theorem State.modGroup_hostBad (s : State) (g : Nat) (f : Group → Group) : (s.modGroup g f).hostBad = s.hostBad := rfl
@[simp] theorem State.modGroup_reports (s : State) (g : Nat) (f : Group → Group) : (s.modGroup g f).reports = s.reports := rfl
@[simp] theorem State.modGroup_kills (s : State) (g : Nat) (f : Group → Group) : (s.modGroup g f).kills = s.kills := rfl
@[simp] theorem State.modGroup_psemFrom (s : State) (g : Nat) (f : Group → Group) : (s.modGroup g f).psemFrom = s.psemFrom := rfl
@[simp] theorem State.modGroup_psemWrites (s : State) (g : Nat) (f : Group → Group) : (s.modGroup g f).psemWrites = s.psemWrites := rfl
@[simp] theorem State.modGroup_awake (s : State) (g : Nat) (f : Group → Group) : (s.modGroup g f).awake = s.awake := rfl

/-! ### State.modLaunch -/

@[simp] theorem State.modLaunch_agenda (s : State) (l : Nat) (f : Launch → Launch) : (s.modLaunch l f).agenda = s.agenda := rfl
@[simp] theorem State.modLaunch_cur (s : State) (l : Nat) (f : Launch → Launch) : (s.modLaunch l f).cur = s.cur := rfl
@[simp] theorem State.modLaunch_tick (s : State) (l : Nat) (f : Launch → Launch) : (s.modLaunch l f).tick = s.tick := rfl
@[simp] theorem State.modLaunch_nextWave (s : State) (l : Nat) (f : Launch → Launch) : (s.modLaunch l f).nextWave = s.nextWave := rfl
@[simp] theorem State.modLaunch_nextGroup (s : State) (l : Nat) (f : Launch → Launch) : (s.modLaunch l f).nextGroup = s.nextGroup := rfl
@[simp] theorem State.modLaunch_nextLaunch (s : State) (l : Nat) (f : Launch → Launch) : (s.modLaunch l f).nextLaunch = s.nextLaunch := rfl
@[simp] theorem State.modLaunch_nextReq (s : State) (l : Nat) (f : Launch → Launch) : (s.modLaunch l f).nextReq = s.nextReq := rfl
@[simp] theorem State.modLaunch_disabled (s : State) (l : Nat) (f : Launch → Launch) : (s.modLaunch l f).disabled = s.disabled := rfl
@[simp] theorem State.modLaunch_fwver (s : State) (l : Nat) (f : Launch → Launch) : (s.modLaunch l f).fwver = s.fwver := rfl
@[simp] theorem State.modLaunch_staged (s : State) (l : Nat) (f : Launch → Launch) : (s.modLaunch l f).staged = s.staged := rfl
@[simp] theorem State.modLaunch_bootst (s : State) (l : Nat) (f : Launch → Launch) : (s.modLaunch l f).bootst = s.bootst := rfl
@[simp] theorem State.modLaunch_moduleNo (s : State) (l : Nat) (f : Launch → Launch) : (s.modLaunch l f).moduleNo = s.moduleNo := rfl
@[simp] theorem State.modLaunch_links (s : State) (l : Nat) (f : Launch → Launch) : (s.modLaunch l f).links = s.links := rfl
@[simp] theorem State.modLaunch_wires (s : State) (l : Nat) (f : Launch → Launch) : (s.modLaunch l f).wires = s.wires := rfl
@[simp] theorem State.modLaunch_eol (s : State) (l : Nat) (f : Launch → Launch) : (s.modLaunch l f).eol = s.eol := rfl
@[simp] theorem State.modLaunch_eolHour (s : State) (l : Nat) (f : Launch → Launch) : (s.modLaunch l f).eolHour = s.eolHour := rfl
@[simp] theorem State.modLaunch_mem (s : State) (l : Nat) (f : Launch → Launch) : (s.modLaunch l f).mem = s.mem := rfl
@[simp] theorem State.modLaunch_scratch (s : State) (l : Nat) (f : Launch → Launch) : (s.modLaunch l f).scratch = s.scratch := rfl
@[simp] theorem State.modLaunch_codeLog (s : State) (l : Nat) (f : Launch → Launch) : (s.modLaunch l f).codeLog = s.codeLog := rfl
@[simp] theorem State.modLaunch_codeCount (s : State) (l : Nat) (f : Launch → Launch) : (s.modLaunch l f).codeCount = s.codeCount := rfl
@[simp] theorem State.modLaunch_cycle (s : State) (l : Nat) (f : Launch → Launch) : (s.modLaunch l f).cycle = s.cycle := rfl
@[simp] theorem State.modLaunch_utlb (s : State) (l : Nat) (f : Launch → Launch) : (s.modLaunch l f).utlb = s.utlb := rfl
@[simp] theorem State.modLaunch_ctlb (s : State) (l : Nat) (f : Launch → Launch) : (s.modLaunch l f).ctlb = s.ctlb := rfl
@[simp] theorem State.modLaunch_wcache (s : State) (l : Nat) (f : Launch → Launch) : (s.modLaunch l f).wcache = s.wcache := rfl
@[simp] theorem State.modLaunch_walks (s : State) (l : Nat) (f : Launch → Launch) : (s.modLaunch l f).walks = s.walks := rfl
@[simp] theorem State.modLaunch_invals (s : State) (l : Nat) (f : Launch → Launch) : (s.modLaunch l f).invals = s.invals := rfl
@[simp] theorem State.modLaunch_waves (s : State) (l : Nat) (f : Launch → Launch) : (s.modLaunch l f).waves = s.waves := rfl
@[simp] theorem State.modLaunch_groups (s : State) (l : Nat) (f : Launch → Launch) : (s.modLaunch l f).groups = s.groups := rfl
@[simp] theorem State.modLaunch_parts (s : State) (l : Nat) (f : Launch → Launch) : (s.modLaunch l f).parts = s.parts := rfl
@[simp] theorem State.modLaunch_tenants (s : State) (l : Nat) (f : Launch → Launch) : (s.modLaunch l f).tenants = s.tenants := rfl
@[simp] theorem State.modLaunch_waiters (s : State) (l : Nat) (f : Launch → Launch) : (s.modLaunch l f).waiters = s.waiters := rfl
@[simp] theorem State.modLaunch_syscs (s : State) (l : Nat) (f : Launch → Launch) : (s.modLaunch l f).syscs = s.syscs := rfl
@[simp] theorem State.modLaunch_shadows (s : State) (l : Nat) (f : Launch → Launch) : (s.modLaunch l f).shadows = s.shadows := rfl
@[simp] theorem State.modLaunch_intakes (s : State) (l : Nat) (f : Launch → Launch) : (s.modLaunch l f).intakes = s.intakes := rfl
@[simp] theorem State.modLaunch_engines (s : State) (l : Nat) (f : Launch → Launch) : (s.modLaunch l f).engines = s.engines := rfl
@[simp] theorem State.modLaunch_queues (s : State) (l : Nat) (f : Launch → Launch) : (s.modLaunch l f).queues = s.queues := rfl
@[simp] theorem State.modLaunch_phases (s : State) (l : Nat) (f : Launch → Launch) : (s.modLaunch l f).phases = s.phases := rfl
@[simp] theorem State.modLaunch_cats (s : State) (l : Nat) (f : Launch → Launch) : (s.modLaunch l f).cats = s.cats := rfl
@[simp] theorem State.modLaunch_regions (s : State) (l : Nat) (f : Launch → Launch) : (s.modLaunch l f).regions = s.regions := rfl
@[simp] theorem State.modLaunch_windows (s : State) (l : Nat) (f : Launch → Launch) : (s.modLaunch l f).windows = s.windows := rfl
@[simp] theorem State.modLaunch_devs (s : State) (l : Nat) (f : Launch → Launch) : (s.modLaunch l f).devs = s.devs := rfl
@[simp] theorem State.modLaunch_cursors (s : State) (l : Nat) (f : Launch → Launch) : (s.modLaunch l f).cursors = s.cursors := rfl
@[simp] theorem State.modLaunch_psem (s : State) (l : Nat) (f : Launch → Launch) : (s.modLaunch l f).psem = s.psem := rfl
@[simp] theorem State.modLaunch_link0 (s : State) (l : Nat) (f : Launch → Launch) : (s.modLaunch l f).link0 = s.link0 := rfl
@[simp] theorem State.modLaunch_link1 (s : State) (l : Nat) (f : Launch → Launch) : (s.modLaunch l f).link1 = s.link1 := rfl
@[simp] theorem State.modLaunch_eolAt (s : State) (l : Nat) (f : Launch → Launch) : (s.modLaunch l f).eolAt = s.eolAt := rfl
@[simp] theorem State.modLaunch_flight (s : State) (l : Nat) (f : Launch → Launch) : (s.modLaunch l f).flight = s.flight := rfl
@[simp] theorem State.modLaunch_xunits (s : State) (l : Nat) (f : Launch → Launch) : (s.modLaunch l f).xunits = s.xunits := rfl
@[simp] theorem State.modLaunch_hostBad (s : State) (l : Nat) (f : Launch → Launch) : (s.modLaunch l f).hostBad = s.hostBad := rfl
@[simp] theorem State.modLaunch_reports (s : State) (l : Nat) (f : Launch → Launch) : (s.modLaunch l f).reports = s.reports := rfl
@[simp] theorem State.modLaunch_kills (s : State) (l : Nat) (f : Launch → Launch) : (s.modLaunch l f).kills = s.kills := rfl
@[simp] theorem State.modLaunch_psemFrom (s : State) (l : Nat) (f : Launch → Launch) : (s.modLaunch l f).psemFrom = s.psemFrom := rfl
@[simp] theorem State.modLaunch_psemWrites (s : State) (l : Nat) (f : Launch → Launch) : (s.modLaunch l f).psemWrites = s.psemWrites := rfl
@[simp] theorem State.modLaunch_awake (s : State) (l : Nat) (f : Launch → Launch) : (s.modLaunch l f).awake = s.awake := rfl

/-! ### State.draw -/

@[simp] theorem State.draw_agenda (s : State) : (s.draw.1).agenda = s.agenda := rfl
@[simp] theorem State.draw_cur (s : State) : (s.draw.1).cur = s.cur := rfl
@[simp] theorem State.draw_nextWave (s : State) : (s.draw.1).nextWave = s.nextWave := rfl
@[simp] theorem State.draw_nextGroup (s : State) : (s.draw.1).nextGroup = s.nextGroup := rfl
@[simp] theorem State.draw_nextLaunch (s : State) : (s.draw.1).nextLaunch = s.nextLaunch := rfl
@[simp] theorem State.draw_nextReq (s : State) : (s.draw.1).nextReq = s.nextReq := rfl
@[simp] theorem State.draw_disabled (s : State) : (s.draw.1).disabled = s.disabled := rfl
@[simp] theorem State.draw_fwver (s : State) : (s.draw.1).fwver = s.fwver := rfl
@[simp] theorem State.draw_staged (s : State) : (s.draw.1).staged = s.staged := rfl
@[simp] theorem State.draw_bootst (s : State) : (s.draw.1).bootst = s.bootst := rfl
@[simp] theorem State.draw_moduleNo (s : State) : (s.draw.1).moduleNo = s.moduleNo := rfl
@[simp] theorem State.draw_links (s : State) : (s.draw.1).links = s.links := rfl
@[simp] theorem State.draw_wires (s : State) : (s.draw.1).wires = s.wires := rfl
@[simp] theorem State.draw_eol (s : State) : (s.draw.1).eol = s.eol := rfl
@[simp] theorem State.draw_eolHour (s : State) : (s.draw.1).eolHour = s.eolHour := rfl
@[simp] theorem State.draw_mem (s : State) : (s.draw.1).mem = s.mem := rfl
@[simp] theorem State.draw_scratch (s : State) : (s.draw.1).scratch = s.scratch := rfl
@[simp] theorem State.draw_codeLog (s : State) : (s.draw.1).codeLog = s.codeLog := rfl
@[simp] theorem State.draw_codeCount (s : State) : (s.draw.1).codeCount = s.codeCount := rfl
@[simp] theorem State.draw_cycle (s : State) : (s.draw.1).cycle = s.cycle := rfl
@[simp] theorem State.draw_utlb (s : State) : (s.draw.1).utlb = s.utlb := rfl
@[simp] theorem State.draw_ctlb (s : State) : (s.draw.1).ctlb = s.ctlb := rfl
@[simp] theorem State.draw_wcache (s : State) : (s.draw.1).wcache = s.wcache := rfl
@[simp] theorem State.draw_walks (s : State) : (s.draw.1).walks = s.walks := rfl
@[simp] theorem State.draw_invals (s : State) : (s.draw.1).invals = s.invals := rfl
@[simp] theorem State.draw_waves (s : State) : (s.draw.1).waves = s.waves := rfl
@[simp] theorem State.draw_groups (s : State) : (s.draw.1).groups = s.groups := rfl
@[simp] theorem State.draw_launches (s : State) : (s.draw.1).launches = s.launches := rfl
@[simp] theorem State.draw_parts (s : State) : (s.draw.1).parts = s.parts := rfl
@[simp] theorem State.draw_tenants (s : State) : (s.draw.1).tenants = s.tenants := rfl
@[simp] theorem State.draw_waiters (s : State) : (s.draw.1).waiters = s.waiters := rfl
@[simp] theorem State.draw_syscs (s : State) : (s.draw.1).syscs = s.syscs := rfl
@[simp] theorem State.draw_shadows (s : State) : (s.draw.1).shadows = s.shadows := rfl
@[simp] theorem State.draw_intakes (s : State) : (s.draw.1).intakes = s.intakes := rfl
@[simp] theorem State.draw_engines (s : State) : (s.draw.1).engines = s.engines := rfl
@[simp] theorem State.draw_queues (s : State) : (s.draw.1).queues = s.queues := rfl
@[simp] theorem State.draw_phases (s : State) : (s.draw.1).phases = s.phases := rfl
@[simp] theorem State.draw_cats (s : State) : (s.draw.1).cats = s.cats := rfl
@[simp] theorem State.draw_regions (s : State) : (s.draw.1).regions = s.regions := rfl
@[simp] theorem State.draw_windows (s : State) : (s.draw.1).windows = s.windows := rfl
@[simp] theorem State.draw_devs (s : State) : (s.draw.1).devs = s.devs := rfl
@[simp] theorem State.draw_cursors (s : State) : (s.draw.1).cursors = s.cursors := rfl
@[simp] theorem State.draw_psem (s : State) : (s.draw.1).psem = s.psem := rfl
@[simp] theorem State.draw_link0 (s : State) : (s.draw.1).link0 = s.link0 := rfl
@[simp] theorem State.draw_link1 (s : State) : (s.draw.1).link1 = s.link1 := rfl
@[simp] theorem State.draw_eolAt (s : State) : (s.draw.1).eolAt = s.eolAt := rfl
@[simp] theorem State.draw_flight (s : State) : (s.draw.1).flight = s.flight := rfl
@[simp] theorem State.draw_xunits (s : State) : (s.draw.1).xunits = s.xunits := rfl
@[simp] theorem State.draw_hostBad (s : State) : (s.draw.1).hostBad = s.hostBad := rfl
@[simp] theorem State.draw_reports (s : State) : (s.draw.1).reports = s.reports := rfl
@[simp] theorem State.draw_kills (s : State) : (s.draw.1).kills = s.kills := rfl
@[simp] theorem State.draw_psemFrom (s : State) : (s.draw.1).psemFrom = s.psemFrom := rfl
@[simp] theorem State.draw_psemWrites (s : State) : (s.draw.1).psemWrites = s.psemWrites := rfl
@[simp] theorem State.draw_awake (s : State) : (s.draw.1).awake = s.awake := rfl

/-! ### State.unwait -/

@[simp] theorem State.unwait_agenda (s : State) (h : Nat) (b : Bool) : (s.unwait h b).agenda = s.agenda := rfl
@[simp] theorem State.unwait_cur (s : State) (h : Nat) (b : Bool) : (s.unwait h b).cur = s.cur := rfl
@[simp] theorem State.unwait_tick (s : State) (h : Nat) (b : Bool) : (s.unwait h b).tick = s.tick := rfl
@[simp] theorem State.unwait_nextWave (s : State) (h : Nat) (b : Bool) : (s.unwait h b).nextWave = s.nextWave := rfl
@[simp] theorem State.unwait_nextGroup (s : State) (h : Nat) (b : Bool) : (s.unwait h b).nextGroup = s.nextGroup := rfl
@[simp] theorem State.unwait_nextLaunch (s : State) (h : Nat) (b : Bool) : (s.unwait h b).nextLaunch = s.nextLaunch := rfl
@[simp] theorem State.unwait_nextReq (s : State) (h : Nat) (b : Bool) : (s.unwait h b).nextReq = s.nextReq := rfl
@[simp] theorem State.unwait_disabled (s : State) (h : Nat) (b : Bool) : (s.unwait h b).disabled = s.disabled := rfl
@[simp] theorem State.unwait_fwver (s : State) (h : Nat) (b : Bool) : (s.unwait h b).fwver = s.fwver := rfl
@[simp] theorem State.unwait_staged (s : State) (h : Nat) (b : Bool) : (s.unwait h b).staged = s.staged := rfl
@[simp] theorem State.unwait_bootst (s : State) (h : Nat) (b : Bool) : (s.unwait h b).bootst = s.bootst := rfl
@[simp] theorem State.unwait_moduleNo (s : State) (h : Nat) (b : Bool) : (s.unwait h b).moduleNo = s.moduleNo := rfl
@[simp] theorem State.unwait_links (s : State) (h : Nat) (b : Bool) : (s.unwait h b).links = s.links := rfl
@[simp] theorem State.unwait_wires (s : State) (h : Nat) (b : Bool) : (s.unwait h b).wires = s.wires := rfl
@[simp] theorem State.unwait_eol (s : State) (h : Nat) (b : Bool) : (s.unwait h b).eol = s.eol := rfl
@[simp] theorem State.unwait_eolHour (s : State) (h : Nat) (b : Bool) : (s.unwait h b).eolHour = s.eolHour := rfl
@[simp] theorem State.unwait_mem (s : State) (h : Nat) (b : Bool) : (s.unwait h b).mem = s.mem := rfl
@[simp] theorem State.unwait_scratch (s : State) (h : Nat) (b : Bool) : (s.unwait h b).scratch = s.scratch := rfl
@[simp] theorem State.unwait_codeLog (s : State) (h : Nat) (b : Bool) : (s.unwait h b).codeLog = s.codeLog := rfl
@[simp] theorem State.unwait_codeCount (s : State) (h : Nat) (b : Bool) : (s.unwait h b).codeCount = s.codeCount := rfl
@[simp] theorem State.unwait_cycle (s : State) (h : Nat) (b : Bool) : (s.unwait h b).cycle = s.cycle := rfl
@[simp] theorem State.unwait_utlb (s : State) (h : Nat) (b : Bool) : (s.unwait h b).utlb = s.utlb := rfl
@[simp] theorem State.unwait_ctlb (s : State) (h : Nat) (b : Bool) : (s.unwait h b).ctlb = s.ctlb := rfl
@[simp] theorem State.unwait_wcache (s : State) (h : Nat) (b : Bool) : (s.unwait h b).wcache = s.wcache := rfl
@[simp] theorem State.unwait_walks (s : State) (h : Nat) (b : Bool) : (s.unwait h b).walks = s.walks := rfl
@[simp] theorem State.unwait_invals (s : State) (h : Nat) (b : Bool) : (s.unwait h b).invals = s.invals := rfl
@[simp] theorem State.unwait_waves (s : State) (h : Nat) (b : Bool) : (s.unwait h b).waves = s.waves := rfl
@[simp] theorem State.unwait_groups (s : State) (h : Nat) (b : Bool) : (s.unwait h b).groups = s.groups := rfl
@[simp] theorem State.unwait_launches (s : State) (h : Nat) (b : Bool) : (s.unwait h b).launches = s.launches := rfl
@[simp] theorem State.unwait_parts (s : State) (h : Nat) (b : Bool) : (s.unwait h b).parts = s.parts := rfl
@[simp] theorem State.unwait_tenants (s : State) (h : Nat) (b : Bool) : (s.unwait h b).tenants = s.tenants := rfl
@[simp] theorem State.unwait_syscs (s : State) (h : Nat) (b : Bool) : (s.unwait h b).syscs = s.syscs := rfl
@[simp] theorem State.unwait_shadows (s : State) (h : Nat) (b : Bool) : (s.unwait h b).shadows = s.shadows := rfl
@[simp] theorem State.unwait_intakes (s : State) (h : Nat) (b : Bool) : (s.unwait h b).intakes = s.intakes := rfl
@[simp] theorem State.unwait_engines (s : State) (h : Nat) (b : Bool) : (s.unwait h b).engines = s.engines := rfl
@[simp] theorem State.unwait_queues (s : State) (h : Nat) (b : Bool) : (s.unwait h b).queues = s.queues := rfl
@[simp] theorem State.unwait_phases (s : State) (h : Nat) (b : Bool) : (s.unwait h b).phases = s.phases := rfl
@[simp] theorem State.unwait_cats (s : State) (h : Nat) (b : Bool) : (s.unwait h b).cats = s.cats := rfl
@[simp] theorem State.unwait_regions (s : State) (h : Nat) (b : Bool) : (s.unwait h b).regions = s.regions := rfl
@[simp] theorem State.unwait_windows (s : State) (h : Nat) (b : Bool) : (s.unwait h b).windows = s.windows := rfl
@[simp] theorem State.unwait_devs (s : State) (h : Nat) (b : Bool) : (s.unwait h b).devs = s.devs := rfl
@[simp] theorem State.unwait_cursors (s : State) (h : Nat) (b : Bool) : (s.unwait h b).cursors = s.cursors := rfl
@[simp] theorem State.unwait_psem (s : State) (h : Nat) (b : Bool) : (s.unwait h b).psem = s.psem := rfl
@[simp] theorem State.unwait_link0 (s : State) (h : Nat) (b : Bool) : (s.unwait h b).link0 = s.link0 := rfl
@[simp] theorem State.unwait_link1 (s : State) (h : Nat) (b : Bool) : (s.unwait h b).link1 = s.link1 := rfl
@[simp] theorem State.unwait_eolAt (s : State) (h : Nat) (b : Bool) : (s.unwait h b).eolAt = s.eolAt := rfl
@[simp] theorem State.unwait_flight (s : State) (h : Nat) (b : Bool) : (s.unwait h b).flight = s.flight := rfl
@[simp] theorem State.unwait_xunits (s : State) (h : Nat) (b : Bool) : (s.unwait h b).xunits = s.xunits := rfl
@[simp] theorem State.unwait_hostBad (s : State) (h : Nat) (b : Bool) : (s.unwait h b).hostBad = s.hostBad := rfl
@[simp] theorem State.unwait_reports (s : State) (h : Nat) (b : Bool) : (s.unwait h b).reports = s.reports := rfl
@[simp] theorem State.unwait_kills (s : State) (h : Nat) (b : Bool) : (s.unwait h b).kills = s.kills := rfl
@[simp] theorem State.unwait_psemFrom (s : State) (h : Nat) (b : Bool) : (s.unwait h b).psemFrom = s.psemFrom := rfl
@[simp] theorem State.unwait_psemWrites (s : State) (h : Nat) (b : Bool) : (s.unwait h b).psemWrites = s.psemWrites := rfl
@[simp] theorem State.unwait_awake (s : State) (h : Nat) (b : Bool) : (s.unwait h b).awake = s.awake := rfl

/-! ### State.unwaitAll -/

@[simp] theorem State.unwaitAll_agenda (s : State) (h : Nat) : (s.unwaitAll h).agenda = s.agenda := rfl
@[simp] theorem State.unwaitAll_cur (s : State) (h : Nat) : (s.unwaitAll h).cur = s.cur := rfl
@[simp] theorem State.unwaitAll_tick (s : State) (h : Nat) : (s.unwaitAll h).tick = s.tick := rfl
@[simp] theorem State.unwaitAll_nextWave (s : State) (h : Nat) : (s.unwaitAll h).nextWave = s.nextWave := rfl
@[simp] theorem State.unwaitAll_nextGroup (s : State) (h : Nat) : (s.unwaitAll h).nextGroup = s.nextGroup := rfl
@[simp] theorem State.unwaitAll_nextLaunch (s : State) (h : Nat) : (s.unwaitAll h).nextLaunch = s.nextLaunch := rfl
@[simp] theorem State.unwaitAll_nextReq (s : State) (h : Nat) : (s.unwaitAll h).nextReq = s.nextReq := rfl
@[simp] theorem State.unwaitAll_disabled (s : State) (h : Nat) : (s.unwaitAll h).disabled = s.disabled := rfl
@[simp] theorem State.unwaitAll_fwver (s : State) (h : Nat) : (s.unwaitAll h).fwver = s.fwver := rfl
@[simp] theorem State.unwaitAll_staged (s : State) (h : Nat) : (s.unwaitAll h).staged = s.staged := rfl
@[simp] theorem State.unwaitAll_bootst (s : State) (h : Nat) : (s.unwaitAll h).bootst = s.bootst := rfl
@[simp] theorem State.unwaitAll_moduleNo (s : State) (h : Nat) : (s.unwaitAll h).moduleNo = s.moduleNo := rfl
@[simp] theorem State.unwaitAll_links (s : State) (h : Nat) : (s.unwaitAll h).links = s.links := rfl
@[simp] theorem State.unwaitAll_wires (s : State) (h : Nat) : (s.unwaitAll h).wires = s.wires := rfl
@[simp] theorem State.unwaitAll_eol (s : State) (h : Nat) : (s.unwaitAll h).eol = s.eol := rfl
@[simp] theorem State.unwaitAll_eolHour (s : State) (h : Nat) : (s.unwaitAll h).eolHour = s.eolHour := rfl
@[simp] theorem State.unwaitAll_mem (s : State) (h : Nat) : (s.unwaitAll h).mem = s.mem := rfl
@[simp] theorem State.unwaitAll_scratch (s : State) (h : Nat) : (s.unwaitAll h).scratch = s.scratch := rfl
@[simp] theorem State.unwaitAll_codeLog (s : State) (h : Nat) : (s.unwaitAll h).codeLog = s.codeLog := rfl
@[simp] theorem State.unwaitAll_codeCount (s : State) (h : Nat) : (s.unwaitAll h).codeCount = s.codeCount := rfl
@[simp] theorem State.unwaitAll_cycle (s : State) (h : Nat) : (s.unwaitAll h).cycle = s.cycle := rfl
@[simp] theorem State.unwaitAll_utlb (s : State) (h : Nat) : (s.unwaitAll h).utlb = s.utlb := rfl
@[simp] theorem State.unwaitAll_ctlb (s : State) (h : Nat) : (s.unwaitAll h).ctlb = s.ctlb := rfl
@[simp] theorem State.unwaitAll_wcache (s : State) (h : Nat) : (s.unwaitAll h).wcache = s.wcache := rfl
@[simp] theorem State.unwaitAll_walks (s : State) (h : Nat) : (s.unwaitAll h).walks = s.walks := rfl
@[simp] theorem State.unwaitAll_invals (s : State) (h : Nat) : (s.unwaitAll h).invals = s.invals := rfl
@[simp] theorem State.unwaitAll_waves (s : State) (h : Nat) : (s.unwaitAll h).waves = s.waves := rfl
@[simp] theorem State.unwaitAll_groups (s : State) (h : Nat) : (s.unwaitAll h).groups = s.groups := rfl
@[simp] theorem State.unwaitAll_launches (s : State) (h : Nat) : (s.unwaitAll h).launches = s.launches := rfl
@[simp] theorem State.unwaitAll_parts (s : State) (h : Nat) : (s.unwaitAll h).parts = s.parts := rfl
@[simp] theorem State.unwaitAll_tenants (s : State) (h : Nat) : (s.unwaitAll h).tenants = s.tenants := rfl
@[simp] theorem State.unwaitAll_syscs (s : State) (h : Nat) : (s.unwaitAll h).syscs = s.syscs := rfl
@[simp] theorem State.unwaitAll_shadows (s : State) (h : Nat) : (s.unwaitAll h).shadows = s.shadows := rfl
@[simp] theorem State.unwaitAll_intakes (s : State) (h : Nat) : (s.unwaitAll h).intakes = s.intakes := rfl
@[simp] theorem State.unwaitAll_engines (s : State) (h : Nat) : (s.unwaitAll h).engines = s.engines := rfl
@[simp] theorem State.unwaitAll_queues (s : State) (h : Nat) : (s.unwaitAll h).queues = s.queues := rfl
@[simp] theorem State.unwaitAll_phases (s : State) (h : Nat) : (s.unwaitAll h).phases = s.phases := rfl
@[simp] theorem State.unwaitAll_cats (s : State) (h : Nat) : (s.unwaitAll h).cats = s.cats := rfl
@[simp] theorem State.unwaitAll_regions (s : State) (h : Nat) : (s.unwaitAll h).regions = s.regions := rfl
@[simp] theorem State.unwaitAll_windows (s : State) (h : Nat) : (s.unwaitAll h).windows = s.windows := rfl
@[simp] theorem State.unwaitAll_devs (s : State) (h : Nat) : (s.unwaitAll h).devs = s.devs := rfl
@[simp] theorem State.unwaitAll_cursors (s : State) (h : Nat) : (s.unwaitAll h).cursors = s.cursors := rfl
@[simp] theorem State.unwaitAll_psem (s : State) (h : Nat) : (s.unwaitAll h).psem = s.psem := rfl
@[simp] theorem State.unwaitAll_link0 (s : State) (h : Nat) : (s.unwaitAll h).link0 = s.link0 := rfl
@[simp] theorem State.unwaitAll_link1 (s : State) (h : Nat) : (s.unwaitAll h).link1 = s.link1 := rfl
@[simp] theorem State.unwaitAll_eolAt (s : State) (h : Nat) : (s.unwaitAll h).eolAt = s.eolAt := rfl
@[simp] theorem State.unwaitAll_flight (s : State) (h : Nat) : (s.unwaitAll h).flight = s.flight := rfl
@[simp] theorem State.unwaitAll_xunits (s : State) (h : Nat) : (s.unwaitAll h).xunits = s.xunits := rfl
@[simp] theorem State.unwaitAll_hostBad (s : State) (h : Nat) : (s.unwaitAll h).hostBad = s.hostBad := rfl
@[simp] theorem State.unwaitAll_reports (s : State) (h : Nat) : (s.unwaitAll h).reports = s.reports := rfl
@[simp] theorem State.unwaitAll_kills (s : State) (h : Nat) : (s.unwaitAll h).kills = s.kills := rfl
@[simp] theorem State.unwaitAll_psemFrom (s : State) (h : Nat) : (s.unwaitAll h).psemFrom = s.psemFrom := rfl
@[simp] theorem State.unwaitAll_psemWrites (s : State) (h : Nat) : (s.unwaitAll h).psemWrites = s.psemWrites := rfl
@[simp] theorem State.unwaitAll_awake (s : State) (h : Nat) : (s.unwaitAll h).awake = s.awake := rfl

/-! ### Wave.setFrag -/

@[simp] theorem Wave.setFrag_group (w : Wave) (b : Bool) (f : Option Frag) : (w.setFrag b f).group = w.group := by cases b <;> rfl
@[simp] theorem Wave.setFrag_idx (w : Wave) (b : Bool) (f : Option Frag) : (w.setFrag b f).idx = w.idx := by cases b <;> rfl
@[simp] theorem Wave.setFrag_waveid (w : Wave) (b : Bool) (f : Option Frag) : (w.setFrag b f).waveid = w.waveid := by cases b <;> rfl
@[simp] theorem Wave.setFrag_stack (w : Wave) (b : Bool) (f : Option Frag) : (w.setFrag b f).stack = w.stack := by cases b <;> rfl
@[simp] theorem Wave.setFrag_spill (w : Wave) (b : Bool) (f : Option Frag) : (w.setFrag b f).spill = w.spill := by cases b <;> rfl
@[simp] theorem Wave.setFrag_exited (w : Wave) (b : Bool) (f : Option Frag) : (w.setFrag b f).exited = w.exited := by cases b <;> rfl
@[simp] theorem Wave.setFrag_held (w : Wave) (b : Bool) (f : Option Frag) : (w.setFrag b f).held = w.held := by cases b <;> rfl
@[simp] theorem Wave.setFrag_hloops (w : Wave) (b : Bool) (f : Option Frag) : (w.setFrag b f).hloops = w.hloops := by cases b <;> rfl
@[simp] theorem Wave.setFrag_hdepth (w : Wave) (b : Bool) (f : Option Frag) : (w.setFrag b f).hdepth = w.hdepth := by cases b <;> rfl
@[simp] theorem Wave.setFrag_hhloop (w : Wave) (b : Bool) (f : Option Frag) : (w.setFrag b f).hhloop = w.hhloop := by cases b <;> rfl
@[simp] theorem Wave.setFrag_base (w : Wave) (b : Bool) (f : Option Frag) : (w.setFrag b f).base = w.base := by cases b <;> rfl
@[simp] theorem Wave.setFrag_blocks (w : Wave) (b : Bool) (f : Option Frag) : (w.setFrag b f).blocks = w.blocks := by cases b <;> rfl
@[simp] theorem Wave.setFrag_wb (w : Wave) (b : Bool) (f : Option Frag) : (w.setFrag b f).wb = w.wb := by cases b <;> rfl
@[simp] theorem Wave.setFrag_v (w : Wave) (b : Bool) (f : Option Frag) : (w.setFrag b f).v = w.v := by cases b <;> rfl
@[simp] theorem Wave.setFrag_s (w : Wave) (b : Bool) (f : Option Frag) : (w.setFrag b f).s = w.s := by cases b <;> rfl
@[simp] theorem Wave.setFrag_p (w : Wave) (b : Bool) (f : Option Frag) : (w.setFrag b f).p = w.p := by cases b <;> rfl
@[simp] theorem Wave.setFrag_k (w : Wave) (b : Bool) (f : Option Frag) : (w.setFrag b f).k = w.k := by cases b <;> rfl
@[simp] theorem Wave.setFrag_m (w : Wave) (b : Bool) (f : Option Frag) : (w.setFrag b f).m = w.m := by cases b <;> rfl
@[simp] theorem Wave.setFrag_shape (w : Wave) (b : Bool) (f : Option Frag) : (w.setFrag b f).shape = w.shape := by cases b <;> rfl
@[simp] theorem Wave.setFrag_msts (w : Wave) (b : Bool) (f : Option Frag) : (w.setFrag b f).msts = w.msts := by cases b <;> rfl
@[simp] theorem Wave.setFrag_matrix (w : Wave) (b : Bool) (f : Option Frag) : (w.setFrag b f).matrix = w.matrix := by cases b <;> rfl
@[simp] theorem Wave.setFrag_frm (w : Wave) (b : Bool) (f : Option Frag) : (w.setFrag b f).frm = w.frm := by cases b <;> rfl
@[simp] theorem Wave.setFrag_fflags (w : Wave) (b : Bool) (f : Option Frag) : (w.setFrag b f).fflags = w.fflags := by cases b <;> rfl
@[simp] theorem Wave.setFrag_accmode (w : Wave) (b : Bool) (f : Option Frag) : (w.setFrag b f).accmode = w.accmode := by cases b <;> rfl
@[simp] theorem Wave.setFrag_subgrp (w : Wave) (b : Bool) (f : Option Frag) : (w.setFrag b f).subgrp = w.subgrp := by cases b <;> rfl
@[simp] theorem Wave.setFrag_mtol (w : Wave) (b : Bool) (f : Option Frag) : (w.setFrag b f).mtol = w.mtol := by cases b <;> rfl
@[simp] theorem Wave.setFrag_mtrapen (w : Wave) (b : Bool) (f : Option Frag) : (w.setFrag b f).mtrapen = w.mtrapen := by cases b <;> rfl
@[simp] theorem Wave.setFrag_u5trap (w : Wave) (b : Bool) (f : Option Frag) : (w.setFrag b f).u5trap = w.u5trap := by cases b <;> rfl
@[simp] theorem Wave.setFrag_lc0 (w : Wave) (b : Bool) (f : Option Frag) : (w.setFrag b f).lc0 = w.lc0 := by cases b <;> rfl
@[simp] theorem Wave.setFrag_lc1 (w : Wave) (b : Bool) (f : Option Frag) : (w.setFrag b f).lc1 = w.lc1 := by cases b <;> rfl
@[simp] theorem Wave.setFrag_lc2 (w : Wave) (b : Bool) (f : Option Frag) : (w.setFrag b f).lc2 = w.lc2 := by cases b <;> rfl
@[simp] theorem Wave.setFrag_uivec (w : Wave) (b : Bool) (f : Option Frag) : (w.setFrag b f).uivec = w.uivec := by cases b <;> rfl
@[simp] theorem Wave.setFrag_uicause (w : Wave) (b : Bool) (f : Option Frag) : (w.setFrag b f).uicause = w.uicause := by cases b <;> rfl
@[simp] theorem Wave.setFrag_uipc (w : Wave) (b : Bool) (f : Option Frag) : (w.setFrag b f).uipc = w.uipc := by cases b <;> rfl
@[simp] theorem Wave.setFrag_en (w : Wave) (b : Bool) (f : Option Frag) : (w.setFrag b f).en = w.en := by cases b <;> rfl
@[simp] theorem Wave.setFrag_inH (w : Wave) (b : Bool) (f : Option Frag) : (w.setFrag b f).inH = w.inH := by cases b <;> rfl
@[simp] theorem Wave.setFrag_hside (w : Wave) (b : Bool) (f : Option Frag) : (w.setFrag b f).hside = w.hside := by cases b <;> rfl
@[simp] theorem Wave.setFrag_lost (w : Wave) (b : Bool) (f : Option Frag) : (w.setFrag b f).lost = w.lost := by cases b <;> rfl
@[simp] theorem Wave.setFrag_pending (w : Wave) (b : Bool) (f : Option Frag) : (w.setFrag b f).pending = w.pending := by cases b <;> rfl
@[simp] theorem Wave.setFrag_racqtmo (w : Wave) (b : Bool) (f : Option Frag) : (w.setFrag b f).racqtmo = w.racqtmo := by cases b <;> rfl
@[simp] theorem Wave.setFrag_outs (w : Wave) (b : Bool) (f : Option Frag) : (w.setFrag b f).outs = w.outs := by cases b <;> rfl
@[simp] theorem Wave.setFrag_nextSeq (w : Wave) (b : Bool) (f : Option Frag) : (w.setFrag b f).nextSeq = w.nextSeq := by cases b <;> rfl
@[simp] theorem Wave.setFrag_flagPend (w : Wave) (b : Bool) (f : Option Frag) : (w.setFrag b f).flagPend = w.flagPend := by cases b <;> rfl
@[simp] theorem Wave.setFrag_q1 (w : Wave) (b : Bool) (f : Option Frag) : (w.setFrag b f).q1 = w.q1 := by cases b <;> rfl
@[simp] theorem Wave.setFrag_q3 (w : Wave) (b : Bool) (f : Option Frag) : (w.setFrag b f).q3 = w.q3 := by cases b <;> rfl
@[simp] theorem Wave.setFrag_lost1 (w : Wave) (b : Bool) (f : Option Frag) : (w.setFrag b f).lost1 = w.lost1 := by cases b <;> rfl
@[simp] theorem Wave.setFrag_lost3 (w : Wave) (b : Bool) (f : Option Frag) : (w.setFrag b f).lost3 = w.lost3 := by cases b <;> rfl
@[simp] theorem Wave.setFrag_seq0 (w : Wave) (b : Bool) (f : Option Frag) : (w.setFrag b f).seq0 = w.seq0 := by cases b <;> rfl
@[simp] theorem Wave.setFrag_seq2 (w : Wave) (b : Bool) (f : Option Frag) : (w.setFrag b f).seq2 = w.seq2 := by cases b <;> rfl
@[simp] theorem Wave.setFrag_binds (w : Wave) (b : Bool) (f : Option Frag) : (w.setFrag b f).binds = w.binds := by cases b <;> rfl
@[simp] theorem Wave.setFrag_cat (w : Wave) (b : Bool) (f : Option Frag) : (w.setFrag b f).cat = w.cat := by cases b <;> rfl
@[simp] theorem Wave.setFrag_ic (w : Wave) (b : Bool) (f : Option Frag) : (w.setFrag b f).ic = w.ic := by cases b <;> rfl
@[simp] theorem Wave.setFrag_hash (w : Wave) (b : Bool) (f : Option Frag) : (w.setFrag b f).hash = w.hash := by cases b <;> rfl
@[simp] theorem Wave.setFrag_qret (w : Wave) (b : Bool) (f : Option Frag) : (w.setFrag b f).qret = w.qret := by cases b <;> rfl
@[simp] theorem Wave.setFrag_quanta (w : Wave) (b : Bool) (f : Option Frag) : (w.setFrag b f).quanta = w.quanta := by cases b <;> rfl
@[simp] theorem Wave.setFrag_qstate (w : Wave) (b : Bool) (f : Option Frag) : (w.setFrag b f).qstate = w.qstate := by cases b <;> rfl
@[simp] theorem Wave.setFrag_qops (w : Wave) (b : Bool) (f : Option Frag) : (w.setFrag b f).qops = w.qops := by cases b <;> rfl
@[simp] theorem Wave.setFrag_csrPend (w : Wave) (b : Bool) (f : Option Frag) : (w.setFrag b f).csrPend = w.csrPend := by cases b <;> rfl
@[simp] theorem Wave.setFrag_age (w : Wave) (b : Bool) (f : Option Frag) : (w.setFrag b f).age = w.age := by cases b <;> rfl
@[simp] theorem Wave.setFrag_boosts (w : Wave) (b : Bool) (f : Option Frag) : (w.setFrag b f).boosts = w.boosts := by cases b <;> rfl
@[simp] theorem Wave.setFrag_since (w : Wave) (b : Bool) (f : Option Frag) : (w.setFrag b f).since = w.since := by cases b <;> rfl
@[simp] theorem Wave.setFrag_stop (w : Wave) (b : Bool) (f : Option Frag) : (w.setFrag b f).stop = w.stop := by cases b <;> rfl
@[simp] theorem Wave.setFrag_errs (w : Wave) (b : Bool) (f : Option Frag) : (w.setFrag b f).errs = w.errs := by cases b <;> rfl
@[simp] theorem Wave.setFrag_walkFaults (w : Wave) (b : Bool) (f : Option Frag) : (w.setFrag b f).walkFaults = w.walkFaults := by cases b <;> rfl
@[simp] theorem Wave.setFrag_codeSeen (w : Wave) (b : Bool) (f : Option Frag) : (w.setFrag b f).codeSeen = w.codeSeen := by cases b <;> rfl
@[simp] theorem Wave.setFrag_gateWait (w : Wave) (b : Bool) (f : Option Frag) : (w.setFrag b f).gateWait = w.gateWait := by cases b <;> rfl
@[simp] theorem Wave.setFrag_nextIf (w : Wave) (b : Bool) (f : Option Frag) : (w.setFrag b f).nextIf = w.nextIf := by cases b <;> rfl
@[simp] theorem Wave.setFrag_badWord (w : Wave) (b : Bool) (f : Option Frag) : (w.setFrag b f).badWord = w.badWord := by cases b <;> rfl
@[simp] theorem Wave.setFrag_own (w : Wave) (b : Bool) (f : Option Frag) : (w.setFrag b f).own = w.own := by cases b <;> rfl
@[simp] theorem Wave.setFrag_walkLeaves (w : Wave) (b : Bool) (f : Option Frag) : (w.setFrag b f).walkLeaves = w.walkLeaves := by cases b <;> rfl

/-! ### Wave.vputAll -/

@[simp] theorem Wave.vputAll_group (w : Wave) (j : Nat) (f : Nat → Word) : (w.vputAll j f).group = w.group := rfl
@[simp] theorem Wave.vputAll_idx (w : Wave) (j : Nat) (f : Nat → Word) : (w.vputAll j f).idx = w.idx := rfl
@[simp] theorem Wave.vputAll_waveid (w : Wave) (j : Nat) (f : Nat → Word) : (w.vputAll j f).waveid = w.waveid := rfl
@[simp] theorem Wave.vputAll_first (w : Wave) (j : Nat) (f : Nat → Word) : (w.vputAll j f).first = w.first := rfl
@[simp] theorem Wave.vputAll_second (w : Wave) (j : Nat) (f : Nat → Word) : (w.vputAll j f).second = w.second := rfl
@[simp] theorem Wave.vputAll_stack (w : Wave) (j : Nat) (f : Nat → Word) : (w.vputAll j f).stack = w.stack := rfl
@[simp] theorem Wave.vputAll_spill (w : Wave) (j : Nat) (f : Nat → Word) : (w.vputAll j f).spill = w.spill := rfl
@[simp] theorem Wave.vputAll_exited (w : Wave) (j : Nat) (f : Nat → Word) : (w.vputAll j f).exited = w.exited := rfl
@[simp] theorem Wave.vputAll_held (w : Wave) (j : Nat) (f : Nat → Word) : (w.vputAll j f).held = w.held := rfl
@[simp] theorem Wave.vputAll_hloops (w : Wave) (j : Nat) (f : Nat → Word) : (w.vputAll j f).hloops = w.hloops := rfl
@[simp] theorem Wave.vputAll_hdepth (w : Wave) (j : Nat) (f : Nat → Word) : (w.vputAll j f).hdepth = w.hdepth := rfl
@[simp] theorem Wave.vputAll_hhloop (w : Wave) (j : Nat) (f : Nat → Word) : (w.vputAll j f).hhloop = w.hhloop := rfl
@[simp] theorem Wave.vputAll_base (w : Wave) (j : Nat) (f : Nat → Word) : (w.vputAll j f).base = w.base := rfl
@[simp] theorem Wave.vputAll_blocks (w : Wave) (j : Nat) (f : Nat → Word) : (w.vputAll j f).blocks = w.blocks := rfl
@[simp] theorem Wave.vputAll_wb (w : Wave) (j : Nat) (f : Nat → Word) : (w.vputAll j f).wb = w.wb := rfl
@[simp] theorem Wave.vputAll_s (w : Wave) (j : Nat) (f : Nat → Word) : (w.vputAll j f).s = w.s := rfl
@[simp] theorem Wave.vputAll_p (w : Wave) (j : Nat) (f : Nat → Word) : (w.vputAll j f).p = w.p := rfl
@[simp] theorem Wave.vputAll_k (w : Wave) (j : Nat) (f : Nat → Word) : (w.vputAll j f).k = w.k := rfl
@[simp] theorem Wave.vputAll_m (w : Wave) (j : Nat) (f : Nat → Word) : (w.vputAll j f).m = w.m := rfl
@[simp] theorem Wave.vputAll_shape (w : Wave) (j : Nat) (f : Nat → Word) : (w.vputAll j f).shape = w.shape := rfl
@[simp] theorem Wave.vputAll_msts (w : Wave) (j : Nat) (f : Nat → Word) : (w.vputAll j f).msts = w.msts := rfl
@[simp] theorem Wave.vputAll_matrix (w : Wave) (j : Nat) (f : Nat → Word) : (w.vputAll j f).matrix = w.matrix := rfl
@[simp] theorem Wave.vputAll_frm (w : Wave) (j : Nat) (f : Nat → Word) : (w.vputAll j f).frm = w.frm := rfl
@[simp] theorem Wave.vputAll_fflags (w : Wave) (j : Nat) (f : Nat → Word) : (w.vputAll j f).fflags = w.fflags := rfl
@[simp] theorem Wave.vputAll_accmode (w : Wave) (j : Nat) (f : Nat → Word) : (w.vputAll j f).accmode = w.accmode := rfl
@[simp] theorem Wave.vputAll_subgrp (w : Wave) (j : Nat) (f : Nat → Word) : (w.vputAll j f).subgrp = w.subgrp := rfl
@[simp] theorem Wave.vputAll_mtol (w : Wave) (j : Nat) (f : Nat → Word) : (w.vputAll j f).mtol = w.mtol := rfl
@[simp] theorem Wave.vputAll_mtrapen (w : Wave) (j : Nat) (f : Nat → Word) : (w.vputAll j f).mtrapen = w.mtrapen := rfl
@[simp] theorem Wave.vputAll_u5trap (w : Wave) (j : Nat) (f : Nat → Word) : (w.vputAll j f).u5trap = w.u5trap := rfl
@[simp] theorem Wave.vputAll_lc0 (w : Wave) (j : Nat) (f : Nat → Word) : (w.vputAll j f).lc0 = w.lc0 := rfl
@[simp] theorem Wave.vputAll_lc1 (w : Wave) (j : Nat) (f : Nat → Word) : (w.vputAll j f).lc1 = w.lc1 := rfl
@[simp] theorem Wave.vputAll_lc2 (w : Wave) (j : Nat) (f : Nat → Word) : (w.vputAll j f).lc2 = w.lc2 := rfl
@[simp] theorem Wave.vputAll_uivec (w : Wave) (j : Nat) (f : Nat → Word) : (w.vputAll j f).uivec = w.uivec := rfl
@[simp] theorem Wave.vputAll_uicause (w : Wave) (j : Nat) (f : Nat → Word) : (w.vputAll j f).uicause = w.uicause := rfl
@[simp] theorem Wave.vputAll_uipc (w : Wave) (j : Nat) (f : Nat → Word) : (w.vputAll j f).uipc = w.uipc := rfl
@[simp] theorem Wave.vputAll_en (w : Wave) (j : Nat) (f : Nat → Word) : (w.vputAll j f).en = w.en := rfl
@[simp] theorem Wave.vputAll_inH (w : Wave) (j : Nat) (f : Nat → Word) : (w.vputAll j f).inH = w.inH := rfl
@[simp] theorem Wave.vputAll_hside (w : Wave) (j : Nat) (f : Nat → Word) : (w.vputAll j f).hside = w.hside := rfl
@[simp] theorem Wave.vputAll_lost (w : Wave) (j : Nat) (f : Nat → Word) : (w.vputAll j f).lost = w.lost := rfl
@[simp] theorem Wave.vputAll_pending (w : Wave) (j : Nat) (f : Nat → Word) : (w.vputAll j f).pending = w.pending := rfl
@[simp] theorem Wave.vputAll_racqtmo (w : Wave) (j : Nat) (f : Nat → Word) : (w.vputAll j f).racqtmo = w.racqtmo := rfl
@[simp] theorem Wave.vputAll_outs (w : Wave) (j : Nat) (f : Nat → Word) : (w.vputAll j f).outs = w.outs := rfl
@[simp] theorem Wave.vputAll_nextSeq (w : Wave) (j : Nat) (f : Nat → Word) : (w.vputAll j f).nextSeq = w.nextSeq := rfl
@[simp] theorem Wave.vputAll_flagPend (w : Wave) (j : Nat) (f : Nat → Word) : (w.vputAll j f).flagPend = w.flagPend := rfl
@[simp] theorem Wave.vputAll_q1 (w : Wave) (j : Nat) (f : Nat → Word) : (w.vputAll j f).q1 = w.q1 := rfl
@[simp] theorem Wave.vputAll_q3 (w : Wave) (j : Nat) (f : Nat → Word) : (w.vputAll j f).q3 = w.q3 := rfl
@[simp] theorem Wave.vputAll_lost1 (w : Wave) (j : Nat) (f : Nat → Word) : (w.vputAll j f).lost1 = w.lost1 := rfl
@[simp] theorem Wave.vputAll_lost3 (w : Wave) (j : Nat) (f : Nat → Word) : (w.vputAll j f).lost3 = w.lost3 := rfl
@[simp] theorem Wave.vputAll_seq0 (w : Wave) (j : Nat) (f : Nat → Word) : (w.vputAll j f).seq0 = w.seq0 := rfl
@[simp] theorem Wave.vputAll_seq2 (w : Wave) (j : Nat) (f : Nat → Word) : (w.vputAll j f).seq2 = w.seq2 := rfl
@[simp] theorem Wave.vputAll_binds (w : Wave) (j : Nat) (f : Nat → Word) : (w.vputAll j f).binds = w.binds := rfl
@[simp] theorem Wave.vputAll_cat (w : Wave) (j : Nat) (f : Nat → Word) : (w.vputAll j f).cat = w.cat := rfl
@[simp] theorem Wave.vputAll_ic (w : Wave) (j : Nat) (f : Nat → Word) : (w.vputAll j f).ic = w.ic := rfl
@[simp] theorem Wave.vputAll_hash (w : Wave) (j : Nat) (f : Nat → Word) : (w.vputAll j f).hash = w.hash := rfl
@[simp] theorem Wave.vputAll_qret (w : Wave) (j : Nat) (f : Nat → Word) : (w.vputAll j f).qret = w.qret := rfl
@[simp] theorem Wave.vputAll_quanta (w : Wave) (j : Nat) (f : Nat → Word) : (w.vputAll j f).quanta = w.quanta := rfl
@[simp] theorem Wave.vputAll_qstate (w : Wave) (j : Nat) (f : Nat → Word) : (w.vputAll j f).qstate = w.qstate := rfl
@[simp] theorem Wave.vputAll_qops (w : Wave) (j : Nat) (f : Nat → Word) : (w.vputAll j f).qops = w.qops := rfl
@[simp] theorem Wave.vputAll_csrPend (w : Wave) (j : Nat) (f : Nat → Word) : (w.vputAll j f).csrPend = w.csrPend := rfl
@[simp] theorem Wave.vputAll_age (w : Wave) (j : Nat) (f : Nat → Word) : (w.vputAll j f).age = w.age := rfl
@[simp] theorem Wave.vputAll_boosts (w : Wave) (j : Nat) (f : Nat → Word) : (w.vputAll j f).boosts = w.boosts := rfl
@[simp] theorem Wave.vputAll_since (w : Wave) (j : Nat) (f : Nat → Word) : (w.vputAll j f).since = w.since := rfl
@[simp] theorem Wave.vputAll_stop (w : Wave) (j : Nat) (f : Nat → Word) : (w.vputAll j f).stop = w.stop := rfl
@[simp] theorem Wave.vputAll_errs (w : Wave) (j : Nat) (f : Nat → Word) : (w.vputAll j f).errs = w.errs := rfl
@[simp] theorem Wave.vputAll_walkFaults (w : Wave) (j : Nat) (f : Nat → Word) : (w.vputAll j f).walkFaults = w.walkFaults := rfl
@[simp] theorem Wave.vputAll_codeSeen (w : Wave) (j : Nat) (f : Nat → Word) : (w.vputAll j f).codeSeen = w.codeSeen := rfl
@[simp] theorem Wave.vputAll_gateWait (w : Wave) (j : Nat) (f : Nat → Word) : (w.vputAll j f).gateWait = w.gateWait := rfl
@[simp] theorem Wave.vputAll_nextIf (w : Wave) (j : Nat) (f : Nat → Word) : (w.vputAll j f).nextIf = w.nextIf := rfl
@[simp] theorem Wave.vputAll_badWord (w : Wave) (j : Nat) (f : Nat → Word) : (w.vputAll j f).badWord = w.badWord := rfl
@[simp] theorem Wave.vputAll_own (w : Wave) (j : Nat) (f : Nat → Word) : (w.vputAll j f).own = w.own := rfl
@[simp] theorem Wave.vputAll_walkLeaves (w : Wave) (j : Nat) (f : Nat → Word) : (w.vputAll j f).walkLeaves = w.walkLeaves := rfl

/-! ### Wave.vput -/

@[simp] theorem Wave.vput_group (w : Wave) (j : Nat) (m : Mask) (f : Nat → Word) : (w.vput j m f).group = w.group := rfl
@[simp] theorem Wave.vput_idx (w : Wave) (j : Nat) (m : Mask) (f : Nat → Word) : (w.vput j m f).idx = w.idx := rfl
@[simp] theorem Wave.vput_waveid (w : Wave) (j : Nat) (m : Mask) (f : Nat → Word) : (w.vput j m f).waveid = w.waveid := rfl
@[simp] theorem Wave.vput_first (w : Wave) (j : Nat) (m : Mask) (f : Nat → Word) : (w.vput j m f).first = w.first := rfl
@[simp] theorem Wave.vput_second (w : Wave) (j : Nat) (m : Mask) (f : Nat → Word) : (w.vput j m f).second = w.second := rfl
@[simp] theorem Wave.vput_stack (w : Wave) (j : Nat) (m : Mask) (f : Nat → Word) : (w.vput j m f).stack = w.stack := rfl
@[simp] theorem Wave.vput_spill (w : Wave) (j : Nat) (m : Mask) (f : Nat → Word) : (w.vput j m f).spill = w.spill := rfl
@[simp] theorem Wave.vput_exited (w : Wave) (j : Nat) (m : Mask) (f : Nat → Word) : (w.vput j m f).exited = w.exited := rfl
@[simp] theorem Wave.vput_held (w : Wave) (j : Nat) (m : Mask) (f : Nat → Word) : (w.vput j m f).held = w.held := rfl
@[simp] theorem Wave.vput_hloops (w : Wave) (j : Nat) (m : Mask) (f : Nat → Word) : (w.vput j m f).hloops = w.hloops := rfl
@[simp] theorem Wave.vput_hdepth (w : Wave) (j : Nat) (m : Mask) (f : Nat → Word) : (w.vput j m f).hdepth = w.hdepth := rfl
@[simp] theorem Wave.vput_hhloop (w : Wave) (j : Nat) (m : Mask) (f : Nat → Word) : (w.vput j m f).hhloop = w.hhloop := rfl
@[simp] theorem Wave.vput_base (w : Wave) (j : Nat) (m : Mask) (f : Nat → Word) : (w.vput j m f).base = w.base := rfl
@[simp] theorem Wave.vput_blocks (w : Wave) (j : Nat) (m : Mask) (f : Nat → Word) : (w.vput j m f).blocks = w.blocks := rfl
@[simp] theorem Wave.vput_wb (w : Wave) (j : Nat) (m : Mask) (f : Nat → Word) : (w.vput j m f).wb = w.wb := rfl
@[simp] theorem Wave.vput_s (w : Wave) (j : Nat) (m : Mask) (f : Nat → Word) : (w.vput j m f).s = w.s := rfl
@[simp] theorem Wave.vput_p (w : Wave) (j : Nat) (m : Mask) (f : Nat → Word) : (w.vput j m f).p = w.p := rfl
@[simp] theorem Wave.vput_k (w : Wave) (j : Nat) (m : Mask) (f : Nat → Word) : (w.vput j m f).k = w.k := rfl
@[simp] theorem Wave.vput_m (w : Wave) (j : Nat) (m : Mask) (f : Nat → Word) : (w.vput j m f).m = w.m := rfl
@[simp] theorem Wave.vput_shape (w : Wave) (j : Nat) (m : Mask) (f : Nat → Word) : (w.vput j m f).shape = w.shape := rfl
@[simp] theorem Wave.vput_msts (w : Wave) (j : Nat) (m : Mask) (f : Nat → Word) : (w.vput j m f).msts = w.msts := rfl
@[simp] theorem Wave.vput_matrix (w : Wave) (j : Nat) (m : Mask) (f : Nat → Word) : (w.vput j m f).matrix = w.matrix := rfl
@[simp] theorem Wave.vput_frm (w : Wave) (j : Nat) (m : Mask) (f : Nat → Word) : (w.vput j m f).frm = w.frm := rfl
@[simp] theorem Wave.vput_fflags (w : Wave) (j : Nat) (m : Mask) (f : Nat → Word) : (w.vput j m f).fflags = w.fflags := rfl
@[simp] theorem Wave.vput_accmode (w : Wave) (j : Nat) (m : Mask) (f : Nat → Word) : (w.vput j m f).accmode = w.accmode := rfl
@[simp] theorem Wave.vput_subgrp (w : Wave) (j : Nat) (m : Mask) (f : Nat → Word) : (w.vput j m f).subgrp = w.subgrp := rfl
@[simp] theorem Wave.vput_mtol (w : Wave) (j : Nat) (m : Mask) (f : Nat → Word) : (w.vput j m f).mtol = w.mtol := rfl
@[simp] theorem Wave.vput_mtrapen (w : Wave) (j : Nat) (m : Mask) (f : Nat → Word) : (w.vput j m f).mtrapen = w.mtrapen := rfl
@[simp] theorem Wave.vput_u5trap (w : Wave) (j : Nat) (m : Mask) (f : Nat → Word) : (w.vput j m f).u5trap = w.u5trap := rfl
@[simp] theorem Wave.vput_lc0 (w : Wave) (j : Nat) (m : Mask) (f : Nat → Word) : (w.vput j m f).lc0 = w.lc0 := rfl
@[simp] theorem Wave.vput_lc1 (w : Wave) (j : Nat) (m : Mask) (f : Nat → Word) : (w.vput j m f).lc1 = w.lc1 := rfl
@[simp] theorem Wave.vput_lc2 (w : Wave) (j : Nat) (m : Mask) (f : Nat → Word) : (w.vput j m f).lc2 = w.lc2 := rfl
@[simp] theorem Wave.vput_uivec (w : Wave) (j : Nat) (m : Mask) (f : Nat → Word) : (w.vput j m f).uivec = w.uivec := rfl
@[simp] theorem Wave.vput_uicause (w : Wave) (j : Nat) (m : Mask) (f : Nat → Word) : (w.vput j m f).uicause = w.uicause := rfl
@[simp] theorem Wave.vput_uipc (w : Wave) (j : Nat) (m : Mask) (f : Nat → Word) : (w.vput j m f).uipc = w.uipc := rfl
@[simp] theorem Wave.vput_en (w : Wave) (j : Nat) (m : Mask) (f : Nat → Word) : (w.vput j m f).en = w.en := rfl
@[simp] theorem Wave.vput_inH (w : Wave) (j : Nat) (m : Mask) (f : Nat → Word) : (w.vput j m f).inH = w.inH := rfl
@[simp] theorem Wave.vput_hside (w : Wave) (j : Nat) (m : Mask) (f : Nat → Word) : (w.vput j m f).hside = w.hside := rfl
@[simp] theorem Wave.vput_lost (w : Wave) (j : Nat) (m : Mask) (f : Nat → Word) : (w.vput j m f).lost = w.lost := rfl
@[simp] theorem Wave.vput_pending (w : Wave) (j : Nat) (m : Mask) (f : Nat → Word) : (w.vput j m f).pending = w.pending := rfl
@[simp] theorem Wave.vput_racqtmo (w : Wave) (j : Nat) (m : Mask) (f : Nat → Word) : (w.vput j m f).racqtmo = w.racqtmo := rfl
@[simp] theorem Wave.vput_outs (w : Wave) (j : Nat) (m : Mask) (f : Nat → Word) : (w.vput j m f).outs = w.outs := rfl
@[simp] theorem Wave.vput_nextSeq (w : Wave) (j : Nat) (m : Mask) (f : Nat → Word) : (w.vput j m f).nextSeq = w.nextSeq := rfl
@[simp] theorem Wave.vput_flagPend (w : Wave) (j : Nat) (m : Mask) (f : Nat → Word) : (w.vput j m f).flagPend = w.flagPend := rfl
@[simp] theorem Wave.vput_q1 (w : Wave) (j : Nat) (m : Mask) (f : Nat → Word) : (w.vput j m f).q1 = w.q1 := rfl
@[simp] theorem Wave.vput_q3 (w : Wave) (j : Nat) (m : Mask) (f : Nat → Word) : (w.vput j m f).q3 = w.q3 := rfl
@[simp] theorem Wave.vput_lost1 (w : Wave) (j : Nat) (m : Mask) (f : Nat → Word) : (w.vput j m f).lost1 = w.lost1 := rfl
@[simp] theorem Wave.vput_lost3 (w : Wave) (j : Nat) (m : Mask) (f : Nat → Word) : (w.vput j m f).lost3 = w.lost3 := rfl
@[simp] theorem Wave.vput_seq0 (w : Wave) (j : Nat) (m : Mask) (f : Nat → Word) : (w.vput j m f).seq0 = w.seq0 := rfl
@[simp] theorem Wave.vput_seq2 (w : Wave) (j : Nat) (m : Mask) (f : Nat → Word) : (w.vput j m f).seq2 = w.seq2 := rfl
@[simp] theorem Wave.vput_binds (w : Wave) (j : Nat) (m : Mask) (f : Nat → Word) : (w.vput j m f).binds = w.binds := rfl
@[simp] theorem Wave.vput_cat (w : Wave) (j : Nat) (m : Mask) (f : Nat → Word) : (w.vput j m f).cat = w.cat := rfl
@[simp] theorem Wave.vput_ic (w : Wave) (j : Nat) (m : Mask) (f : Nat → Word) : (w.vput j m f).ic = w.ic := rfl
@[simp] theorem Wave.vput_hash (w : Wave) (j : Nat) (m : Mask) (f : Nat → Word) : (w.vput j m f).hash = w.hash := rfl
@[simp] theorem Wave.vput_qret (w : Wave) (j : Nat) (m : Mask) (f : Nat → Word) : (w.vput j m f).qret = w.qret := rfl
@[simp] theorem Wave.vput_quanta (w : Wave) (j : Nat) (m : Mask) (f : Nat → Word) : (w.vput j m f).quanta = w.quanta := rfl
@[simp] theorem Wave.vput_qstate (w : Wave) (j : Nat) (m : Mask) (f : Nat → Word) : (w.vput j m f).qstate = w.qstate := rfl
@[simp] theorem Wave.vput_qops (w : Wave) (j : Nat) (m : Mask) (f : Nat → Word) : (w.vput j m f).qops = w.qops := rfl
@[simp] theorem Wave.vput_csrPend (w : Wave) (j : Nat) (m : Mask) (f : Nat → Word) : (w.vput j m f).csrPend = w.csrPend := rfl
@[simp] theorem Wave.vput_age (w : Wave) (j : Nat) (m : Mask) (f : Nat → Word) : (w.vput j m f).age = w.age := rfl
@[simp] theorem Wave.vput_boosts (w : Wave) (j : Nat) (m : Mask) (f : Nat → Word) : (w.vput j m f).boosts = w.boosts := rfl
@[simp] theorem Wave.vput_since (w : Wave) (j : Nat) (m : Mask) (f : Nat → Word) : (w.vput j m f).since = w.since := rfl
@[simp] theorem Wave.vput_stop (w : Wave) (j : Nat) (m : Mask) (f : Nat → Word) : (w.vput j m f).stop = w.stop := rfl
@[simp] theorem Wave.vput_errs (w : Wave) (j : Nat) (m : Mask) (f : Nat → Word) : (w.vput j m f).errs = w.errs := rfl
@[simp] theorem Wave.vput_walkFaults (w : Wave) (j : Nat) (m : Mask) (f : Nat → Word) : (w.vput j m f).walkFaults = w.walkFaults := rfl
@[simp] theorem Wave.vput_codeSeen (w : Wave) (j : Nat) (m : Mask) (f : Nat → Word) : (w.vput j m f).codeSeen = w.codeSeen := rfl
@[simp] theorem Wave.vput_gateWait (w : Wave) (j : Nat) (m : Mask) (f : Nat → Word) : (w.vput j m f).gateWait = w.gateWait := rfl
@[simp] theorem Wave.vput_nextIf (w : Wave) (j : Nat) (m : Mask) (f : Nat → Word) : (w.vput j m f).nextIf = w.nextIf := rfl
@[simp] theorem Wave.vput_badWord (w : Wave) (j : Nat) (m : Mask) (f : Nat → Word) : (w.vput j m f).badWord = w.badWord := rfl
@[simp] theorem Wave.vput_own (w : Wave) (j : Nat) (m : Mask) (f : Nat → Word) : (w.vput j m f).own = w.own := rfl
@[simp] theorem Wave.vput_walkLeaves (w : Wave) (j : Nat) (m : Mask) (f : Nat → Word) : (w.vput j m f).walkLeaves = w.walkLeaves := rfl

/-! ### Wave.pput -/

@[simp] theorem Wave.pput_group (w : Wave) (j : Nat) (m x : Mask) : (w.pput j m x).group = w.group := rfl
@[simp] theorem Wave.pput_idx (w : Wave) (j : Nat) (m x : Mask) : (w.pput j m x).idx = w.idx := rfl
@[simp] theorem Wave.pput_waveid (w : Wave) (j : Nat) (m x : Mask) : (w.pput j m x).waveid = w.waveid := rfl
@[simp] theorem Wave.pput_first (w : Wave) (j : Nat) (m x : Mask) : (w.pput j m x).first = w.first := rfl
@[simp] theorem Wave.pput_second (w : Wave) (j : Nat) (m x : Mask) : (w.pput j m x).second = w.second := rfl
@[simp] theorem Wave.pput_stack (w : Wave) (j : Nat) (m x : Mask) : (w.pput j m x).stack = w.stack := rfl
@[simp] theorem Wave.pput_spill (w : Wave) (j : Nat) (m x : Mask) : (w.pput j m x).spill = w.spill := rfl
@[simp] theorem Wave.pput_exited (w : Wave) (j : Nat) (m x : Mask) : (w.pput j m x).exited = w.exited := rfl
@[simp] theorem Wave.pput_held (w : Wave) (j : Nat) (m x : Mask) : (w.pput j m x).held = w.held := rfl
@[simp] theorem Wave.pput_hloops (w : Wave) (j : Nat) (m x : Mask) : (w.pput j m x).hloops = w.hloops := rfl
@[simp] theorem Wave.pput_hdepth (w : Wave) (j : Nat) (m x : Mask) : (w.pput j m x).hdepth = w.hdepth := rfl
@[simp] theorem Wave.pput_hhloop (w : Wave) (j : Nat) (m x : Mask) : (w.pput j m x).hhloop = w.hhloop := rfl
@[simp] theorem Wave.pput_base (w : Wave) (j : Nat) (m x : Mask) : (w.pput j m x).base = w.base := rfl
@[simp] theorem Wave.pput_blocks (w : Wave) (j : Nat) (m x : Mask) : (w.pput j m x).blocks = w.blocks := rfl
@[simp] theorem Wave.pput_wb (w : Wave) (j : Nat) (m x : Mask) : (w.pput j m x).wb = w.wb := rfl
@[simp] theorem Wave.pput_v (w : Wave) (j : Nat) (m x : Mask) : (w.pput j m x).v = w.v := rfl
@[simp] theorem Wave.pput_s (w : Wave) (j : Nat) (m x : Mask) : (w.pput j m x).s = w.s := rfl
@[simp] theorem Wave.pput_k (w : Wave) (j : Nat) (m x : Mask) : (w.pput j m x).k = w.k := rfl
@[simp] theorem Wave.pput_m (w : Wave) (j : Nat) (m x : Mask) : (w.pput j m x).m = w.m := rfl
@[simp] theorem Wave.pput_shape (w : Wave) (j : Nat) (m x : Mask) : (w.pput j m x).shape = w.shape := rfl
@[simp] theorem Wave.pput_msts (w : Wave) (j : Nat) (m x : Mask) : (w.pput j m x).msts = w.msts := rfl
@[simp] theorem Wave.pput_matrix (w : Wave) (j : Nat) (m x : Mask) : (w.pput j m x).matrix = w.matrix := rfl
@[simp] theorem Wave.pput_frm (w : Wave) (j : Nat) (m x : Mask) : (w.pput j m x).frm = w.frm := rfl
@[simp] theorem Wave.pput_fflags (w : Wave) (j : Nat) (m x : Mask) : (w.pput j m x).fflags = w.fflags := rfl
@[simp] theorem Wave.pput_accmode (w : Wave) (j : Nat) (m x : Mask) : (w.pput j m x).accmode = w.accmode := rfl
@[simp] theorem Wave.pput_subgrp (w : Wave) (j : Nat) (m x : Mask) : (w.pput j m x).subgrp = w.subgrp := rfl
@[simp] theorem Wave.pput_mtol (w : Wave) (j : Nat) (m x : Mask) : (w.pput j m x).mtol = w.mtol := rfl
@[simp] theorem Wave.pput_mtrapen (w : Wave) (j : Nat) (m x : Mask) : (w.pput j m x).mtrapen = w.mtrapen := rfl
@[simp] theorem Wave.pput_u5trap (w : Wave) (j : Nat) (m x : Mask) : (w.pput j m x).u5trap = w.u5trap := rfl
@[simp] theorem Wave.pput_lc0 (w : Wave) (j : Nat) (m x : Mask) : (w.pput j m x).lc0 = w.lc0 := rfl
@[simp] theorem Wave.pput_lc1 (w : Wave) (j : Nat) (m x : Mask) : (w.pput j m x).lc1 = w.lc1 := rfl
@[simp] theorem Wave.pput_lc2 (w : Wave) (j : Nat) (m x : Mask) : (w.pput j m x).lc2 = w.lc2 := rfl
@[simp] theorem Wave.pput_uivec (w : Wave) (j : Nat) (m x : Mask) : (w.pput j m x).uivec = w.uivec := rfl
@[simp] theorem Wave.pput_uicause (w : Wave) (j : Nat) (m x : Mask) : (w.pput j m x).uicause = w.uicause := rfl
@[simp] theorem Wave.pput_uipc (w : Wave) (j : Nat) (m x : Mask) : (w.pput j m x).uipc = w.uipc := rfl
@[simp] theorem Wave.pput_en (w : Wave) (j : Nat) (m x : Mask) : (w.pput j m x).en = w.en := rfl
@[simp] theorem Wave.pput_inH (w : Wave) (j : Nat) (m x : Mask) : (w.pput j m x).inH = w.inH := rfl
@[simp] theorem Wave.pput_hside (w : Wave) (j : Nat) (m x : Mask) : (w.pput j m x).hside = w.hside := rfl
@[simp] theorem Wave.pput_lost (w : Wave) (j : Nat) (m x : Mask) : (w.pput j m x).lost = w.lost := rfl
@[simp] theorem Wave.pput_pending (w : Wave) (j : Nat) (m x : Mask) : (w.pput j m x).pending = w.pending := rfl
@[simp] theorem Wave.pput_racqtmo (w : Wave) (j : Nat) (m x : Mask) : (w.pput j m x).racqtmo = w.racqtmo := rfl
@[simp] theorem Wave.pput_outs (w : Wave) (j : Nat) (m x : Mask) : (w.pput j m x).outs = w.outs := rfl
@[simp] theorem Wave.pput_nextSeq (w : Wave) (j : Nat) (m x : Mask) : (w.pput j m x).nextSeq = w.nextSeq := rfl
@[simp] theorem Wave.pput_flagPend (w : Wave) (j : Nat) (m x : Mask) : (w.pput j m x).flagPend = w.flagPend := rfl
@[simp] theorem Wave.pput_q1 (w : Wave) (j : Nat) (m x : Mask) : (w.pput j m x).q1 = w.q1 := rfl
@[simp] theorem Wave.pput_q3 (w : Wave) (j : Nat) (m x : Mask) : (w.pput j m x).q3 = w.q3 := rfl
@[simp] theorem Wave.pput_lost1 (w : Wave) (j : Nat) (m x : Mask) : (w.pput j m x).lost1 = w.lost1 := rfl
@[simp] theorem Wave.pput_lost3 (w : Wave) (j : Nat) (m x : Mask) : (w.pput j m x).lost3 = w.lost3 := rfl
@[simp] theorem Wave.pput_seq0 (w : Wave) (j : Nat) (m x : Mask) : (w.pput j m x).seq0 = w.seq0 := rfl
@[simp] theorem Wave.pput_seq2 (w : Wave) (j : Nat) (m x : Mask) : (w.pput j m x).seq2 = w.seq2 := rfl
@[simp] theorem Wave.pput_binds (w : Wave) (j : Nat) (m x : Mask) : (w.pput j m x).binds = w.binds := rfl
@[simp] theorem Wave.pput_cat (w : Wave) (j : Nat) (m x : Mask) : (w.pput j m x).cat = w.cat := rfl
@[simp] theorem Wave.pput_ic (w : Wave) (j : Nat) (m x : Mask) : (w.pput j m x).ic = w.ic := rfl
@[simp] theorem Wave.pput_hash (w : Wave) (j : Nat) (m x : Mask) : (w.pput j m x).hash = w.hash := rfl
@[simp] theorem Wave.pput_qret (w : Wave) (j : Nat) (m x : Mask) : (w.pput j m x).qret = w.qret := rfl
@[simp] theorem Wave.pput_quanta (w : Wave) (j : Nat) (m x : Mask) : (w.pput j m x).quanta = w.quanta := rfl
@[simp] theorem Wave.pput_qstate (w : Wave) (j : Nat) (m x : Mask) : (w.pput j m x).qstate = w.qstate := rfl
@[simp] theorem Wave.pput_qops (w : Wave) (j : Nat) (m x : Mask) : (w.pput j m x).qops = w.qops := rfl
@[simp] theorem Wave.pput_csrPend (w : Wave) (j : Nat) (m x : Mask) : (w.pput j m x).csrPend = w.csrPend := rfl
@[simp] theorem Wave.pput_age (w : Wave) (j : Nat) (m x : Mask) : (w.pput j m x).age = w.age := rfl
@[simp] theorem Wave.pput_boosts (w : Wave) (j : Nat) (m x : Mask) : (w.pput j m x).boosts = w.boosts := rfl
@[simp] theorem Wave.pput_since (w : Wave) (j : Nat) (m x : Mask) : (w.pput j m x).since = w.since := rfl
@[simp] theorem Wave.pput_stop (w : Wave) (j : Nat) (m x : Mask) : (w.pput j m x).stop = w.stop := rfl
@[simp] theorem Wave.pput_errs (w : Wave) (j : Nat) (m x : Mask) : (w.pput j m x).errs = w.errs := rfl
@[simp] theorem Wave.pput_walkFaults (w : Wave) (j : Nat) (m x : Mask) : (w.pput j m x).walkFaults = w.walkFaults := rfl
@[simp] theorem Wave.pput_codeSeen (w : Wave) (j : Nat) (m x : Mask) : (w.pput j m x).codeSeen = w.codeSeen := rfl
@[simp] theorem Wave.pput_gateWait (w : Wave) (j : Nat) (m x : Mask) : (w.pput j m x).gateWait = w.gateWait := rfl
@[simp] theorem Wave.pput_nextIf (w : Wave) (j : Nat) (m x : Mask) : (w.pput j m x).nextIf = w.nextIf := rfl
@[simp] theorem Wave.pput_badWord (w : Wave) (j : Nat) (m x : Mask) : (w.pput j m x).badWord = w.badWord := rfl
@[simp] theorem Wave.pput_own (w : Wave) (j : Nat) (m x : Mask) : (w.pput j m x).own = w.own := rfl
@[simp] theorem Wave.pput_walkLeaves (w : Wave) (j : Nat) (m x : Mask) : (w.pput j m x).walkLeaves = w.walkLeaves := rfl

/-! ### Wave.raiseFlags -/

@[simp] theorem Wave.raiseFlags_group (w : Wave) (f : Nat) : (w.raiseFlags f).group = w.group := rfl
@[simp] theorem Wave.raiseFlags_idx (w : Wave) (f : Nat) : (w.raiseFlags f).idx = w.idx := rfl
@[simp] theorem Wave.raiseFlags_waveid (w : Wave) (f : Nat) : (w.raiseFlags f).waveid = w.waveid := rfl
@[simp] theorem Wave.raiseFlags_first (w : Wave) (f : Nat) : (w.raiseFlags f).first = w.first := rfl
@[simp] theorem Wave.raiseFlags_second (w : Wave) (f : Nat) : (w.raiseFlags f).second = w.second := rfl
@[simp] theorem Wave.raiseFlags_stack (w : Wave) (f : Nat) : (w.raiseFlags f).stack = w.stack := rfl
@[simp] theorem Wave.raiseFlags_spill (w : Wave) (f : Nat) : (w.raiseFlags f).spill = w.spill := rfl
@[simp] theorem Wave.raiseFlags_exited (w : Wave) (f : Nat) : (w.raiseFlags f).exited = w.exited := rfl
@[simp] theorem Wave.raiseFlags_held (w : Wave) (f : Nat) : (w.raiseFlags f).held = w.held := rfl
@[simp] theorem Wave.raiseFlags_hloops (w : Wave) (f : Nat) : (w.raiseFlags f).hloops = w.hloops := rfl
@[simp] theorem Wave.raiseFlags_hdepth (w : Wave) (f : Nat) : (w.raiseFlags f).hdepth = w.hdepth := rfl
@[simp] theorem Wave.raiseFlags_hhloop (w : Wave) (f : Nat) : (w.raiseFlags f).hhloop = w.hhloop := rfl
@[simp] theorem Wave.raiseFlags_base (w : Wave) (f : Nat) : (w.raiseFlags f).base = w.base := rfl
@[simp] theorem Wave.raiseFlags_blocks (w : Wave) (f : Nat) : (w.raiseFlags f).blocks = w.blocks := rfl
@[simp] theorem Wave.raiseFlags_wb (w : Wave) (f : Nat) : (w.raiseFlags f).wb = w.wb := rfl
@[simp] theorem Wave.raiseFlags_v (w : Wave) (f : Nat) : (w.raiseFlags f).v = w.v := rfl
@[simp] theorem Wave.raiseFlags_s (w : Wave) (f : Nat) : (w.raiseFlags f).s = w.s := rfl
@[simp] theorem Wave.raiseFlags_p (w : Wave) (f : Nat) : (w.raiseFlags f).p = w.p := rfl
@[simp] theorem Wave.raiseFlags_k (w : Wave) (f : Nat) : (w.raiseFlags f).k = w.k := rfl
@[simp] theorem Wave.raiseFlags_m (w : Wave) (f : Nat) : (w.raiseFlags f).m = w.m := rfl
@[simp] theorem Wave.raiseFlags_shape (w : Wave) (f : Nat) : (w.raiseFlags f).shape = w.shape := rfl
@[simp] theorem Wave.raiseFlags_msts (w : Wave) (f : Nat) : (w.raiseFlags f).msts = w.msts := rfl
@[simp] theorem Wave.raiseFlags_matrix (w : Wave) (f : Nat) : (w.raiseFlags f).matrix = w.matrix := rfl
@[simp] theorem Wave.raiseFlags_frm (w : Wave) (f : Nat) : (w.raiseFlags f).frm = w.frm := rfl
@[simp] theorem Wave.raiseFlags_accmode (w : Wave) (f : Nat) : (w.raiseFlags f).accmode = w.accmode := rfl
@[simp] theorem Wave.raiseFlags_subgrp (w : Wave) (f : Nat) : (w.raiseFlags f).subgrp = w.subgrp := rfl
@[simp] theorem Wave.raiseFlags_mtol (w : Wave) (f : Nat) : (w.raiseFlags f).mtol = w.mtol := rfl
@[simp] theorem Wave.raiseFlags_mtrapen (w : Wave) (f : Nat) : (w.raiseFlags f).mtrapen = w.mtrapen := rfl
@[simp] theorem Wave.raiseFlags_u5trap (w : Wave) (f : Nat) : (w.raiseFlags f).u5trap = w.u5trap := rfl
@[simp] theorem Wave.raiseFlags_lc0 (w : Wave) (f : Nat) : (w.raiseFlags f).lc0 = w.lc0 := rfl
@[simp] theorem Wave.raiseFlags_lc1 (w : Wave) (f : Nat) : (w.raiseFlags f).lc1 = w.lc1 := rfl
@[simp] theorem Wave.raiseFlags_lc2 (w : Wave) (f : Nat) : (w.raiseFlags f).lc2 = w.lc2 := rfl
@[simp] theorem Wave.raiseFlags_uivec (w : Wave) (f : Nat) : (w.raiseFlags f).uivec = w.uivec := rfl
@[simp] theorem Wave.raiseFlags_uicause (w : Wave) (f : Nat) : (w.raiseFlags f).uicause = w.uicause := rfl
@[simp] theorem Wave.raiseFlags_uipc (w : Wave) (f : Nat) : (w.raiseFlags f).uipc = w.uipc := rfl
@[simp] theorem Wave.raiseFlags_en (w : Wave) (f : Nat) : (w.raiseFlags f).en = w.en := rfl
@[simp] theorem Wave.raiseFlags_inH (w : Wave) (f : Nat) : (w.raiseFlags f).inH = w.inH := rfl
@[simp] theorem Wave.raiseFlags_hside (w : Wave) (f : Nat) : (w.raiseFlags f).hside = w.hside := rfl
@[simp] theorem Wave.raiseFlags_lost (w : Wave) (f : Nat) : (w.raiseFlags f).lost = w.lost := rfl
@[simp] theorem Wave.raiseFlags_pending (w : Wave) (f : Nat) : (w.raiseFlags f).pending = w.pending := rfl
@[simp] theorem Wave.raiseFlags_racqtmo (w : Wave) (f : Nat) : (w.raiseFlags f).racqtmo = w.racqtmo := rfl
@[simp] theorem Wave.raiseFlags_outs (w : Wave) (f : Nat) : (w.raiseFlags f).outs = w.outs := rfl
@[simp] theorem Wave.raiseFlags_nextSeq (w : Wave) (f : Nat) : (w.raiseFlags f).nextSeq = w.nextSeq := rfl
@[simp] theorem Wave.raiseFlags_flagPend (w : Wave) (f : Nat) : (w.raiseFlags f).flagPend = w.flagPend := rfl
@[simp] theorem Wave.raiseFlags_q1 (w : Wave) (f : Nat) : (w.raiseFlags f).q1 = w.q1 := rfl
@[simp] theorem Wave.raiseFlags_q3 (w : Wave) (f : Nat) : (w.raiseFlags f).q3 = w.q3 := rfl
@[simp] theorem Wave.raiseFlags_lost1 (w : Wave) (f : Nat) : (w.raiseFlags f).lost1 = w.lost1 := rfl
@[simp] theorem Wave.raiseFlags_lost3 (w : Wave) (f : Nat) : (w.raiseFlags f).lost3 = w.lost3 := rfl
@[simp] theorem Wave.raiseFlags_seq0 (w : Wave) (f : Nat) : (w.raiseFlags f).seq0 = w.seq0 := rfl
@[simp] theorem Wave.raiseFlags_seq2 (w : Wave) (f : Nat) : (w.raiseFlags f).seq2 = w.seq2 := rfl
@[simp] theorem Wave.raiseFlags_binds (w : Wave) (f : Nat) : (w.raiseFlags f).binds = w.binds := rfl
@[simp] theorem Wave.raiseFlags_cat (w : Wave) (f : Nat) : (w.raiseFlags f).cat = w.cat := rfl
@[simp] theorem Wave.raiseFlags_ic (w : Wave) (f : Nat) : (w.raiseFlags f).ic = w.ic := rfl
@[simp] theorem Wave.raiseFlags_hash (w : Wave) (f : Nat) : (w.raiseFlags f).hash = w.hash := rfl
@[simp] theorem Wave.raiseFlags_qret (w : Wave) (f : Nat) : (w.raiseFlags f).qret = w.qret := rfl
@[simp] theorem Wave.raiseFlags_quanta (w : Wave) (f : Nat) : (w.raiseFlags f).quanta = w.quanta := rfl
@[simp] theorem Wave.raiseFlags_qstate (w : Wave) (f : Nat) : (w.raiseFlags f).qstate = w.qstate := rfl
@[simp] theorem Wave.raiseFlags_qops (w : Wave) (f : Nat) : (w.raiseFlags f).qops = w.qops := rfl
@[simp] theorem Wave.raiseFlags_csrPend (w : Wave) (f : Nat) : (w.raiseFlags f).csrPend = w.csrPend := rfl
@[simp] theorem Wave.raiseFlags_age (w : Wave) (f : Nat) : (w.raiseFlags f).age = w.age := rfl
@[simp] theorem Wave.raiseFlags_boosts (w : Wave) (f : Nat) : (w.raiseFlags f).boosts = w.boosts := rfl
@[simp] theorem Wave.raiseFlags_since (w : Wave) (f : Nat) : (w.raiseFlags f).since = w.since := rfl
@[simp] theorem Wave.raiseFlags_stop (w : Wave) (f : Nat) : (w.raiseFlags f).stop = w.stop := rfl
@[simp] theorem Wave.raiseFlags_errs (w : Wave) (f : Nat) : (w.raiseFlags f).errs = w.errs := rfl
@[simp] theorem Wave.raiseFlags_walkFaults (w : Wave) (f : Nat) : (w.raiseFlags f).walkFaults = w.walkFaults := rfl
@[simp] theorem Wave.raiseFlags_codeSeen (w : Wave) (f : Nat) : (w.raiseFlags f).codeSeen = w.codeSeen := rfl
@[simp] theorem Wave.raiseFlags_gateWait (w : Wave) (f : Nat) : (w.raiseFlags f).gateWait = w.gateWait := rfl
@[simp] theorem Wave.raiseFlags_nextIf (w : Wave) (f : Nat) : (w.raiseFlags f).nextIf = w.nextIf := rfl
@[simp] theorem Wave.raiseFlags_badWord (w : Wave) (f : Nat) : (w.raiseFlags f).badWord = w.badWord := rfl
@[simp] theorem Wave.raiseFlags_own (w : Wave) (f : Nat) : (w.raiseFlags f).own = w.own := rfl
@[simp] theorem Wave.raiseFlags_walkLeaves (w : Wave) (f : Nat) : (w.raiseFlags f).walkLeaves = w.walkLeaves := rfl

/-! ### Wave.count -/

@[simp] theorem Wave.count_group (w : Wave) : (w.count).group = w.group := rfl
@[simp] theorem Wave.count_idx (w : Wave) : (w.count).idx = w.idx := rfl
@[simp] theorem Wave.count_waveid (w : Wave) : (w.count).waveid = w.waveid := rfl
@[simp] theorem Wave.count_first (w : Wave) : (w.count).first = w.first := rfl
@[simp] theorem Wave.count_second (w : Wave) : (w.count).second = w.second := rfl
@[simp] theorem Wave.count_stack (w : Wave) : (w.count).stack = w.stack := rfl
@[simp] theorem Wave.count_spill (w : Wave) : (w.count).spill = w.spill := rfl
@[simp] theorem Wave.count_exited (w : Wave) : (w.count).exited = w.exited := rfl
@[simp] theorem Wave.count_held (w : Wave) : (w.count).held = w.held := rfl
@[simp] theorem Wave.count_hloops (w : Wave) : (w.count).hloops = w.hloops := rfl
@[simp] theorem Wave.count_hdepth (w : Wave) : (w.count).hdepth = w.hdepth := rfl
@[simp] theorem Wave.count_hhloop (w : Wave) : (w.count).hhloop = w.hhloop := rfl
@[simp] theorem Wave.count_base (w : Wave) : (w.count).base = w.base := rfl
@[simp] theorem Wave.count_blocks (w : Wave) : (w.count).blocks = w.blocks := rfl
@[simp] theorem Wave.count_wb (w : Wave) : (w.count).wb = w.wb := rfl
@[simp] theorem Wave.count_v (w : Wave) : (w.count).v = w.v := rfl
@[simp] theorem Wave.count_s (w : Wave) : (w.count).s = w.s := rfl
@[simp] theorem Wave.count_p (w : Wave) : (w.count).p = w.p := rfl
@[simp] theorem Wave.count_k (w : Wave) : (w.count).k = w.k := rfl
@[simp] theorem Wave.count_m (w : Wave) : (w.count).m = w.m := rfl
@[simp] theorem Wave.count_shape (w : Wave) : (w.count).shape = w.shape := rfl
@[simp] theorem Wave.count_msts (w : Wave) : (w.count).msts = w.msts := rfl
@[simp] theorem Wave.count_matrix (w : Wave) : (w.count).matrix = w.matrix := rfl
@[simp] theorem Wave.count_frm (w : Wave) : (w.count).frm = w.frm := rfl
@[simp] theorem Wave.count_fflags (w : Wave) : (w.count).fflags = w.fflags := rfl
@[simp] theorem Wave.count_accmode (w : Wave) : (w.count).accmode = w.accmode := rfl
@[simp] theorem Wave.count_subgrp (w : Wave) : (w.count).subgrp = w.subgrp := rfl
@[simp] theorem Wave.count_mtol (w : Wave) : (w.count).mtol = w.mtol := rfl
@[simp] theorem Wave.count_mtrapen (w : Wave) : (w.count).mtrapen = w.mtrapen := rfl
@[simp] theorem Wave.count_u5trap (w : Wave) : (w.count).u5trap = w.u5trap := rfl
@[simp] theorem Wave.count_lc0 (w : Wave) : (w.count).lc0 = w.lc0 := rfl
@[simp] theorem Wave.count_lc1 (w : Wave) : (w.count).lc1 = w.lc1 := rfl
@[simp] theorem Wave.count_lc2 (w : Wave) : (w.count).lc2 = w.lc2 := rfl
@[simp] theorem Wave.count_uivec (w : Wave) : (w.count).uivec = w.uivec := rfl
@[simp] theorem Wave.count_uicause (w : Wave) : (w.count).uicause = w.uicause := rfl
@[simp] theorem Wave.count_uipc (w : Wave) : (w.count).uipc = w.uipc := rfl
@[simp] theorem Wave.count_en (w : Wave) : (w.count).en = w.en := rfl
@[simp] theorem Wave.count_inH (w : Wave) : (w.count).inH = w.inH := rfl
@[simp] theorem Wave.count_hside (w : Wave) : (w.count).hside = w.hside := rfl
@[simp] theorem Wave.count_lost (w : Wave) : (w.count).lost = w.lost := rfl
@[simp] theorem Wave.count_pending (w : Wave) : (w.count).pending = w.pending := rfl
@[simp] theorem Wave.count_racqtmo (w : Wave) : (w.count).racqtmo = w.racqtmo := rfl
@[simp] theorem Wave.count_outs (w : Wave) : (w.count).outs = w.outs := rfl
@[simp] theorem Wave.count_nextSeq (w : Wave) : (w.count).nextSeq = w.nextSeq := rfl
@[simp] theorem Wave.count_flagPend (w : Wave) : (w.count).flagPend = w.flagPend := rfl
@[simp] theorem Wave.count_q1 (w : Wave) : (w.count).q1 = w.q1 := rfl
@[simp] theorem Wave.count_q3 (w : Wave) : (w.count).q3 = w.q3 := rfl
@[simp] theorem Wave.count_lost1 (w : Wave) : (w.count).lost1 = w.lost1 := rfl
@[simp] theorem Wave.count_lost3 (w : Wave) : (w.count).lost3 = w.lost3 := rfl
@[simp] theorem Wave.count_seq0 (w : Wave) : (w.count).seq0 = w.seq0 := rfl
@[simp] theorem Wave.count_seq2 (w : Wave) : (w.count).seq2 = w.seq2 := rfl
@[simp] theorem Wave.count_binds (w : Wave) : (w.count).binds = w.binds := rfl
@[simp] theorem Wave.count_cat (w : Wave) : (w.count).cat = w.cat := rfl
@[simp] theorem Wave.count_ic (w : Wave) : (w.count).ic = w.ic := rfl
@[simp] theorem Wave.count_hash (w : Wave) : (w.count).hash = w.hash := rfl
@[simp] theorem Wave.count_quanta (w : Wave) : (w.count).quanta = w.quanta := rfl
@[simp] theorem Wave.count_qstate (w : Wave) : (w.count).qstate = w.qstate := rfl
@[simp] theorem Wave.count_qops (w : Wave) : (w.count).qops = w.qops := rfl
@[simp] theorem Wave.count_csrPend (w : Wave) : (w.count).csrPend = w.csrPend := rfl
@[simp] theorem Wave.count_age (w : Wave) : (w.count).age = w.age := rfl
@[simp] theorem Wave.count_boosts (w : Wave) : (w.count).boosts = w.boosts := rfl
@[simp] theorem Wave.count_since (w : Wave) : (w.count).since = w.since := rfl
@[simp] theorem Wave.count_stop (w : Wave) : (w.count).stop = w.stop := rfl
@[simp] theorem Wave.count_errs (w : Wave) : (w.count).errs = w.errs := rfl
@[simp] theorem Wave.count_walkFaults (w : Wave) : (w.count).walkFaults = w.walkFaults := rfl
@[simp] theorem Wave.count_codeSeen (w : Wave) : (w.count).codeSeen = w.codeSeen := rfl
@[simp] theorem Wave.count_gateWait (w : Wave) : (w.count).gateWait = w.gateWait := rfl
@[simp] theorem Wave.count_nextIf (w : Wave) : (w.count).nextIf = w.nextIf := rfl
@[simp] theorem Wave.count_badWord (w : Wave) : (w.count).badWord = w.badWord := rfl
@[simp] theorem Wave.count_own (w : Wave) : (w.count).own = w.own := rfl
@[simp] theorem Wave.count_walkLeaves (w : Wave) : (w.count).walkLeaves = w.walkLeaves := rfl

/-! ### Wave.issued -/

@[simp] theorem Wave.issued_group (w : Wave) (b : Bool) : (w.issued b).group = w.group := rfl
@[simp] theorem Wave.issued_idx (w : Wave) (b : Bool) : (w.issued b).idx = w.idx := rfl
@[simp] theorem Wave.issued_waveid (w : Wave) (b : Bool) : (w.issued b).waveid = w.waveid := rfl
@[simp] theorem Wave.issued_first (w : Wave) (b : Bool) : (w.issued b).first = w.first := rfl
@[simp] theorem Wave.issued_second (w : Wave) (b : Bool) : (w.issued b).second = w.second := rfl
@[simp] theorem Wave.issued_stack (w : Wave) (b : Bool) : (w.issued b).stack = w.stack := rfl
@[simp] theorem Wave.issued_spill (w : Wave) (b : Bool) : (w.issued b).spill = w.spill := rfl
@[simp] theorem Wave.issued_exited (w : Wave) (b : Bool) : (w.issued b).exited = w.exited := rfl
@[simp] theorem Wave.issued_held (w : Wave) (b : Bool) : (w.issued b).held = w.held := rfl
@[simp] theorem Wave.issued_hloops (w : Wave) (b : Bool) : (w.issued b).hloops = w.hloops := rfl
@[simp] theorem Wave.issued_hdepth (w : Wave) (b : Bool) : (w.issued b).hdepth = w.hdepth := rfl
@[simp] theorem Wave.issued_hhloop (w : Wave) (b : Bool) : (w.issued b).hhloop = w.hhloop := rfl
@[simp] theorem Wave.issued_base (w : Wave) (b : Bool) : (w.issued b).base = w.base := rfl
@[simp] theorem Wave.issued_blocks (w : Wave) (b : Bool) : (w.issued b).blocks = w.blocks := rfl
@[simp] theorem Wave.issued_wb (w : Wave) (b : Bool) : (w.issued b).wb = w.wb := rfl
@[simp] theorem Wave.issued_v (w : Wave) (b : Bool) : (w.issued b).v = w.v := rfl
@[simp] theorem Wave.issued_s (w : Wave) (b : Bool) : (w.issued b).s = w.s := rfl
@[simp] theorem Wave.issued_p (w : Wave) (b : Bool) : (w.issued b).p = w.p := rfl
@[simp] theorem Wave.issued_k (w : Wave) (b : Bool) : (w.issued b).k = w.k := rfl
@[simp] theorem Wave.issued_m (w : Wave) (b : Bool) : (w.issued b).m = w.m := rfl
@[simp] theorem Wave.issued_shape (w : Wave) (b : Bool) : (w.issued b).shape = w.shape := rfl
@[simp] theorem Wave.issued_msts (w : Wave) (b : Bool) : (w.issued b).msts = w.msts := rfl
@[simp] theorem Wave.issued_matrix (w : Wave) (b : Bool) : (w.issued b).matrix = w.matrix := rfl
@[simp] theorem Wave.issued_frm (w : Wave) (b : Bool) : (w.issued b).frm = w.frm := rfl
@[simp] theorem Wave.issued_fflags (w : Wave) (b : Bool) : (w.issued b).fflags = w.fflags := rfl
@[simp] theorem Wave.issued_accmode (w : Wave) (b : Bool) : (w.issued b).accmode = w.accmode := rfl
@[simp] theorem Wave.issued_subgrp (w : Wave) (b : Bool) : (w.issued b).subgrp = w.subgrp := rfl
@[simp] theorem Wave.issued_mtol (w : Wave) (b : Bool) : (w.issued b).mtol = w.mtol := rfl
@[simp] theorem Wave.issued_mtrapen (w : Wave) (b : Bool) : (w.issued b).mtrapen = w.mtrapen := rfl
@[simp] theorem Wave.issued_u5trap (w : Wave) (b : Bool) : (w.issued b).u5trap = w.u5trap := rfl
@[simp] theorem Wave.issued_lc0 (w : Wave) (b : Bool) : (w.issued b).lc0 = w.lc0 := rfl
@[simp] theorem Wave.issued_lc1 (w : Wave) (b : Bool) : (w.issued b).lc1 = w.lc1 := rfl
@[simp] theorem Wave.issued_lc2 (w : Wave) (b : Bool) : (w.issued b).lc2 = w.lc2 := rfl
@[simp] theorem Wave.issued_uivec (w : Wave) (b : Bool) : (w.issued b).uivec = w.uivec := rfl
@[simp] theorem Wave.issued_uicause (w : Wave) (b : Bool) : (w.issued b).uicause = w.uicause := rfl
@[simp] theorem Wave.issued_uipc (w : Wave) (b : Bool) : (w.issued b).uipc = w.uipc := rfl
@[simp] theorem Wave.issued_en (w : Wave) (b : Bool) : (w.issued b).en = w.en := rfl
@[simp] theorem Wave.issued_inH (w : Wave) (b : Bool) : (w.issued b).inH = w.inH := rfl
@[simp] theorem Wave.issued_hside (w : Wave) (b : Bool) : (w.issued b).hside = w.hside := rfl
@[simp] theorem Wave.issued_lost (w : Wave) (b : Bool) : (w.issued b).lost = w.lost := rfl
@[simp] theorem Wave.issued_pending (w : Wave) (b : Bool) : (w.issued b).pending = w.pending := rfl
@[simp] theorem Wave.issued_racqtmo (w : Wave) (b : Bool) : (w.issued b).racqtmo = w.racqtmo := rfl
@[simp] theorem Wave.issued_outs (w : Wave) (b : Bool) : (w.issued b).outs = w.outs := rfl
@[simp] theorem Wave.issued_nextSeq (w : Wave) (b : Bool) : (w.issued b).nextSeq = w.nextSeq := rfl
@[simp] theorem Wave.issued_flagPend (w : Wave) (b : Bool) : (w.issued b).flagPend = w.flagPend := rfl
@[simp] theorem Wave.issued_q1 (w : Wave) (b : Bool) : (w.issued b).q1 = w.q1 := rfl
@[simp] theorem Wave.issued_q3 (w : Wave) (b : Bool) : (w.issued b).q3 = w.q3 := rfl
@[simp] theorem Wave.issued_lost1 (w : Wave) (b : Bool) : (w.issued b).lost1 = w.lost1 := rfl
@[simp] theorem Wave.issued_lost3 (w : Wave) (b : Bool) : (w.issued b).lost3 = w.lost3 := rfl
@[simp] theorem Wave.issued_seq0 (w : Wave) (b : Bool) : (w.issued b).seq0 = w.seq0 := rfl
@[simp] theorem Wave.issued_seq2 (w : Wave) (b : Bool) : (w.issued b).seq2 = w.seq2 := rfl
@[simp] theorem Wave.issued_binds (w : Wave) (b : Bool) : (w.issued b).binds = w.binds := rfl
@[simp] theorem Wave.issued_cat (w : Wave) (b : Bool) : (w.issued b).cat = w.cat := rfl
@[simp] theorem Wave.issued_ic (w : Wave) (b : Bool) : (w.issued b).ic = w.ic := rfl
@[simp] theorem Wave.issued_hash (w : Wave) (b : Bool) : (w.issued b).hash = w.hash := rfl
@[simp] theorem Wave.issued_qret (w : Wave) (b : Bool) : (w.issued b).qret = w.qret := rfl
@[simp] theorem Wave.issued_quanta (w : Wave) (b : Bool) : (w.issued b).quanta = w.quanta := rfl
@[simp] theorem Wave.issued_qstate (w : Wave) (b : Bool) : (w.issued b).qstate = w.qstate := rfl
@[simp] theorem Wave.issued_qops (w : Wave) (b : Bool) : (w.issued b).qops = w.qops := rfl
@[simp] theorem Wave.issued_csrPend (w : Wave) (b : Bool) : (w.issued b).csrPend = w.csrPend := rfl
@[simp] theorem Wave.issued_age (w : Wave) (b : Bool) : (w.issued b).age = w.age := rfl
@[simp] theorem Wave.issued_stop (w : Wave) (b : Bool) : (w.issued b).stop = w.stop := rfl
@[simp] theorem Wave.issued_errs (w : Wave) (b : Bool) : (w.issued b).errs = w.errs := rfl
@[simp] theorem Wave.issued_walkFaults (w : Wave) (b : Bool) : (w.issued b).walkFaults = w.walkFaults := rfl
@[simp] theorem Wave.issued_codeSeen (w : Wave) (b : Bool) : (w.issued b).codeSeen = w.codeSeen := rfl
@[simp] theorem Wave.issued_gateWait (w : Wave) (b : Bool) : (w.issued b).gateWait = w.gateWait := rfl
@[simp] theorem Wave.issued_nextIf (w : Wave) (b : Bool) : (w.issued b).nextIf = w.nextIf := rfl
@[simp] theorem Wave.issued_badWord (w : Wave) (b : Bool) : (w.issued b).badWord = w.badWord := rfl
@[simp] theorem Wave.issued_own (w : Wave) (b : Bool) : (w.issued b).own = w.own := rfl
@[simp] theorem Wave.issued_walkLeaves (w : Wave) (b : Bool) : (w.issued b).walkLeaves = w.walkLeaves := rfl

end Sys2Proof.Machine
end

