-- ==== Sys2Proof/Laws/Shapes.lean ====
section
/-! SUPPORT. What the shared shapes of Operands.lean and Flags.lean come to when the instruction issues, and what the end of an
instruction does. -/

namespace Sys2Proof.Machine

/-! ## The issuing slot -/

/-- What a slot is made of. -/
theorem State.slotOf_spec {s : State} {h : Nat} {b : Bool} {k : Slot} (e : s.slotOf h b = some k) :
    k.h = h ∧ k.second = b ∧ Map.find s.waves h = some k.w ∧ k.w.frag b = some k.f ∧ Map.find s.groups k.w.group = some k.g ∧
      Map.find s.launches k.g.launch = some k.l := by
  unfold State.slotOf at e
  split at e
  · simp at e
  · rename_i w hw
    split at e
    · rename_i f g hf hg
      split at e
      · rename_i l hl
        simp only [Option.some.injEq] at e
        subst e
        exact ⟨rfl, rfl, hw, hf, hg, hl⟩
      · simp at e
    · simp at e

theorem State.slot_spec {s : State} {k : Slot} (e : s.slot = some k) :
    k.h = s.cur.1 ∧ k.second = s.cur.2 ∧ Map.find s.waves k.h = some k.w ∧ k.w.frag k.second = some k.f ∧
      Map.find s.groups k.w.group = some k.g ∧ Map.find s.launches k.g.launch = some k.l := by
  obtain ⟨h1, h2, h3, h4, h5, h6⟩ := State.slotOf_spec (s := s) (h := s.cur.1) (b := s.cur.2) e
  exact ⟨h1, h2, h1 ▸ h3, h2 ▸ h4, h5, h6⟩

theorem State.slotOf_of {s : State} {h : Nat} {b : Bool} {w : Wave} {f : Frag} {g : Group} {l : Launch}
    (h1 : Map.find s.waves h = some w) (h2 : w.frag b = some f) (h3 : Map.find s.groups w.group = some g)
    (h4 : Map.find s.launches g.launch = some l) : s.slotOf h b = some ⟨h, b, w, f, g, l⟩ := by
  unfold State.slotOf
  simp only [h1]
  have : (if b = true then w.second else w.first) = some f := h2
  simp only [this, h3, h4]

theorem onSlot_of {s : State} {k : Slot} (e : s.slot = some k) (f : Slot → State) : onSlot s f = .next (f k) := by
  unfold onSlot; rw [e]

theorem issueJump_of {s : State} {k : Slot} {len : Nat} (h : IssuesJump s k len) (f : Slot → State) :
    issueJump s len f = .next (f k) := by
  unfold issueJump
  rw [onSlot_of h.slot, h.placed, h.flat]
  simp

theorem issue_of {s : State} {k : Slot} {len : Nat} (h : Issues s k len) (f : Slot → State) : issue s len f = .next (f k) := by
  unfold issue
  rw [issueJump_of h.toIssuesJump, h.inside]
  simp

theorem issueFlow_of {s : State} {k : Slot} (e : s.slot = some k) (h : k.placed 4 = true) (f : Slot → State) :
    issueFlow s f = .next (f k) := by
  unfold issueFlow
  rw [onSlot_of e, h]
  simp

theorem issueMem_of {s : State} {k : Slot} {len : Nat} (h : Issues s k len) (hb : k.heldBack = false) (f : Slot → State) :
    issueMem s len f = .next (f k) := by
  unfold issueMem
  rw [issue_of h]
  simp [State.unheld, hb]

/-- Every outcome of an instruction that issues: a trap of R190, or its effect. -/
theorem issue_cases {s t : State} {len : Nat} {f : Slot → State} (h : issue s len f = .next t) :
    ∃ k, s.slot = some k ∧ ((∃ a, t = s.trap k (k.leaves a)) ∨ (Issues s k len ∧ t = f k)) := by
  unfold issue issueJump onSlot at h
  split at h
  · rename_i k e
    refine ⟨k, e, ?_⟩
    injection h with h
    by_cases hp : k.placed len = true
    · by_cases hd : k.deep len k.w.stack.length = true
      · simp [hp, hd] at h; exact .inl ⟨_, h.symm⟩
      · simp only [Bool.not_eq_true] at hd
        by_cases hs : k.strays len = true
        · simp [hp, hd, hs] at h; exact .inl ⟨_, h.symm⟩
        · simp only [Bool.not_eq_true] at hs
          simp [hp, hd, hs] at h; exact .inr ⟨⟨⟨e, hp, hd⟩, hs⟩, h.symm⟩
    · simp only [Bool.not_eq_true] at hp
      simp [hp] at h; exact .inl ⟨_, h.symm⟩
  · simp at h

theorem vnamed_of {s : State} {k : Slot} {names : List (Nat × Nat)} (h : k.holds (names.map (·.2))) (f : State) :
    s.vnamed k names f = f := by
  unfold State.vnamed Wave.vbad
  have : (names.find? fun e => !k.w.vok e.2) = none := by
    rw [List.find?_eq_none]
    intro e he
    have := h e.2 (List.mem_map_of_mem he)
    simp [Wave.vok, this]
  rw [this]

/-! ## Keys -/

theorem Wave.vkey_inj {w : Wave} {i j l m : Nat} (hl : l < 64) (hm : m < 64) (h : w.vkey i + l = w.vkey j + m) : i = j ∧ l = m := by
  unfold Wave.vkey at h; omega

theorem Wave.get_vputAll (w : Wave) (j : Nat) (f : Nat → Word) (x : Nat) :
    Sparse.get 0 (w.vputAll j f).v x = if w.vkey j ≤ x ∧ x < w.vkey j + 64 then f (x - w.vkey j) else Sparse.get 0 w.v x := by
  simp only [Wave.vputAll, Sparse.get_setRun]

theorem Wave.vget_vput (w : Wave) (j : Nat) (m : Mask) (f : Nat → Word) (l : Nat) (hl : l < 64) :
    (w.vput j m f).vget j l = if m.getLsbD l then f l else w.vget j l := by
  have : (w.vput j m f).vget j l = Sparse.get 0 (w.vput j m f).v (w.vkey j + l) := rfl
  rw [this, Wave.vput, Wave.get_vputAll, if_pos (by omega)]
  simp [Nat.add_sub_cancel_left]

theorem Wave.get_vput_outside (w : Wave) (j : Nat) (m : Mask) (f : Nat → Word) (x : Nat)
    (h : x < w.vkey j ∨ w.vkey j + 64 ≤ x) : Sparse.get 0 (w.vput j m f).v x = Sparse.get 0 w.v x := by
  rw [Wave.vput, Wave.get_vputAll, if_neg (by omega)]

theorem Wave.vget_vput_of_ne (w : Wave) (i j : Nat) (m : Mask) (f : Nat → Word) (l : Nat) (hl : l < 64) (h : i ≠ j) :
    (w.vput j m f).vget i l = w.vget i l := by
  have : (w.vput j m f).vget i l = Sparse.get 0 (w.vput j m f).v (w.vkey i + l) := rfl
  rw [this, Wave.get_vput_outside]
  · rfl
  · unfold Wave.vkey; omega

/-! ## The end of an instruction -/

@[simp] theorem Wave.frag_setFrag_self (w : Wave) (b : Bool) (f : Option Frag) : (w.setFrag b f).frag b = f := by cases b <;> rfl
@[simp] theorem Wave.frag_setFrag_not (w : Wave) (b : Bool) (f : Option Frag) : (w.setFrag b f).frag (!b) = w.frag (!b) := by
  cases b <;> rfl
@[simp] theorem Wave.frag_count (w : Wave) (b : Bool) : w.count.frag b = w.frag b := by cases b <;> rfl
@[simp] theorem Wave.frag_issued (w : Wave) (c b : Bool) : (w.issued c).frag b = w.frag b := by cases b <;> rfl

/-- The wave after the end of the slot's instruction. -/
def Slot.finished (k : Slot) (len : Nat) (w : Wave) : Wave := (w.setFrag k.second (some (k.after len))).count.issued k.second

theorem State.find_finish (s : State) (k : Slot) (len : Nat) (w : Wave) (h : Map.find s.waves k.h = some w) :
    Map.find (s.finish k len).waves k.h = some (k.finished len w) := by
  simp [State.finish, State.modWave, State.unwait, Slot.finished, h]

theorem Slot.advances_finished (k : Slot) (len : Nat) (w : Wave) (h : w.frag (!k.second) = k.w.frag (!k.second)) :
    Advances k len (k.finished len w) := by
  refine ⟨⟨k.after len, ?_, rfl, rfl, rfl⟩, ?_⟩ <;> simp [Slot.finished, h]

theorem Slot.rewound_finished (k : Slot) (len : Nat) (w : Wave) :
    (k.finished len w).rewound k = w.rewound k := by
  unfold Wave.rewound Slot.finished Wave.setFrag
  cases k.second <;> simp [Wave.count, Wave.issued]

@[simp] theorem Slot.v_finished (k : Slot) (len : Nat) (w : Wave) : (k.finished len w).v = w.v := by
  unfold Slot.finished; simp

@[simp] theorem Slot.vkey_finished (k : Slot) (len : Nat) (w : Wave) (j : Nat) : (k.finished len w).vkey j = w.vkey j := by
  unfold Slot.finished Wave.vkey; simp

@[simp] theorem Slot.vget_finished (k : Slot) (len : Nat) (w : Wave) (j l : Nat) : (k.finished len w).vget j l = w.vget j l := by
  unfold Wave.vget; simp

theorem State.rest_finish (s : State) (k : Slot) (len : Nat) :
    { s.finish k len with waves := s.waves, waiters := s.waiters } = s := by
  unfold State.finish State.modWave State.unwait; rfl

theorem State.rest_modFinish (s : State) (k : Slot) (len h : Nat) (g : Wave → Wave) :
    { (s.modWave h g).finish k len with waves := s.waves, waiters := s.waiters } = s := by
  unfold State.finish State.modWave State.unwait; rfl

/-- A change of the slot's wave followed by the end of its instruction changes that wave and nothing else. -/
theorem State.waveOnly_modFinish (s : State) (k : Slot) (len : Nat) (g : Wave → Wave) (e : s.slot = some k) :
    WaveOnly s ((s.modWave k.h g).finish k len) k.h (k.finished len (g k.w)) := by
  obtain ⟨-, -, hw, -⟩ := State.slot_spec e
  refine ⟨State.find_finish _ _ _ _ (by simp [State.modWave, hw]), ?_, State.rest_modFinish s k len _ g, ?_, fun x => by cases x <;> rfl⟩
  · intro i hi
    simp [State.finish, State.modWave, State.unwait, Map.find_modify_of_ne hi]
  · intro x hx
    exact (List.mem_filter.1 hx).1

theorem State.modWave_id (s : State) (h : Nat) (w : Wave) (e : Map.find s.waves h = some w) (g : Wave → Wave) :
    Map.find (s.modWave h g).waves h = some (g w) := by simp [State.modWave, e]

theorem State.waveOnly_finish (s : State) (k : Slot) (len : Nat) (e : s.slot = some k) :
    WaveOnly s (s.finish k len) k.h (k.finished len k.w) := by
  obtain ⟨-, -, hw, -⟩ := State.slot_spec e
  refine ⟨State.find_finish _ _ _ _ hw, ?_, State.rest_finish s k len, ?_, fun x => by cases x <;> rfl⟩
  · intro i hi
    simp [State.finish, State.modWave, State.unwait, Map.find_modify_of_ne hi]
  · intro x hx
    exact (List.mem_filter.1 hx).1

theorem Slot.rewound_self (k : Slot) : k.w.rewound k = k.w := rfl

/-- An instruction that only advances. -/
theorem passes_finish {s : State} {k : Slot} {len : Nat} (e : s.slot = some k) : Passes s k len (.next (s.finish k len)) :=
  ⟨_, _, rfl, s.waveOnly_finish k len e, k.advances_finished len k.w rfl, k.rewound_finished len k.w⟩

/-! ## Vector results -/

theorem writesVec_finish {s : State} {k : Slot} {len d : Nat} {f : Nat → Word} (e : s.slot = some k) :
    WritesVec s k len d f (.next ((s.modWave k.h fun w => w.vput d k.mask f).finish k len)) := by
  refine ⟨_, _, rfl, s.waveOnly_modFinish k len _ e, k.advances_finished len _ ?_, ?_, ?_, ?_⟩
  · cases k.second <;> rfl
  · intro l hl
    rw [Slot.vget_finished]; exact k.w.vget_vput d k.mask f l hl
  · intro x hx
    rw [Slot.v_finished]; exact k.w.get_vput_outside d k.mask f x hx
  · rw [k.rewound_finished]; rfl

/-- A vector instruction that issues with its registers held writes its lanes and advances. -/
theorem vecOp_of {s : State} {k : Slot} {names : List (Nat × Nat)} {d : Nat} {f : Slot → Nat → Word} (h : Issues s k 4)
    (hn : k.holds (names.map (·.2))) : WritesVec s k 4 d (f k) (vecOp s names d f) := by
  unfold vecOp
  rw [issue_of h, vnamed_of hn]
  exact writesVec_finish h.slot

theorem getLsbD_maskOf_foldl (ls : List Nat) (m : Mask) (l : Nat) (hl : l < 64) :
    (ls.foldl (fun m l => m ||| ((1 : Mask) <<< l)) m).getLsbD l = (m.getLsbD l || ls.contains l) := by
  induction ls generalizing m with
  | nil => simp
  | cons i r ih =>
    rw [List.foldl_cons, ih]
    have : ((1 : Mask) <<< i).getLsbD l = decide (l = i) := by
      rw [BitVec.getLsbD_shiftLeft]
      by_cases h1 : l < i
      · simp [h1, hl]; omega
      · by_cases h2 : l = i
        · subst h2; simp [hl]
        · have : l - i ≠ 0 := by omega
          simp [hl, h1, h2, BitVec.getLsbD_one, this]
    simp only [BitVec.getLsbD_or, this, List.contains_cons]
    by_cases h : l = i
    · simp [h]
    · simp [h, beq_eq_false_iff_ne.2 h]

/-- Bit `l` of a mask given by a list of lanes. -/
theorem getLsbD_maskOf (ls : List Nat) (l : Nat) (hl : l < 64) : (maskOf ls).getLsbD l = ls.contains l := by
  unfold maskOf; rw [getLsbD_maskOf_foldl _ _ _ hl]; simp

/-- Bit `l` of a mask given by a test. -/
theorem getLsbD_maskBy (f : Nat → Bool) (l : Nat) (hl : l < 64) : (maskBy f).getLsbD l = f l := by
  unfold maskBy
  rw [getLsbD_maskOf _ _ hl]
  have : (laneList.filter f).contains l = f l := by
    cases hf : f l
    · simp [hf]
    · simp [hf, laneList, hl]
  exact this

theorem Wave.pget_pput (w : Wave) (p : Nat) (m x : Mask) : (w.pput p m x).pget p = ((w.pget p &&& ~~~m) ||| (x &&& m)) := by
  simp [Wave.pput, Wave.pget]

theorem Wave.pget_pput_of_ne (w : Wave) (p q : Nat) (m x : Mask) (h : q ≠ p) : (w.pput p m x).pget q = w.pget q := by
  simp [Wave.pput, Wave.pget, Sparse.get_set, h]

theorem flagsOr_refl (k : Slot) (w : Wave) (h : w.fflags = k.w.fflags) : FlagsOr k w fun _ => 0 := by
  intro b _
  simp [h]

theorem predOp_of {s : State} {k : Slot} {names : List (Nat × Nat)} {p : Nat} {f : Slot → Nat → Bool} (h : Issues s k 4)
    (hn : k.holds (names.map (·.2))) : WritesPred s k 4 p (f k) (fun _ => 0) (predOp s names p f) := by
  unfold predOp
  rw [issue_of h, vnamed_of hn]
  refine ⟨_, _, rfl, s.waveOnly_modFinish k 4 _ h.slot, k.advances_finished 4 _ ?_, ?_, ?_, flagsOr_refl _ _ ?_, ?_⟩
  · cases k.second <;> rfl
  · intro l hl
    have : ((k.finished 4 (k.w.pput p k.mask (maskBy (f k)))).pget p) = (k.w.pput p k.mask (maskBy (f k))).pget p := by
      unfold Slot.finished Wave.pget; simp
    rw [this, Wave.pget_pput]
    simp only [BitVec.getLsbD_or, BitVec.getLsbD_and, BitVec.getLsbD_not, getLsbD_maskBy _ _ hl, Slot.on, hl, decide_true, Bool.true_and]
    by_cases hm : k.mask.getLsbD l = true <;> simp [hm]
  · intro q hq
    have : ((k.finished 4 (k.w.pput p k.mask (maskBy (f k)))).pget q) = (k.w.pput p k.mask (maskBy (f k))).pget q := by
      unfold Slot.finished Wave.pget; simp
    rw [this, Wave.pget_pput_of_ne _ _ _ _ _ hq]
  · unfold Slot.finished; simp
  · rw [k.rewound_finished]; rfl

/-! ## Floating-point results -/

theorem testBit_orFlags_foldl (xs : List Nat) (a b : Nat) :
    (xs.foldl (· ||| ·) a).testBit b = (a.testBit b || xs.any (·.testBit b)) := by
  induction xs generalizing a with
  | nil => simp
  | cons x r ih => simp [ih, Nat.testBit_or, Bool.or_assoc]

/-- A bit of the flags of all lanes (R209). -/
theorem testBit_orFlags (xs : List Nat) (b : Nat) : (orFlags xs).testBit b = xs.any (·.testBit b) := by
  unfold orFlags; rw [testBit_orFlags_foldl]; simp

theorem getLsbD_raiseFlags (w : Wave) (f b : Nat) (hb : b < 32) :
    (w.raiseFlags f).fflags.getLsbD b = (w.fflags.getLsbD b || f.testBit b) := by
  simp only [Wave.raiseFlags, BitVec.getLsbD_or, BitVec.getLsbD_ofNat, hb, decide_true, Bool.true_and]

theorem getD_lanes {α : Type} (k : Slot) (f : Nat → α) (d : α) (l : Nat) (hl : l < 64) :
    (laneList.map fun l => if k.on l then f l else d).getD l d = if k.on l then f l else d := by
  simp [laneList, List.getD_eq_getElem?_getD, hl]

theorem any_lanes (k : Slot) (f : Nat → Nat) (b : Nat) :
    (laneList.map fun l => if k.on l then f l else 0).any (·.testBit b) =
      (List.range 64).any fun l => k.on l && (f l).testBit b := by
  unfold laneList
  rw [List.any_map]
  congr 1
  funext l
  simp only [Function.comp]
  by_cases h : k.on l = true <;> simp [h]

theorem rewound_vputFlags (k : Slot) (d n : Nat) (m : Mask) (f : Nat → Word) :
    { ((k.w.vput d m f).raiseFlags n).rewound k with v := k.w.v, fflags := k.w.fflags } = k.w := by
  unfold Wave.raiseFlags Wave.vput Wave.rewound; rfl

theorem fpOp_of {s : State} {k : Slot} {names : List (Nat × Nat)} {d : Nat} {f : Slot → Nat → Flagged} (h : Issues s k 4)
    (hn : k.holds (names.map (·.2))) : WritesFp s k 4 d (f k) (fpOp s names d f) := by
  unfold fpOp
  rw [issue_of h, vnamed_of hn]
  have flags : ((laneList.map fun l => if k.on l then f k l else (0, 0)).map (·.2)) =
      laneList.map fun l => if k.on l then (f k l).2 else 0 := by
    rw [List.map_map]; congr 1; funext l; simp only [Function.comp]; split <;> rfl
  refine ⟨_, _, rfl, s.waveOnly_modFinish k 4 _ h.slot, k.advances_finished 4 _ ?_, ?_, ?_, ?_, ?_⟩
  · cases k.second <;> rfl
  · intro l hl
    rw [Slot.vget_finished]
    have := k.w.vget_vput d k.mask (fun l => BitVec.ofNat 32 ((laneList.map fun l => if k.on l then f k l else (0, 0)).getD l (0, 0)).1) l hl
    refine Eq.trans ?_ (this.trans ?_)
    · rfl
    · rw [getD_lanes _ _ _ _ hl]
      show (if k.on l = true then _ else _) = _
      split <;> rfl
  · intro x hx
    rw [Slot.v_finished]
    exact k.w.get_vput_outside d k.mask _ x hx
  · intro b hb
    have : ∀ w, (k.finished 4 w).fflags = w.fflags := by intro w; unfold Slot.finished; simp
    rw [this, getLsbD_raiseFlags _ _ _ hb, testBit_orFlags, flags, any_lanes]
    simp
  · rw [k.rewound_finished]; exact rewound_vputFlags ..

theorem rewound_predFlags (k : Slot) (p n : Nat) (m x : Mask) :
    { ((k.w.pput p m x).raiseFlags n).rewound k with p := k.w.p, fflags := k.w.fflags } = k.w := by
  unfold Wave.raiseFlags Wave.pput Wave.rewound; rfl

theorem rewound_vecFlags (k : Slot) (d n : Nat) (m : Mask) (f : Nat → Word) :
    { ((k.w.vput d m f).raiseFlags n).rewound k with v := k.w.v, fflags := k.w.fflags } = k.w := by
  unfold Wave.raiseFlags Wave.vput Wave.vputAll Wave.rewound; rfl

theorem fpPredOp_of {s : State} {k : Slot} {names : List (Nat × Nat)} {p : Nat} {f : Slot → Nat → Bool × Nat} (h : Issues s k 4)
    (hn : k.holds (names.map (·.2))) :
    WritesPred s k 4 p (fun l => (f k l).1) (fun l => (f k l).2) (fpPredOp s names p f) := by
  unfold fpPredOp
  rw [issue_of h, vnamed_of hn]
  have flags : ((laneList.map fun l => if k.on l then f k l else (false, 0)).map (·.2)) =
      laneList.map fun l => if k.on l then (f k l).2 else 0 := by
    rw [List.map_map]; congr 1; funext l; simp only [Function.comp]; split <;> rfl
  have pget : ∀ w q, (k.finished 4 w).pget q = w.pget q := by intro w q; unfold Slot.finished Wave.pget; simp
  have praise : ∀ (w : Wave) n q, (w.raiseFlags n).pget q = w.pget q := fun _ _ _ => rfl
  refine ⟨_, _, rfl, s.waveOnly_modFinish k 4 _ h.slot, k.advances_finished 4 _ ?_, ?_, ?_, ?_, ?_⟩
  · cases k.second <;> rfl
  · intro l hl
    rw [pget, praise, Wave.pget_pput]
    simp only [BitVec.getLsbD_or, BitVec.getLsbD_and, BitVec.getLsbD_not, getLsbD_maskBy _ _ hl, Slot.on, hl, decide_true, Bool.true_and]
    have := getD_lanes k (f k) (false, 0) l hl
    simp only [Slot.on] at this
    rw [this]
    by_cases hm : k.mask.getLsbD l = true <;> simp [hm]
  · intro q hq
    rw [pget, praise, Wave.pget_pput_of_ne _ _ _ _ _ hq]
  · intro b hb
    have : ∀ w, (k.finished 4 w).fflags = w.fflags := by intro w; unfold Slot.finished; simp
    rw [this, getLsbD_raiseFlags _ _ _ hb, testBit_orFlags, flags, any_lanes]
    simp
  · rw [k.rewound_finished]; exact rewound_predFlags ..

/-! ## Uniform results -/

theorem State.modWave_modWave (s : State) (h : Nat) (f g : Wave → Wave) :
    (s.modWave h f).modWave h g = s.modWave h fun w => g (f w) := by
  unfold State.modWave; simp [Map.modify_modify]

/-- A uniform register or predicate. -/
def HDst.isReg : HDst → Bool
  | .csr _ | .sat => false
  | _ => true

/-- One uniform write of a wave. -/
def Wave.putU (w : Wave) (e : HDst × Word) : Wave :=
  match e.1 with
  | .s n => { w with s := Sparse.set 0 w.s n e.2 }
  | .k n => { w with k := Sparse.set false w.k n (e.2 != 0) }
  | .csr _ | .sat => w

theorem State.putDst_reg (s : State) (h : Nat) (e : HDst × Word) (he : e.1.isReg = true) :
    s.putDst h e.1 e.2 = s.modWave h (·.putU e) := by
  obtain ⟨d, x⟩ := e
  cases d <;> first | rfl | simp [HDst.isReg] at he

theorem State.foldl_putDst (s : State) (h : Nat) (ws : List (HDst × Word)) (hr : ∀ e ∈ ws, e.1.isReg = true) (w : Wave)
    (hw : Map.find s.waves h = some w) :
    ∃ t, t = ws.foldl (fun s e => s.putDst h e.1 e.2) s ∧
      Map.find t.waves h = some (ws.foldl Wave.putU w) ∧ (∀ g, g ≠ h → Map.find t.waves g = Map.find s.waves g) ∧
      { t with waves := s.waves } = s := by
  induction ws generalizing s w with
  | nil => exact ⟨s, rfl, hw, fun _ _ => rfl, rfl⟩
  | cons e r ih =>
    have he := State.putDst_reg s h e (hr e (by simp))
    obtain ⟨t, h1, h2, h3, h4⟩ := ih (s.modWave h (·.putU e)) (fun e he => hr e (by simp [he])) (w.putU e)
      (by simp [State.modWave, hw])
    refine ⟨t, by rw [h1, List.foldl_cons, he], h2, ?_, ?_⟩
    · intro g hg
      rw [h3 g hg]
      simp [State.modWave, Map.find_modify_of_ne hg]
    · have := congrArg (fun x : State => { x with waves := s.waves }) h4
      exact this

theorem lastOf_cons (e : HDst × Word) (r : List (HDst × Word)) (d : HDst) (old : Word) :
    lastOf (e :: r) d old = lastOf r d (if e.1 = d then e.2 else old) := by
  unfold lastOf
  rw [List.reverse_cons, List.find?_append]
  cases h : r.reverse.find? fun e => e.1 == d
  · by_cases h2 : e.1 = d
    · simp [h2]
    · simp [h2]
  · simp

theorem Wave.get_putU (ws : List (HDst × Word)) (w : Wave) (n : Nat) :
    Sparse.get 0 (ws.foldl Wave.putU w).s n = lastOf ws (.s n) (Sparse.get 0 w.s n) := by
  induction ws generalizing w with
  | nil => rfl
  | cons e r ih =>
    rw [List.foldl_cons, ih, lastOf_cons]
    congr 1
    obtain ⟨d, x⟩ := e
    cases d <;> simp only [Wave.putU, HDst.s.injEq, reduceCtorEq, if_false, Sparse.get_set, eq_comm]

theorem Wave.getk_putU (ws : List (HDst × Word)) (w : Wave) (n : Nat) :
    Sparse.get false (ws.foldl Wave.putU w).k n = (lastOf ws (.k n) (BitVec.ofNat 32 (bit (Sparse.get false w.k n))) != 0) := by
  induction ws generalizing w with
  | nil => simp only [lastOf, List.reverse_nil, List.find?_nil, Option.map_none, Option.getD_none, List.foldl_nil]
           cases Sparse.get false w.k n <;> decide
  | cons e r ih =>
    rw [List.foldl_cons, ih, lastOf_cons]
    obtain ⟨d, x⟩ := e
    cases d with
    | s m => simp [Wave.putU]
    | csr a => simp [Wave.putU]
    | sat => simp [Wave.putU]
    | k m =>
      simp only [Wave.putU, HDst.k.injEq, Sparse.get_set]
      by_cases hm : n = m
      · subst hm
        simp only [if_true]
        unfold lastOf
        cases (r.reverse.find? fun e => e.1 == HDst.k n)
        · simp only [Option.map_none, Option.getD_none]
          by_cases hx : x = 0
          · subst hx; decide
          · have : (x != 0) = true := bne_iff_ne.2 hx
            rw [this]; decide
        · simp
      · have : ¬ m = n := fun h => hm h.symm
        simp [hm, this]

theorem Wave.putU_rest (ws : List (HDst × Word)) (w : Wave) :
    { ws.foldl Wave.putU w with s := w.s, k := w.k } = w := by
  induction ws generalizing w with
  | nil => rfl
  | cons e r ih =>
    rw [List.foldl_cons]
    have h := congrArg (fun x : Wave => { x with s := w.s, k := w.k }) (ih (w.putU e))
    refine Eq.trans h ?_
    obtain ⟨d, x⟩ := e
    cases d <;> rfl

theorem Slot.finished_sk (k : Slot) (len : Nat) (w : Wave) :
    (k.finished len w).s = w.s ∧ (k.finished len w).k = w.k ∧ (k.finished len w).held = w.held := by
  unfold Slot.finished; simp

/-- The end of an instruction changes only its wave. -/
theorem State.waveOnly_finishOf (s t : State) (k : Slot) (len : Nat) (w : Wave) (hw : Map.find t.waves k.h = some w)
    (ho : ∀ g, g ≠ k.h → Map.find t.waves g = Map.find s.waves g) (hr : { t with waves := s.waves } = s) :
    WaveOnly s (t.finish k len) k.h (k.finished len w) := by
  have hwait : t.waiters = s.waiters := by have := congrArg State.waiters hr; exact this
  refine ⟨State.find_finish _ _ _ _ hw, ?_, ?_, ?_, ?_⟩
  · intro i hi
    simp [State.finish, State.modWave, State.unwait, Map.find_modify_of_ne hi, ho i hi]
  · refine Eq.trans ?_ hr
    unfold State.finish State.modWave State.unwait
    rw [← hwait]
  · intro x hx
    rw [← hwait]; exact (List.mem_filter.1 hx).1
  · intro x
    have hm : t.mem = s.mem := by have := congrArg State.mem hr; exact this
    have hs : t.scratch = s.scratch := by have := congrArg State.scratch hr; exact this
    cases x <;> simp [State.byte, State.finish, hm, hs]

theorem Wave.frag_putU (ws : List (HDst × Word)) (w : Wave) (b : Bool) : (ws.foldl Wave.putU w).frag b = w.frag b := by
  have h := Wave.putU_rest ws w
  cases b
  · have := congrArg Wave.first h; exact this
  · have := congrArg Wave.second h; exact this

/-- Uniform writes of registers and predicates, and the end of the instruction. -/
theorem writesUni_finish {s : State} {k : Slot} {len : Nat} {ws : List (HDst × Word)} (e : s.slot = some k)
    (hr : ∀ e ∈ ws, e.1.isReg = true) : WritesUni s k len ws (.next ((s.write k ws).finish k len)) := by
  obtain ⟨-, -, hw, -⟩ := State.slot_spec e
  by_cases h2 : k.second = true
  · have hs : s.write k ws = s.modWave k.h fun w =>
        { w with held := w.held ++ ws.map fun e => { dst := e.1, val := some e.2, level := w.stack.length } } := by
      simp [State.write, h2]
    rw [hs]
    refine ⟨_, _, rfl, s.waveOnly_modFinish k len _ e, k.advances_finished len _ ?_, ?_, ?_⟩
    · cases k.second <;> rfl
    · simp only [Uniform, h2, if_true]
      exact ⟨(k.finished_sk len _).2.2, (k.finished_sk len _).1, (k.finished_sk len _).2.1⟩
    · rw [k.rewound_finished]
      unfold Wave.rewound; rfl
  · have hs : s.write k ws = ws.foldl (fun s e => s.putDst k.h e.1 e.2) s := by simp [State.write, h2]
    obtain ⟨t, h1, h3, h4, h5⟩ := s.foldl_putDst k.h ws hr k.w hw
    rw [hs, ← h1]
    refine ⟨_, _, rfl, s.waveOnly_finishOf t k len _ h3 h4 h5, k.advances_finished len _ ?_, ?_, ?_⟩
    · exact Wave.frag_putU ..
    · simp only [Uniform, h2]
      obtain ⟨a, b, c⟩ := k.finished_sk len (ws.foldl Wave.putU k.w)
      refine ⟨fun n => ?_, fun n => ?_, ?_⟩
      · rw [a]; exact Wave.get_putU ws k.w n
      · rw [b]; exact Wave.getk_putU ws k.w n
      · rw [c]; have := congrArg Wave.held (Wave.putU_rest ws k.w); exact this
    · rw [k.rewound_finished]
      have h := congrArg (fun x : Wave => { x.rewound k with s := k.w.s, k := k.w.k, held := k.w.held }) (Wave.putU_rest ws k.w)
      exact h

/-- An instruction that writes the uniform side, where the held-write buffer has room. -/
theorem uniOp_of {s : State} {k : Slot} {len n : Nat} {names : List (Nat × Nat)} {f : Slot → List (HDst × Word)}
    (h : Issues s k len) (hn : k.holds (names.map (·.2))) (hroom : k.room n = true) (hr : ∀ e ∈ f k, e.1.isReg = true) :
    WritesUni s k len (f k) (uniOp s len names n f) := by
  unfold uniOp
  rw [issue_of h, vnamed_of hn, if_pos hroom]
  exact writesUni_finish h.slot hr

end Sys2Proof.Machine
end

