-- ==== Sys2Proof/Laws/Flow.lean ====
section
/-! SUPPORT. What taking a trap and reaching the end of a fragment come to: only the slot's wave, and its waiting places, change. -/

namespace Sys2Proof.Machine

/-! ## The slot's wave alone changes -/

theorem waveOnly_setWave (s : State) (h : Nat) (w : Wave) (g : Waiter → Bool) :
    WaveOnly s ({ s with waiters := s.waiters.filter g }.setWave h w) h w := by
  refine ⟨by simp [State.setWave], ?_, rfl, fun x hx => (List.mem_filter.1 hx).1, fun x => by cases x <;> rfl⟩
  intro i hi
  simp [State.setWave, Map.find_put, hi]

theorem waveOnly_unwait (s : State) (h : Nat) (b : Bool) (w : Wave) : WaveOnly s ((s.unwait h b).setWave h w) h w :=
  waveOnly_setWave s h w _

theorem waveOnly_unwaitAll (s : State) (h : Nat) (w : Wave) : WaveOnly s ((s.unwaitAll h).setWave h w) h w :=
  waveOnly_setWave s h w _

theorem waveOnly_modWave {s : State} {h : Nat} {w : Wave} (e : Map.find s.waves h = some w) (g : Wave → Wave) :
    WaveOnly s (s.modWave h g) h (g w) := by
  refine ⟨by simp [State.modWave, e], ?_, rfl, fun x hx => hx, fun x => by cases x <;> rfl⟩
  intro i hi
  simp [State.modWave, Map.find_modify_of_ne hi]

/-- A second change of the same wave. -/
theorem WaveOnly.trans {s t u : State} {h : Nat} {w v : Wave} (a : WaveOnly s t h w) (b : WaveOnly t u h v) : WaveOnly s u h v := by
  refine ⟨b.wave, fun g hg => (b.others g hg).trans (a.others g hg), ?_, fun x hx => a.waiters x (b.waiters x hx),
    fun x => (b.bytes x).trans (a.bytes x)⟩
  have h1 := a.rest
  have h2 := b.rest
  rw [← h2] at h1
  exact h1

theorem WaveOnly.mod {s t : State} {h : Nat} {w : Wave} (a : WaveOnly s t h w) (g : Wave → Wave) : WaveOnly s (t.modWave h g) h (g w) :=
  a.trans (waveOnly_modWave a.wave g)

theorem WaveOnly.set {s t : State} {h : Nat} {w : Wave} (a : WaveOnly s t h w) (v : Wave) : WaveOnly s (t.setWave h v) h v :=
  a.trans ⟨by simp [State.setWave], fun i hi => by simp [State.setWave, Map.find_put, hi], rfl, fun _ hx => hx, fun x => by cases x <;> rfl⟩

theorem WaveOnly.unwait {s t : State} {h : Nat} {w : Wave} (a : WaveOnly s t h w) (b : Bool) : WaveOnly s (t.unwait h b) h w :=
  a.trans ⟨a.wave, fun _ _ => rfl, rfl, fun x hx => (List.mem_filter.1 hx).1, fun x => by cases x <;> rfl⟩

theorem WaveOnly.refl {s : State} {h : Nat} {w : Wave} (e : Map.find s.waves h = some w) : WaveOnly s s h w :=
  ⟨e, fun _ _ => rfl, rfl, fun _ hx => hx, fun _ => rfl⟩

/-! ## Taking a trap -/

/-- A trap that the wave's own handler does not take stops the wave. -/
theorem trap_stops {s : State} {k : Slot} {t : Trap} (e : s.slotOf k.h k.second = some k) (hs : k.w.stop = none)
    (ho : k.w.ownHandler t.cause = false) :
    s.trap k t = ((s.unwaitAll k.h).detach k.h).setWave k.h
      { k.w.letGo with stop := some { trap := t, side := k.f.side }, qstate := .ended none } := by
  obtain ⟨-, -, hw, hf, -⟩ := State.slotOf_spec e
  simp only [State.trap, State.raise, hw, hf, hs, ho]
  simp

/-- A trap that the wave's own handler takes. -/
theorem trap_enters {s : State} {k : Slot} {t : Trap} (e : s.slotOf k.h k.second = some k) (hs : k.w.stop = none)
    (ho : k.w.ownHandler t.cause = true) (hc : t.cause ≠ 0x11) :
    s.trap k t = ((s.unwait k.h k.f.side).detach k.h).setWave k.h (k.w.letGo.enter k.second k.f k.l.block.code k.f.pc t.cause t.reason
      (if t.lmask = 0 then 0 else lowLane t.lmask)) := by
  obtain ⟨-, -, hw, hf, -⟩ := State.slotOf_spec e
  simp only [State.trap, State.raise, hw, hf, hs, ho, hc]
  simp

theorem slotOf_self {s : State} {k : Slot} (e : s.slot = some k) : s.slotOf k.h k.second = some k := by
  obtain ⟨h1, h2, -⟩ := State.slot_spec e
  rw [h1, h2]; exact e

/-! ## The end of a fragment -/

/-- A wave that still has lanes is not over. -/
theorem waveOver_not {s : State} {h : Nat} {w : Wave} (e : Map.find s.waves h = some w) (ho : w.over = false) : s.waveOver h = s := by
  unfold State.waveOver; rw [e]; simp [ho]

/-- With nothing held, draining changes nothing. -/
theorem waveOnly_drain {s t : State} {h : Nat} {w : Wave} (a : WaveOnly s t h w) (hh : w.held = []) : WaveOnly s (t.drain h) h w := by
  unfold State.drain
  rw [a.wave]; simp only [hh]
  show WaveOnly s (t.modWave h fun w => { w with held := [] }) h w
  have := a.mod (fun w => { w with held := [] })
  have e : { w with held := [] } = w := by rw [← hh]
  rw [e] at this
  exact this

/-- What reaching a level comes to when nothing is held, no region closes and no loop body is left. -/
theorem afterReach_of {s : State} {k : Slot} {z : Reached} (e : s.slot = some k) (hb : z.breach = none) (hc : z.closed = [])
    (hh : z.w.held = []) (hf : z.w.first.isSome = true ∨ (z.w.second = none ∧ z.w.binds = [] ∧ z.w.cat = none)) :
    WaveOnly s (s.afterReach k z) k.h (z.w.count.issued k.second) := by
  obtain ⟨-, -, hw, -⟩ := State.slot_spec e
  unfold State.afterReach
  rw [hb, hc]
  show WaveOnly s ((((s.unwait k.h k.f.side).setWave k.h (z.w.count.issued k.second)).drain k.h).waveOver k.h) k.h _
  have h1 := waveOnly_drain (waveOnly_unwait s k.h k.f.side (z.w.count.issued k.second)) (by rw [← hh]; rfl)
  cases hov : (z.w.count.issued k.second).over
  · rw [waveOver_not h1.wave hov]; exact h1
  · rcases hf with hf | ⟨h2, h3, h4⟩
    · have : (z.w.count.issued k.second).over = false := by
        unfold Wave.over
        have : (z.w.count.issued k.second).first = z.w.first := rfl
        rw [this]; cases hz : z.w.first <;> simp [hz] at hf ⊢
      rw [this] at hov; simp at hov
    · unfold State.waveOver
      rw [h1.wave]
      have hb : (z.w.count.issued k.second).binds = [] := h3
      have hcat : (z.w.count.issued k.second).cat = none := h4
      simp only [hov, if_true, hb, List.map_nil, List.foldl_nil]
      have h5 : WaveOnly s ((((s.unwait k.h k.f.side).setWave k.h (z.w.count.issued k.second)).drain k.h).unwaitAll k.h) k.h (z.w.count.issued k.second) :=
        h1.trans ⟨h1.wave, fun _ _ => rfl, rfl, fun x hx => (List.mem_filter.1 hx).1, fun x => by cases x <;> rfl⟩
      unfold State.uncat
      rw [h5.wave]
      simp only [Option.bind_some, hcat]
      exact h5

end Sys2Proof.Machine
end

