-- ==== Sys2Proof/Laws/Control.lean ====
section
/-! SUPPORT. What transfers of control, uniform writes and their ends come to. -/

namespace Sys2Proof.Machine

theorem jump_waveOnly (s : State) (k : Slot) (pc : DWord) (g : Wave → Wave) (e : s.slot = some k) :
  WaveOnly s ((s.modWave k.h g).jump k pc) k.h
    (((g k.w).setFrag k.second (some { k.f with pc := pc, again := none, endPend := false })).count.issued k.second) := by
  obtain ⟨-, -, hw, -⟩ := State.slot_spec e
  exact ((waveOnly_modWave hw g).unwait _).mod _

theorem jump_waveOnly' (s : State) (k : Slot) (pc : DWord) (e : s.slot = some k) :
  WaveOnly s (s.jump k pc) k.h
    ((k.w.setFrag k.second (some { k.f with pc := pc, again := none, endPend := false })).count.issued k.second) := by
  obtain ⟨-, -, hw, -⟩ := State.slot_spec e
  exact ((WaveOnly.refl hw).unwait _).mod _

theorem jumps_jump (s : State) (k : Slot) (pc : DWord) (e : s.slot = some k) : Jumps s k pc (.next (s.jump k pc)) := by
  refine ⟨_, _, { k.f with pc := pc, again := none, endPend := false }, rfl, jump_waveOnly' s k pc e, ?_, rfl, rfl, rfl, ?_, ?_⟩
  · simp
  · simp
  · unfold Wave.rewound Wave.setFrag; cases k.second <;> simp [Wave.count, Wave.issued]

theorem transfer_in {s : State} {k : Slot} {pc : DWord} (e : s.slot = some k) (h : ∀ b ∈ k.w.loopsOf k.f, b.first ≤ pc ∧ pc ≤ b.last) :
    Jumps s k pc (.next (s.transfer k pc id)) := by
  have : inBodies (k.w.loopsOf k.f) pc = true := by simpa [inBodies] using h
  unfold State.transfer; rw [this]; exact jumps_jump s k pc e
theorem transfer_out {s : State} {k : Slot} {pc : DWord} {f : State → State} (h : ¬ ∀ b ∈ k.w.loopsOf k.f, b.first ≤ pc ∧ pc ≤ b.last) :
    Traps s k { k.trap 0x02 0 with addr := pc } (.next (s.transfer k pc f)) := by
  have : inBodies (k.w.loopsOf k.f) pc = false := by
    rw [← Bool.not_eq_true]; intro h2; apply h; simpa [inBodies] using h2
  unfold State.transfer; rw [this]; rfl

theorem target_eq (k : Slot) (off : BitVec 17) : k.target off = k.f.pc + BitVec.ofInt 64 (4 * off.toInt) := by
  unfold Slot.target; congr 1
  rw [Int.mul_comm, BitVec.ofInt_mul]; rfl

theorem s64_eq (k : Slot) (a : Nat) : k.s64 a = BitVec.ofNat 64 ((k.s a).toNat + 2 ^ 32 * (k.s (a + 1)).toNat) := by
  apply BitVec.eq_of_toNat_eq
  have h1 := (k.s a).isLt; have h2 := (k.s (a+1)).isLt
  unfold Slot.s64
  rw [BitVec.toNat_append, Nat.shiftLeft_eq, Nat.mul_comm, ← Nat.two_pow_add_eq_or_of_lt h1, BitVec.toNat_ofNat]
  omega

theorem cond_eq (k : Slot) (c : UCond) : (k.cond c = true) ↔ (match c with | .always => True | .k n neg => k.k n = !neg) := by
  cases c with
  | always => simp [Slot.cond]
  | k n neg => simp only [Slot.cond]; cases k.k n <;> cases neg <;> simp

theorem isReg_pair (a : Nat) (x : DWord) : ∀ e ∈ pairOf a x, e.1.isReg = true := by simp [pairOf, HDst.isReg]

theorem write_waveOnly {s : State} {k : Slot} {ws : List (HDst × Word)} (e : s.slot = some k)
    (hr : ∀ e ∈ ws, e.1.isReg = true) : ∃ w, WaveOnly s (s.write k ws) k.h w ∧ Uniform k w ws ∧ (∀ b, w.frag b = k.w.frag b) ∧
      { w with s := k.w.s, k := k.w.k, held := k.w.held } = k.w := by
  obtain ⟨-, -, hw, -⟩ := State.slot_spec e
  by_cases h2 : k.second = true
  · have hs : s.write k ws = s.modWave k.h fun w =>
        { w with held := w.held ++ ws.map fun e => { dst := e.1, val := some e.2, level := w.stack.length } } := by
      simp [State.write, h2]
    rw [hs]
    refine ⟨_, waveOnly_modWave hw _, ?_, fun b => by cases b <;> rfl, rfl⟩
    simp only [Uniform, h2, if_true]; simp
  · have hs : s.write k ws = ws.foldl (fun s e => s.putDst k.h e.1 e.2) s := by simp [State.write, h2]
    obtain ⟨t, h1, h3, h4, h5⟩ := s.foldl_putDst k.h ws hr k.w hw
    rw [hs, ← h1]
    refine ⟨_, ⟨h3, h4, ?_, ?_, ?_⟩, ?_, Wave.frag_putU ws k.w, ?_⟩
    · exact congrArg (fun x : State => { x with waiters := s.waiters }) h5
    · intro x hx; have : t.waiters = s.waiters := by have := congrArg State.waiters h5; exact this
      exact this ▸ hx
    · intro x
      have hm : t.mem = s.mem := by have := congrArg State.mem h5; exact this
      have hs : t.scratch = s.scratch := by have := congrArg State.scratch h5; exact this
      cases x <;> simp [State.byte, hm, hs]
    · simp only [Uniform, h2]
      refine ⟨fun n => Wave.get_putU ws k.w n, fun n => Wave.getk_putU ws k.w n, ?_⟩
      have := congrArg Wave.held (Wave.putU_rest ws k.w); exact this
    · have h := congrArg (fun x : Wave => { x with s := k.w.s, k := k.w.k, held := k.w.held }) (Wave.putU_rest ws k.w)
      exact h

theorem WaveOnly.jump {s t : State} {k : Slot} {w : Wave} (a : WaveOnly s t k.h w) (pc : DWord) :
    WaveOnly s (t.jump k pc) k.h ((w.setFrag k.second (some { k.f with pc := pc, again := none, endPend := false })).count.issued k.second) :=
  (a.unwait _).mod _

end Sys2Proof.Machine
end

