-- ==== Sys2Proof/Laws/Memory.lean ====
section
/-! SUPPORT. Every operation that writes memory or a scratchpad keeps the canonical form, and what a read gives after it. -/

namespace Sys2Proof.Machine

theorem State.memOk_reset : State.reset.memOk := ⟨rfl, rfl⟩

/-- The canonical form looks at memory and the scratchpads only. -/
theorem State.memOk_congr {s t : State} (h : s.memOk) (hm : t.mem = s.mem) (hs : t.scratch = s.scratch) : t.memOk := by
  unfold State.memOk
  rw [hm, hs]
  exact h

theorem State.memOk_poke {s : State} (h : s.memOk) (x : Loc) (b : Byte) : (s.poke x b).memOk := by
  cases x with
  | mem k => exact ⟨Sparse.wf_set Memory.blank s.mem k b h.1, h.2⟩
  | scr k => exact ⟨h.1, Sparse.wf_set 0 s.scratch k b h.2⟩

theorem State.memOk_pokes {s : State} (h : s.memOk) (bs : List (Loc × Byte)) : (s.pokes bs).memOk := by
  induction bs generalizing s with
  | nil => exact h
  | cons e r ih => exact ih (State.memOk_poke h e.1 e.2)

theorem State.memOk_putNum {s : State} (h : s.memOk) (x : Loc) (v n : Nat) : (s.putNum x v n).memOk :=
  State.memOk_pokes h _

theorem State.memOk_zeroScr {s : State} (h : s.memOk) (key n : Nat) : (s.zeroScr key n).memOk :=
  ⟨h.1, Sparse.wf_clear 0 s.scratch key n h.2⟩

/-- Module reset keeps memory and clears the scratchpads. -/
theorem State.memOk_moduleReset {s : State} (h : s.memOk) : s.moduleReset.memOk := ⟨h.1, rfl⟩

theorem State.memOk_withWave {s : State} (h : s.memOk) : s.withWave.memOk := h

theorem State.memOk_withFetchWord {s : State} (h : s.memOk) (nbits w : Nat) : (s.withFetchWord nbits w).memOk := by
  unfold State.withFetchWord
  by_cases hr : s.fetchReady.isSome = true
  · simp only [hr, if_true]
    exact ⟨Sparse.wf_setRun _ _ _ _ _ h.1, h.2⟩
  · simp only [hr]
    exact ⟨Sparse.wf_setRun _ _ _ _ _ h.1, h.2⟩

/-! ## A read after a write -/

theorem State.byte_poke (s : State) (x y : Loc) (b : Byte) : (s.poke x b).byte y = if y = x then b else s.byte y := by
  cases x <;> cases y <;> simp [State.poke, State.byte, Sparse.get_set]

@[simp] theorem State.byte_poke_self (s : State) (x : Loc) (b : Byte) : (s.poke x b).byte x = b := by
  rw [State.byte_poke, if_pos rfl]

theorem State.byte_poke_of_ne (s : State) {x y : Loc} (b : Byte) (h : y ≠ x) : (s.poke x b).byte y = s.byte y := by
  rw [State.byte_poke, if_neg h]

/-- A list of writes leaves every place it does not name. -/
theorem State.byte_pokes_of_not_mem (s : State) (bs : List (Loc × Byte)) {y : Loc} (h : ∀ e ∈ bs, e.1 ≠ y) :
    (s.pokes bs).byte y = s.byte y := by
  induction bs generalizing s with
  | nil => rfl
  | cons e r ih =>
    show ((s.poke e.1 e.2).pokes r).byte y = _
    rw [ih _ fun x hx => h x (List.mem_cons_of_mem _ hx),
      State.byte_poke_of_ne _ _ fun hy => h e List.mem_cons_self hy.symm]

theorem State.byte_zeroScr (s : State) (key n : Nat) (y : Loc) : (s.zeroScr key n).byte y =
    match y with
    | .mem k => s.byte (.mem k)
    | .scr k => if key ≤ k ∧ k < key + n then 0 else s.byte (.scr k) := by
  cases y with
  | mem k => rfl
  | scr k =>
    show Sparse.get 0 (Sparse.clear s.scratch key n) k = _
    rw [Sparse.get_clear]
    rfl

/-- What a list of writes leaves alone: everything but memory, the scratchpads, the code log and the regions (R26, R332). -/
theorem State.rest_pokes (s : State) (bs : List (Loc × Byte)) :
    { s.pokes bs with mem := s.mem, scratch := s.scratch, codeLog := s.codeLog, codeCount := s.codeCount, regions := s.regions } = s := by
  induction bs generalizing s with
  | nil => rfl
  | cons e r ih =>
    have h := ih (s.poke e.1 e.2)
    have hp : { s.poke e.1 e.2 with
        mem := s.mem, scratch := s.scratch, codeLog := s.codeLog, codeCount := s.codeCount, regions := s.regions } = s := by
      cases e.1 <;> rfl
    have := congrArg (fun t : State => { t with
      mem := s.mem, scratch := s.scratch, codeLog := s.codeLog, codeCount := s.codeCount, regions := s.regions }) h
    exact this.trans hp

/-! ## Writes in flight (R13) -/

theorem Loc.widest_le (x : Loc) : x.widest ≤ 4 := by
  cases x with
  | mem k => exact Nat.le_refl 4
  | scr k => show (if k / 2 ^ 27 % 4 = 3 then 3 else 2) ≤ 4; split <;> decide

theorem State.bring_of {s : State} (h : s.flight = []) (d : Flight → Loc → Bool) : s.bring d = s := by
  unfold State.bring; rw [h]; exact congrArg (fun x => { s with flight := x }) h.symm

theorem State.settle_of {s : State} (h : s.flight = []) : s.settle = s := State.bring_of h _

theorem State.widen_of {s : State} (h : s.flight = []) (n : Nat) (p : Flight → Bool) : s.widen n p = s := by
  unfold State.widen
  have : ({ s with flight := s.flight.map fun f => if p f then { f with scope := max f.scope n } else f } : State) = s := by
    rw [h]; exact congrArg (fun x => { s with flight := x }) h.symm
  rw [this, State.settle_of h]

theorem State.performAll_of {s : State} (h : s.flight = []) : s.performAll = s := State.widen_of h _ _

theorem State.relAt_of {s : State} (h : s.flight = []) (w n : Nat) : s.relAt w n = s := by
  unfold State.relAt; split
  · rfl
  · exact State.widen_of h _ _

theorem State.reach_of {s : State} (h : s.flight = []) (w : Nat) (xs : List (Loc × Nat)) : s.reach w xs = s := by
  unfold State.reach; split
  · rfl
  · exact State.bring_of h _

/-- Where nothing is in flight, an instruction or event runs in the state as it is. -/
theorem State.before_of {s : State} (h : s.flight = []) (i : Instr) : s.before i = s := by
  unfold State.before; rw [h]; rfl

/-- Where every byte has been chosen, none stays in flight. -/
theorem leftOver_of {d : Flight → Loc → Bool} {fs : List Flight} (h : ∀ f ∈ fs, ∀ b ∈ f.bytes, d f b.1 = true) : leftOver d fs = [] := by
  induction fs with
  | nil => rfl
  | cons f r ih =>
    have hb : (f.bytes.filter fun b => !d f b.1 && !(r.any fun g => (g.part d).any fun e => e.1 == b.1)) = [] := by
      rw [List.filter_eq_nil_iff]
      intro b hb
      simp [h f List.mem_cons_self b hb]
    unfold leftOver
    simp only [hb, List.isEmpty_nil, if_true]
    exact ih fun g hg => h g (List.mem_cons_of_mem _ hg)

/-- What stays in flight of one write is bytes of it. -/
theorem leftOver_sub {d : Flight → Loc → Bool} {fs : List Flight} {g : Flight} (h : g ∈ leftOver d fs) :
    ∃ f ∈ fs, g = { f with bytes := g.bytes } ∧ ∀ b ∈ g.bytes, b ∈ f.bytes ∧ d f b.1 = false := by
  induction fs with
  | nil => cases h
  | cons f r ih =>
    unfold leftOver at h
    have rest : g ∈ leftOver d r → ∃ f' ∈ f :: r, g = { f' with bytes := g.bytes } ∧ ∀ b ∈ g.bytes, b ∈ f'.bytes ∧ d f' b.1 = false :=
      fun h => let ⟨f', h1, h2⟩ := ih h; ⟨f', List.mem_cons_of_mem _ h1, h2⟩
    simp only at h
    split at h
    · exact rest h
    · rcases List.mem_cons.1 h with rfl | h
      · refine ⟨f, List.mem_cons_self, rfl, fun b hb => ?_⟩
        have := List.mem_filter.1 hb
        simp only [Bool.and_eq_true, Bool.not_eq_true'] at this
        exact ⟨this.1, this.2.1⟩
      · exact rest h

/-- Once every write has performed at system scope, none is in flight. -/
theorem State.performAll_flight (s : State) : s.performAll.flight = [] := by
  refine leftOver_of fun f hf b _ => ?_
  obtain ⟨g, -, rfl⟩ := List.mem_map.1 hf
  have := b.1.widest_le
  simp only [if_true, Flight.final, decide_eq_true_eq]
  omega

/-- A write that performs for everyone at once, with none in flight, is a write of its bytes. -/
theorem State.perform_final {s : State} {f : Flight} (h : s.flight = []) (hf : ∀ b ∈ f.bytes, b.1.widest ≤ f.scope) :
    s.perform f = s.pokes f.bytes := by
  have h0 : ∀ b ∈ f.bytes, f.final b.1 = true := fun b hb => by simpa [Flight.final] using hf b hb
  have h1 : f.part Flight.final = f.bytes := List.filter_eq_self.2 h0
  have h2 : leftOver Flight.final [f] = [] := leftOver_of fun g hg => by rw [List.mem_singleton.1 hg]; exact h0
  unfold State.perform State.settle State.bring
  rw [h]
  simp only [List.nil_append, List.flatMap_cons, List.flatMap_nil, List.append_nil, h1, h2]
  have key : ∀ (bs : List (Loc × Byte)) (s : State) (g : List Flight), s.flight = [] →
      ({ ({ s with flight := g } : State).pokes bs with flight := [] } : State) = s.pokes bs := by
    intro bs
    induction bs with
    | nil => intro s g hs; exact congrArg (fun x => { s with flight := x }) hs.symm
    | cons e r ih =>
      intro s g hs
      have hp : ({ s with flight := g } : State).poke e.1 e.2 = { s.poke e.1 e.2 with flight := g } := by cases e.1 <;> rfl
      have hq : (s.poke e.1 e.2).flight = [] := by rw [← hs]; cases e.1 <;> rfl
      show ({ (({ s with flight := g } : State).poke e.1 e.2).pokes r with flight := [] } : State) = (s.poke e.1 e.2).pokes r
      rw [hp, ih _ _ hq]
  exact key _ _ _ h

/-- With no write in flight a wave reads the byte at its home. -/
theorem State.inFlight_of {s : State} (h : s.flight = []) (w : Wave) (x : Loc) : s.inFlight w x = none := by
  unfold State.inFlight; rw [h]; rfl

/-! ## What moving writes on can do -/

/-- `t` is `s` with writes moved on: memory, the scratchpads, the code log, the regions and what is in flight may differ, and the
canonical form is kept (R26, R332). -/
structure State.Moved (s t : State) : Prop where
  rest : { t with mem := s.mem, scratch := s.scratch, codeLog := s.codeLog, codeCount := s.codeCount, regions := s.regions,
                  flight := s.flight } = s
  memOk : s.memOk → t.memOk

theorem State.Moved.refl (s : State) : State.Moved s s := ⟨rfl, id⟩

theorem State.Moved.trans {s t u : State} (h : State.Moved s t) (k : State.Moved t u) : State.Moved s u where
  rest := by
    have := congrArg (fun x : State => { x with mem := s.mem, scratch := s.scratch, codeLog := s.codeLog, codeCount := s.codeCount,
                                                regions := s.regions, flight := s.flight }) k.rest
    exact this.trans h.rest
  memOk := fun x => k.memOk (h.memOk x)

theorem State.moved_bring (s : State) (d : Flight → Loc → Bool) : State.Moved s (s.bring d) where
  rest := by
    have h := State.rest_pokes s (s.flight.flatMap (Flight.part d))
    exact congrArg (fun x : State => { x with flight := s.flight }) h
  memOk := fun h => State.memOk_congr (State.memOk_pokes h _) rfl rfl

theorem State.moved_widen (s : State) (n : Nat) (p : Flight → Bool) : State.Moved s (s.widen n p) :=
  State.Moved.trans (t := { s with flight := s.flight.map fun f => if p f then { f with scope := max f.scope n } else f })
    ⟨rfl, fun h => State.memOk_congr h rfl rfl⟩ (State.moved_bring _ _)

theorem State.moved_relAt (s : State) (h n : Nat) : State.Moved s (s.relAt h n) := by
  unfold State.relAt; split
  · exact .refl s
  · exact State.moved_widen _ _ _

theorem State.moved_reach (s : State) (h : Nat) (xs : List (Loc × Nat)) : State.Moved s (s.reach h xs) := by
  unfold State.reach; split
  · exact .refl s
  · exact State.moved_bring _ _

/-- A release, if one is asked for, and then bytes that go home. -/
theorem State.moved_rel_reach (s : State) (c : Prop) [Decidable c] (h n g : Nat) (xs : List (Loc × Nat)) :
    State.Moved s ((if c then s.relAt h n else s).reach g xs) := by
  split
  · exact (State.moved_relAt s h n).trans (State.moved_reach _ g xs)
  · exact State.moved_reach s g xs

theorem State.moved_foldl_reach (s : State) (hs : List Nat) (xs : List (Loc × Nat)) :
    State.Moved s (hs.foldl (fun s h => s.reach h xs) s) := by
  induction hs generalizing s with
  | nil => exact .refl s
  | cons h r ih => exact (State.moved_reach s h xs).trans (ih _)

theorem State.moved_onScr (s : State) (k : Slot) (a n : Nat) (rel : Bool) : State.Moved s (s.onScr k a n rel) := by
  unfold State.onScr; split
  · exact State.moved_rel_reach _ _ _ _ _ _
  · exact .refl s

theorem State.moved_onQueue (s : State) (k : Slot) (key : Nat) (rel : Bool) : State.Moved s (s.onQueue k key rel) := by
  unfold State.onQueue; split
  · exact .refl s
  · refine State.Moved.trans ?_ (State.moved_foldl_reach _ _ _)
    split
    · exact State.moved_relAt _ _ _
    · exact .refl s

theorem State.moved_onBound (s : State) (k : Slot) (q : Nat) (rel : Bool) : State.Moved s (s.onBound k q rel) := by
  unfold State.onBound; split
  · exact State.moved_onQueue _ _ _ _
  · exact .refl s

theorem State.moved_onBoundCat (s : State) (k : Slot) (rel : Option Nat) : State.Moved s (s.onBoundCat k rel) := by
  unfold State.onBoundCat; split
  · refine State.Moved.trans ?_ (State.moved_reach _ _ _)
    split
    · exact State.moved_relAt _ _ _
    · exact .refl s
  · exact .refl s

theorem State.moved_onSamples (s : State) (k : Slot) (rid : Nat) : State.Moved s (s.onSamples k rid) := by
  unfold State.onSamples; split
  · exact State.moved_reach _ _ _
  · exact .refl s

theorem State.moved_beforeWord (s : State) (k : Slot) (i : Instr) : State.Moved s (s.beforeWord k i) := by
  unfold State.beforeWord
  split <;> (repeat' split) <;> first
    | exact .refl s
    | exact State.moved_relAt _ _ _
    | exact State.moved_reach _ _ _
    | exact State.moved_onScr _ _ _ _ _
    | exact State.moved_onBound _ _ _ _
    | exact State.moved_onBoundCat _ _ _
    | exact State.moved_onSamples _ _ _
    | (simp only; split <;> (repeat' split) <;> first
        | exact State.moved_onBound _ _ _ _
        | exact (State.moved_onBound _ _ _ _).trans (State.moved_onQueue _ _ _ _))

theorem State.moved_beforeOut (s : State) (h : Nat) (o : Out) : State.Moved s (s.beforeOut h o) := by
  unfold State.beforeOut; split
  · exact (State.moved_widen _ _ _).trans (State.moved_reach _ _ _)
  · exact State.moved_reach _ _ _
  · exact State.moved_reach _ _ _
  · exact .refl s

theorem State.moved_beforeCommand (s : State) (c : Command) : State.Moved s (s.beforeCommand c) := by
  have h1 : ∀ (t : State) (xs : List (Loc × Nat)), State.Moved t (if c.gather = true then t.reach c.wave xs else t) := by
    intro t xs; split
    · exact State.moved_reach _ _ _
    · exact .refl t
  have h2 : ∀ (t : State) (b : Bool) (n : Nat), State.Moved t (if b = true then t.relAt c.wave n else t) := by
    intro t b n; split
    · exact State.moved_relAt _ _ _
    · exact .refl t
  have h3 : ∀ (ys : List (Loc × Nat)) (t : State) (b : Bool), State.Moved s t → State.Moved s
      (if b = true then (t.reach c.wave ys).relAt c.wave (field (c.word 0) 29 27) else t.reach c.wave ys) :=
    fun ys t b h => h.trans ((State.moved_reach t c.wave ys).trans (h2 _ b _))
  unfold State.beforeCommand
  simp only
  split
  · exact h3 _ _ _ (h1 s _)
  · split
    · exact (h3 _ _ _ (h1 s _)).trans ((State.moved_relAt _ _ _).trans (State.moved_reach _ _ _))
    · exact h3 _ _ _ (h1 s _)

theorem State.moved_beforeError (s : State) (h seq idx : Nat) : State.Moved s (s.beforeError h seq idx) := by
  unfold State.beforeError
  (repeat' split) <;> first
    | exact .refl s
    | exact State.moved_beforeWord _ _ _
    | exact State.moved_beforeOut _ _ _

/-- What `before` can do: it moves writes on, and nothing else (R13). -/
theorem State.moved_before (s : State) (i : Instr) : State.Moved s (s.before i) := by
  unfold State.before
  (repeat' split) <;> first
    | exact .refl s
    | exact State.moved_widen _ _ _
    | exact State.moved_beforeOut _ _ _
    | exact State.moved_beforeError _ _ _ _
    | exact State.moved_beforeCommand _ _
    | exact State.moved_beforeWord _ _ _

theorem State.memOk_perform {s : State} (h : s.memOk) (f : Flight) : (s.perform f).memOk :=
  (State.moved_bring _ _).memOk (State.memOk_congr h rfl rfl)

end Sys2Proof.Machine
end

