-- ==== Sys2Proof/Laws/Access.lean ====
section
/-! SUPPORT. What the shared operations of memory and scratchpad accesses come to when nothing fails. -/

namespace Sys2Proof.Machine

theorem mem_lanes {k : Slot} {l : Nat} : l ∈ k.lanes ↔ l < 64 ∧ k.on l = true := by
  unfold Slot.lanes lanesOf Slot.on laneList
  simp

theorem lanes_eq (k : Slot) : k.lanes = (List.range 64).filter k.on := rfl

theorem lanes_ne {k : Slot} (h : k.mask ≠ 0) : k.lanes ≠ [] := by
  intro h2
  apply h
  apply BitVec.eq_of_getLsbD_eq
  intro i hi
  have : ¬ i ∈ k.lanes := by rw [h2]; simp
  rw [mem_lanes] at this
  simp only [hi, true_and] at this
  simpa [Slot.on] using this

/-- Every lane aligned: nothing fails. -/
theorem unaligned_nil {xs : List (Nat × DWord)} {n : Nat} (h : ∀ e ∈ xs, e.2.toNat % n = 0) : unaligned xs n = [] := by
  unfold unaligned
  rw [List.filter_eq_nil_iff]
  intro e he
  simp [h e he]

/-- An access whose lanes are aligned and all translate sends what it makes of their places, and ends; `fab` names the lanes whose
address is a fabric address (R486). -/
theorem globalAccess_ok {s : State} {k : Slot} {len n need access : Nat} {uni : Bool} {xs : List (Nat × DWord)}
    {mk : List (Nat × DWord × Loc) → Wave → Wave} (place : Nat → Loc) (fab : Nat → Bool) (hx : xs ≠ [])
    (h : ∀ e ∈ xs, e.2.toNat % n = 0 ∧
      ∃ tier pa, s.xlate k.w k.f.side k.core k.l.tenant e.2 need = .ok tier pa ∧ place e.1 = s.placeOf tier pa ∧
        fab e.1 = (tier == 2 && bitAt pa 51)) :
    s.globalAccess k len n need access uni xs mk =
      (s.modWave k.h fun w => ((mk (xs.map fun e => (e.1, e.2, place e.1)) w).atSystem w.outs.length
        (sysLanes uni ((xs.filter fun e => fab e.1).map (·.1)))).clearFaults k.f.side).finish k len := by
  unfold State.globalAccess
  rw [unaligned_nil fun e he => (h e he).1]
  have hm : ∀ ys : List (Nat × DWord), (∀ e ∈ ys, e ∈ xs) →
      ((ys.map fun e => (e.1, e.2, s.xlate k.w k.f.side k.core k.l.tenant e.2 need)).filter fun e => e.2.2 == .miss) = [] ∧
      s.translated (ys.map fun e => (e.1, e.2, s.xlate k.w k.f.side k.core k.l.tenant e.2 need)) =
        ys.map (fun e => (e.1, e.2, place e.1)) ∧
      faulted (ys.map fun e => (e.1, e.2, s.xlate k.w k.f.side k.core k.l.tenant e.2 need)) = [] ∧
      unread (ys.map fun e => (e.1, e.2, s.xlate k.w k.f.side k.core k.l.tenant e.2 need)) = [] ∧
      onFabricLanes (ys.map fun e => (e.1, e.2, s.xlate k.w k.f.side k.core k.l.tenant e.2 need)) =
        (ys.filter fun e => fab e.1).map (·.1) := by
    intro ys
    induction ys with
    | nil => intro _; exact ⟨rfl, rfl, rfl, rfl, rfl⟩
    | cons e r ih =>
      intro hy
      obtain ⟨i1, i2, i3, i4, i5⟩ := ih fun e he => hy e (List.mem_cons_of_mem _ he)
      obtain ⟨-, t, p, h1, h2, h5⟩ := h e (hy e List.mem_cons_self)
      refine ⟨?_, ?_, ?_, ?_, ?_⟩
      · rw [List.map_cons, List.filter_cons, h1]; simpa using i1
      · unfold State.translated at i2 ⊢
        rw [List.map_cons, List.filterMap_cons]; simp only [h1]
        rw [i2, ← h2]; rfl
      · unfold faulted at i3 ⊢
        rw [List.map_cons, List.filterMap_cons]; simp only [h1]; exact i3
      · unfold unread at i4 ⊢
        rw [List.map_cons, List.filterMap_cons]; simp only [h1]; exact i4
      · unfold onFabricLanes at i5 ⊢
        rw [List.map_cons, List.filter_cons, List.filter_cons]; simp only [h1, ← h5]
        cases fab e.1
        · exact i5
        · simp only [if_true, List.map_cons]; exact congrArg _ i5
  obtain ⟨h1, h2, h3, h4, h5⟩ := hm xs fun _ h => h
  simp only [h1, h2, h3, h4, h5]
  have : (xs.map fun e => (e.1, e.2, place e.1)).isEmpty = false := by cases xs <;> simp at hx ⊢
  simp [this, State.walkError, List.eraseDups]

@[simp] theorem Wave.marking_append (w : Wave) (os : List Out) (o : Out) (f : Out → Out) :
    ({ w with outs := os ++ [o] } : Wave).marking os.length f = { w with outs := os ++ [f o] } := by
  simp [Wave.marking]

/-- A scratchpad access whose lanes are aligned and name bytes of the allocation. -/
theorem scratchAccess_ok {s : State} {k : Slot} {len n access : Nat} {xs : List (Nat × DWord)}
    {mk : List (Nat × DWord × Loc) → Wave → Wave} (place : Nat → Loc)
    (h : ∀ e ∈ xs, e.2.toNat % n = 0 ∧ ∃ key, s.scr k.ctx e.2.toNat = .ok key ∧ place e.1 = .scr key) :
    s.scratchAccess k len n access xs mk = (s.modWave k.h (mk (xs.map fun e => (e.1, e.2, place e.1)))).finish k len := by
  unfold State.scratchAccess
  rw [unaligned_nil fun e he => (h e he).1]
  have hk : (xs.map fun e => (e.1, e.2, s.scr k.ctx e.2.toNat)) =
      xs.map fun e => (e.1, e.2, Except.ok (match place e.1 with | .scr key => key | .mem key => key)) := by
    refine List.map_congr_left fun e he => ?_
    obtain ⟨-, key, h1, h2⟩ := h e he
    rw [h1, h2]
  have hp : (xs.map fun e => (e.1, e.2, Loc.scr (match place e.1 with | .scr key => key | .mem key => key))) =
      xs.map fun e => (e.1, e.2, place e.1) := by
    refine List.map_congr_left fun e he => ?_
    obtain ⟨-, key, h1, h2⟩ := h e he
    rw [h2]
  rw [hk]
  simp only [List.filterMap_map, Function.comp_def]
  simp [← hp]

/-! ## Sectors -/

theorem mem_addElem (cs : List (List Elem)) (e x : Elem) : x ∈ (addElem cs e).flatten ↔ x ∈ cs.flatten ∨ x = e := by
  induction cs with
  | nil => simp [addElem]
  | cons c r ih =>
    unfold addElem
    split
    · simp only [List.flatten_cons, List.mem_append, List.mem_singleton]; grind
    · simp only [List.flatten_cons, List.mem_append, ih]; grind

theorem mem_chunks_foldl (es : List Elem) (cs : List (List Elem)) (x : Elem) :
    x ∈ (es.foldl addElem cs).flatten ↔ x ∈ cs.flatten ∨ x ∈ es := by
  induction es generalizing cs with
  | nil => simp
  | cons e r ih => rw [List.foldl_cons, ih, mem_addElem, List.mem_cons]; grind

/-- The sectors of a load hold its elements. -/
theorem mem_chunksOf (es : List Elem) (x : Elem) : x ∈ (chunksOf es).flatten ↔ x ∈ es := by
  unfold chunksOf; rw [mem_chunks_foldl]; simp

/-- Each chunk is served by one sector. -/
def OneSector (cs : List (List Elem)) : Prop := ∀ c ∈ cs, ∀ e ∈ c, ∀ f ∈ c, e.loc.sector = f.loc.sector

theorem oneSector_addElem {cs : List (List Elem)} (e : Elem) (h : OneSector cs) : OneSector (addElem cs e) := by
  induction cs with
  | nil => intro c hc; simp [addElem] at hc; subst hc; simp
  | cons c r ih =>
    have hr : OneSector r := fun c hc => h c (List.mem_cons_of_mem _ hc)
    unfold addElem
    split
    · rename_i hs
      intro c' hc'
      rcases List.mem_cons.1 hc' with rfl | hc'
      · have : ∃ f ∈ c, f.loc.sector = e.loc.sector := by simpa using hs
        obtain ⟨f, hf, hfe⟩ := this
        intro a ha b hb
        have key : ∀ a ∈ c ++ [e], a.loc.sector = e.loc.sector := by
          intro a ha
          rcases List.mem_append.1 ha with ha | ha
          · rw [← hfe]; exact h c List.mem_cons_self a ha f hf
          · rw [List.mem_singleton.1 ha]
        rw [key a ha, key b hb]
      · exact hr c' hc'
    · intro c' hc'
      rcases List.mem_cons.1 hc' with rfl | hc'
      · exact h _ List.mem_cons_self
      · exact ih hr c' hc'

theorem oneSector_chunksOf (es : List Elem) : OneSector (chunksOf es) := by
  unfold chunksOf
  have : ∀ cs, OneSector cs → OneSector (es.foldl addElem cs) := by
    induction es with
    | nil => exact fun _ h => h
    | cons e r ih => exact fun cs h => ih _ (oneSector_addElem e h)
  exact this [] fun c hc => by simp at hc

end Sys2Proof.Machine
end

