-- ==== Sys2Proof/Laws/Float.lean ====
section
/-! SUPPORT. What the integer square root gives. -/

namespace Sys2Proof.Machine

/-- From a root that is small enough and, `2 ^ b` on, too large, `rootFrom` gives the integer root. -/
theorem rootFrom_spec (n : Nat) : ∀ b r, r * r ≤ n → n < (r + 2 ^ b) * (r + 2 ^ b) →
    rootFrom n b r * rootFrom n b r ≤ n ∧ n < (rootFrom n b r + 1) * (rootFrom n b r + 1)
  | 0, r, h, h' => ⟨h, by simpa [rootFrom] using h'⟩
  | b + 1, r, h, h' => by
    unfold rootFrom
    split
    · next g => exact rootFrom_spec n b _ g (by rw [Nat.add_assoc, ← Nat.two_mul, ← Nat.pow_succ']; exact h')
    · next g => exact rootFrom_spec n b _ h (by omega)

theorem root_spec (n : Nat) : root n * root n ≤ n ∧ n < (root n + 1) * (root n + 1) := by
  unfold root
  refine rootFrom_spec n _ 0 (by simp) ?_
  rw [Nat.zero_add, ← Nat.pow_add]
  exact Nat.lt_of_lt_of_le Nat.lt_log2_self (Nat.pow_le_pow_right (by decide) (by omega))

end Sys2Proof.Machine
end

