-- ==== Sys2Proof/Laws/Words.lean ====
section
/-! SUPPORT. The fields of an encoded word, format by format, and what decoding an instruction of one word comes to. -/

namespace Sys2Proof

/-! ## Bytes and words -/

theorem wordAt_wordBytes {w : Nat} (h : w < 2 ^ 32) (rest : List Byte) : wordAt (wordBytes w ++ rest) = some (w, rest) := by
  simp only [wordAt, wordBytes, List.cons_append, List.nil_append, BitVec.toNat_ofNat, Option.some.injEq, Prod.mk.injEq, and_true]
  omega

theorem wordBytes_wordAt {bs rest : List Byte} {w : Nat} (h : wordAt bs = some (w, rest)) : w < 2 ^ 32 ∧ bs = wordBytes w ++ rest := by
  unfold wordAt at h
  split at h
  · rename_i b0 b1 b2 b3 r
    simp only [Option.some.injEq, Prod.mk.injEq] at h
    obtain ⟨h, rfl⟩ := h
    have h0 := b0.isLt; have h1 := b1.isLt; have h2 := b2.isLt; have h3 := b3.isLt
    refine ⟨by omega, ?_⟩
    simp only [wordBytes, List.cons_append, List.nil_append, List.cons.injEq, and_true]
    refine ⟨?_, ?_, ?_, ?_⟩ <;> apply BitVec.eq_of_toNat_eq <;> rw [BitVec.toNat_ofNat] <;> omega
  · simp at h

/-! ## Fields -/

theorem encR_fields (op d a b x : Nat)
    (ho : op < 256) (hd : d < 128) (ha : a < 128) (hb : b < 128) (hx : x < 8) :
    encR op d a b x < 4294967296 ∧ field (encR op d a b x) 31 24 = op ∧ field (encR op d a b x) 23 17 = d ∧
    field (encR op d a b x) 16 10 = a ∧ field (encR op d a b x) 9 3 = b ∧ field (encR op d a b x) 2 1 = x / 2 ∧
    field (encR op d a b x) 2 0 = x ∧ field (encR op d a b x) 9 0 = b * 8 + x ∧
    field (encR op d a b x) 16 0 = a * 1024 + b * 8 + x ∧
    field (encR op d a b x) 23 0 = d * 131072 + a * 1024 + b * 8 + x ∧ field (encR op d a b x) 23 20 = d / 8 ∧
    field (encR op d a b x) 19 17 = d % 8 ∧ field (encR op d a b x) 18 17 = d % 4 ∧
    bitAt (encR op d a b x) 0 = (x % 2 == 1) ∧ bitAt (encR op d a b x) 1 = (x / 2 % 2 == 1) ∧
    bitAt (encR op d a b x) 2 = (x / 4 == 1) ∧ bitAt (encR op d a b x) 19 = (d / 4 % 2 == 1) := by
  refine ⟨?_, ?_, ?_, ?_, ?_, ?_, ?_, ?_, ?_, ?_, ?_, ?_, ?_, ?_, ?_, ?_, ?_⟩
  case refine_14 => rw [bitAt, Nat.shiftRight_eq_div_pow, show encR op d a b x / 2 ^ 0 % 2 = x % 2 by unfold encR; omega]
  case refine_15 => rw [bitAt, Nat.shiftRight_eq_div_pow, show encR op d a b x / 2 ^ 1 % 2 = x / 2 % 2 by unfold encR; omega]
  case refine_16 => rw [bitAt, Nat.shiftRight_eq_div_pow, show encR op d a b x / 2 ^ 2 % 2 = x / 4 by unfold encR; omega]
  case refine_17 => rw [bitAt, Nat.shiftRight_eq_div_pow, show encR op d a b x / 2 ^ 19 % 2 = d / 4 % 2 by unfold encR; omega]
  all_goals
    simp only [field, encR, Nat.shiftRight_eq_div_pow]
    omega

theorem encI_fields (op d a imm : Nat)
    (ho : op < 256) (hd : d < 128) (ha : a < 128) (hi : imm < 1024) :
    encI op d a imm < 4294967296 ∧ field (encI op d a imm) 31 24 = op ∧ field (encI op d a imm) 23 17 = d ∧
    field (encI op d a imm) 16 10 = a ∧ field (encI op d a imm) 9 0 = imm ∧ field (encI op d a imm) 9 8 = imm / 256 ∧
    field (encI op d a imm) 7 0 = imm % 256 ∧ field (encI op d a imm) 9 6 = imm / 64 ∧
    field (encI op d a imm) 5 0 = imm % 64 ∧ field (encI op d a imm) 5 2 = imm / 4 % 16 ∧
    field (encI op d a imm) 4 0 = imm % 32 ∧ field (encI op d a imm) 4 3 = imm / 8 % 4 ∧
    field (encI op d a imm) 2 0 = imm % 8 ∧ field (encI op d a imm) 8 4 = imm / 16 % 32 ∧
    field (encI op d a imm) 3 0 = imm % 16 ∧ field (encI op d a imm) 23 4 = d * 8192 + a * 64 + imm / 16 ∧
    field (encI op d a imm) 23 5 = d * 4096 + a * 32 + imm / 32 ∧ field (encI op d a imm) 23 20 = d / 8 ∧
    field (encI op d a imm) 19 17 = d % 8 ∧ field (encI op d a imm) 18 17 = d % 4 ∧
    bitAt (encI op d a imm) 0 = (imm % 2 == 1) ∧ bitAt (encI op d a imm) 1 = (imm / 2 % 2 == 1) ∧
    bitAt (encI op d a imm) 5 = (imm / 32 % 2 == 1) ∧ bitAt (encI op d a imm) 9 = (imm / 512 == 1) ∧
    bitAt (encI op d a imm) 19 = (d / 4 % 2 == 1) ∧ BitVec.ofNat 10 (encI op d a imm) = BitVec.ofNat 10 imm := by
  refine ⟨?_, ?_, ?_, ?_, ?_, ?_, ?_, ?_, ?_, ?_, ?_, ?_, ?_, ?_, ?_, ?_, ?_, ?_, ?_, ?_, ?_, ?_, ?_, ?_, ?_, ?_⟩
  case refine_21 => rw [bitAt, Nat.shiftRight_eq_div_pow, show encI op d a imm / 2 ^ 0 % 2 = imm % 2 by unfold encI; omega]
  case refine_22 => rw [bitAt, Nat.shiftRight_eq_div_pow, show encI op d a imm / 2 ^ 1 % 2 = imm / 2 % 2 by unfold encI; omega]
  case refine_23 => rw [bitAt, Nat.shiftRight_eq_div_pow, show encI op d a imm / 2 ^ 5 % 2 = imm / 32 % 2 by unfold encI; omega]
  case refine_24 => rw [bitAt, Nat.shiftRight_eq_div_pow, show encI op d a imm / 2 ^ 9 % 2 = imm / 512 by unfold encI; omega]
  case refine_25 => rw [bitAt, Nat.shiftRight_eq_div_pow, show encI op d a imm / 2 ^ 19 % 2 = d / 4 % 2 by unfold encI; omega]
  case refine_26 => apply BitVec.eq_of_toNat_eq; simp only [BitVec.toNat_ofNat, encI]; omega
  all_goals
    simp only [field, encI, Nat.shiftRight_eq_div_pow]
    omega

theorem encL_fields (op d imm : Nat)
    (ho : op < 256) (hd : d < 128) (hi : imm < 131072) :
    encL op d imm < 4294967296 ∧ field (encL op d imm) 31 24 = op ∧ field (encL op d imm) 23 17 = d ∧
    field (encL op d imm) 16 0 = imm ∧ field (encL op d imm) 16 12 = imm / 4096 ∧
    field (encL op d imm) 11 0 = imm % 4096 ∧ field (encL op d imm) 23 0 = d * 131072 + imm ∧
    field (encL op d imm) 23 16 = d * 2 + imm / 65536 ∧ field (encL op d imm) 15 0 = imm % 65536 ∧
    BitVec.ofNat 17 (encL op d imm) = BitVec.ofNat 17 imm := by
  refine ⟨?_, ?_, ?_, ?_, ?_, ?_, ?_, ?_, ?_, ?_⟩
  case refine_10 => apply BitVec.eq_of_toNat_eq; simp only [BitVec.toNat_ofNat, encL]; omega
  all_goals
    simp only [field, encL, Nat.shiftRight_eq_div_pow]
    omega

theorem encJ_fields (op p n imm : Nat)
    (ho : op < 256) (hp : p < 8) (hn : n < 2) (hi : imm < 131072) :
    encJ op p n imm < 4294967296 ∧ field (encJ op p n imm) 31 24 = op ∧ field (encJ op p n imm) 23 21 = p ∧
    field (encJ op p n imm) 19 17 = 0 ∧ field (encJ op p n imm) 20 17 = n * 8 ∧
    field (encJ op p n imm) 23 17 = p * 16 + n * 8 ∧ bitAt (encJ op p n imm) 20 = (n == 1) ∧
    BitVec.ofNat 17 (encJ op p n imm) = BitVec.ofNat 17 imm := by
  refine ⟨?_, ?_, ?_, ?_, ?_, ?_, ?_, ?_⟩
  case refine_7 => rw [bitAt, Nat.shiftRight_eq_div_pow, show encJ op p n imm / 2 ^ 20 % 2 = n by unfold encJ; omega]
  case refine_8 => apply BitVec.eq_of_toNat_eq; simp only [BitVec.toNat_ofNat, encJ]; omega
  all_goals
    simp only [field, encJ, Nat.shiftRight_eq_div_pow]
    omega

theorem encM_fields (op d a bp w e : Nat)
    (ho : op < 256) (hd : d < 128) (ha : a < 128) (hb : bp < 8) (hw : w < 8) (he : e < 2) :
    encM op d a bp w e < 4294967296 ∧ field (encM op d a bp w e) 31 24 = op ∧ field (encM op d a bp w e) 23 17 = d ∧
    field (encM op d a bp w e) 16 10 = a ∧ field (encM op d a bp w e) 9 7 = bp ∧ field (encM op d a bp w e) 6 4 = w ∧
    field (encM op d a bp w e) 3 0 = e * 8 ∧ field (encM op d a bp w e) 2 0 = 0 ∧
    bitAt (encM op d a bp w e) 3 = (e == 1) := by
  refine ⟨?_, ?_, ?_, ?_, ?_, ?_, ?_, ?_, ?_⟩
  case refine_9 => rw [bitAt, Nat.shiftRight_eq_div_pow, show encM op d a bp w e / 2 ^ 3 % 2 = e by unfold encM; omega]
  all_goals
    simp only [field, encM, Nat.shiftRight_eq_div_pow]
    omega

theorem encT_fields (op t ta tb v x : Nat)
    (ho : op < 256) (ht : t < 16) (ha : ta < 16) (hb : tb < 16) (hv : v < 128) (hx : x < 32) :
    encT op t ta tb v x < 4294967296 ∧ field (encT op t ta tb v x) 31 24 = op ∧ field (encT op t ta tb v x) 23 20 = t ∧
    field (encT op t ta tb v x) 19 16 = ta ∧ field (encT op t ta tb v x) 15 12 = tb ∧
    field (encT op t ta tb v x) 11 5 = v ∧ field (encT op t ta tb v x) 4 1 = x / 2 ∧
    field (encT op t ta tb v x) 4 2 = x / 4 ∧ field (encT op t ta tb v x) 3 0 = x % 16 ∧
    field (encT op t ta tb v x) 19 1 = ta * 32768 + tb * 2048 + v * 16 + x / 2 ∧
    field (encT op t ta tb v x) 15 0 = tb * 4096 + v * 32 + x ∧
    field (encT op t ta tb v x) 15 2 = tb * 1024 + v * 8 + x / 4 ∧ bitAt (encT op t ta tb v x) 0 = (x % 2 == 1) ∧
    bitAt (encT op t ta tb v x) 1 = (x / 2 % 2 == 1) ∧ bitAt (encT op t ta tb v x) 4 = (x / 16 == 1) := by
  refine ⟨?_, ?_, ?_, ?_, ?_, ?_, ?_, ?_, ?_, ?_, ?_, ?_, ?_, ?_, ?_⟩
  case refine_13 => rw [bitAt, Nat.shiftRight_eq_div_pow, show encT op t ta tb v x / 2 ^ 0 % 2 = x % 2 by unfold encT; omega]
  case refine_14 => rw [bitAt, Nat.shiftRight_eq_div_pow, show encT op t ta tb v x / 2 ^ 1 % 2 = x / 2 % 2 by unfold encT; omega]
  case refine_15 => rw [bitAt, Nat.shiftRight_eq_div_pow, show encT op t ta tb v x / 2 ^ 4 % 2 = x / 16 by unfold encT; omega]
  all_goals
    simp only [field, encT, Nat.shiftRight_eq_div_pow]
    omega

theorem encQ_fields (op md ma mb v x : Nat)
    (ho : op < 256) (hd : md < 8) (ha : ma < 8) (hb : mb < 8) (hv : v < 128) (hx : x < 256) :
    encQ op md ma mb v x < 4294967296 ∧ field (encQ op md ma mb v x) 31 24 = op ∧
    field (encQ op md ma mb v x) 23 21 = md ∧ field (encQ op md ma mb v x) 20 18 = ma ∧
    field (encQ op md ma mb v x) 17 15 = mb ∧ field (encQ op md ma mb v x) 14 8 = v ∧
    field (encQ op md ma mb v x) 7 5 = x / 32 ∧ field (encQ op md ma mb v x) 4 2 = x / 4 % 8 ∧
    field (encQ op md ma mb v x) 1 0 = x % 4 ∧ field (encQ op md ma mb v x) 7 0 = x ∧
    field (encQ op md ma mb v x) 7 1 = x / 2 ∧ field (encQ op md ma mb v x) 7 2 = x / 4 ∧
    field (encQ op md ma mb v x) 7 6 = x / 64 ∧ field (encQ op md ma mb v x) 5 3 = x / 8 % 8 ∧
    field (encQ op md ma mb v x) 2 0 = x % 8 ∧ field (encQ op md ma mb v x) 14 0 = v * 256 + x ∧
    field (encQ op md ma mb v x) 20 8 = ma * 1024 + mb * 128 + v ∧
    field (encQ op md ma mb v x) 17 0 = mb * 32768 + v * 256 + x ∧
    field (encQ op md ma mb v x) 17 1 = mb * 16384 + v * 128 + x / 2 ∧ field (encQ op md ma mb v x) 20 15 = ma * 8 + mb ∧
    field (encQ op md ma mb v x) 23 15 = md * 64 + ma * 8 + mb ∧ bitAt (encQ op md ma mb v x) 0 = (x % 2 == 1) := by
  refine ⟨?_, ?_, ?_, ?_, ?_, ?_, ?_, ?_, ?_, ?_, ?_, ?_, ?_, ?_, ?_, ?_, ?_, ?_, ?_, ?_, ?_, ?_⟩
  case refine_22 => rw [bitAt, Nat.shiftRight_eq_div_pow, show encQ op md ma mb v x / 2 ^ 0 % 2 = x % 2 by unfold encQ; omega]
  all_goals
    simp only [field, encQ, Nat.shiftRight_eq_div_pow]
    omega

/-! ## Codes -/

theorem ICond.code_lt (x : ICond) : x.code < 10 := by cases x <;> decide
theorem icondOf_code (x : ICond) : icondOf x.code = some x := by cases x <;> rfl
theorem FCond.code_lt (x : FCond) : x.code < 8 := by cases x <;> decide
theorem fcondOf_code (x : FCond) : fcondOf x.code = some x := by cases x <;> rfl
theorem Path.code_lt (x : Path) : x.code < 4 := by cases x <;> decide
theorem pathOf_code (x : Path) : pathOf x.code = some x := by cases x <;> rfl
theorem MaskOp.code_lt (x : MaskOp) : x.code < 3 := by cases x <;> decide
theorem maskOpOf_code (x : MaskOp) : maskOpOf x.code = some x := by cases x <;> rfl
theorem FenceKind.code_lt (x : FenceKind) : x.code < 4 := by cases x <;> decide
theorem fenceOf_code (x : FenceKind) : fenceOf x.code = some x := by cases x <;> rfl
theorem Scope.code_lt (x : Scope) : x.code < 6 := by cases x <;> decide
theorem scopeOf_code (x : Scope) : scopeOf x.code = some x := by cases x <;> rfl
theorem CvtKind.code_lt (x : CvtKind) : x.code < 13 := by cases x <;> decide
theorem cvtKindOf_code (x : CvtKind) : cvtKindOf x.code = some x := by cases x <;> rfl
theorem RqKind.code_lt (x : RqKind) : x.code < 3 := by cases x <;> decide
theorem rqOf_code (x : RqKind) : rqOf x.code = some x := by cases x <;> rfl
theorem ScanOp.code_lt (x : ScanOp) : x.code < 11 := by cases x <;> decide
theorem scanOpOf_code (x : ScanOp) : scanOpOf x.code = some x := by cases x <;> rfl
theorem VoteMode.code_lt (x : VoteMode) : x.code < 3 := by cases x <;> decide
theorem voteOf_code (x : VoteMode) : voteOf x.code = some x := by cases x <;> rfl
theorem QtryOp.code_lt (x : QtryOp) : x.code < 3 := by cases x <;> decide
theorem qtryOf_code (x : QtryOp) : qtryOf x.code = some x := by cases x <;> rfl
theorem BindMode.code_lt (x : BindMode) : x.code < 3 := by cases x <;> decide
theorem bindOf_code (x : BindMode) : bindOf x.code = some x := by cases x <;> rfl
theorem FmovOp.code_lt (x : FmovOp) : x.code < 4 := by cases x <;> decide
theorem fmovOf_code (x : FmovOp) : fmovOf x.code = x := by cases x <;> rfl
theorem ShflMode.code_lt (x : ShflMode) : x.code < 4 := by cases x <;> decide
theorem shflModeOf_code (x : ShflMode) : shflModeOf x.code = x := by cases x <;> rfl
theorem SolveMode.code_lt (x : SolveMode) : x.code < 4 := by cases x <;> decide
theorem solveOf_code (x : SolveMode) : solveOf x.code = x := by cases x <;> rfl
theorem MemOrder.code_lt (x : MemOrder) : x.code < 4 := by cases x <;> decide
theorem orderOf_code (x : MemOrder) : orderOf x.code = x := by cases x <;> rfl
theorem AtomOp.code_lt (x : AtomOp) : x.code < 13 := by cases x <;> decide
theorem atomOpOf_code (x : AtomOp) : atomOpOf x.code = some x := by cases x <;> rfl

/-! ## Decoding -/

/-- The opcodes whose instructions may have two words (R24). -/
def twoWordOpcode (op : Nat) : Bool := op == 0x4B || op == 0x63 || (0xA0 ≤ op && op ≤ 0xA5) || (0xA8 ≤ op && op ≤ 0xAA)

theorem twoWord_none {w : Nat} (h : twoWordOpcode (field w 31 24) = false ∨ (field w 31 24 ≠ 0x4B ∧ field w 31 24 ≠ 0x63 ∧ bitAt w 3 = false)) :
    twoWord w = none := by
  unfold twoWord
  rcases h with h | ⟨h1, h2, h3⟩
  · simp only [twoWordOpcode, Bool.or_eq_false_iff, beq_eq_false_iff_ne] at h
    obtain ⟨⟨⟨h1, h2⟩, h3⟩, h4⟩ := h
    simp [h1, h2, h3, h4]
  · simp [h1, h2, h3]

/-- A first word whose opcode's row gives `i`, a well-formed instruction, is `i`. -/
theorem firstWord_one {op w : Nat} {i : Instr} (ho : field w 31 24 = op) (hop : isOpcode op = true) (ht : twoWord w = none)
    (hc : candidateAt op w = some i) (hw : i.wf = true) : firstWord w = .one i := by
  unfold firstWord candidate
  rw [ho, hop, ht, hc]
  simp [hw]

theorem decode_one {w : Nat} {i : Instr} (h : firstWord w = .one i) (hw : w < 2 ^ 32) (rest : List Byte) :
    decode (wordBytes w ++ rest) = .ok i rest := by
  unfold decode
  rw [wordAt_wordBytes hw]
  simp only [h]

theorem decode_two {w0 w1 : Nat} {k : TwoWord} {i : Instr} (h0 : firstWord w0 = .two k) (h1 : secondWord k w1 = some i)
    (hw0 : w0 < 2 ^ 32) (hw1 : w1 < 2 ^ 32) (rest : List Byte) : decode (wordBytes w0 ++ wordBytes w1 ++ rest) = .ok i rest := by
  unfold decode
  rw [List.append_assoc, wordAt_wordBytes hw0]
  simp only [h0, wordAt_wordBytes hw1, h1]

end Sys2Proof
end

