-- ==== Sys2Proof/Laws/PerInstr.lean ====
section
/-! SUPPORT. Decoding undoes encoding, instruction by instruction. -/

namespace Sys2Proof.Laws

/-- The words of a well-formed instruction, followed by anything, decode to it. -/
def Roundtrip.Statement (i : Instr) : Prop := i.wf = true → i.isWord = true → ∀ rest, decode (encodeBytes i ++ rest) = .ok i rest

theorem Roundtrip.ofWord {i : Instr} (op w : Nat) (he : encode i = [w]) (hwf : i.wf = true) (hop : isOpcode op = true)
    (h : candidateAt op w = some i ∧ w < 4294967296 ∧ field w 31 24 = op ∧
      (twoWordOpcode op = false ∨ (op ≠ 0x4B ∧ op ≠ 0x63 ∧ bitAt w 3 = false))) (rest : List Byte) : decode (encodeBytes i ++ rest) = .ok i rest := by
  obtain ⟨h4, h1, h2, h3⟩ := h
  have e : encodeBytes i = wordBytes w := by unfold encodeBytes; rw [he]; simp
  rw [e]
  exact decode_one (firstWord_one h2 hop (twoWord_none (by rw [h2]; exact h3)) h4 hwf) h1 rest

/-! ## Ranges that the register checks give -/

theorem Roundtrip.lt_of_runV {d w : Nat} (h : runV d (runLen w) = true) : d < 128 := by
  have : 1 ≤ runLen w := by unfold runLen; split <;> (try split) <;> omega
  simp [runV] at h
  omega

theorem Roundtrip.lt_of_runS {d w : Nat} (h : runS d (runLen w) = true) : d < 64 := by
  have : 1 ≤ runLen w := by unfold runLen; split <;> (try split) <;> omega
  simp [runS] at h
  omega

theorem Roundtrip.lt_of_qPush {q : Nat} (h : qPush q = true) : q < 16 := by
  simp [qPush, isBq] at h
  omega

theorem Roundtrip.lt_of_qPop {q : Nat} (h : qPop q = true) : q < 16 := by
  simp [qPop, isBq] at h
  omega

theorem Roundtrip.lt_of_qRun {q a : Nat} (h : qRun q a = true) : a < 64 := by
  simp only [qRun, runS, isS] at h
  split at h <;> simp at h <;> omega

theorem Roundtrip.lt_of_qtryOk {o : QtryOp} {a q : Nat} (h : qtryOk o a q = true) : a < 64 ∧ q < 16 := by
  cases o <;> simp only [qtryOk, Bool.and_eq_true] at h
  · exact ⟨lt_of_qRun h.2, lt_of_qPop h.1⟩
  · exact ⟨lt_of_qRun h.2, lt_of_qPush h.1⟩
  · simp [isBq, runS] at h
    omega

/-! ## One lemma per instruction -/

theorem Roundtrip.nop : Statement .nop := by
  intro h _
  refine ofWord 0x01 _ rfl h rfl ⟨?_, ?_, ?_, .inl rfl⟩
  rw [show ∀ w, candidateAt 0x01 w = (zeros (field w 23 0) .nop) from fun _ => rfl]
  all_goals simp (disch := omega) [encL_fields, zeros]

theorem Roundtrip.ifP (p : Nat) (n : Bool) (off : BitVec 17) : Statement (.ifP p n off) := by
  intro h _
  have g : (isP p) = true := h
  have := off.isLt
  cases n <;>
    (simp [isP] at g;
     refine ofWord 0x02 _ rfl h rfl ⟨?_, ?_, ?_, .inl rfl⟩;
     rw [show ∀ w, candidateAt 0x02 w = (zeros (field w 19 17) (.ifP (field w 23 21) (bitAt w 20) (BitVec.ofNat 17 w))) from fun _ => rfl];
     all_goals simp (disch := omega) [encJ_fields, zeros, bit])

theorem Roundtrip.elseP (off : BitVec 17) : Statement (.elseP off) := by
  intro h _
  have := off.isLt
  refine ofWord 0x03 _ rfl h rfl ⟨?_, ?_, ?_, .inl rfl⟩
  rw [show ∀ w, candidateAt 0x03 w = (zeros (field w 23 17) (.elseP (BitVec.ofNat 17 w))) from fun _ => rfl]
  all_goals simp (disch := omega) [encJ_fields, zeros]

theorem Roundtrip.endif : Statement .endif := by
  intro h _
  refine ofWord 0x04 _ rfl h rfl ⟨?_, ?_, ?_, .inl rfl⟩
  rw [show ∀ w, candidateAt 0x04 w = (zeros (field w 23 0) .endif) from fun _ => rfl]
  all_goals simp (disch := omega) [encR_fields, zeros]

theorem Roundtrip.loop : Statement .loop := by
  intro h _
  refine ofWord 0x05 _ rfl h rfl ⟨?_, ?_, ?_, .inl rfl⟩
  rw [show ∀ w, candidateAt 0x05 w = (zeros (field w 23 0) .loop) from fun _ => rfl]
  all_goals simp (disch := omega) [encR_fields, zeros]

theorem Roundtrip.brk (p : Nat) (n : Bool) (off : BitVec 17) : Statement (.brk p n off) := by
  intro h _
  have g : (isP p) = true := h
  have := off.isLt
  cases n <;>
    (simp [isP] at g;
     refine ofWord 0x06 _ rfl h rfl ⟨?_, ?_, ?_, .inl rfl⟩;
     rw [show ∀ w, candidateAt 0x06 w = (zeros (field w 19 17) (.brk (field w 23 21) (bitAt w 20) (BitVec.ofNat 17 w))) from fun _ => rfl];
     all_goals simp (disch := omega) [encJ_fields, zeros, bit])

theorem Roundtrip.cont (p : Nat) (n : Bool) (off : BitVec 17) : Statement (.cont p n off) := by
  intro h _
  have g : (isP p) = true := h
  have := off.isLt
  cases n <;>
    (simp [isP] at g;
     refine ofWord 0x07 _ rfl h rfl ⟨?_, ?_, ?_, .inl rfl⟩;
     rw [show ∀ w, candidateAt 0x07 w = (zeros (field w 19 17) (.cont (field w 23 21) (bitAt w 20) (BitVec.ofNat 17 w))) from fun _ => rfl];
     all_goals simp (disch := omega) [encJ_fields, zeros, bit])

theorem Roundtrip.endloop (off : BitVec 17) : Statement (.endloop off) := by
  intro h _
  have := off.isLt
  refine ofWord 0x08 _ rfl h rfl ⟨?_, ?_, ?_, .inl rfl⟩
  rw [show ∀ w, candidateAt 0x08 w = (zeros (field w 23 17) (.endloop (BitVec.ofNat 17 w))) from fun _ => rfl]
  all_goals simp (disch := omega) [encJ_fields, zeros]

theorem Roundtrip.jmp (off : BitVec 17) : Statement (.jmp off) := by
  intro h _
  have := off.isLt
  refine ofWord 0x0A _ rfl h rfl ⟨?_, ?_, ?_, .inl rfl⟩
  rw [show ∀ w, candidateAt 0x0A w = (if (field w 23 21) = 7 then zeros (field w 20 17) (.jmp (BitVec.ofNat 17 w)) else none) from fun _ => rfl]
  all_goals simp (disch := omega) [encJ_fields, zeros]

theorem Roundtrip.ret (a : Nat) : Statement (.ret a) := by
  intro h _
  have g : (isPair a) = true := h
  simp [isPair] at g
  refine ofWord 0x0C _ rfl h rfl ⟨?_, ?_, ?_, .inl rfl⟩
  rw [show ∀ w, candidateAt 0x0C w = (zeros ((field w 23 17) + field w 9 0) (.ret (field w 16 10))) from fun _ => rfl]
  all_goals simp (disch := omega) [encR_fields, zeros]

theorem Roundtrip.hloop (a : Nat) (len : Nat) : Statement (.hloop a len) := by
  intro h _
  have g : (isS a && 1 ≤ len && len ≤ 256) = true := h
  simp [isS] at g
  refine ofWord 0x0D _ rfl h rfl ⟨?_, ?_, ?_, .inl rfl⟩
  rw [show ∀ w, candidateAt 0x0D w = (zeros ((field w 23 17) + field w 9 8) (.hloop (field w 16 10) (field w 7 0 + 1))) from fun _ => rfl]
  all_goals simp (disch := omega) [encI_fields, zeros] <;> omega

theorem Roundtrip.exit : Statement .exit := by
  intro h _
  refine ofWord 0x0E _ rfl h rfl ⟨?_, ?_, ?_, .inl rfl⟩
  rw [show ∀ w, candidateAt 0x0E w = (zeros (field w 23 0) .exit) from fun _ => rfl]
  all_goals simp (disch := omega) [encR_fields, zeros]

theorem Roundtrip.waitp (a : Nat) (q : Path) : Statement (.waitp a q) := by
  intro h _
  have g : (isS a) = true := h
  have := q.code_lt
  simp [isS] at g
  refine ofWord 0x10 _ rfl h rfl ⟨?_, ?_, ?_, .inl rfl⟩
  rw [show ∀ w, candidateAt 0x10 w = ((pathOf (field w 9 0)).bind fun q => zeros (field w 23 17) (.waitp (field w 16 10) q)) from fun _ => rfl]
  all_goals simp (disch := omega) [encI_fields, zeros, pathOf_code]

theorem Roundtrip.yield : Statement .yield := by
  intro h _
  refine ofWord 0x11 _ rfl h rfl ⟨?_, ?_, ?_, .inl rfl⟩
  rw [show ∀ w, candidateAt 0x11 w = (zeros (field w 23 0) .yield) from fun _ => rfl]
  all_goals simp (disch := omega) [encR_fields, zeros]

theorem Roundtrip.sysc (d : Nat) (fn : Nat) : Statement (.sysc d fn) := by
  intro h _
  have g : (runS d 8 && fn < 4096) = true := h
  simp [runS] at g
  refine ofWord 0x12 _ rfl h rfl ⟨?_, ?_, ?_, .inl rfl⟩
  rw [show ∀ w, candidateAt 0x12 w = (zeros (field w 16 12) (.sysc (field w 23 17) (field w 11 0))) from fun _ => rfl]
  all_goals simp (disch := omega) [encL_fields, zeros] <;> omega

theorem Roundtrip.trap (code : Nat) : Statement (.trap code) := by
  intro h _
  have g : decide (code < 65536) = true := h
  simp [] at g
  refine ofWord 0x13 _ rfl h rfl ⟨?_, ?_, ?_, .inl rfl⟩
  rw [show ∀ w, candidateAt 0x13 w = (zeros (field w 23 16) (.trap (field w 15 0))) from fun _ => rfl]
  all_goals simp (disch := omega) [encL_fields, zeros] <;> omega

theorem Roundtrip.uret : Statement .uret := by
  intro h _
  refine ofWord 0x14 _ rfl h rfl ⟨?_, ?_, ?_, .inl rfl⟩
  rw [show ∀ w, candidateAt 0x14 w = (zeros (field w 23 0) .uret) from fun _ => rfl]
  all_goals simp (disch := omega) [encR_fields, zeros]

theorem Roundtrip.uimask (d : Nat) (o : MaskOp) (bits : Nat) : Statement (.uimask d o bits) := by
  intro h _
  have g : (isS d && bits < 128) = true := h
  have := o.code_lt
  simp [isS] at g
  refine ofWord 0x15 _ rfl h rfl ⟨?_, ?_, ?_, .inl rfl⟩
  rw [show ∀ w, candidateAt 0x15 w = ((maskOpOf (field w 9 8)).bind fun o => zeros (field w 16 10) (.uimask (field w 23 17) o (field w 7 0))) from fun _ => rfl]
  all_goals simp (disch := omega) [encI_fields, zeros, maskOpOf_code, show (o.code * 256 + bits) / 256 = o.code by omega] <;> omega

theorem Roundtrip.csrr (d : Nat) (csr : Nat) : Statement (.csrr d csr) := by
  intro h _
  have g : (isS d && csr < 4096) = true := h
  simp [isS] at g
  refine ofWord 0x16 _ rfl h rfl ⟨?_, ?_, ?_, .inl rfl⟩
  rw [show ∀ w, candidateAt 0x16 w = (zeros (field w 16 12) (.csrr (field w 23 17) (field w 11 0))) from fun _ => rfl]
  all_goals simp (disch := omega) [encL_fields, zeros] <;> omega

theorem Roundtrip.csrw (d : Nat) (csr : Nat) : Statement (.csrw d csr) := by
  intro h _
  have g : (isS d && csr < 4096) = true := h
  simp [isS] at g
  refine ofWord 0x17 _ rfl h rfl ⟨?_, ?_, ?_, .inl rfl⟩
  rw [show ∀ w, candidateAt 0x17 w = (zeros (field w 16 12) (.csrw (field w 23 17) (field w 11 0))) from fun _ => rfl]
  all_goals simp (disch := omega) [encL_fields, zeros] <;> omega

theorem Roundtrip.fence (k : FenceKind) (sc : Scope) : Statement (.fence k sc) := by
  intro h _
  have := k.code_lt
  have := sc.code_lt
  refine ofWord 0x18 _ rfl h rfl ⟨?_, ?_, ?_, .inl rfl⟩
  rw [show ∀ w, candidateAt 0x18 w = ((fenceOf (field w 4 3)).bind fun k => (scopeOf (field w 2 0)).bind fun sc => zeros (field w 23 5) (.fence k sc)) from fun _ => rfl]
  all_goals simp (disch := omega) [encI_fields, zeros, fenceOf_code, scopeOf_code, show (k.code * 8 + sc.code) / 8 % 4 = k.code by omega, show sc.code % 8 = sc.code by omega, show k.code * 8 + sc.code < 32 by omega]

theorem Roundtrip.promote (d : Nat) (a : Nat) (bp : Nat) (wide : Bool) : Statement (.promote d a bp wide) := by
  intro h _
  have g : ((if wide then isPair d else isS d) && isS a && isBp bp) = true := h
  cases wide <;>
    (simp [isS, isPair, isBp] at g;
     refine ofWord 0x19 _ rfl h rfl ⟨?_, ?_, ?_, .inl rfl⟩;
     rw [show ∀ w, candidateAt 0x19 w = (match field w 6 4 with | 2 => zeros (field w 3 0) (.promote (field w 23 17) (field w 16 10) (field w 9 7) false) | 3 => zeros (field w 3 0) (.promote (field w 23 17) (field w 16 10) (field w 9 7) true) | _ => none) from fun _ => rfl];
     all_goals simp (disch := omega) [encM_fields, zeros, bit])

theorem Roundtrip.rdclk (d : Nat) : Statement (.rdclk d) := by
  intro h _
  have g : (isPair d) = true := h
  simp [isPair] at g
  refine ofWord 0x1A _ rfl h rfl ⟨?_, ?_, ?_, .inl rfl⟩
  rw [show ∀ w, candidateAt 0x1A w = (zeros (field w 16 0) (.rdclk (field w 23 17))) from fun _ => rfl]
  all_goals simp (disch := omega) [encR_fields, zeros]

theorem Roundtrip.spawn (node : Bool) (d : Nat) (a : Nat) (b : Nat) : Statement (.spawn node d a b) := by
  intro h _
  have g : (if node then d == 0 && isV a && isS b else isBq d && isV a && b == 0) = true := h
  cases node <;>
    (simp [isV, isS, isBq] at g;
     refine ofWord 0x1B _ rfl h rfl ⟨?_, ?_, ?_, .inl rfl⟩;
     rw [show ∀ w, candidateAt 0x1B w = (zeros (bit (bitAt w 2) + bit (bitAt w 0)) (.spawn (bitAt w 1) (field w 23 17) (field w 16 10) (field w 9 3))) from fun _ => rfl];
     all_goals simp (disch := omega) [encR_fields, zeros, bit])

theorem Roundtrip.iadd (d : Nat) (a : Nat) (b : Src) : Statement (.iadd d a b) := by
  intro h _
  have g : (isV d && isV a && b.wf) = true := h
  rcases b with n | n <;>
    (simp [isV, isS, Src.wf] at g;
     refine ofWord 0x20 (encR 0x20 d a n _) rfl h rfl ⟨?_, ?_, ?_, .inl rfl⟩;
     rw [show ∀ w, candidateAt 0x20 w = (zeros (field w 2 1) (.iadd (field w 23 17) (field w 16 10) (srcOf (field w 9 3) (bitAt w 0)))) from fun _ => rfl];
     all_goals simp (disch := omega) [encR_fields, zeros, bit, srcOf, Src.uni])

theorem Roundtrip.isub (d : Nat) (a : Nat) (b : Src) : Statement (.isub d a b) := by
  intro h _
  have g : (isV d && isV a && b.wf) = true := h
  rcases b with n | n <;>
    (simp [isV, isS, Src.wf] at g;
     refine ofWord 0x21 (encR 0x21 d a n _) rfl h rfl ⟨?_, ?_, ?_, .inl rfl⟩;
     rw [show ∀ w, candidateAt 0x21 w = (zeros (field w 2 1) (.isub (field w 23 17) (field w 16 10) (srcOf (field w 9 3) (bitAt w 0)))) from fun _ => rfl];
     all_goals simp (disch := omega) [encR_fields, zeros, bit, srcOf, Src.uni])

theorem Roundtrip.imul (d : Nat) (a : Nat) (b : Src) : Statement (.imul d a b) := by
  intro h _
  have g : (isV d && isV a && b.wf) = true := h
  rcases b with n | n <;>
    (simp [isV, isS, Src.wf] at g;
     refine ofWord 0x22 (encR 0x22 d a n _) rfl h rfl ⟨?_, ?_, ?_, .inl rfl⟩;
     rw [show ∀ w, candidateAt 0x22 w = (zeros (field w 2 1) (.imul (field w 23 17) (field w 16 10) (srcOf (field w 9 3) (bitAt w 0)))) from fun _ => rfl];
     all_goals simp (disch := omega) [encR_fields, zeros, bit, srcOf, Src.uni])

theorem Roundtrip.imulh (d : Nat) (a : Nat) (b : Src) (u : Bool) : Statement (.imulh d a b u) := by
  intro h _
  have g : (isV d && isV a && b.wf) = true := h
  cases u <;> rcases b with n | n <;>
    (simp [isV, isS, Src.wf] at g;
     refine ofWord 0x23 (encR 0x23 d a n _) rfl h rfl ⟨?_, ?_, ?_, .inl rfl⟩;
     rw [show ∀ w, candidateAt 0x23 w = (zeros (bit (bitAt w 2)) (.imulh (field w 23 17) (field w 16 10) (srcOf (field w 9 3) (bitAt w 0)) (bitAt w 1))) from fun _ => rfl];
     all_goals simp (disch := omega) [encR_fields, zeros, bit, srcOf, Src.uni])

theorem Roundtrip.imad (d : Nat) (a : Nat) (b : Src) : Statement (.imad d a b) := by
  intro h _
  have g : (isV d && isV a && b.wf) = true := h
  rcases b with n | n <;>
    (simp [isV, isS, Src.wf] at g;
     refine ofWord 0x24 (encR 0x24 d a n _) rfl h rfl ⟨?_, ?_, ?_, .inl rfl⟩;
     rw [show ∀ w, candidateAt 0x24 w = (zeros (field w 2 1) (.imad (field w 23 17) (field w 16 10) (srcOf (field w 9 3) (bitAt w 0)))) from fun _ => rfl];
     all_goals simp (disch := omega) [encR_fields, zeros, bit, srcOf, Src.uni])

theorem Roundtrip.imin (d : Nat) (a : Nat) (b : Src) (u : Bool) : Statement (.imin d a b u) := by
  intro h _
  have g : (isV d && isV a && b.wf) = true := h
  cases u <;> rcases b with n | n <;>
    (simp [isV, isS, Src.wf] at g;
     refine ofWord 0x25 (encR 0x25 d a n _) rfl h rfl ⟨?_, ?_, ?_, .inl rfl⟩;
     rw [show ∀ w, candidateAt 0x25 w = (zeros (bit (bitAt w 2)) (.imin (field w 23 17) (field w 16 10) (srcOf (field w 9 3) (bitAt w 0)) (bitAt w 1))) from fun _ => rfl];
     all_goals simp (disch := omega) [encR_fields, zeros, bit, srcOf, Src.uni])

theorem Roundtrip.imax (d : Nat) (a : Nat) (b : Src) (u : Bool) : Statement (.imax d a b u) := by
  intro h _
  have g : (isV d && isV a && b.wf) = true := h
  cases u <;> rcases b with n | n <;>
    (simp [isV, isS, Src.wf] at g;
     refine ofWord 0x26 (encR 0x26 d a n _) rfl h rfl ⟨?_, ?_, ?_, .inl rfl⟩;
     rw [show ∀ w, candidateAt 0x26 w = (zeros (bit (bitAt w 2)) (.imax (field w 23 17) (field w 16 10) (srcOf (field w 9 3) (bitAt w 0)) (bitAt w 1))) from fun _ => rfl];
     all_goals simp (disch := omega) [encR_fields, zeros, bit, srcOf, Src.uni])

theorem Roundtrip.iabs (d : Nat) (a : Nat) : Statement (.iabs d a) := by
  intro h _
  have g : (isV d && isV a) = true := h
  simp [isV] at g
  refine ofWord 0x27 _ rfl h rfl ⟨?_, ?_, ?_, .inl rfl⟩
  rw [show ∀ w, candidateAt 0x27 w = (zeros (field w 9 0) (.iabs (field w 23 17) (field w 16 10))) from fun _ => rfl]
  all_goals simp (disch := omega) [encR_fields, zeros]

theorem Roundtrip.andV (d : Nat) (a : Nat) (b : Src) : Statement (.andV d a b) := by
  intro h _
  have g : (isV d && isV a && b.wf) = true := h
  rcases b with n | n <;>
    (simp [isV, isS, Src.wf] at g;
     refine ofWord 0x28 (encR 0x28 d a n _) rfl h rfl ⟨?_, ?_, ?_, .inl rfl⟩;
     rw [show ∀ w, candidateAt 0x28 w = (zeros (field w 2 1) (.andV (field w 23 17) (field w 16 10) (srcOf (field w 9 3) (bitAt w 0)))) from fun _ => rfl];
     all_goals simp (disch := omega) [encR_fields, zeros, bit, srcOf, Src.uni])

theorem Roundtrip.orV (d : Nat) (a : Nat) (b : Src) : Statement (.orV d a b) := by
  intro h _
  have g : (isV d && isV a && b.wf) = true := h
  rcases b with n | n <;>
    (simp [isV, isS, Src.wf] at g;
     refine ofWord 0x29 (encR 0x29 d a n _) rfl h rfl ⟨?_, ?_, ?_, .inl rfl⟩;
     rw [show ∀ w, candidateAt 0x29 w = (zeros (field w 2 1) (.orV (field w 23 17) (field w 16 10) (srcOf (field w 9 3) (bitAt w 0)))) from fun _ => rfl];
     all_goals simp (disch := omega) [encR_fields, zeros, bit, srcOf, Src.uni])

theorem Roundtrip.xorV (d : Nat) (a : Nat) (b : Src) : Statement (.xorV d a b) := by
  intro h _
  have g : (isV d && isV a && b.wf) = true := h
  rcases b with n | n <;>
    (simp [isV, isS, Src.wf] at g;
     refine ofWord 0x2A (encR 0x2A d a n _) rfl h rfl ⟨?_, ?_, ?_, .inl rfl⟩;
     rw [show ∀ w, candidateAt 0x2A w = (zeros (field w 2 1) (.xorV (field w 23 17) (field w 16 10) (srcOf (field w 9 3) (bitAt w 0)))) from fun _ => rfl];
     all_goals simp (disch := omega) [encR_fields, zeros, bit, srcOf, Src.uni])

theorem Roundtrip.andn (d : Nat) (a : Nat) (b : Src) : Statement (.andn d a b) := by
  intro h _
  have g : (isV d && isV a && b.wf) = true := h
  rcases b with n | n <;>
    (simp [isV, isS, Src.wf] at g;
     refine ofWord 0x2B (encR 0x2B d a n _) rfl h rfl ⟨?_, ?_, ?_, .inl rfl⟩;
     rw [show ∀ w, candidateAt 0x2B w = (zeros (field w 2 1) (.andn (field w 23 17) (field w 16 10) (srcOf (field w 9 3) (bitAt w 0)))) from fun _ => rfl];
     all_goals simp (disch := omega) [encR_fields, zeros, bit, srcOf, Src.uni])

theorem Roundtrip.shl (d : Nat) (a : Nat) (b : Src) : Statement (.shl d a b) := by
  intro h _
  have g : (isV d && isV a && b.wf) = true := h
  rcases b with n | n <;>
    (simp [isV, isS, Src.wf] at g;
     refine ofWord 0x2C (encR 0x2C d a n _) rfl h rfl ⟨?_, ?_, ?_, .inl rfl⟩;
     rw [show ∀ w, candidateAt 0x2C w = (zeros (field w 2 1) (.shl (field w 23 17) (field w 16 10) (srcOf (field w 9 3) (bitAt w 0)))) from fun _ => rfl];
     all_goals simp (disch := omega) [encR_fields, zeros, bit, srcOf, Src.uni])

theorem Roundtrip.shr (d : Nat) (a : Nat) (b : Src) : Statement (.shr d a b) := by
  intro h _
  have g : (isV d && isV a && b.wf) = true := h
  rcases b with n | n <;>
    (simp [isV, isS, Src.wf] at g;
     refine ofWord 0x2D (encR 0x2D d a n _) rfl h rfl ⟨?_, ?_, ?_, .inl rfl⟩;
     rw [show ∀ w, candidateAt 0x2D w = (zeros (field w 2 1) (.shr (field w 23 17) (field w 16 10) (srcOf (field w 9 3) (bitAt w 0)))) from fun _ => rfl];
     all_goals simp (disch := omega) [encR_fields, zeros, bit, srcOf, Src.uni])

theorem Roundtrip.sar (d : Nat) (a : Nat) (b : Src) : Statement (.sar d a b) := by
  intro h _
  have g : (isV d && isV a && b.wf) = true := h
  rcases b with n | n <;>
    (simp [isV, isS, Src.wf] at g;
     refine ofWord 0x2E (encR 0x2E d a n _) rfl h rfl ⟨?_, ?_, ?_, .inl rfl⟩;
     rw [show ∀ w, candidateAt 0x2E w = (zeros (field w 2 1) (.sar (field w 23 17) (field w 16 10) (srcOf (field w 9 3) (bitAt w 0)))) from fun _ => rfl];
     all_goals simp (disch := omega) [encR_fields, zeros, bit, srcOf, Src.uni])

theorem Roundtrip.popc (d : Nat) (a : Nat) : Statement (.popc d a) := by
  intro h _
  have g : (isV d && isV a) = true := h
  simp [isV] at g
  refine ofWord 0x2F _ rfl h rfl ⟨?_, ?_, ?_, .inl rfl⟩
  rw [show ∀ w, candidateAt 0x2F w = (zeros (field w 9 0) (.popc (field w 23 17) (field w 16 10))) from fun _ => rfl]
  all_goals simp (disch := omega) [encR_fields, zeros]

theorem Roundtrip.clz (d : Nat) (a : Nat) : Statement (.clz d a) := by
  intro h _
  have g : (isV d && isV a) = true := h
  simp [isV] at g
  refine ofWord 0x30 _ rfl h rfl ⟨?_, ?_, ?_, .inl rfl⟩
  rw [show ∀ w, candidateAt 0x30 w = (zeros (field w 9 0) (.clz (field w 23 17) (field w 16 10))) from fun _ => rfl]
  all_goals simp (disch := omega) [encR_fields, zeros]

theorem Roundtrip.bfx (d : Nat) (a : Nat) (b : Src) (sx : Bool) : Statement (.bfx d a b sx) := by
  intro h _
  have g : (isV d && isV a && b.wf) = true := h
  cases sx <;> rcases b with n | n <;>
    (simp [isV, isS, Src.wf] at g;
     refine ofWord 0x31 (encR 0x31 d a n _) rfl h rfl ⟨?_, ?_, ?_, .inl rfl⟩;
     rw [show ∀ w, candidateAt 0x31 w = (zeros (bit (bitAt w 2)) (.bfx (field w 23 17) (field w 16 10) (srcOf (field w 9 3) (bitAt w 0)) (bitAt w 1))) from fun _ => rfl];
     all_goals simp (disch := omega) [encR_fields, zeros, bit, srcOf, Src.uni])

theorem Roundtrip.bfi (d : Nat) (a : Nat) (b : Src) : Statement (.bfi d a b) := by
  intro h _
  have g : (isV d && isV a && b.wf) = true := h
  rcases b with n | n <;>
    (simp [isV, isS, Src.wf] at g;
     refine ofWord 0x32 (encR 0x32 d a n _) rfl h rfl ⟨?_, ?_, ?_, .inl rfl⟩;
     rw [show ∀ w, candidateAt 0x32 w = (zeros (field w 2 1) (.bfi (field w 23 17) (field w 16 10) (srcOf (field w 9 3) (bitAt w 0)))) from fun _ => rfl];
     all_goals simp (disch := omega) [encR_fields, zeros, bit, srcOf, Src.uni])

theorem Roundtrip.icmp (c : ICond) (p : Nat) (a : Nat) (b : Src) : Statement (.icmp c p a b) := by
  intro h _
  have g : (isP p && isV a && b.wf) = true := h
  have := c.code_lt
  rcases b with n | n <;>
    (simp [isV, isS, isP, Src.wf] at g;
     refine ofWord 0x33 (encR 0x33 (c.code * 8 + p) a n _) rfl h rfl ⟨?_, ?_, ?_, .inl rfl⟩;
     rw [show ∀ w, candidateAt 0x33 w = ((icondOf (field w 23 20)).bind fun c => zeros (field w 2 1) (.icmp c (field w 19 17) (field w 16 10) (srcOf (field w 9 3) (bitAt w 0)))) from fun _ => rfl];
     all_goals simp (disch := omega) [encR_fields, zeros, bit, srcOf, Src.uni, icondOf_code, show (c.code * 8 + p) / 8 = c.code by omega, show (c.code * 8 + p) % 8 = p by omega])

theorem Roundtrip.sel (d : Nat) (a : Nat) (pb : Nat) (n : Bool) : Statement (.sel d a pb n) := by
  intro h _
  have g : (isV d && isV a && isP pb) = true := h
  cases n <;>
    (simp [isV, isP] at g;
     refine ofWord 0x34 _ rfl h rfl ⟨?_, ?_, ?_, .inl rfl⟩;
     rw [show ∀ w, candidateAt 0x34 w = (zeros (bit (bitAt w 2) + bit (bitAt w 0)) (.sel (field w 23 17) (field w 16 10) (field w 9 3) (bitAt w 1))) from fun _ => rfl];
     all_goals simp (disch := omega) [encR_fields, zeros, bit])

theorem Roundtrip.iaddsat (d : Nat) (a : Nat) (b : Src) (u : Bool) : Statement (.iaddsat d a b u) := by
  intro h _
  have g : (isV d && isV a && b.wf) = true := h
  cases u <;> rcases b with n | n <;>
    (simp [isV, isS, Src.wf] at g;
     refine ofWord 0x35 (encR 0x35 d a n _) rfl h rfl ⟨?_, ?_, ?_, .inl rfl⟩;
     rw [show ∀ w, candidateAt 0x35 w = (zeros (bit (bitAt w 2)) (.iaddsat (field w 23 17) (field w 16 10) (srcOf (field w 9 3) (bitAt w 0)) (bitAt w 1))) from fun _ => rfl];
     all_goals simp (disch := omega) [encR_fields, zeros, bit, srcOf, Src.uni])

theorem Roundtrip.hmix (d : Nat) (a : Nat) (b : Src) : Statement (.hmix d a b) := by
  intro h _
  have g : (isV d && isV a && b.wf) = true := h
  rcases b with n | n <;>
    (simp [isV, isS, Src.wf] at g;
     refine ofWord 0x36 (encR 0x36 d a n _) rfl h rfl ⟨?_, ?_, ?_, .inl rfl⟩;
     rw [show ∀ w, candidateAt 0x36 w = (zeros (field w 2 1) (.hmix (field w 23 17) (field w 16 10) (srcOf (field w 9 3) (bitAt w 0)))) from fun _ => rfl];
     all_goals simp (disch := omega) [encR_fields, zeros, bit, srcOf, Src.uni])

theorem Roundtrip.itrit (d : Nat) (a : Nat) (b : Src) : Statement (.itrit d a b) := by
  intro h _
  have g : (isV d && isV a && b.wf) = true := h
  rcases b with n | n <;>
    (simp [isV, isS, Src.wf] at g;
     refine ofWord 0x37 (encR 0x37 d a n _) rfl h rfl ⟨?_, ?_, ?_, .inl rfl⟩;
     rw [show ∀ w, candidateAt 0x37 w = (zeros (field w 2 1) (.itrit (field w 23 17) (field w 16 10) (srcOf (field w 9 3) (bitAt w 0)))) from fun _ => rfl];
     all_goals simp (disch := omega) [encR_fields, zeros, bit, srcOf, Src.uni])

theorem Roundtrip.mov (d : Nat) (a : Nat) : Statement (.mov d a) := by
  intro h _
  have g : (isV d && isV a) = true := h
  simp [isV] at g
  refine ofWord 0x38 _ rfl h rfl ⟨?_, ?_, ?_, .inl rfl⟩
  rw [show ∀ w, candidateAt 0x38 w = (zeros (field w 9 0) (.mov (field w 23 17) (field w 16 10))) from fun _ => rfl]
  all_goals simp (disch := omega) [encR_fields, zeros]

theorem Roundtrip.laneid (d : Nat) : Statement (.laneid d) := by
  intro h _
  have g : (isV d) = true := h
  simp [isV] at g
  refine ofWord 0x39 _ rfl h rfl ⟨?_, ?_, ?_, .inl rfl⟩
  rw [show ∀ w, candidateAt 0x39 w = (zeros (field w 16 0) (.laneid (field w 23 17))) from fun _ => rfl]
  all_goals simp (disch := omega) [encR_fields, zeros]

theorem Roundtrip.iaddi (d : Nat) (a : Nat) (imm : BitVec 10) : Statement (.iaddi d a imm) := by
  intro h _
  have g : (isV d && isV a) = true := h
  have := imm.isLt
  simp [isV] at g
  refine ofWord 0x40 _ rfl h rfl ⟨?_, ?_, ?_, .inl rfl⟩
  rw [show ∀ w, candidateAt 0x40 w = (some (.iaddi (field w 23 17) (field w 16 10) (BitVec.ofNat 10 w))) from fun _ => rfl]
  all_goals simp (disch := omega) [encI_fields]

theorem Roundtrip.imuli (d : Nat) (a : Nat) (imm : BitVec 10) : Statement (.imuli d a imm) := by
  intro h _
  have g : (isV d && isV a) = true := h
  have := imm.isLt
  simp [isV] at g
  refine ofWord 0x41 _ rfl h rfl ⟨?_, ?_, ?_, .inl rfl⟩
  rw [show ∀ w, candidateAt 0x41 w = (some (.imuli (field w 23 17) (field w 16 10) (BitVec.ofNat 10 w))) from fun _ => rfl]
  all_goals simp (disch := omega) [encI_fields]

theorem Roundtrip.andi (d : Nat) (a : Nat) (imm : BitVec 10) : Statement (.andi d a imm) := by
  intro h _
  have g : (isV d && isV a) = true := h
  have := imm.isLt
  simp [isV] at g
  refine ofWord 0x42 _ rfl h rfl ⟨?_, ?_, ?_, .inl rfl⟩
  rw [show ∀ w, candidateAt 0x42 w = (some (.andi (field w 23 17) (field w 16 10) (BitVec.ofNat 10 w))) from fun _ => rfl]
  all_goals simp (disch := omega) [encI_fields]

theorem Roundtrip.ori (d : Nat) (a : Nat) (imm : BitVec 10) : Statement (.ori d a imm) := by
  intro h _
  have g : (isV d && isV a) = true := h
  have := imm.isLt
  simp [isV] at g
  refine ofWord 0x43 _ rfl h rfl ⟨?_, ?_, ?_, .inl rfl⟩
  rw [show ∀ w, candidateAt 0x43 w = (some (.ori (field w 23 17) (field w 16 10) (BitVec.ofNat 10 w))) from fun _ => rfl]
  all_goals simp (disch := omega) [encI_fields]

theorem Roundtrip.xori (d : Nat) (a : Nat) (imm : BitVec 10) : Statement (.xori d a imm) := by
  intro h _
  have g : (isV d && isV a) = true := h
  have := imm.isLt
  simp [isV] at g
  refine ofWord 0x44 _ rfl h rfl ⟨?_, ?_, ?_, .inl rfl⟩
  rw [show ∀ w, candidateAt 0x44 w = (some (.xori (field w 23 17) (field w 16 10) (BitVec.ofNat 10 w))) from fun _ => rfl]
  all_goals simp (disch := omega) [encI_fields]

theorem Roundtrip.shli (d : Nat) (a : Nat) (sh : Nat) : Statement (.shli d a sh) := by
  intro h _
  have g : (isV d && isV a && sh < 64) = true := h
  simp [isV] at g
  refine ofWord 0x45 _ rfl h rfl ⟨?_, ?_, ?_, .inl rfl⟩
  rw [show ∀ w, candidateAt 0x45 w = (zeros (field w 9 6) (.shli (field w 23 17) (field w 16 10) (field w 5 0))) from fun _ => rfl]
  all_goals simp (disch := omega) [encI_fields, zeros] <;> omega

theorem Roundtrip.shri (d : Nat) (a : Nat) (sh : Nat) : Statement (.shri d a sh) := by
  intro h _
  have g : (isV d && isV a && sh < 64) = true := h
  simp [isV] at g
  refine ofWord 0x46 _ rfl h rfl ⟨?_, ?_, ?_, .inl rfl⟩
  rw [show ∀ w, candidateAt 0x46 w = (zeros (field w 9 6) (.shri (field w 23 17) (field w 16 10) (field w 5 0))) from fun _ => rfl]
  all_goals simp (disch := omega) [encI_fields, zeros] <;> omega

theorem Roundtrip.sari (d : Nat) (a : Nat) (sh : Nat) : Statement (.sari d a sh) := by
  intro h _
  have g : (isV d && isV a && sh < 64) = true := h
  simp [isV] at g
  refine ofWord 0x47 _ rfl h rfl ⟨?_, ?_, ?_, .inl rfl⟩
  rw [show ∀ w, candidateAt 0x47 w = (zeros (field w 9 6) (.sari (field w 23 17) (field w 16 10) (field w 5 0))) from fun _ => rfl]
  all_goals simp (disch := omega) [encI_fields, zeros] <;> omega

theorem Roundtrip.icmpi (c : ICond) (p : Nat) (a : Nat) (imm : BitVec 10) : Statement (.icmpi c p a imm) := by
  intro h _
  have g : (isP p && isV a) = true := h
  have := c.code_lt
  have := imm.isLt
  simp [isV, isP] at g
  refine ofWord 0x48 _ rfl h rfl ⟨?_, ?_, ?_, .inl rfl⟩
  rw [show ∀ w, candidateAt 0x48 w = ((icondOf (field w 23 20)).map fun c => .icmpi c (field w 19 17) (field w 16 10) (BitVec.ofNat 10 w)) from fun _ => rfl]
  all_goals simp (disch := omega) [encI_fields, icondOf_code, show (c.code * 8 + p) / 8 = c.code by omega, show (c.code * 8 + p) % 8 = p by omega]

theorem Roundtrip.movi (d : Nat) (imm : BitVec 17) : Statement (.movi d imm) := by
  intro h _
  have g : (isV d) = true := h
  have := imm.isLt
  simp [isV] at g
  refine ofWord 0x49 _ rfl h rfl ⟨?_, ?_, ?_, .inl rfl⟩
  rw [show ∀ w, candidateAt 0x49 w = (some (.movi (field w 23 17) (BitVec.ofNat 17 w))) from fun _ => rfl]
  all_goals simp (disch := omega) [encL_fields]

theorem Roundtrip.movhi (d : Nat) (imm : BitVec 17) : Statement (.movhi d imm) := by
  intro h _
  have g : (isV d) = true := h
  have := imm.isLt
  simp [isV] at g
  refine ofWord 0x4A _ rfl h rfl ⟨?_, ?_, ?_, .inl rfl⟩
  rw [show ∀ w, candidateAt 0x4A w = (some (.movhi (field w 23 17) (BitVec.ofNat 17 w))) from fun _ => rfl]
  all_goals simp (disch := omega) [encL_fields]

theorem Roundtrip.uadd (d : Nat) (a : Nat) (b : Nat) : Statement (.uadd d a b) := by
  intro h _
  have g : (isS d && isS a && isS b) = true := h
  simp [isS] at g
  refine ofWord 0x50 _ rfl h rfl ⟨?_, ?_, ?_, .inl rfl⟩
  rw [show ∀ w, candidateAt 0x50 w = (zeros (field w 2 0) (.uadd (field w 23 17) (field w 16 10) (field w 9 3))) from fun _ => rfl]
  all_goals simp (disch := omega) [encR_fields, zeros]

theorem Roundtrip.usub (d : Nat) (a : Nat) (b : Nat) : Statement (.usub d a b) := by
  intro h _
  have g : (isS d && isS a && isS b) = true := h
  simp [isS] at g
  refine ofWord 0x51 _ rfl h rfl ⟨?_, ?_, ?_, .inl rfl⟩
  rw [show ∀ w, candidateAt 0x51 w = (zeros (field w 2 0) (.usub (field w 23 17) (field w 16 10) (field w 9 3))) from fun _ => rfl]
  all_goals simp (disch := omega) [encR_fields, zeros]

theorem Roundtrip.umul (d : Nat) (a : Nat) (b : Nat) : Statement (.umul d a b) := by
  intro h _
  have g : (isS d && isS a && isS b) = true := h
  simp [isS] at g
  refine ofWord 0x52 _ rfl h rfl ⟨?_, ?_, ?_, .inl rfl⟩
  rw [show ∀ w, candidateAt 0x52 w = (zeros (field w 2 0) (.umul (field w 23 17) (field w 16 10) (field w 9 3))) from fun _ => rfl]
  all_goals simp (disch := omega) [encR_fields, zeros]

theorem Roundtrip.umulh (d : Nat) (a : Nat) (b : Nat) (u : Bool) : Statement (.umulh d a b u) := by
  intro h _
  have g : (isS d && isS a && isS b) = true := h
  cases u <;>
    (simp [isS] at g;
     refine ofWord 0x53 _ rfl h rfl ⟨?_, ?_, ?_, .inl rfl⟩;
     rw [show ∀ w, candidateAt 0x53 w = (zeros (bit (bitAt w 2) + bit (bitAt w 0)) (.umulh (field w 23 17) (field w 16 10) (field w 9 3) (bitAt w 1))) from fun _ => rfl];
     all_goals simp (disch := omega) [encR_fields, zeros, bit])

theorem Roundtrip.uand (d : Nat) (a : Nat) (b : Nat) : Statement (.uand d a b) := by
  intro h _
  have g : (isS d && isS a && isS b) = true := h
  simp [isS] at g
  refine ofWord 0x54 _ rfl h rfl ⟨?_, ?_, ?_, .inl rfl⟩
  rw [show ∀ w, candidateAt 0x54 w = (zeros (field w 2 0) (.uand (field w 23 17) (field w 16 10) (field w 9 3))) from fun _ => rfl]
  all_goals simp (disch := omega) [encR_fields, zeros]

theorem Roundtrip.uor (d : Nat) (a : Nat) (b : Nat) : Statement (.uor d a b) := by
  intro h _
  have g : (isS d && isS a && isS b) = true := h
  simp [isS] at g
  refine ofWord 0x55 _ rfl h rfl ⟨?_, ?_, ?_, .inl rfl⟩
  rw [show ∀ w, candidateAt 0x55 w = (zeros (field w 2 0) (.uor (field w 23 17) (field w 16 10) (field w 9 3))) from fun _ => rfl]
  all_goals simp (disch := omega) [encR_fields, zeros]

theorem Roundtrip.uxor (d : Nat) (a : Nat) (b : Nat) : Statement (.uxor d a b) := by
  intro h _
  have g : (isS d && isS a && isS b) = true := h
  simp [isS] at g
  refine ofWord 0x56 _ rfl h rfl ⟨?_, ?_, ?_, .inl rfl⟩
  rw [show ∀ w, candidateAt 0x56 w = (zeros (field w 2 0) (.uxor (field w 23 17) (field w 16 10) (field w 9 3))) from fun _ => rfl]
  all_goals simp (disch := omega) [encR_fields, zeros]

theorem Roundtrip.ushl (d : Nat) (a : Nat) (b : Nat) : Statement (.ushl d a b) := by
  intro h _
  have g : (isS d && isS a && isS b) = true := h
  simp [isS] at g
  refine ofWord 0x57 _ rfl h rfl ⟨?_, ?_, ?_, .inl rfl⟩
  rw [show ∀ w, candidateAt 0x57 w = (zeros (field w 2 0) (.ushl (field w 23 17) (field w 16 10) (field w 9 3))) from fun _ => rfl]
  all_goals simp (disch := omega) [encR_fields, zeros]

theorem Roundtrip.ushr (d : Nat) (a : Nat) (b : Nat) : Statement (.ushr d a b) := by
  intro h _
  have g : (isS d && isS a && isS b) = true := h
  simp [isS] at g
  refine ofWord 0x58 _ rfl h rfl ⟨?_, ?_, ?_, .inl rfl⟩
  rw [show ∀ w, candidateAt 0x58 w = (zeros (field w 2 0) (.ushr (field w 23 17) (field w 16 10) (field w 9 3))) from fun _ => rfl]
  all_goals simp (disch := omega) [encR_fields, zeros]

theorem Roundtrip.usar (d : Nat) (a : Nat) (b : Nat) : Statement (.usar d a b) := by
  intro h _
  have g : (isS d && isS a && isS b) = true := h
  simp [isS] at g
  refine ofWord 0x59 _ rfl h rfl ⟨?_, ?_, ?_, .inl rfl⟩
  rw [show ∀ w, candidateAt 0x59 w = (zeros (field w 2 0) (.usar (field w 23 17) (field w 16 10) (field w 9 3))) from fun _ => rfl]
  all_goals simp (disch := omega) [encR_fields, zeros]

theorem Roundtrip.umin (d : Nat) (a : Nat) (b : Nat) (u : Bool) : Statement (.umin d a b u) := by
  intro h _
  have g : (isS d && isS a && isS b) = true := h
  cases u <;>
    (simp [isS] at g;
     refine ofWord 0x5A _ rfl h rfl ⟨?_, ?_, ?_, .inl rfl⟩;
     rw [show ∀ w, candidateAt 0x5A w = (zeros (bit (bitAt w 2) + bit (bitAt w 0)) (.umin (field w 23 17) (field w 16 10) (field w 9 3) (bitAt w 1))) from fun _ => rfl];
     all_goals simp (disch := omega) [encR_fields, zeros, bit])

theorem Roundtrip.umax (d : Nat) (a : Nat) (b : Nat) (u : Bool) : Statement (.umax d a b u) := by
  intro h _
  have g : (isS d && isS a && isS b) = true := h
  cases u <;>
    (simp [isS] at g;
     refine ofWord 0x5B _ rfl h rfl ⟨?_, ?_, ?_, .inl rfl⟩;
     rw [show ∀ w, candidateAt 0x5B w = (zeros (bit (bitAt w 2) + bit (bitAt w 0)) (.umax (field w 23 17) (field w 16 10) (field w 9 3) (bitAt w 1))) from fun _ => rfl];
     all_goals simp (disch := omega) [encR_fields, zeros, bit])

theorem Roundtrip.ucmp (c : ICond) (k : Nat) (a : Nat) (b : Nat) : Statement (.ucmp c k a b) := by
  intro h _
  have g : (isK k && isS a && isS b) = true := h
  have := c.code_lt
  simp [isS, isK] at g
  refine ofWord 0x5C _ rfl h rfl ⟨?_, ?_, ?_, .inl rfl⟩
  rw [show ∀ w, candidateAt 0x5C w = ((icondOf (field w 23 20)).bind fun c => zeros (bit (bitAt w 19) + field w 2 0) (.ucmp c (field w 18 17) (field w 16 10) (field w 9 3))) from fun _ => rfl]
  all_goals simp (disch := omega) [encR_fields, zeros, bit, icondOf_code, show (c.code * 8 + k) / 8 = c.code by omega, show (c.code * 8 + k) / 4 % 2 = 0 by omega, show (c.code * 8 + k) % 4 = k by omega]

theorem Roundtrip.usel (d : Nat) (a : Nat) (kb : Nat) (n : Bool) : Statement (.usel d a kb n) := by
  intro h _
  have g : (isS d && isS a && isK kb) = true := h
  cases n <;>
    (simp [isS, isK] at g;
     refine ofWord 0x5D _ rfl h rfl ⟨?_, ?_, ?_, .inl rfl⟩;
     rw [show ∀ w, candidateAt 0x5D w = (zeros (bit (bitAt w 2) + bit (bitAt w 0)) (.usel (field w 23 17) (field w 16 10) (field w 9 3) (bitAt w 1))) from fun _ => rfl];
     all_goals simp (disch := omega) [encR_fields, zeros, bit])

theorem Roundtrip.ulea (d : Nat) (a : Nat) (b : Nat) (sc : Nat) : Statement (.ulea d a b sc) := by
  intro h _
  have g : (isPair d && isPair a && isS b && sc < 4) = true := h
  simp [isS, isPair] at g
  refine ofWord 0x5E _ rfl h rfl ⟨?_, ?_, ?_, .inl rfl⟩
  rw [show ∀ w, candidateAt 0x5E w = (zeros (bit (bitAt w 0)) (.ulea (field w 23 17) (field w 16 10) (field w 9 3) (field w 2 1))) from fun _ => rfl]
  all_goals simp (disch := omega) [encR_fields, zeros, bit]

theorem Roundtrip.umov (d : Nat) (a : Nat) : Statement (.umov d a) := by
  intro h _
  have g : (isS d && isS a) = true := h
  simp [isS] at g
  refine ofWord 0x5F _ rfl h rfl ⟨?_, ?_, ?_, .inl rfl⟩
  rw [show ∀ w, candidateAt 0x5F w = (zeros (field w 9 0) (.umov (field w 23 17) (field w 16 10))) from fun _ => rfl]
  all_goals simp (disch := omega) [encR_fields, zeros]

theorem Roundtrip.uaddi (d : Nat) (a : Nat) (imm : BitVec 10) : Statement (.uaddi d a imm) := by
  intro h _
  have g : (isS d && isS a) = true := h
  have := imm.isLt
  simp [isS] at g
  refine ofWord 0x60 _ rfl h rfl ⟨?_, ?_, ?_, .inl rfl⟩
  rw [show ∀ w, candidateAt 0x60 w = (some (.uaddi (field w 23 17) (field w 16 10) (BitVec.ofNat 10 w))) from fun _ => rfl]
  all_goals simp (disch := omega) [encI_fields]

theorem Roundtrip.umovi (d : Nat) (imm : BitVec 17) : Statement (.umovi d imm) := by
  intro h _
  have g : (isS d) = true := h
  have := imm.isLt
  simp [isS] at g
  refine ofWord 0x61 _ rfl h rfl ⟨?_, ?_, ?_, .inl rfl⟩
  rw [show ∀ w, candidateAt 0x61 w = (some (.umovi (field w 23 17) (BitVec.ofNat 17 w))) from fun _ => rfl]
  all_goals simp (disch := omega) [encL_fields]

theorem Roundtrip.umovhi (d : Nat) (imm : BitVec 17) : Statement (.umovhi d imm) := by
  intro h _
  have g : (isS d) = true := h
  have := imm.isLt
  simp [isS] at g
  refine ofWord 0x62 _ rfl h rfl ⟨?_, ?_, ?_, .inl rfl⟩
  rw [show ∀ w, candidateAt 0x62 w = (some (.umovhi (field w 23 17) (BitVec.ofNat 17 w))) from fun _ => rfl]
  all_goals simp (disch := omega) [encL_fields]

theorem Roundtrip.ucmpi (c : ICond) (k : Nat) (a : Nat) (imm : BitVec 10) : Statement (.ucmpi c k a imm) := by
  intro h _
  have g : (isK k && isS a) = true := h
  have := c.code_lt
  have := imm.isLt
  simp [isS, isK] at g
  refine ofWord 0x64 _ rfl h rfl ⟨?_, ?_, ?_, .inl rfl⟩
  rw [show ∀ w, candidateAt 0x64 w = ((icondOf (field w 23 20)).bind fun c => zeros (bit (bitAt w 19)) (.ucmpi c (field w 18 17) (field w 16 10) (BitVec.ofNat 10 w))) from fun _ => rfl]
  all_goals simp (disch := omega) [encI_fields, zeros, bit, icondOf_code, show (c.code * 8 + k) / 8 = c.code by omega, show (c.code * 8 + k) / 4 % 2 = 0 by omega, show (c.code * 8 + k) % 4 = k by omega]

theorem Roundtrip.vbcast (d : Nat) (a : Nat) : Statement (.vbcast d a) := by
  intro h _
  have g : (isV d && isS a) = true := h
  simp [isV, isS] at g
  refine ofWord 0x68 _ rfl h rfl ⟨?_, ?_, ?_, .inl rfl⟩
  rw [show ∀ w, candidateAt 0x68 w = (zeros (field w 9 0) (.vbcast (field w 23 17) (field w 16 10))) from fun _ => rfl]
  all_goals simp (disch := omega) [encR_fields, zeros]

theorem Roundtrip.vreadl (d : Nat) (a : Nat) (b : Nat) : Statement (.vreadl d a b) := by
  intro h _
  have g : (isS d && isV a && isS b) = true := h
  simp [isV, isS] at g
  refine ofWord 0x69 _ rfl h rfl ⟨?_, ?_, ?_, .inl rfl⟩
  rw [show ∀ w, candidateAt 0x69 w = (zeros (field w 2 0) (.vreadl (field w 23 17) (field w 16 10) (field w 9 3))) from fun _ => rfl]
  all_goals simp (disch := omega) [encR_fields, zeros]

theorem Roundtrip.vwritel (d : Nat) (a : Nat) (b : Nat) : Statement (.vwritel d a b) := by
  intro h _
  have g : (isV d && isS a && isS b) = true := h
  simp [isV, isS] at g
  refine ofWord 0x6A _ rfl h rfl ⟨?_, ?_, ?_, .inl rfl⟩
  rw [show ∀ w, candidateAt 0x6A w = (zeros (field w 2 0) (.vwritel (field w 23 17) (field w 16 10) (field w 9 3))) from fun _ => rfl]
  all_goals simp (disch := omega) [encR_fields, zeros]

theorem Roundtrip.vfirst (d : Nat) (a : Nat) : Statement (.vfirst d a) := by
  intro h _
  have g : (isS d && isV a) = true := h
  simp [isV, isS] at g
  refine ofWord 0x6B _ rfl h rfl ⟨?_, ?_, ?_, .inl rfl⟩
  rw [show ∀ w, candidateAt 0x6B w = (zeros (field w 9 0) (.vfirst (field w 23 17) (field w 16 10))) from fun _ => rfl]
  all_goals simp (disch := omega) [encR_fields, zeros]

theorem Roundtrip.pget (d : Nat) (a : Nat) (m : Bool) : Statement (.pget d a m) := by
  intro h _
  have g : (isPair d && (if m then a == 0 else isP a)) = true := h
  cases m <;>
    (simp [isPair, isP] at g;
     refine ofWord 0x6C _ rfl h rfl ⟨?_, ?_, ?_, .inl rfl⟩;
     rw [show ∀ w, candidateAt 0x6C w = (zeros ((field w 9 3) + bit (bitAt w 2) + bit (bitAt w 0)) (.pget (field w 23 17) (field w 16 10) (bitAt w 1))) from fun _ => rfl];
     all_goals simp (disch := omega) [encR_fields, zeros, bit])

theorem Roundtrip.pset (d : Nat) (a : Nat) : Statement (.pset d a) := by
  intro h _
  have g : (isP d && isPair a) = true := h
  simp [isPair, isP] at g
  refine ofWord 0x6D _ rfl h rfl ⟨?_, ?_, ?_, .inl rfl⟩
  rw [show ∀ w, candidateAt 0x6D w = (zeros (field w 9 0) (.pset (field w 23 17) (field w 16 10))) from fun _ => rfl]
  all_goals simp (disch := omega) [encR_fields, zeros]

theorem Roundtrip.fadd (d : Nat) (a : Nat) (b : Src) : Statement (.fadd d a b) := by
  intro h _
  have g : (isV d && isV a && b.wf) = true := h
  rcases b with n | n <;>
    (simp [isV, isS, Src.wf] at g;
     refine ofWord 0x70 (encR 0x70 d a n _) rfl h rfl ⟨?_, ?_, ?_, .inl rfl⟩;
     rw [show ∀ w, candidateAt 0x70 w = (zeros (field w 2 1) (.fadd (field w 23 17) (field w 16 10) (srcOf (field w 9 3) (bitAt w 0)))) from fun _ => rfl];
     all_goals simp (disch := omega) [encR_fields, zeros, bit, srcOf, Src.uni])

theorem Roundtrip.fsub (d : Nat) (a : Nat) (b : Src) : Statement (.fsub d a b) := by
  intro h _
  have g : (isV d && isV a && b.wf) = true := h
  rcases b with n | n <;>
    (simp [isV, isS, Src.wf] at g;
     refine ofWord 0x71 (encR 0x71 d a n _) rfl h rfl ⟨?_, ?_, ?_, .inl rfl⟩;
     rw [show ∀ w, candidateAt 0x71 w = (zeros (field w 2 1) (.fsub (field w 23 17) (field w 16 10) (srcOf (field w 9 3) (bitAt w 0)))) from fun _ => rfl];
     all_goals simp (disch := omega) [encR_fields, zeros, bit, srcOf, Src.uni])

theorem Roundtrip.fmul (d : Nat) (a : Nat) (b : Src) : Statement (.fmul d a b) := by
  intro h _
  have g : (isV d && isV a && b.wf) = true := h
  rcases b with n | n <;>
    (simp [isV, isS, Src.wf] at g;
     refine ofWord 0x72 (encR 0x72 d a n _) rfl h rfl ⟨?_, ?_, ?_, .inl rfl⟩;
     rw [show ∀ w, candidateAt 0x72 w = (zeros (field w 2 1) (.fmul (field w 23 17) (field w 16 10) (srcOf (field w 9 3) (bitAt w 0)))) from fun _ => rfl];
     all_goals simp (disch := omega) [encR_fields, zeros, bit, srcOf, Src.uni])

theorem Roundtrip.ffma (d : Nat) (a : Nat) (b : Src) (np : Bool) (na : Bool) : Statement (.ffma d a b np na) := by
  intro h _
  have g : (isV d && isV a && b.wf) = true := h
  cases np <;> cases na <;> rcases b with n | n <;>
    (simp [isV, isS, Src.wf] at g;
     refine ofWord 0x73 (encR 0x73 d a n _) rfl h rfl ⟨?_, ?_, ?_, .inl rfl⟩;
     rw [show ∀ w, candidateAt 0x73 w = (some (.ffma (field w 23 17) (field w 16 10) (srcOf (field w 9 3) (bitAt w 0)) (bitAt w 1) (bitAt w 2))) from fun _ => rfl];
     all_goals simp (disch := omega) [encR_fields, bit, srcOf, Src.uni])

theorem Roundtrip.fmin (d : Nat) (a : Nat) (b : Src) : Statement (.fmin d a b) := by
  intro h _
  have g : (isV d && isV a && b.wf) = true := h
  rcases b with n | n <;>
    (simp [isV, isS, Src.wf] at g;
     refine ofWord 0x74 (encR 0x74 d a n _) rfl h rfl ⟨?_, ?_, ?_, .inl rfl⟩;
     rw [show ∀ w, candidateAt 0x74 w = (zeros (field w 2 1) (.fmin (field w 23 17) (field w 16 10) (srcOf (field w 9 3) (bitAt w 0)))) from fun _ => rfl];
     all_goals simp (disch := omega) [encR_fields, zeros, bit, srcOf, Src.uni])

theorem Roundtrip.fmax (d : Nat) (a : Nat) (b : Src) : Statement (.fmax d a b) := by
  intro h _
  have g : (isV d && isV a && b.wf) = true := h
  rcases b with n | n <;>
    (simp [isV, isS, Src.wf] at g;
     refine ofWord 0x75 (encR 0x75 d a n _) rfl h rfl ⟨?_, ?_, ?_, .inl rfl⟩;
     rw [show ∀ w, candidateAt 0x75 w = (zeros (field w 2 1) (.fmax (field w 23 17) (field w 16 10) (srcOf (field w 9 3) (bitAt w 0)))) from fun _ => rfl];
     all_goals simp (disch := omega) [encR_fields, zeros, bit, srcOf, Src.uni])

theorem Roundtrip.fcmp (c : FCond) (p : Nat) (a : Nat) (b : Src) : Statement (.fcmp c p a b) := by
  intro h _
  have g : (isP p && isV a && b.wf) = true := h
  have := c.code_lt
  rcases b with n | n <;>
    (simp [isV, isS, isP, Src.wf] at g;
     refine ofWord 0x76 (encR 0x76 (c.code * 8 + p) a n _) rfl h rfl ⟨?_, ?_, ?_, .inl rfl⟩;
     rw [show ∀ w, candidateAt 0x76 w = ((fcondOf (field w 23 20)).bind fun c => zeros (field w 2 1) (.fcmp c (field w 19 17) (field w 16 10) (srcOf (field w 9 3) (bitAt w 0)))) from fun _ => rfl];
     all_goals simp (disch := omega) [encR_fields, zeros, bit, srcOf, Src.uni, fcondOf_code, show (c.code * 8 + p) / 8 = c.code by omega, show (c.code * 8 + p) % 8 = p by omega])

theorem Roundtrip.fdiv (d : Nat) (a : Nat) (b : Src) : Statement (.fdiv d a b) := by
  intro h _
  have g : (isV d && isV a && b.wf) = true := h
  rcases b with n | n <;>
    (simp [isV, isS, Src.wf] at g;
     refine ofWord 0x77 (encR 0x77 d a n _) rfl h rfl ⟨?_, ?_, ?_, .inl rfl⟩;
     rw [show ∀ w, candidateAt 0x77 w = (zeros (field w 2 1) (.fdiv (field w 23 17) (field w 16 10) (srcOf (field w 9 3) (bitAt w 0)))) from fun _ => rfl];
     all_goals simp (disch := omega) [encR_fields, zeros, bit, srcOf, Src.uni])

theorem Roundtrip.fsqrt (d : Nat) (a : Nat) : Statement (.fsqrt d a) := by
  intro h _
  have g : (isV d && isV a) = true := h
  simp [isV] at g
  refine ofWord 0x78 _ rfl h rfl ⟨?_, ?_, ?_, .inl rfl⟩
  rw [show ∀ w, candidateAt 0x78 w = (zeros (field w 9 0) (.fsqrt (field w 23 17) (field w 16 10))) from fun _ => rfl]
  all_goals simp (disch := omega) [encR_fields, zeros]

theorem Roundtrip.frcp (d : Nat) (a : Nat) : Statement (.frcp d a) := by
  intro h _
  have g : (isV d && isV a) = true := h
  simp [isV] at g
  refine ofWord 0x79 _ rfl h rfl ⟨?_, ?_, ?_, .inl rfl⟩
  rw [show ∀ w, candidateAt 0x79 w = (zeros (field w 9 0) (.frcp (field w 23 17) (field w 16 10))) from fun _ => rfl]
  all_goals simp (disch := omega) [encR_fields, zeros]

theorem Roundtrip.frsq (d : Nat) (a : Nat) : Statement (.frsq d a) := by
  intro h _
  have g : (isV d && isV a) = true := h
  simp [isV] at g
  refine ofWord 0x7A _ rfl h rfl ⟨?_, ?_, ?_, .inl rfl⟩
  rw [show ∀ w, candidateAt 0x7A w = (zeros (field w 9 0) (.frsq (field w 23 17) (field w 16 10))) from fun _ => rfl]
  all_goals simp (disch := omega) [encR_fields, zeros]

theorem Roundtrip.fexp2 (d : Nat) (a : Nat) : Statement (.fexp2 d a) := by
  intro h _
  have g : (isV d && isV a) = true := h
  simp [isV] at g
  refine ofWord 0x7B _ rfl h rfl ⟨?_, ?_, ?_, .inl rfl⟩
  rw [show ∀ w, candidateAt 0x7B w = (zeros (field w 9 0) (.fexp2 (field w 23 17) (field w 16 10))) from fun _ => rfl]
  all_goals simp (disch := omega) [encR_fields, zeros]

theorem Roundtrip.flog2 (d : Nat) (a : Nat) : Statement (.flog2 d a) := by
  intro h _
  have g : (isV d && isV a) = true := h
  simp [isV] at g
  refine ofWord 0x7C _ rfl h rfl ⟨?_, ?_, ?_, .inl rfl⟩
  rw [show ∀ w, candidateAt 0x7C w = (zeros (field w 9 0) (.flog2 (field w 23 17) (field w 16 10))) from fun _ => rfl]
  all_goals simp (disch := omega) [encR_fields, zeros]

theorem Roundtrip.fsin (d : Nat) (a : Nat) : Statement (.fsin d a) := by
  intro h _
  have g : (isV d && isV a) = true := h
  simp [isV] at g
  refine ofWord 0x7D _ rfl h rfl ⟨?_, ?_, ?_, .inl rfl⟩
  rw [show ∀ w, candidateAt 0x7D w = (zeros (field w 9 0) (.fsin (field w 23 17) (field w 16 10))) from fun _ => rfl]
  all_goals simp (disch := omega) [encR_fields, zeros]

theorem Roundtrip.fcos (d : Nat) (a : Nat) : Statement (.fcos d a) := by
  intro h _
  have g : (isV d && isV a) = true := h
  simp [isV] at g
  refine ofWord 0x7E _ rfl h rfl ⟨?_, ?_, ?_, .inl rfl⟩
  rw [show ∀ w, candidateAt 0x7E w = (zeros (field w 9 0) (.fcos (field w 23 17) (field w 16 10))) from fun _ => rfl]
  all_goals simp (disch := omega) [encR_fields, zeros]

theorem Roundtrip.ftanh (d : Nat) (a : Nat) : Statement (.ftanh d a) := by
  intro h _
  have g : (isV d && isV a) = true := h
  simp [isV] at g
  refine ofWord 0x7F _ rfl h rfl ⟨?_, ?_, ?_, .inl rfl⟩
  rw [show ∀ w, candidateAt 0x7F w = (zeros (field w 9 0) (.ftanh (field w 23 17) (field w 16 10))) from fun _ => rfl]
  all_goals simp (disch := omega) [encR_fields, zeros]

theorem Roundtrip.fclass (d : Nat) (a : Nat) : Statement (.fclass d a) := by
  intro h _
  have g : (isV d && isV a) = true := h
  simp [isV] at g
  refine ofWord 0x80 _ rfl h rfl ⟨?_, ?_, ?_, .inl rfl⟩
  rw [show ∀ w, candidateAt 0x80 w = (zeros (field w 9 0) (.fclass (field w 23 17) (field w 16 10))) from fun _ => rfl]
  all_goals simp (disch := omega) [encR_fields, zeros]

theorem Roundtrip.fscale (d : Nat) (a : Nat) (b : Src) : Statement (.fscale d a b) := by
  intro h _
  have g : (isV d && isV a && b.wf) = true := h
  rcases b with n | n <;>
    (simp [isV, isS, Src.wf] at g;
     refine ofWord 0x81 (encR 0x81 d a n _) rfl h rfl ⟨?_, ?_, ?_, .inl rfl⟩;
     rw [show ∀ w, candidateAt 0x81 w = (zeros (field w 2 1) (.fscale (field w 23 17) (field w 16 10) (srcOf (field w 9 3) (bitAt w 0)))) from fun _ => rfl];
     all_goals simp (disch := omega) [encR_fields, zeros, bit, srcOf, Src.uni])

theorem Roundtrip.fmov (d : Nat) (a : Nat) (o : FmovOp) : Statement (.fmov d a o) := by
  intro h _
  have g : (isV d && isV a) = true := h
  have := o.code_lt
  simp [isV] at g
  refine ofWord 0x82 _ rfl h rfl ⟨?_, ?_, ?_, .inl rfl⟩
  rw [show ∀ w, candidateAt 0x82 w = (zeros ((field w 9 3) + bit (bitAt w 0)) (.fmov (field w 23 17) (field w 16 10) (fmovOf (field w 2 1)))) from fun _ => rfl]
  all_goals simp (disch := omega) [encR_fields, zeros, bit, fmovOf_code]

theorem Roundtrip.pkadd (d : Nat) (a : Nat) (b : Src) (bf : Bool) : Statement (.pkadd d a b bf) := by
  intro h _
  have g : (isV d && isV a && b.wf) = true := h
  cases bf <;> rcases b with n | n <;>
    (simp [isV, isS, Src.wf] at g;
     refine ofWord 0x83 (encR 0x83 d a n _) rfl h rfl ⟨?_, ?_, ?_, .inl rfl⟩;
     rw [show ∀ w, candidateAt 0x83 w = (zeros (bit (bitAt w 2)) (.pkadd (field w 23 17) (field w 16 10) (srcOf (field w 9 3) (bitAt w 0)) (bitAt w 1))) from fun _ => rfl];
     all_goals simp (disch := omega) [encR_fields, zeros, bit, srcOf, Src.uni])

theorem Roundtrip.pkmul (d : Nat) (a : Nat) (b : Src) (bf : Bool) : Statement (.pkmul d a b bf) := by
  intro h _
  have g : (isV d && isV a && b.wf) = true := h
  cases bf <;> rcases b with n | n <;>
    (simp [isV, isS, Src.wf] at g;
     refine ofWord 0x84 (encR 0x84 d a n _) rfl h rfl ⟨?_, ?_, ?_, .inl rfl⟩;
     rw [show ∀ w, candidateAt 0x84 w = (zeros (bit (bitAt w 2)) (.pkmul (field w 23 17) (field w 16 10) (srcOf (field w 9 3) (bitAt w 0)) (bitAt w 1))) from fun _ => rfl];
     all_goals simp (disch := omega) [encR_fields, zeros, bit, srcOf, Src.uni])

theorem Roundtrip.pkfma (d : Nat) (a : Nat) (b : Src) (bf : Bool) : Statement (.pkfma d a b bf) := by
  intro h _
  have g : (isV d && isV a && b.wf) = true := h
  cases bf <;> rcases b with n | n <;>
    (simp [isV, isS, Src.wf] at g;
     refine ofWord 0x85 (encR 0x85 d a n _) rfl h rfl ⟨?_, ?_, ?_, .inl rfl⟩;
     rw [show ∀ w, candidateAt 0x85 w = (zeros (bit (bitAt w 2)) (.pkfma (field w 23 17) (field w 16 10) (srcOf (field w 9 3) (bitAt w 0)) (bitAt w 1))) from fun _ => rfl];
     all_goals simp (disch := omega) [encR_fields, zeros, bit, srcOf, Src.uni])

theorem Roundtrip.cvt (d : Nat) (a : Nat) (dk : CvtKind) (sk : CvtKind) (t : Bool) : Statement (.cvt d a dk sk t) := by
  intro h _
  have g : (isV d && isV a && dk != sk && (!t || (dk.isInt && !sk.isInt))) = true := h
  have := dk.code_lt
  have := sk.code_lt
  cases t <;>
    (simp [isV] at g;
     refine ofWord 0x88 _ rfl h rfl ⟨?_, ?_, ?_, .inl rfl⟩;
     rw [show ∀ w, candidateAt 0x88 w = ((cvtKindOf (field w 9 6)).bind fun dk => (cvtKindOf (field w 5 2)).bind fun sk => zeros (bit (bitAt w 0)) (.cvt (field w 23 17) (field w 16 10) dk sk (bitAt w 1))) from fun _ => rfl];
     all_goals simp (disch := omega) [encI_fields, zeros, bit, cvtKindOf_code, show (dk.code * 64 + sk.code * 4) / 64 = dk.code by omega, show (dk.code * 64 + sk.code * 4) / 4 % 16 = sk.code by omega, show (dk.code * 64 + sk.code * 4) % 2 = 0 by omega, show (dk.code * 64 + sk.code * 4) / 2 % 2 = 0 by omega, show (dk.code * 64 + sk.code * 4 + 2) / 64 = dk.code by omega, show (dk.code * 64 + sk.code * 4 + 2) / 4 % 16 = sk.code by omega, show (dk.code * 64 + sk.code * 4 + 2) % 2 = 0 by omega, show ((dk.code * 64 + sk.code * 4) / 2 + 1) % 2 = 1 by omega])

theorem Roundtrip.rqnt (d : Nat) (a : Nat) (b : Nat) (k : RqKind) : Statement (.rqnt d a b k) := by
  intro h _
  have g : (isV d && isV a && runS b 3) = true := h
  have := k.code_lt
  simp [isV, runS] at g
  refine ofWord 0x89 _ rfl h rfl ⟨?_, ?_, ?_, .inl rfl⟩
  rw [show ∀ w, candidateAt 0x89 w = ((rqOf (field w 2 1)).bind fun k => zeros (bit (bitAt w 0)) (.rqnt (field w 23 17) (field w 16 10) (field w 9 3) k)) from fun _ => rfl]
  all_goals simp (disch := omega) [encR_fields, zeros, bit, rqOf_code]

theorem Roundtrip.unpk5 (d : Nat) (a : Nat) (pb : Nat) (byte : Nat) : Statement (.unpk5 d a pb byte) := by
  intro h _
  have g : (runV d 5 && isV a && isP pb && byte < 4) = true := h
  simp [isV, isP, runV] at g
  refine ofWord 0x8A _ rfl h rfl ⟨?_, ?_, ?_, .inl rfl⟩
  rw [show ∀ w, candidateAt 0x8A w = (zeros (bit (bitAt w 0)) (.unpk5 (field w 23 17) (field w 16 10) (field w 9 3) (field w 2 1))) from fun _ => rfl]
  all_goals simp (disch := omega) [encR_fields, zeros, bit]

theorem Roundtrip.pack5 (d : Nat) (a : Nat) (byte : Nat) : Statement (.pack5 d a byte) := by
  intro h _
  have g : (isV d && runV a 5 && byte < 4) = true := h
  simp [isV, runV] at g
  refine ofWord 0x8B _ rfl h rfl ⟨?_, ?_, ?_, .inl rfl⟩
  rw [show ∀ w, candidateAt 0x8B w = (zeros ((field w 9 3) + bit (bitAt w 0)) (.pack5 (field w 23 17) (field w 16 10) (field w 2 1))) from fun _ => rfl]
  all_goals simp (disch := omega) [encR_fields, zeros, bit]

theorem Roundtrip.unpkps (d : Nat) (a : Nat) (b : Src) (byte : Nat) : Statement (.unpkps d a b byte) := by
  intro h _
  have g : (isV d && isV a && b.wf && byte < 4) = true := h
  rcases b with n | n <;>
    (simp [isV, isS, Src.wf] at g;
     refine ofWord 0x8C (encR 0x8C d a n _) rfl h rfl ⟨?_, ?_, ?_, .inl rfl⟩;
     rw [show ∀ w, candidateAt 0x8C w = (some (.unpkps (field w 23 17) (field w 16 10) (srcOf (field w 9 3) (bitAt w 0)) (field w 2 1))) from fun _ => rfl];
     all_goals simp (disch := omega) [encR_fields, bit, srcOf, Src.uni] <;> omega)

theorem Roundtrip.shfl (d : Nat) (a : Nat) (b : Src) (m : ShflMode) : Statement (.shfl d a b m) := by
  intro h _
  have g : (isV d && isV a && b.wf) = true := h
  have := m.code_lt
  rcases b with n | n <;>
    (simp [isV, isS, Src.wf] at g;
     refine ofWord 0x90 (encR 0x90 d a n _) rfl h rfl ⟨?_, ?_, ?_, .inl rfl⟩;
     rw [show ∀ w, candidateAt 0x90 w = (some (.shfl (field w 23 17) (field w 16 10) (srcOf (field w 9 3) (bitAt w 0)) (shflModeOf (field w 2 1)))) from fun _ => rfl];
     all_goals simp (disch := omega) [encR_fields, bit, srcOf, Src.uni, shflModeOf_code, show (2 * m.code + 1) / 2 = m.code by omega])

theorem Roundtrip.shflx (d : Nat) (a : Nat) (b : Src) (m : ShflMode) : Statement (.shflx d a b m) := by
  intro h _
  have g : (isV d && isV a && b.wf) = true := h
  have := m.code_lt
  rcases b with n | n <;>
    (simp [isV, isS, Src.wf] at g;
     refine ofWord 0x91 (encR 0x91 d a n _) rfl h rfl ⟨?_, ?_, ?_, .inl rfl⟩;
     rw [show ∀ w, candidateAt 0x91 w = (some (.shflx (field w 23 17) (field w 16 10) (srcOf (field w 9 3) (bitAt w 0)) (shflModeOf (field w 2 1)))) from fun _ => rfl];
     all_goals simp (disch := omega) [encR_fields, bit, srcOf, Src.uni, shflModeOf_code, show (2 * m.code + 1) / 2 = m.code by omega])

theorem Roundtrip.scan (d : Nat) (a : Nat) (o : ScanOp) (ex : Bool) : Statement (.scan d a o ex) := by
  intro h _
  have g : (isV d && isV a) = true := h
  have := o.code_lt
  cases ex <;>
    (simp [isV] at g;
     refine ofWord 0x92 _ rfl h rfl ⟨?_, ?_, ?_, .inl rfl⟩;
     rw [show ∀ w, candidateAt 0x92 w = ((scanOpOf (field w 9 6)).bind fun o => zeros (field w 4 0) (.scan (field w 23 17) (field w 16 10) o (bitAt w 5))) from fun _ => rfl];
     all_goals simp (disch := omega) [encI_fields, zeros, bit, scanOpOf_code, show (o.code * 64 / 32 + 1) % 2 = 1 by omega, show (o.code * 64 + 32) / 64 = o.code by omega, show (o.code * 64 + 32) % 32 = 0 by omega, show o.code * 64 / 64 = o.code by omega, show o.code * 64 % 32 = 0 by omega, show o.code * 64 / 32 % 2 = 0 by omega])

theorem Roundtrip.vred (d : Nat) (a : Nat) (o : ScanOp) : Statement (.vred d a o) := by
  intro h _
  have g : (isS d && isV a) = true := h
  have := o.code_lt
  simp [isV, isS] at g
  refine ofWord 0x93 _ rfl h rfl ⟨?_, ?_, ?_, .inl rfl⟩
  rw [show ∀ w, candidateAt 0x93 w = ((scanOpOf (field w 9 6)).bind fun o => zeros (field w 5 0) (.vred (field w 23 17) (field w 16 10) o)) from fun _ => rfl]
  all_goals simp (disch := omega) [encI_fields, zeros, scanOpOf_code, show o.code * 64 / 64 = o.code by omega, show o.code * 64 % 64 = 0 by omega]

theorem Roundtrip.vote (d : Nat) (pa : Nat) (m : VoteMode) : Statement (.vote d pa m) := by
  intro h _
  have g : ((if m == .ballot then isPair d else isK d) && isP pa) = true := h
  have := m.code_lt
  have g : d < 64 ∧ pa < 8 := by revert g; cases m <;> simp [isPair, isK, isP] <;> omega
  refine ofWord 0x94 _ rfl h rfl ⟨?_, ?_, ?_, .inl rfl⟩
  rw [show ∀ w, candidateAt 0x94 w = ((voteOf (field w 2 1)).bind fun m => zeros ((field w 9 3) + bit (bitAt w 0)) (.vote (field w 23 17) (field w 16 10) m)) from fun _ => rfl]
  all_goals simp (disch := omega) [encR_fields, zeros, bit, voteOf_code]

theorem Roundtrip.matchV (d : Nat) (a : Nat) : Statement (.matchV d a) := by
  intro h _
  have g : (isV d && isV a) = true := h
  simp [isV] at g
  refine ofWord 0x95 _ rfl h rfl ⟨?_, ?_, ?_, .inl rfl⟩
  rw [show ∀ w, candidateAt 0x95 w = (zeros (field w 9 0) (.matchV (field w 23 17) (field w 16 10))) from fun _ => rfl]
  all_goals simp (disch := omega) [encR_fields, zeros]

theorem Roundtrip.rng (d : Nat) (a : Nat) (b : Nat) (st : Nat) : Statement (.rng d a b st) := by
  intro h _
  have g : (runV d 4 && isV a && isPair b && st < 4) = true := h
  simp [isV, isPair, runV] at g
  refine ofWord 0x96 _ rfl h rfl ⟨?_, ?_, ?_, .inl rfl⟩
  rw [show ∀ w, candidateAt 0x96 w = (zeros (bit (bitAt w 0)) (.rng (field w 23 17) (field w 16 10) (field w 9 3) (field w 2 1))) from fun _ => rfl]
  all_goals simp (disch := omega) [encR_fields, zeros, bit]

theorem Roundtrip.racq (t : Bool) (k : Nat) (n : Nat) : Statement (.racq t k n) := by
  intro h _
  have g : ((if t then isK k else k == 0) && 1 ≤ n && n < 16) = true := h
  cases t <;>
    (simp [isK] at g;
     refine ofWord 0x98 _ rfl h rfl ⟨?_, ?_, ?_, .inl rfl⟩;
     rw [show ∀ w, candidateAt 0x98 w = (zeros ((field w 16 10) + field w 8 4) (.racq (bitAt w 9) (field w 23 17) (field w 3 0))) from fun _ => rfl];
     all_goals simp (disch := omega) [encI_fields, zeros, bit] <;> omega)

theorem Roundtrip.rrel (n : Nat) : Statement (.rrel n) := by
  intro h _
  have g : (1 ≤ n && n < 16) = true := h
  simp [] at g
  refine ofWord 0x99 _ rfl h rfl ⟨?_, ?_, ?_, .inl rfl⟩
  rw [show ∀ w, candidateAt 0x99 w = (zeros (field w 23 4) (.rrel (field w 3 0))) from fun _ => rfl]
  all_goals simp (disch := omega) [encI_fields, zeros] <;> omega

theorem Roundtrip.wbase (b : Nat) : Statement (.wbase b) := by
  intro h _
  have g : decide (b < 16) = true := h
  simp [] at g
  refine ofWord 0x9A _ rfl h rfl ⟨?_, ?_, ?_, .inl rfl⟩
  rw [show ∀ w, candidateAt 0x9A w = (zeros (field w 23 4) (.wbase (field w 3 0))) from fun _ => rfl]
  all_goals simp (disch := omega) [encI_fields, zeros] <;> omega

theorem Roundtrip.ldg (d : Nat) (a : Nat) (bp : Nat) (w : Nat) : Statement (.ldg d a bp w) := by
  intro h _
  have g : (isW w && runV d (runLen w) && isV a && isBp bp) = true := h
  simp [isV, isW, isBp] at g
  have := Roundtrip.lt_of_runV g.1.1.2
  refine ofWord 0xA0 _ rfl h rfl ⟨?_, ?_, ?_, .inr ⟨by decide, by decide, ?_⟩⟩
  rw [show ∀ w, candidateAt 0xA0 w = (zeros (field w 3 0) (.ldg (field w 23 17) (field w 16 10) (field w 9 7) (field w 6 4))) from fun _ => rfl]
  all_goals simp (disch := omega) [encM_fields, zeros]

theorem Roundtrip.stg (d : Nat) (a : Nat) (bp : Nat) (w : Nat) : Statement (.stg d a bp w) := by
  intro h _
  have g : (isW w && runV d (runLen w) && isV a && isBp bp) = true := h
  simp [isV, isW, isBp] at g
  have := Roundtrip.lt_of_runV g.1.1.2
  refine ofWord 0xA1 _ rfl h rfl ⟨?_, ?_, ?_, .inr ⟨by decide, by decide, ?_⟩⟩
  rw [show ∀ w, candidateAt 0xA1 w = (zeros (field w 3 0) (.stg (field w 23 17) (field w 16 10) (field w 9 7) (field w 6 4))) from fun _ => rfl]
  all_goals simp (disch := omega) [encM_fields, zeros]

theorem Roundtrip.lds (d : Nat) (a : Nat) (bp : Nat) (w : Nat) : Statement (.lds d a bp w) := by
  intro h _
  have g : (isW w && runV d (runLen w) && isV a && isBp bp) = true := h
  simp [isV, isW, isBp] at g
  have := Roundtrip.lt_of_runV g.1.1.2
  refine ofWord 0xA2 _ rfl h rfl ⟨?_, ?_, ?_, .inr ⟨by decide, by decide, ?_⟩⟩
  rw [show ∀ w, candidateAt 0xA2 w = (zeros (field w 3 0) (.lds (field w 23 17) (field w 16 10) (field w 9 7) (field w 6 4))) from fun _ => rfl]
  all_goals simp (disch := omega) [encM_fields, zeros]

theorem Roundtrip.sts (d : Nat) (a : Nat) (bp : Nat) (w : Nat) : Statement (.sts d a bp w) := by
  intro h _
  have g : (isW w && runV d (runLen w) && isV a && isBp bp) = true := h
  simp [isV, isW, isBp] at g
  have := Roundtrip.lt_of_runV g.1.1.2
  refine ofWord 0xA3 _ rfl h rfl ⟨?_, ?_, ?_, .inr ⟨by decide, by decide, ?_⟩⟩
  rw [show ∀ w, candidateAt 0xA3 w = (zeros (field w 3 0) (.sts (field w 23 17) (field w 16 10) (field w 9 7) (field w 6 4))) from fun _ => rfl]
  all_goals simp (disch := omega) [encM_fields, zeros]

theorem Roundtrip.ldu (d : Nat) (a : Nat) (bp : Nat) (w : Nat) : Statement (.ldu d a bp w) := by
  intro h _
  have g : (isW w && runS d (runLen w) && isS a && isBp bp) = true := h
  simp [isS, isW, isBp] at g
  have := Roundtrip.lt_of_runS g.1.1.2
  refine ofWord 0xA4 _ rfl h rfl ⟨?_, ?_, ?_, .inr ⟨by decide, by decide, ?_⟩⟩
  rw [show ∀ w, candidateAt 0xA4 w = (zeros (field w 3 0) (.ldu (field w 23 17) (field w 16 10) (field w 9 7) (field w 6 4))) from fun _ => rfl]
  all_goals simp (disch := omega) [encM_fields, zeros]

theorem Roundtrip.stu (d : Nat) (a : Nat) (bp : Nat) (w : Nat) : Statement (.stu d a bp w) := by
  intro h _
  have g : (isW w && runS d (runLen w) && isS a && isBp bp) = true := h
  simp [isS, isW, isBp] at g
  have := Roundtrip.lt_of_runS g.1.1.2
  refine ofWord 0xA5 _ rfl h rfl ⟨?_, ?_, ?_, .inr ⟨by decide, by decide, ?_⟩⟩
  rw [show ∀ w, candidateAt 0xA5 w = (zeros (field w 3 0) (.stu (field w 23 17) (field w 16 10) (field w 9 7) (field w 6 4))) from fun _ => rfl]
  all_goals simp (disch := omega) [encM_fields, zeros]

theorem Roundtrip.tmov (d : Nat) (a : Nat) (b : Nat) : Statement (.tmov d a b) := by
  intro h _
  have g : (isS d && isS a && isPair b) = true := h
  simp [isS, isPair] at g
  refine ofWord 0xA6 _ rfl h rfl ⟨?_, ?_, ?_, .inl rfl⟩
  rw [show ∀ w, candidateAt 0xA6 w = (zeros (field w 2 0) (.tmov (field w 23 17) (field w 16 10) (field w 9 3))) from fun _ => rfl]
  all_goals simp (disch := omega) [encR_fields, zeros]

theorem Roundtrip.qpsh (q : Nat) (a : Nat) : Statement (.qpsh q a) := by
  intro h _
  have g : (qPush q && qRun q a) = true := h
  simp only [Bool.and_eq_true] at g
  have := Roundtrip.lt_of_qPush g.1
  have := Roundtrip.lt_of_qRun g.2
  refine ofWord 0xAC _ rfl h rfl ⟨?_, ?_, ?_, .inl rfl⟩
  rw [show ∀ w, candidateAt 0xAC w = (zeros (field w 9 0) (.qpsh (field w 23 17) (field w 16 10))) from fun _ => rfl]
  all_goals simp (disch := omega) [encR_fields, zeros]

theorem Roundtrip.qpop (d : Nat) (q : Nat) : Statement (.qpop d q) := by
  intro h _
  have g : (qPop q && qRun q d) = true := h
  simp only [Bool.and_eq_true] at g
  have := Roundtrip.lt_of_qPop g.1
  have := Roundtrip.lt_of_qRun g.2
  refine ofWord 0xAD _ rfl h rfl ⟨?_, ?_, ?_, .inl rfl⟩
  rw [show ∀ w, candidateAt 0xAD w = (zeros (field w 9 0) (.qpop (field w 23 17) (field w 16 10))) from fun _ => rfl]
  all_goals simp (disch := omega) [encR_fields, zeros]

theorem Roundtrip.qtry (o : QtryOp) (k : Nat) (a : Nat) (q : Nat) : Statement (.qtry o k a q) := by
  intro h _
  have g : (isK k && qtryOk o a q) = true := h
  have := o.code_lt
  simp [isK] at g
  have := Roundtrip.lt_of_qtryOk g.2
  refine ofWord 0xAE _ rfl h rfl ⟨?_, ?_, ?_, .inl rfl⟩
  rw [show ∀ w, candidateAt 0xAE w = ((qtryOf (field w 2 1)).bind fun o => zeros (bit (bitAt w 0)) (.qtry o (field w 23 17) (field w 16 10) (field w 9 3))) from fun _ => rfl]
  all_goals simp (disch := omega) [encR_fields, zeros, bit, qtryOf_code]

theorem Roundtrip.qbind (u : Bool) (q : Nat) (a : Nat) (k : Nat) : Statement (.qbind u q a k) := by
  intro h _
  have g : (isBq q && (if u then a == 0 && k == 0 else isS a && isK k)) = true := h
  cases u <;>
    (simp [isS, isK, isBq] at g;
     refine ofWord 0xAF _ rfl h rfl ⟨?_, ?_, ?_, .inl rfl⟩;
     rw [show ∀ w, candidateAt 0xAF w = (zeros (bit (bitAt w 2) + bit (bitAt w 0)) (.qbind (bitAt w 1) (field w 23 17) (field w 16 10) (field w 9 3))) from fun _ => rfl];
     all_goals simp (disch := omega) [encR_fields, zeros, bit])

theorem Roundtrip.bari (a : Nat) : Statement (.bari a) := by
  intro h _
  have g : (isS a) = true := h
  simp [isS] at g
  refine ofWord 0xB0 _ rfl h rfl ⟨?_, ?_, ?_, .inl rfl⟩
  rw [show ∀ w, candidateAt 0xB0 w = (zeros ((field w 23 17) + field w 9 0) (.bari (field w 16 10))) from fun _ => rfl]
  all_goals simp (disch := omega) [encR_fields, zeros]

theorem Roundtrip.barx (a : Nat) (b : Nat) : Statement (.barx a b) := by
  intro h _
  have g : (isS a && isS b) = true := h
  simp [isS] at g
  refine ofWord 0xB1 _ rfl h rfl ⟨?_, ?_, ?_, .inl rfl⟩
  rw [show ∀ w, candidateAt 0xB1 w = (zeros ((field w 23 17) + field w 2 0) (.barx (field w 16 10) (field w 9 3))) from fun _ => rfl]
  all_goals simp (disch := omega) [encR_fields, zeros]

theorem Roundtrip.bara (a : Nat) (b : Nat) : Statement (.bara a b) := by
  intro h _
  have g : (isS a && isS b) = true := h
  simp [isS] at g
  refine ofWord 0xB2 _ rfl h rfl ⟨?_, ?_, ?_, .inl rfl⟩
  rw [show ∀ w, candidateAt 0xB2 w = (zeros ((field w 23 17) + field w 2 0) (.bara (field w 16 10) (field w 9 3))) from fun _ => rfl]
  all_goals simp (disch := omega) [encR_fields, zeros]

theorem Roundtrip.barw (a : Nat) (b : Nat) : Statement (.barw a b) := by
  intro h _
  have g : (isS a && isS b) = true := h
  simp [isS] at g
  refine ofWord 0xB3 _ rfl h rfl ⟨?_, ?_, ?_, .inl rfl⟩
  rw [show ∀ w, candidateAt 0xB3 w = (zeros ((field w 23 17) + field w 2 0) (.barw (field w 16 10) (field w 9 3))) from fun _ => rfl]
  all_goals simp (disch := omega) [encR_fields, zeros]

theorem Roundtrip.phbeg (k : Nat) (a : Nat) : Statement (.phbeg k a) := by
  intro h _
  have g : (isK k && isS a) = true := h
  simp [isS, isK] at g
  refine ofWord 0xB4 _ rfl h rfl ⟨?_, ?_, ?_, .inl rfl⟩
  rw [show ∀ w, candidateAt 0xB4 w = (zeros (field w 9 0) (.phbeg (field w 23 17) (field w 16 10))) from fun _ => rfl]
  all_goals simp (disch := omega) [encR_fields, zeros]

theorem Roundtrip.phend (a : Nat) : Statement (.phend a) := by
  intro h _
  have g : (isS a) = true := h
  simp [isS] at g
  refine ofWord 0xB5 _ rfl h rfl ⟨?_, ?_, ?_, .inl rfl⟩
  rw [show ∀ w, candidateAt 0xB5 w = (zeros ((field w 23 17) + field w 9 0) (.phend (field w 16 10))) from fun _ => rfl]
  all_goals simp (disch := omega) [encR_fields, zeros]

theorem Roundtrip.tld (td : Nat) (va : Nat) (s : Bool) : Statement (.tld td va s) := by
  intro h _
  have g : (isTile td && runV va (if s then 2 else 1)) = true := h
  cases s <;>
    (simp [runV, isTile] at g;
     refine ofWord 0xC0 _ rfl h rfl ⟨?_, ?_, ?_, .inl rfl⟩;
     rw [show ∀ w, candidateAt 0xC0 w = (zeros ((field w 19 16) + (field w 15 12) + field w 4 1) (.tld (field w 23 20) (field w 11 5) (bitAt w 0))) from fun _ => rfl];
     all_goals simp (disch := omega) [encT_fields, zeros, bit])

theorem Roundtrip.tst (ta : Nat) (va : Nat) (s : Bool) : Statement (.tst ta va s) := by
  intro h _
  have g : (isTile ta && runV va (if s then 2 else 1)) = true := h
  cases s <;>
    (simp [runV, isTile] at g;
     refine ofWord 0xC1 _ rfl h rfl ⟨?_, ?_, ?_, .inl rfl⟩;
     rw [show ∀ w, candidateAt 0xC1 w = (zeros ((field w 23 20) + (field w 15 12) + field w 4 1) (.tst (field w 19 16) (field w 11 5) (bitAt w 0))) from fun _ => rfl];
     all_goals simp (disch := omega) [encT_fields, zeros, bit])

theorem Roundtrip.tzero (td : Nat) (acc : Bool) : Statement (.tzero td acc) := by
  intro h _
  have g : (if acc then isAcc td else isTile td) = true := h
  cases acc <;>
    (simp [isAcc, isTile] at g;
     refine ofWord 0xC2 _ rfl h rfl ⟨?_, ?_, ?_, .inl rfl⟩;
     rw [show ∀ w, candidateAt 0xC2 w = (zeros (field w 19 1) (.tzero (field w 23 20) (bitAt w 0))) from fun _ => rfl];
     all_goals simp (disch := omega) [encT_fields, zeros, bit])

theorem Roundtrip.tmma (ad : Nat) (ta : Nat) (tb : Nat) (vf : Nat) (z : Bool) : Statement (.tmma ad ta tb vf z) := by
  intro h _
  have g : (isAcc ad && isTile ta && isTile tb && isV vf) = true := h
  cases z <;>
    (simp [isV, isAcc, isTile] at g;
     refine ofWord 0xC3 _ rfl h rfl ⟨?_, ?_, ?_, .inl rfl⟩;
     rw [show ∀ w, candidateAt 0xC3 w = (zeros (field w 3 0) (.tmma (field w 23 20) (field w 19 16) (field w 15 12) (field w 11 5) (bitAt w 4))) from fun _ => rfl];
     all_goals simp (disch := omega) [encT_fields, zeros, bit])

theorem Roundtrip.tmmas (ad : Nat) (ta : Nat) (tb : Nat) (vf : Nat) (tm : Nat) (z : Bool) : Statement (.tmmas ad ta tb vf tm z) := by
  intro h _
  have g : (isAcc ad && isTile ta && isTile tb && isV vf && isTile tm) = true := h
  cases z <;>
    (simp [isV, isAcc, isTile] at g;
     refine ofWord 0xC4 _ rfl h rfl ⟨?_, ?_, ?_, .inl rfl⟩;
     rw [show ∀ w, candidateAt 0xC4 w = (some (.tmmas (field w 23 20) (field w 19 16) (field w 15 12) (field w 11 5) (field w 3 0) (bitAt w 4))) from fun _ => rfl];
     all_goals simp (disch := omega) [encT_fields, bit] <;> omega)

theorem Roundtrip.trdrow (vx : Nat) (ta : Nat) (side : Bool) (acc : Bool) : Statement (.trdrow vx ta side acc) := by
  intro h _
  have g : (isV vx && (if acc then isAcc ta && !side else isTile ta)) = true := h
  cases side <;> cases acc <;>
    simp [isV, isAcc, isTile] at g <;>
    (refine ofWord 0xC5 _ rfl h rfl ⟨?_, ?_, ?_, .inl rfl⟩;
     rw [show ∀ w, candidateAt 0xC5 w = (zeros ((field w 23 20) + (field w 15 12) + field w 4 2) (.trdrow (field w 11 5) (field w 19 16) (bitAt w 1) (bitAt w 0))) from fun _ => rfl];
     all_goals simp (disch := omega) [encT_fields, zeros, bit])

theorem Roundtrip.twrrow (td : Nat) (vx : Nat) (side : Bool) (acc : Bool) : Statement (.twrrow td vx side acc) := by
  intro h _
  have g : (runV vx 2 && (if acc then isAcc td && !side else isTile td)) = true := h
  cases side <;> cases acc <;>
    simp [runV, isAcc, isTile] at g <;>
    (refine ofWord 0xC6 _ rfl h rfl ⟨?_, ?_, ?_, .inl rfl⟩;
     rw [show ∀ w, candidateAt 0xC6 w = (zeros ((field w 19 16) + (field w 15 12) + field w 4 2) (.twrrow (field w 23 20) (field w 11 5) (bitAt w 1) (bitAt w 0))) from fun _ => rfl];
     all_goals simp (disch := omega) [encT_fields, zeros, bit])

theorem Roundtrip.ttrq (td : Nat) (ta : Nat) : Statement (.ttrq td ta) := by
  intro h _
  have g : (isTile td && isTile ta) = true := h
  simp [isTile] at g
  refine ofWord 0xC7 _ rfl h rfl ⟨?_, ?_, ?_, .inl rfl⟩
  rw [show ∀ w, candidateAt 0xC7 w = (zeros (field w 15 0) (.ttrq (field w 23 20) (field w 19 16))) from fun _ => rfl]
  all_goals simp (disch := omega) [encT_fields, zeros]

theorem Roundtrip.tcvt (td : Nat) (ta : Nat) (ss : Bool) (ds : Bool) : Statement (.tcvt td ta ss ds) := by
  intro h _
  have g : (isTile td && isTile ta) = true := h
  cases ss <;> cases ds <;>
    (simp [isTile] at g;
     refine ofWord 0xC8 _ rfl h rfl ⟨?_, ?_, ?_, .inl rfl⟩;
     rw [show ∀ w, candidateAt 0xC8 w = (zeros (field w 15 2) (.tcvt (field w 23 20) (field w 19 16) (bitAt w 0) (bitAt w 1))) from fun _ => rfl];
     all_goals simp (disch := omega) [encT_fields, zeros, bit])

theorem Roundtrip.trq (td : Nat) (aa : Nat) (vx : Nat) (ds : Bool) : Statement (.trq td aa vx ds) := by
  intro h _
  have g : (isTile td && isAcc aa && runV vx 3) = true := h
  cases ds <;>
    (simp [runV, isAcc, isTile] at g;
     refine ofWord 0xC9 _ rfl h rfl ⟨?_, ?_, ?_, .inl rfl⟩;
     rw [show ∀ w, candidateAt 0xC9 w = (zeros ((field w 15 12) + field w 4 1) (.trq (field w 23 20) (field w 19 16) (field w 11 5) (bitAt w 0))) from fun _ => rfl];
     all_goals simp (disch := omega) [encT_fields, zeros, bit])

theorem Roundtrip.mld (md : Nat) (v : Nat) (r : Nat) (c : Nat) : Statement (.mld md v r c) := by
  intro h _
  have g : (isM md && isV v && isDim r && isDim c) = true := h
  simp [isV, isM, isDim] at g
  refine ofWord 0xD0 _ rfl h rfl ⟨?_, ?_, ?_, .inl rfl⟩
  rw [show ∀ w, candidateAt 0xD0 w = (zeros ((field w 20 18) + (field w 17 15) + field w 1 0) (.mld (field w 23 21) (field w 14 8) (field w 7 5) (field w 4 2))) from fun _ => rfl]
  all_goals simp (disch := omega) [encQ_fields, zeros] <;> omega

theorem Roundtrip.mst (ma : Nat) (v : Nat) : Statement (.mst ma v) := by
  intro h _
  have g : (isM ma && isV v) = true := h
  simp [isV, isM] at g
  refine ofWord 0xD1 _ rfl h rfl ⟨?_, ?_, ?_, .inl rfl⟩
  rw [show ∀ w, candidateAt 0xD1 w = (zeros ((field w 23 21) + (field w 17 15) + field w 7 0) (.mst (field w 20 18) (field w 14 8))) from fun _ => rfl]
  all_goals simp (disch := omega) [encQ_fields, zeros]

theorem Roundtrip.mshape (md : Nat) (r : Nat) (c : Nat) : Statement (.mshape md r c) := by
  intro h _
  have g : (isM md && isDim r && isDim c) = true := h
  simp [isM, isDim] at g
  refine ofWord 0xD2 _ rfl h rfl ⟨?_, ?_, ?_, .inl rfl⟩
  rw [show ∀ w, candidateAt 0xD2 w = (zeros (field w 20 8 + field w 1 0) (.mshape (field w 23 21) (field w 7 5) (field w 4 2))) from fun _ => rfl]
  all_goals simp (disch := omega) [encQ_fields, zeros] <;> omega

theorem Roundtrip.mmul (d : Nat) (a : Nat) (b : Nat) : Statement (.mmul d a b) := by
  intro h _
  have g : (isM d && isM a && isM b) = true := h
  simp [isM] at g
  refine ofWord 0xD3 _ rfl h rfl ⟨?_, ?_, ?_, .inl rfl⟩
  rw [show ∀ w, candidateAt 0xD3 w = (zeros (field w 14 0) (.mmul (field w 23 21) (field w 20 18) (field w 17 15))) from fun _ => rfl]
  all_goals simp (disch := omega) [encQ_fields, zeros]

theorem Roundtrip.mmad (d : Nat) (a : Nat) (b : Nat) : Statement (.mmad d a b) := by
  intro h _
  have g : (isM d && isM a && isM b) = true := h
  simp [isM] at g
  refine ofWord 0xD4 _ rfl h rfl ⟨?_, ?_, ?_, .inl rfl⟩
  rw [show ∀ w, candidateAt 0xD4 w = (zeros (field w 14 0) (.mmad (field w 23 21) (field w 20 18) (field w 17 15))) from fun _ => rfl]
  all_goals simp (disch := omega) [encQ_fields, zeros]

theorem Roundtrip.madd (d : Nat) (a : Nat) (b : Nat) : Statement (.madd d a b) := by
  intro h _
  have g : (isM d && isM a && isM b) = true := h
  simp [isM] at g
  refine ofWord 0xD5 _ rfl h rfl ⟨?_, ?_, ?_, .inl rfl⟩
  rw [show ∀ w, candidateAt 0xD5 w = (zeros (field w 14 0) (.madd (field w 23 21) (field w 20 18) (field w 17 15))) from fun _ => rfl]
  all_goals simp (disch := omega) [encQ_fields, zeros]

theorem Roundtrip.msub (d : Nat) (a : Nat) (b : Nat) : Statement (.msub d a b) := by
  intro h _
  have g : (isM d && isM a && isM b) = true := h
  simp [isM] at g
  refine ofWord 0xD6 _ rfl h rfl ⟨?_, ?_, ?_, .inl rfl⟩
  rw [show ∀ w, candidateAt 0xD6 w = (zeros (field w 14 0) (.msub (field w 23 21) (field w 20 18) (field w 17 15))) from fun _ => rfl]
  all_goals simp (disch := omega) [encQ_fields, zeros]

theorem Roundtrip.mtrn (d : Nat) (a : Nat) : Statement (.mtrn d a) := by
  intro h _
  have g : (isM d && isM a) = true := h
  simp [isM] at g
  refine ofWord 0xD7 _ rfl h rfl ⟨?_, ?_, ?_, .inl rfl⟩
  rw [show ∀ w, candidateAt 0xD7 w = (zeros (field w 17 0) (.mtrn (field w 23 21) (field w 20 18))) from fun _ => rfl]
  all_goals simp (disch := omega) [encQ_fields, zeros]

theorem Roundtrip.mscl (d : Nat) (a : Nat) (v : Src) : Statement (.mscl d a v) := by
  intro h _
  have g : (isM d && isM a && v.wf) = true := h
  rcases v with n | n <;>
    (simp [isV, isS, Src.wf, isM] at g;
     refine ofWord 0xD8 _ rfl h rfl ⟨?_, ?_, ?_, .inl rfl⟩;
     rw [show ∀ w, candidateAt 0xD8 w = (zeros ((field w 17 15) + field w 7 1) (.mscl (field w 23 21) (field w 20 18) (srcOf (field w 14 8) (bitAt w 0)))) from fun _ => rfl];
     all_goals simp (disch := omega) [encQ_fields, zeros, bit, srcOf, Src.num, Src.uni])

theorem Roundtrip.mchol (d : Nat) (a : Nat) : Statement (.mchol d a) := by
  intro h _
  have g : (isM d && isM a) = true := h
  simp [isM] at g
  refine ofWord 0xD9 _ rfl h rfl ⟨?_, ?_, ?_, .inl rfl⟩
  rw [show ∀ w, candidateAt 0xD9 w = (zeros (field w 17 0) (.mchol (field w 23 21) (field w 20 18))) from fun _ => rfl]
  all_goals simp (disch := omega) [encQ_fields, zeros]

theorem Roundtrip.mlup (d : Nat) (a : Nat) (v : Nat) : Statement (.mlup d a v) := by
  intro h _
  have g : (isM d && isM a && isV v) = true := h
  simp [isV, isM] at g
  refine ofWord 0xDA _ rfl h rfl ⟨?_, ?_, ?_, .inl rfl⟩
  rw [show ∀ w, candidateAt 0xDA w = (zeros ((field w 17 15) + field w 7 0) (.mlup (field w 23 21) (field w 20 18) (field w 14 8))) from fun _ => rfl]
  all_goals simp (disch := omega) [encQ_fields, zeros]

theorem Roundtrip.msolv (d : Nat) (a : Nat) (b : Nat) (v : Nat) (m : SolveMode) : Statement (.msolv d a b v m) := by
  intro h _
  have g : (isM d && isM a && isM b && (if m == .lu then isV v else v == 0)) = true := h
  have := m.code_lt
  have g : d < 8 ∧ a < 8 ∧ b < 8 ∧ v < 128 := by revert g; cases m <;> simp [isM, isV] <;> omega
  refine ofWord 0xDB _ rfl h rfl ⟨?_, ?_, ?_, .inl rfl⟩
  rw [show ∀ w, candidateAt 0xDB w = (zeros (field w 7 2) (.msolv (field w 23 21) (field w 20 18) (field w 17 15) (field w 14 8) (solveOf (field w 1 0)))) from fun _ => rfl]
  all_goals simp (disch := omega) [encQ_fields, zeros, solveOf_code, show m.code / 4 = 0 by omega, show m.code % 4 = m.code by omega]

theorem Roundtrip.minv (d : Nat) (a : Nat) (c : Bool) : Statement (.minv d a c) := by
  intro h _
  have g : (isM d && isM a) = true := h
  cases c <;>
    (simp [isM] at g;
     refine ofWord 0xDC _ rfl h rfl ⟨?_, ?_, ?_, .inl rfl⟩;
     rw [show ∀ w, candidateAt 0xDC w = (zeros (field w 17 1) (.minv (field w 23 21) (field w 20 18) (bitAt w 0))) from fun _ => rfl];
     all_goals simp (disch := omega) [encQ_fields, zeros, bit])

theorem Roundtrip.mgete (v : Nat) (a : Nat) (i : Nat) (j : Nat) : Statement (.mgete v a i j) := by
  intro h _
  have g : (isV v && isM a && i < 6 && j < 6) = true := h
  simp [isV, isM] at g
  refine ofWord 0xDD _ rfl h rfl ⟨?_, ?_, ?_, .inl rfl⟩
  rw [show ∀ w, candidateAt 0xDD w = (zeros ((field w 23 21) + (field w 17 15) + field w 7 6) (.mgete (field w 14 8) (field w 20 18) (field w 5 3) (field w 2 0))) from fun _ => rfl]
  all_goals simp (disch := omega) [encQ_fields, zeros] <;> omega

theorem Roundtrip.msete (d : Nat) (v : Nat) (i : Nat) (j : Nat) : Statement (.msete d v i j) := by
  intro h _
  have g : (isM d && isV v && i < 6 && j < 6) = true := h
  simp [isV, isM] at g
  refine ofWord 0xDE _ rfl h rfl ⟨?_, ?_, ?_, .inl rfl⟩
  rw [show ∀ w, candidateAt 0xDE w = (zeros (field w 20 15 + field w 7 6) (.msete (field w 23 21) (field w 14 8) (field w 5 3) (field w 2 0))) from fun _ => rfl]
  all_goals simp (disch := omega) [encQ_fields, zeros] <;> omega

theorem Roundtrip.mstat (v : Nat) (c : Bool) : Statement (.mstat v c) := by
  intro h _
  have g : (isV v) = true := h
  cases c <;>
    (simp [isV] at g;
     refine ofWord 0xDF _ rfl h rfl ⟨?_, ?_, ?_, .inl rfl⟩;
     rw [show ∀ w, candidateAt 0xDF w = (zeros (field w 23 15 + field w 7 1) (.mstat (field w 14 8) (bitAt w 0))) from fun _ => rfl];
     all_goals simp (disch := omega) [encQ_fields, zeros, bit])

theorem Roundtrip.slbind (m : BindMode) (k : Nat) (a : Nat) : Statement (.slbind m k a) := by
  intro h _
  have g : (if m == .unbind then k == 0 && a == 0 else isK k && isS a) = true := h
  have := m.code_lt
  have g : k < 4 ∧ a < 64 := by revert g; cases m <;> simp [isK, isS] <;> omega
  refine ofWord 0xE0 _ rfl h rfl ⟨?_, ?_, ?_, .inl rfl⟩
  rw [show ∀ w, candidateAt 0xE0 w = ((bindOf (field w 2 1)).bind fun m => zeros ((field w 9 3) + bit (bitAt w 0)) (.slbind m (field w 23 17) (field w 16 10))) from fun _ => rfl]
  all_goals simp (disch := omega) [encR_fields, zeros, bit, bindOf_code]

theorem Roundtrip.slscor (d : Nat) (a : Nat) (b : Nat) : Statement (.slscor d a b) := by
  intro h _
  have g : (isV d && isV a && isV b) = true := h
  simp [isV] at g
  refine ofWord 0xE1 _ rfl h rfl ⟨?_, ?_, ?_, .inl rfl⟩
  rw [show ∀ w, candidateAt 0xE1 w = (zeros (field w 2 0) (.slscor (field w 23 17) (field w 16 10) (field w 9 3))) from fun _ => rfl]
  all_goals simp (disch := omega) [encR_fields, zeros]

theorem Roundtrip.slfin (p : Nat) (a : Nat) : Statement (.slfin p a) := by
  intro h _
  have g : (isP p && isV a) = true := h
  simp [isV, isP] at g
  refine ofWord 0xE2 _ rfl h rfl ⟨?_, ?_, ?_, .inl rfl⟩
  rw [show ∀ w, candidateAt 0xE2 w = (zeros (field w 9 0) (.slfin (field w 23 17) (field w 16 10))) from fun _ => rfl]
  all_goals simp (disch := omega) [encR_fields, zeros]

theorem Roundtrip.slropn (d : Nat) (a : Nat) : Statement (.slropn d a) := by
  intro h _
  have g : (isV d && isV a) = true := h
  simp [isV] at g
  refine ofWord 0xE3 _ rfl h rfl ⟨?_, ?_, ?_, .inl rfl⟩
  rw [show ∀ w, candidateAt 0xE3 w = (zeros (field w 9 0) (.slropn (field w 23 17) (field w 16 10))) from fun _ => rfl]
  all_goals simp (disch := omega) [encR_fields, zeros]

theorem Roundtrip.slst (d : Nat) (a : Nat) (acq : Bool) : Statement (.slst d a acq) := by
  intro h _
  have g : (runV d 2 && isV a) = true := h
  cases acq <;>
    (simp [isV, runV] at g;
     refine ofWord 0xE4 _ rfl h rfl ⟨?_, ?_, ?_, .inl rfl⟩;
     rw [show ∀ w, candidateAt 0xE4 w = (zeros ((field w 9 3) + bit (bitAt w 2) + bit (bitAt w 0)) (.slst (field w 23 17) (field w 16 10) (bitAt w 1))) from fun _ => rfl];
     all_goals simp (disch := omega) [encR_fields, zeros, bit])

theorem Roundtrip.slkvc (d : Nat) (a : Nat) : Statement (.slkvc d a) := by
  intro h _
  have g : (isV d && isV a) = true := h
  simp [isV] at g
  refine ofWord 0xE5 _ rfl h rfl ⟨?_, ?_, ?_, .inl rfl⟩
  rw [show ∀ w, candidateAt 0xE5 w = (zeros (field w 9 0) (.slkvc (field w 23 17) (field w 16 10))) from fun _ => rfl]
  all_goals simp (disch := omega) [encR_fields, zeros]

theorem Roundtrip.slemit (d : Nat) : Statement (.slemit d) := by
  intro h _
  have g : (isS d) = true := h
  simp [isS] at g
  refine ofWord 0xE6 _ rfl h rfl ⟨?_, ?_, ?_, .inl rfl⟩
  rw [show ∀ w, candidateAt 0xE6 w = (zeros (field w 16 0) (.slemit (field w 23 17))) from fun _ => rfl]
  all_goals simp (disch := omega) [encR_fields, zeros]

theorem Roundtrip.apxb (a : Nat) : Statement (.apxb a) := by
  intro h _
  have g : (isS a) = true := h
  simp [isS] at g
  refine ofWord 0xE8 _ rfl h rfl ⟨?_, ?_, ?_, .inl rfl⟩
  rw [show ∀ w, candidateAt 0xE8 w = (zeros ((field w 23 17) + field w 9 0) (.apxb (field w 16 10))) from fun _ => rfl]
  all_goals simp (disch := omega) [encR_fields, zeros]

theorem Roundtrip.apxe : Statement .apxe := by
  intro h _
  refine ofWord 0xE9 _ rfl h rfl ⟨?_, ?_, ?_, .inl rfl⟩
  rw [show ∀ w, candidateAt 0xE9 w = (zeros (field w 23 0) .apxe) from fun _ => rfl]
  all_goals simp (disch := omega) [encR_fields, zeros]

theorem Roundtrip.fitcfg (d : Nat) (a : Nat) : Statement (.fitcfg d a) := by
  intro h _
  have g : (isS d && isPair a) = true := h
  simp [isS, isPair] at g
  refine ofWord 0xEA _ rfl h rfl ⟨?_, ?_, ?_, .inl rfl⟩
  rw [show ∀ w, candidateAt 0xEA w = (zeros (field w 9 0) (.fitcfg (field w 23 17) (field w 16 10))) from fun _ => rfl]
  all_goals simp (disch := omega) [encR_fields, zeros]

theorem Roundtrip.fitinv (a : Nat) (f : Bool) : Statement (.fitinv a f) := by
  intro h _
  have g : (isS a) = true := h
  cases f <;>
    (simp [isS] at g;
     refine ofWord 0xEB _ rfl h rfl ⟨?_, ?_, ?_, .inl rfl⟩;
     rw [show ∀ w, candidateAt 0xEB w = (zeros ((field w 23 17) + (field w 9 3) + bit (bitAt w 2) + bit (bitAt w 0)) (.fitinv (field w 16 10) (bitAt w 1))) from fun _ => rfl];
     all_goals simp (disch := omega) [encR_fields, zeros, bit])

theorem Roundtrip.fitst (d : Nat) (a : Nat) : Statement (.fitst d a) := by
  intro h _
  have g : (runS d 4 && isS a) = true := h
  simp [isS, runS] at g
  refine ofWord 0xEC _ rfl h rfl ⟨?_, ?_, ?_, .inl rfl⟩
  rw [show ∀ w, candidateAt 0xEC w = (zeros (field w 9 0) (.fitst (field w 23 17) (field w 16 10))) from fun _ => rfl]
  all_goals simp (disch := omega) [encR_fields, zeros]

theorem Roundtrip.fitld (a : Nat) (b : Nat) : Statement (.fitld a b) := by
  intro h _
  have g : (isS a && isPair b) = true := h
  simp [isS, isPair] at g
  refine ofWord 0xED _ rfl h rfl ⟨?_, ?_, ?_, .inl rfl⟩
  rw [show ∀ w, candidateAt 0xED w = (zeros ((field w 23 17) + field w 2 0) (.fitld (field w 16 10) (field w 9 3))) from fun _ => rfl]
  all_goals simp (disch := omega) [encR_fields, zeros]

theorem Roundtrip.fitsv (a : Nat) (b : Nat) : Statement (.fitsv a b) := by
  intro h _
  have g : (isS a && isPair b) = true := h
  simp [isS, isPair] at g
  refine ofWord 0xEE _ rfl h rfl ⟨?_, ?_, ?_, .inl rfl⟩
  rw [show ∀ w, candidateAt 0xEE w = (zeros ((field w 23 17) + field w 2 0) (.fitsv (field w 16 10) (field w 9 3))) from fun _ => rfl]
  all_goals simp (disch := omega) [encR_fields, zeros]

theorem Roundtrip.qend : Statement .qend := by
  intro h _
  refine ofWord 0xF0 _ rfl h rfl ⟨?_, ?_, ?_, .inl rfl⟩
  rw [show ∀ w, candidateAt 0xF0 w = (zeros (field w 23 0) .qend) from fun _ => rfl]
  all_goals simp (disch := omega) [encR_fields, zeros]

theorem Roundtrip.shrd (d : Nat) : Statement (.shrd d) := by
  intro h _
  have g : (isS d) = true := h
  simp [isS] at g
  refine ofWord 0xF1 _ rfl h rfl ⟨?_, ?_, ?_, .inl rfl⟩
  rw [show ∀ w, candidateAt 0xF1 w = (zeros (field w 16 0) (.shrd (field w 23 17))) from fun _ => rfl]
  all_goals simp (disch := omega) [encR_fields, zeros]

theorem Roundtrip.bru (c : UCond) (off : BitVec 17) : Statement (.bru c off) := by
  intro h _
  have := off.isLt
  cases c with
  | always =>
    refine ofWord 0x09 (encJ 0x09 7 0 off.toNat) rfl h rfl ⟨?_, ?_, ?_, .inl rfl⟩
    rw [show ∀ w, candidateAt 0x09 w = ((ucondOf (field w 23 21) (bitAt w 20)).bind fun c => zeros (field w 19 17) (.bru c (BitVec.ofNat 17 w))) from fun _ => rfl]
    all_goals simp (disch := omega) [encJ_fields, zeros, ucondOf]
  | k n neg =>
    have g : decide (n < 4) = true := h
    cases neg <;>
      (simp at g
       refine ofWord 0x09 (encJ 0x09 n _ off.toNat) rfl h rfl ⟨?_, ?_, ?_, .inl rfl⟩
       rw [show ∀ w, candidateAt 0x09 w = ((ucondOf (field w 23 21) (bitAt w 20)).bind fun c => zeros (field w 19 17) (.bru c (BitVec.ofNat 17 w))) from fun _ => rfl]
       all_goals simp (disch := omega) [encJ_fields, zeros, ucondOf, bit, g])

theorem Roundtrip.call (c : UCond) (off : BitVec 17) : Statement (.call c off) := by
  intro h _
  have := off.isLt
  cases c with
  | always =>
    refine ofWord 0x0B (encJ 0x0B 7 0 off.toNat) rfl h rfl ⟨?_, ?_, ?_, .inl rfl⟩
    rw [show ∀ w, candidateAt 0x0B w = ((ucondOf (field w 23 21) (bitAt w 20)).bind fun c => zeros (field w 19 17) (.call c (BitVec.ofNat 17 w))) from fun _ => rfl]
    all_goals simp (disch := omega) [encJ_fields, zeros, ucondOf]
  | k n neg =>
    have g : decide (n < 4) = true := h
    cases neg <;>
      (simp at g
       refine ofWord 0x0B (encJ 0x0B n _ off.toNat) rfl h rfl ⟨?_, ?_, ?_, .inl rfl⟩
       rw [show ∀ w, candidateAt 0x0B w = ((ucondOf (field w 23 21) (bitAt w 20)).bind fun c => zeros (field w 19 17) (.call c (BitVec.ofNat 17 w))) from fun _ => rfl]
       all_goals simp (disch := omega) [encJ_fields, zeros, ucondOf, bit, g])

theorem Roundtrip.wait (ld st cp tl : Nat) : Statement (.wait ld st cp tl) := by
  intro h _
  have g : (ld < 16 && st < 16 && cp < 16 && tl < 16) = true := h
  simp at g
  refine ofWord 0x0F (0x0F * 2 ^ 24 + ld * 2 ^ 20 + st * 2 ^ 16 + cp * 2 ^ 12 + tl * 2 ^ 8) rfl h rfl ⟨?_, ?_, ?_, .inl rfl⟩
  rw [show ∀ w, candidateAt 0x0F w = zeros (field w 7 0) (.wait (field w 23 20) (field w 19 16) (field w 15 12) (field w 11 8)) from fun _ => rfl]
  · simp only [zeros, field, Nat.shiftRight_eq_div_pow]
    rw [if_pos (by omega), Option.some.injEq, Instr.wait.injEq]
    omega
  · omega
  · simp only [field, Nat.shiftRight_eq_div_pow]
    omega

theorem Roundtrip.ofTwo {i : Instr} {k : TwoWord} {w0 w1 : Nat} (he : encode i = [w0, w1]) (h0 : isOpcode (field w0 31 24) = true)
    (h : twoWord w0 = some k ∧ secondWord k w1 = some i ∧ w0 < 4294967296 ∧ w1 < 4294967296) (rest : List Byte) :
    decode (encodeBytes i ++ rest) = .ok i rest := by
  have e : encodeBytes i = wordBytes w0 ++ wordBytes w1 := by unfold encodeBytes; rw [he]; simp
  rw [e]
  exact decode_two (by unfold firstWord; rw [h0, h.1]; rfl) h.2.1 h.2.2.1 h.2.2.2 rest

theorem Roundtrip.limm (d : Nat) (imm : Word) : Statement (.limm d imm) := by
  intro h _
  have g : isV d = true := h
  have := imm.isLt
  simp [isV] at g
  refine ofTwo (k := .limm d) rfl ?_ ⟨?_, congrArg (fun v => some (Instr.limm d v)) (by simp : BitVec.ofNat 32 imm.toNat = imm), ?_, this⟩ <;>
    simp (disch := omega) [encL_fields, twoWord, isOpcode]

theorem Roundtrip.ulimm (d : Nat) (imm : Word) : Statement (.ulimm d imm) := by
  intro h _
  have g : isS d = true := h
  have := imm.isLt
  simp [isS] at g
  refine ofTwo (k := .ulimm d) rfl ?_ ⟨?_, congrArg (fun v => some (Instr.ulimm d v)) (by simp : BitVec.ofNat 32 imm.toNat = imm), ?_, this⟩ <;>
    simp (disch := omega) [encL_fields, twoWord, isOpcode, isS, g]

/-! ### Extension words -/

theorem Roundtrip.bit_lt (b : Bool) : bit b < 2 := by cases b <;> decide

theorem Roundtrip.bit_eq (b : Bool) : (bit b == 1) = b := by cases b <;> rfl

theorem Roundtrip.encX_lt (x : MemExt) : encX x < 4294967296 := by
  have := x.offset.isLt
  have := x.order.code_lt
  have := x.scope.code_lt
  have := bit_lt x.sx
  unfold encX
  omega

theorem Roundtrip.memExtOf_encX (x : MemExt) : memExtOf (encX x) = some x := by
  have := x.offset.isLt
  have := x.order.code_lt
  have := x.scope.code_lt
  have := bit_lt x.sx
  have e1 : field (encX x) 31 30 = x.order.code := by simp only [field, encX, Nat.shiftRight_eq_div_pow]; omega
  have e2 : field (encX x) 29 27 = x.scope.code := by simp only [field, encX, Nat.shiftRight_eq_div_pow]; omega
  have e3 : field (encX x) 25 16 = 0 := by simp only [field, encX, Nat.shiftRight_eq_div_pow]; omega
  have e4 : bitAt (encX x) 26 = x.sx := by
    rw [bitAt, Nat.shiftRight_eq_div_pow, show encX x / 2 ^ 26 % 2 = bit x.sx by unfold encX; omega, bit_eq]
  have e5 : BitVec.ofNat 16 (encX x) = x.offset := by
    apply BitVec.eq_of_toNat_eq
    simp only [BitVec.toNat_ofNat, encX]
    omega
  simp only [memExtOf, e1, e2, e3, e4, e5, scopeOf_code, orderOf_code, ne_eq, not_true_eq_false, if_false]

theorem Roundtrip.encA_lt (x : AtomExt) : encA x < 4294967296 := by
  have := x.order.code_lt
  have := x.scope.code_lt
  have := x.op.code_lt
  have := bit_lt x.det
  have := bit_lt x.wide
  unfold encA
  omega

theorem Roundtrip.atomExtOf_encA (x : AtomExt) : atomExtOf (encA x) = some x := by
  have := x.order.code_lt
  have := x.scope.code_lt
  have := x.op.code_lt
  have := bit_lt x.det
  have := bit_lt x.wide
  have e1 : field (encA x) 31 30 = x.order.code := by simp only [field, encA, Nat.shiftRight_eq_div_pow]; omega
  have e2 : field (encA x) 29 27 = x.scope.code := by simp only [field, encA, Nat.shiftRight_eq_div_pow]; omega
  have e3 : field (encA x) 26 23 = x.op.code := by simp only [field, encA, Nat.shiftRight_eq_div_pow]; omega
  have e4 : field (encA x) 19 0 = 0 := by simp only [field, encA, Nat.shiftRight_eq_div_pow]; omega
  have e5 : field (encA x) 21 20 = bit x.wide := by simp only [field, encA, Nat.shiftRight_eq_div_pow]; omega
  have e6 : bitAt (encA x) 22 = x.det := by
    rw [bitAt, Nat.shiftRight_eq_div_pow, show encA x / 2 ^ 22 % 2 = bit x.det by unfold encA; omega, bit_eq]
  unfold atomExtOf
  rw [e1, e2, e3, e4, e5, e6, scopeOf_code, orderOf_code, atomOpOf_code]
  obtain ⟨order, scope, op, det, wide⟩ := x
  cases wide <;> rfl

theorem Roundtrip.lt_of_run {d n : Nat} (hn : 1 ≤ n) (h : runV d n = true) : d < 128 := by
  simp [runV] at h
  omega

theorem Roundtrip.lt_of_runU {d n : Nat} (hn : 1 ≤ n) (h : runS d n = true) : d < 64 := by
  simp [runS] at h
  omega

theorem Roundtrip.one_le_run (x : AtomExt) : 1 ≤ x.run := by
  unfold AtomExt.run
  split <;> split <;> decide

/-- The first word of an extended memory instruction whose plain form is well formed. -/
theorem Roundtrip.twoWord_mem {op d a bp w : Nat} {i : Instr} (ho : 0xA0 ≤ op ∧ op ≤ 0xA5) (hd : d < 128) (ha : a < 128) (hb : bp < 8)
    (hw : w < 8) (hi : memPlain op d a bp w = some i) (hwf : i.wf = true) :
    twoWord (encM op d a bp w 1) = some (.mem op d a bp w) := by
  have h1 : op ≠ 75 := by omega
  have h2 : op ≠ 99 := by omega
  simp (disch := omega) [twoWord, encM_fields, hi, hwf, h1, h2, ho.1, ho.2]

theorem Roundtrip.twoWord_atomic {op d a bp : Nat} (ho : 0xA8 ≤ op ∧ op ≤ 0xAA) (hd : d < 128) (ha : a < 128) (hb : bp < 8)
    (hk : (if op = 0xA9 then isS d && isS a else isV d && isV a) = true) :
    twoWord (encM op d a bp 0 1) = some (.atomic op d a bp) := by
  have h1 : op ≠ 75 := by omega
  have h2 : op ≠ 99 := by omega
  have h3 : ¬ op ≤ 165 := by omega
  have h4 : (¬ op = 0xA9 ∧ isV d && isV a) ∨ (op = 0xA9 ∧ isS d && isS a) := by
    split at hk <;> simp_all
  rcases h4 with h4 | h4 <;> simp (disch := omega) [twoWord, encM_fields, h1, h2, h3, ho.1, ho.2, h4] <;> simp_all

theorem Roundtrip.ldgX (d a bp w : Nat) (x : MemExt) : Statement (.ldgX d a bp w x) := by
  intro h _
  have g : (isW w && runV d (runLen w) && isV a && isBp bp && x.loadOk w) = true := h
  simp only [Bool.and_eq_true] at g
  have hp : (Instr.ldg d a bp w).wf = true :=
    show (isW w && runV d (runLen w) && isV a && isBp bp) = true by simp [g.1.1.1.1, g.1.1.1.2, g.1.1.2, g.1.2]
  have hd := lt_of_runV g.1.1.1.2
  simp only [isW, isV, isBp, decide_eq_true_eq] at g
  refine ofTwo rfl ?_ ⟨twoWord_mem ⟨by decide, by decide⟩ (by omega) (by omega) g.1.2 (by omega) rfl hp, ?_, ?_, encX_lt x⟩
  · simp (disch := omega) [encM_fields, isOpcode]
  · show ((memExtOf (encX x)).bind fun x => (some (Instr.ldgX d a bp w x)).bind fun i => if i.wf then some i else none) = _
    simp [memExtOf_encX, h]
  · simp (disch := omega) [encM_fields]

theorem Roundtrip.stgX (d a bp w : Nat) (x : MemExt) : Statement (.stgX d a bp w x) := by
  intro h _
  have g : (isW w && runV d (runLen w) && isV a && isBp bp && x.storeOk) = true := h
  simp only [Bool.and_eq_true] at g
  have hp : (Instr.stg d a bp w).wf = true :=
    show (isW w && runV d (runLen w) && isV a && isBp bp) = true by simp [g.1.1.1.1, g.1.1.1.2, g.1.1.2, g.1.2]
  have hd := lt_of_runV g.1.1.1.2
  simp only [isW, isV, isBp, decide_eq_true_eq] at g
  refine ofTwo rfl ?_ ⟨twoWord_mem ⟨by decide, by decide⟩ (by omega) (by omega) g.1.2 (by omega) rfl hp, ?_, ?_, encX_lt x⟩
  · simp (disch := omega) [encM_fields, isOpcode]
  · show ((memExtOf (encX x)).bind fun x => (some (Instr.stgX d a bp w x)).bind fun i => if i.wf then some i else none) = _
    simp [memExtOf_encX, h]
  · simp (disch := omega) [encM_fields]

theorem Roundtrip.ldsX (d a bp w : Nat) (x : MemExt) : Statement (.ldsX d a bp w x) := by
  intro h _
  have g : (isW w && runV d (runLen w) && isV a && isBp bp && x.loadOk w) = true := h
  simp only [Bool.and_eq_true] at g
  have hp : (Instr.lds d a bp w).wf = true :=
    show (isW w && runV d (runLen w) && isV a && isBp bp) = true by simp [g.1.1.1.1, g.1.1.1.2, g.1.1.2, g.1.2]
  have hd := lt_of_runV g.1.1.1.2
  simp only [isW, isV, isBp, decide_eq_true_eq] at g
  refine ofTwo rfl ?_ ⟨twoWord_mem ⟨by decide, by decide⟩ (by omega) (by omega) g.1.2 (by omega) rfl hp, ?_, ?_, encX_lt x⟩
  · simp (disch := omega) [encM_fields, isOpcode]
  · show ((memExtOf (encX x)).bind fun x => (some (Instr.ldsX d a bp w x)).bind fun i => if i.wf then some i else none) = _
    simp [memExtOf_encX, h]
  · simp (disch := omega) [encM_fields]

theorem Roundtrip.stsX (d a bp w : Nat) (x : MemExt) : Statement (.stsX d a bp w x) := by
  intro h _
  have g : (isW w && runV d (runLen w) && isV a && isBp bp && x.storeOk) = true := h
  simp only [Bool.and_eq_true] at g
  have hp : (Instr.sts d a bp w).wf = true :=
    show (isW w && runV d (runLen w) && isV a && isBp bp) = true by simp [g.1.1.1.1, g.1.1.1.2, g.1.1.2, g.1.2]
  have hd := lt_of_runV g.1.1.1.2
  simp only [isW, isV, isBp, decide_eq_true_eq] at g
  refine ofTwo rfl ?_ ⟨twoWord_mem ⟨by decide, by decide⟩ (by omega) (by omega) g.1.2 (by omega) rfl hp, ?_, ?_, encX_lt x⟩
  · simp (disch := omega) [encM_fields, isOpcode]
  · show ((memExtOf (encX x)).bind fun x => (some (Instr.stsX d a bp w x)).bind fun i => if i.wf then some i else none) = _
    simp [memExtOf_encX, h]
  · simp (disch := omega) [encM_fields]

theorem Roundtrip.lduX (d a bp w : Nat) (x : MemExt) : Statement (.lduX d a bp w x) := by
  intro h _
  have g : (isW w && runS d (runLen w) && isS a && isBp bp && x.loadOk w) = true := h
  simp only [Bool.and_eq_true] at g
  have hp : (Instr.ldu d a bp w).wf = true :=
    show (isW w && runS d (runLen w) && isS a && isBp bp) = true by simp [g.1.1.1.1, g.1.1.1.2, g.1.1.2, g.1.2]
  have hd := lt_of_runS g.1.1.1.2
  simp only [isW, isS, isBp, decide_eq_true_eq] at g
  refine ofTwo rfl ?_ ⟨twoWord_mem ⟨by decide, by decide⟩ (by omega) (by omega) g.1.2 (by omega) rfl hp, ?_, ?_, encX_lt x⟩
  · simp (disch := omega) [encM_fields, isOpcode]
  · show ((memExtOf (encX x)).bind fun x => (some (Instr.lduX d a bp w x)).bind fun i => if i.wf then some i else none) = _
    simp [memExtOf_encX, h]
  · simp (disch := omega) [encM_fields]

theorem Roundtrip.stuX (d a bp w : Nat) (x : MemExt) : Statement (.stuX d a bp w x) := by
  intro h _
  have g : (isW w && runS d (runLen w) && isS a && isBp bp && x.storeOk) = true := h
  simp only [Bool.and_eq_true] at g
  have hp : (Instr.stu d a bp w).wf = true :=
    show (isW w && runS d (runLen w) && isS a && isBp bp) = true by simp [g.1.1.1.1, g.1.1.1.2, g.1.1.2, g.1.2]
  have hd := lt_of_runS g.1.1.1.2
  simp only [isW, isS, isBp, decide_eq_true_eq] at g
  refine ofTwo rfl ?_ ⟨twoWord_mem ⟨by decide, by decide⟩ (by omega) (by omega) g.1.2 (by omega) rfl hp, ?_, ?_, encX_lt x⟩
  · simp (disch := omega) [encM_fields, isOpcode]
  · show ((memExtOf (encX x)).bind fun x => (some (Instr.stuX d a bp w x)).bind fun i => if i.wf then some i else none) = _
    simp [memExtOf_encX, h]
  · simp (disch := omega) [encM_fields]

theorem Roundtrip.atom (d a bp : Nat) (x : AtomExt) : Statement (.atom d a bp x) := by
  intro h _
  have g : (runV d x.run && isV a && isBp bp && x.ok) = true := h
  simp only [Bool.and_eq_true] at g
  have hd := lt_of_run (one_le_run x) g.1.1.1
  have ha := g.1.1.2
  simp only [isV, isBp, decide_eq_true_eq] at g ha
  refine ofTwo rfl ?_ ⟨twoWord_atomic ⟨by decide, by decide⟩ (by omega) (by omega) g.1.2 (by simp [isV]; omega), ?_, ?_, encA_lt x⟩
  · simp (disch := omega) [encM_fields, isOpcode]
  · show ((atomExtOf (encA x)).bind fun x => (some (Instr.atom d a bp x)).bind fun i => if i.wf then some i else none) = _
    simp [atomExtOf_encA, h]
  · simp (disch := omega) [encM_fields]

theorem Roundtrip.atomu (d a bp : Nat) (x : AtomExt) : Statement (.atomu d a bp x) := by
  intro h _
  have g : (runS d x.run && isS a && isBp bp && x.ok) = true := h
  simp only [Bool.and_eq_true] at g
  have hd := lt_of_runU (one_le_run x) g.1.1.1
  have ha := g.1.1.2
  simp only [isS, isBp, decide_eq_true_eq] at g ha
  refine ofTwo rfl ?_ ⟨twoWord_atomic ⟨by decide, by decide⟩ (by omega) (by omega) g.1.2 (by simp [isS]; omega), ?_, ?_, encA_lt x⟩
  · simp (disch := omega) [encM_fields, isOpcode]
  · show ((atomExtOf (encA x)).bind fun x => (some (Instr.atomu d a bp x)).bind fun i => if i.wf then some i else none) = _
    simp [atomExtOf_encA, h]
  · simp (disch := omega) [encM_fields]

theorem Roundtrip.mred (d a bp : Nat) (x : AtomExt) : Statement (.mred d a bp x) := by
  intro h _
  have g : (runV d (if x.wide then 2 else 1) && isV a && isBp bp && x.mredOk) = true := h
  simp only [Bool.and_eq_true] at g
  have hd := lt_of_run (by split <;> decide) g.1.1.1
  have ha := g.1.1.2
  simp only [isV, isBp, decide_eq_true_eq] at g ha
  refine ofTwo rfl ?_ ⟨twoWord_atomic ⟨by decide, by decide⟩ (by omega) (by omega) g.1.2 (by simp [isV]; omega), ?_, ?_, encA_lt x⟩
  · simp (disch := omega) [encM_fields, isOpcode]
  · show ((atomExtOf (encA x)).bind fun x => (some (Instr.mred d a bp x)).bind fun i => if i.wf then some i else none) = _
    simp [atomExtOf_encA, h]
  · simp (disch := omega) [encM_fields]


/-! ### The steps of other agents have no words -/

theorem Roundtrip.hloopEndCheck : Statement .hloopEndCheck := fun _ h => nomatch h
theorem Roundtrip.illegalInstructionWord (w : Word) : Statement (.illegalInstructionWord w) := fun _ h => nomatch h
theorem Roundtrip.instructionFetchPageFault (second : Bool) : Statement (.instructionFetchPageFault second) := fun _ h => nomatch h
theorem Roundtrip.sysNull (req : Nat) : Statement (.sysNull req) := fun _ h => nomatch h
theorem Roundtrip.sysMap (req : Nat) (pages : List Nat) : Statement (.sysMap req pages) := fun _ h => nomatch h
theorem Roundtrip.sysUnmap (req : Nat) : Statement (.sysUnmap req) := fun _ h => nomatch h
theorem Roundtrip.sysResume (req : Nat) : Statement (.sysResume req) := fun _ h => nomatch h
theorem Roundtrip.sysSkip (req : Nat) : Statement (.sysSkip req) := fun _ h => nomatch h
theorem Roundtrip.sysAbort (req : Nat) : Statement (.sysAbort req) := fun _ h => nomatch h
theorem Roundtrip.sysSignal (req : Nat) : Statement (.sysSignal req) := fun _ h => nomatch h
theorem Roundtrip.sysNotify (req : Nat) : Statement (.sysNotify req) := fun _ h => nomatch h
theorem Roundtrip.sysInval (req : Nat) : Statement (.sysInval req) := fun _ h => nomatch h
theorem Roundtrip.sysCompletion (req : Nat) : Statement (.sysCompletion req) := fun _ h => nomatch h
theorem Roundtrip.racqGrant (core : Nat) : Statement (.racqGrant core) := fun _ h => nomatch h
theorem Roundtrip.racqTimeout (wave : Nat) : Statement (.racqTimeout wave) := fun _ h => nomatch h
theorem Roundtrip.loadSectorReturn (wave : Nat) (seq : Nat) (idx : Nat) : Statement (.loadSectorReturn wave seq idx) := fun _ h => nomatch h
theorem Roundtrip.storePerformed (wave : Nat) (seq : Nat) : Statement (.storePerformed wave seq) := fun _ h => nomatch h
theorem Roundtrip.memoryError (wave : Nat) (seq : Nat) (idx : Nat) : Statement (.memoryError wave seq idx) := fun _ h => nomatch h
theorem Roundtrip.fabricError (wave : Nat) (seq : Nat) (idx : Nat) : Statement (.fabricError wave seq idx) := fun _ h => nomatch h
theorem Roundtrip.pageWalk (die : Nat) : Statement (.pageWalk die) := fun _ h => nomatch h
theorem Roundtrip.walkCompletion (die : Nat) (idx : Nat) : Statement (.walkCompletion die idx) := fun _ h => nomatch h
theorem Roundtrip.translationInvalidationComplete (inv : Nat) : Statement (.translationInvalidationComplete inv) := fun _ h => nomatch h
theorem Roundtrip.tmovCompletion (wave : Nat) (seq : Nat) : Statement (.tmovCompletion wave seq) := fun _ h => nomatch h
theorem Roundtrip.atomicRequest (wave : Nat) (seq : Nat) (idx : Nat) : Statement (.atomicRequest wave seq idx) := fun _ h => nomatch h
theorem Roundtrip.atomicResultReturn (wave : Nat) (part : PartAt) : Statement (.atomicResultReturn wave part) := fun _ h => nomatch h
theorem Roundtrip.collectionWindowClose (cluster : Nat) : Statement (.collectionWindowClose cluster) := fun _ h => nomatch h
theorem Roundtrip.copyCommand (cluster : Nat) (engine : Nat) : Statement (.copyCommand cluster engine) := fun _ h => nomatch h
theorem Roundtrip.rectangleCopyCommand (cluster : Nat) (engine : Nat) : Statement (.rectangleCopyCommand cluster engine) := fun _ h => nomatch h
theorem Roundtrip.gatherCommand (cluster : Nat) : Statement (.gatherCommand cluster) := fun _ h => nomatch h
theorem Roundtrip.scatterCommand (cluster : Nat) : Statement (.scatterCommand cluster) := fun _ h => nomatch h
theorem Roundtrip.engineCommandCompletion (cluster : Nat) (engine : Nat) : Statement (.engineCommandCompletion cluster engine) := fun _ h => nomatch h
theorem Roundtrip.engineCommandFault (cluster : Nat) (engine : Nat) (written : Nat) : Statement (.engineCommandFault cluster engine written) := fun _ h => nomatch h
theorem Roundtrip.tileInstructionCompletion (wave : Nat) : Statement (.tileInstructionCompletion wave) := fun _ h => nomatch h
theorem Roundtrip.smallMatrixCompletion (wave : Nat) : Statement (.smallMatrixCompletion wave) := fun _ h => nomatch h
theorem Roundtrip.fitTransferCompletion (wave : Nat) (seq : Nat) : Statement (.fitTransferCompletion wave seq) := fun _ h => nomatch h
theorem Roundtrip.trainingStepBegin (cluster : Nat) (rid : Nat) : Statement (.trainingStepBegin cluster rid) := fun _ h => nomatch h
theorem Roundtrip.trainingStepCompletion (cluster : Nat) (rid : Nat) : Statement (.trainingStepCompletion cluster rid) := fun _ h => nomatch h
theorem Roundtrip.userInterrupt (wave : Nat) : Statement (.userInterrupt wave) := fun _ h => nomatch h
theorem Roundtrip.starvationBoost (wave : Nat) (second : Bool) (vport : Bool) : Statement (.starvationBoost wave second vport) := fun _ h => nomatch h
theorem Roundtrip.ageingLimit (launch : Nat) (gang : Nat) : Statement (.ageingLimit launch gang) := fun _ h => nomatch h
theorem Roundtrip.place (part : Nat) : Statement (.place part) := fun _ h => nomatch h
theorem Roundtrip.preempt (launch : Nat) (gang : Nat) : Statement (.preempt launch gang) := fun _ h => nomatch h
theorem Roundtrip.restore (launch : Nat) (gang : Nat) : Statement (.restore launch gang) := fun _ h => nomatch h
theorem Roundtrip.kill (launch : Nat) : Statement (.kill launch) := fun _ h => nomatch h
theorem Roundtrip.ended (group : Nat) : Statement (.ended group) := fun _ h => nomatch h
theorem Roundtrip.saved (launch : Nat) (gang : Nat) : Statement (.saved launch gang) := fun _ h => nomatch h
theorem Roundtrip.restored (launch : Nat) (gang : Nat) : Statement (.restored launch gang) := fun _ h => nomatch h
theorem Roundtrip.fault (wave : Nat) : Statement (.fault wave) := fun _ h => nomatch h
theorem Roundtrip.quantumEnd (wave : Nat) : Statement (.quantumEnd wave) := fun _ h => nomatch h
theorem Roundtrip.roundCommit (launch : Nat) : Statement (.roundCommit launch) := fun _ h => nomatch h
theorem Roundtrip.nodeBatchTimer (launch : Nat) (node : Nat) : Statement (.nodeBatchTimer launch node) := fun _ h => nomatch h
theorem Roundtrip.launchCompletion (launch : Nat) : Statement (.launchCompletion launch) := fun _ h => nomatch h
theorem Roundtrip.launch (lq : Nat) : Statement (.launch lq) := fun _ h => nomatch h
theorem Roundtrip.inval (lq : Nat) : Statement (.inval lq) := fun _ h => nomatch h
theorem Roundtrip.resume (lq : Nat) : Statement (.resume lq) := fun _ h => nomatch h
theorem Roundtrip.skip (lq : Nat) : Statement (.skip lq) := fun _ h => nomatch h
theorem Roundtrip.abort (lq : Nat) : Statement (.abort lq) := fun _ h => nomatch h
theorem Roundtrip.signal (lq : Nat) : Statement (.signal lq) := fun _ h => nomatch h
theorem Roundtrip.pcreate (lq : Nat) : Statement (.pcreate lq) := fun _ h => nomatch h
theorem Roundtrip.premove (lq : Nat) : Statement (.premove lq) := fun _ h => nomatch h
theorem Roundtrip.tcreate (lq : Nat) : Statement (.tcreate lq) := fun _ h => nomatch h
theorem Roundtrip.tremove (lq : Nat) : Statement (.tremove lq) := fun _ h => nomatch h
theorem Roundtrip.fwload (lq : Nat) : Statement (.fwload lq) := fun _ h => nomatch h
theorem Roundtrip.mreset (lq : Nat) : Statement (.mreset lq) := fun _ h => nomatch h
theorem Roundtrip.attest (lq : Nat) : Statement (.attest lq) := fun _ h => nomatch h
theorem Roundtrip.queueNotify (dev : Nat) (vq : Nat) (off : Nat) (gives : Offer) : Statement (.queueNotify dev vq off gives) := fun _ h => nomatch h
theorem Roundtrip.queueEnable (port : Nat) (dev : Nat) (vq : Nat) : Statement (.queueEnable port dev vq) := fun _ h => nomatch h
theorem Roundtrip.lqWrite (dev : Nat) (vq : Nat) (lq : Nat) : Statement (.lqWrite dev vq lq) := fun _ h => nomatch h
theorem Roundtrip.virtqueueReset (dev : Nat) (vq : Nat) : Statement (.virtqueueReset dev vq) := fun _ h => nomatch h
theorem Roundtrip.deviceReset (dev : Nat) : Statement (.deviceReset dev) := fun _ h => nomatch h
theorem Roundtrip.psemWrite (port : Nat) (val : Nat) : Statement (.psemWrite port val) := fun _ h => nomatch h
theorem Roundtrip.psemBreak : Statement .psemBreak := fun _ h => nomatch h
theorem Roundtrip.recordPost (dev : Nat) (vq : Nat) : Statement (.recordPost dev vq) := fun _ h => nomatch h
theorem Roundtrip.eolUpdate : Statement .eolUpdate := fun _ h => nomatch h
theorem Roundtrip.moduleReset : Statement .moduleReset := fun _ h => nomatch h
theorem Roundtrip.bootImageVerify (module : Nat) : Statement (.bootImageVerify module) := fun _ h => nomatch h
theorem Roundtrip.shadowStreamOut (core : Nat) : Statement (.shadowStreamOut core) := fun _ h => nomatch h
theorem Roundtrip.hostLinkLeavesL0 (port : Nat) : Statement (.hostLinkLeavesL0 port) := fun _ h => nomatch h
theorem Roundtrip.hostLinkReturnsToL0 (port : Nat) : Statement (.hostLinkReturnsToL0 port) := fun _ h => nomatch h
theorem Roundtrip.hostDeviceMemoryAccess (tier : Nat) (pa : Nat) (acc : RemoteAccess) : Statement (.hostDeviceMemoryAccess tier pa acc) := fun _ h => nomatch h
theorem Roundtrip.fabricRemoteAccess (tier : Nat) (pa : Nat) (acc : RemoteAccess) : Statement (.fabricRemoteAccess tier pa acc) := fun _ h => nomatch h
theorem Roundtrip.unknownOpcodeCommand (lq : Nat) : Statement (.unknownOpcodeCommand lq) := fun _ h => nomatch h
theorem Roundtrip.featureNegotiation (dev : Nat) (features : DWord) : Statement (.featureNegotiation dev features) := fun _ h => nomatch h

end Sys2Proof.Laws
end

