-- ==== Sys2Proof/Tests/Slice0.lean ====
section
/-! SUPPORT. Tests of the model: words written out from the spec's encodings, the spec's worked examples, ill-formed terms, and
for each statement a concrete state that meets its hypotheses. -/

namespace Sys2Proof.Tests

open Sys2Proof Sys2Proof.Machine

/-! ## A small machine -/

/-- A wave about to issue with three vector blocks and every grant, changed by `f`. -/
def demo (f : Wave → Wave) : State := State.reset.withWave.modWave 0 f

/-- The slot that issues, of which `P` holds. -/
def Stands (s : State) (P : Slot → Prop) : Prop := ∃ k, s.slot = some k ∧ P k

/-- The slot that issues an instruction of `len` bytes, of which `P` holds. -/
def Meets (s : State) (len : Nat) (P : Slot → Prop) : Prop := ∃ k, Issues s k len ∧ P k

theorem stands_of {s : State} {P : Slot → Prop} (h : s.slot.isSome = true) (hP : P (s.slot.get h)) : Stands s P :=
  ⟨_, by simp, hP⟩

theorem meets_of {s : State} {len : Nat} {P : Slot → Prop} (h : s.slot.isSome = true) (hp : (s.slot.get h).placed len = true)
    (hd : (s.slot.get h).deep len (s.slot.get h).w.stack.length = false) (hi : (s.slot.get h).strays len = false) (hP : P (s.slot.get h)) : Meets s len P :=
  ⟨_, ⟨⟨by simp, hp, hd⟩, hi⟩, hP⟩

theorem holds_of {k : Slot} {js : List Nat} (h : (js.all fun j => decide (k.w.wb + j / 32 < k.w.blocks)) = true) : k.holds js := by
  simpa [Slot.holds] using h

/-- The first slot's fragment with lanes `m`. -/
def lanesOn (m : Mask) (w : Wave) : Wave := { w with first := w.first.map fun f => { f with mask := m } }

/-- The first slot's fragment at `pc`. -/
def standAt (pc : DWord) (w : Wave) : Wave := { w with first := w.first.map fun f => { f with pc := pc } }

/-- The wave with a second fragment, and the IF level that holds the two. -/
def split (m : Mask) (w : Wave) : Wave :=
  { w with second := w.first.map fun f => { f with mask := m, side := true, pc := f.pc + 64 }, stack := [.ifL false 0 0 0 0 none] }

/-- The machine when its second slot is the one that issues. -/
def second (s : State) : State := { s with cur := (0, true) }

/-! ## Words written out from the spec's encodings -/

theorem test_decode_control_1 : ∀ e ∈ ([
      ([0x01000000], .nop), ([0x02200005], .ifP 1 false 5), ([0x02100005], .ifP 0 true 5), ([0x03000007], .elseP 7),
      ([0x04000000], .endif), ([0x05000000], .loop), ([0x06500003], .brk 2 true 3),
      ([0x0761FFFE], .cont 3 false (-2)), ([0x0801FFFA], .endloop (-6)), ([0x0941FFFD], .bru (.k 2 false) (-3)),
      ([0x09E00009], .bru .always 9), ([0x0AE0000A], .jmp 10), ([0x0BE00064], .call .always 100),
      ([0x0B300004], .call (.k 1 true) 4), ([0x0C00F800], .ret 62), ([0x0D00100F], .hloop 4 16),
      ([0x0E000000], .exit), ([0x0F0FFF00], .wait 0 15 15 15)] : List (List Nat × Instr)),
    decode (e.1.flatMap wordBytes) = .ok e.2 [] := by decide

theorem test_decode_control_2 : ∀ e ∈ ([
      ([0x0FFF0F00], .wait 15 15 0 15), ([0x0FFFFF00], .wait 15 15 15 15), ([0x10001402], .waitp 5 .cp),
      ([0x11000000], .yield), ([0x12200003], .sysc 16 3), ([0x13000042], .trap 0x42), ([0x14000000], .uret),
      ([0x150A0101], .uimask 5 .set 1), ([0x150A0011], .uimask 5 .write 0x11), ([0x150C0203], .uimask 6 .clr 3),
      ([0x160A0018], .csrr 5 0x018), ([0x17060003], .csrw 3 0x003), ([0x1800000A], .fence .acq .cluster),
      ([0x18000011], .fence .rel .group), ([0x1800001C], .fence .full .device),
      ([0x19182A20], .promote 12 10 4 false), ([0x19182A30], .promote 12 10 4 true), ([0x1A140000], .rdclk 10)] : List (List Nat × Instr)),
    decode (e.1.flatMap wordBytes) = .ok e.2 [] := by decide

theorem test_decode_control_3 : ∀ e ∈ ([
      ([0x1B124000], .spawn false 9 16 0), ([0x1B004022], .spawn true 0 16 4), ([0xF0000000], .qend),
      ([0xF10C0000], .shrd 6)] : List (List Nat × Instr)),
    decode (e.1.flatMap wordBytes) = .ok e.2 [] := by decide

theorem test_decode_integer_1 : ∀ e ∈ ([
      ([0x210C1028], .isub 6 4 (.v 5)), ([0x20061028], .iadd 3 4 (.v 5)), ([0x22081029], .imul 4 4 (.s 5)),
      ([0x240A1028], .imad 5 4 (.v 5)), ([0x280C1029], .andV 6 4 (.s 5)), ([0x290E1028], .orV 7 4 (.v 5)),
      ([0x2A101029], .xorV 8 4 (.s 5)), ([0x2B121028], .andn 9 4 (.v 5)), ([0x2C141029], .shl 10 4 (.s 5)),
      ([0x2D161028], .shr 11 4 (.v 5)), ([0x2E181029], .sar 12 4 (.s 5)), ([0x321A1028], .bfi 13 4 (.v 5)),
      ([0x230E204A], .imulh 7 8 (.v 9) true), ([0x250E2049], .imin 7 8 (.s 9) false),
      ([0x260E204A], .imax 7 8 (.v 9) true), ([0x310E2049], .bfx 7 8 (.s 9) false),
      ([0x350E204A], .iaddsat 7 8 (.v 9) true), ([0x27FFF800], .iabs 127 126)] : List (List Nat × Instr)),
    decode (e.1.flatMap wordBytes) = .ok e.2 [] := by decide

theorem test_decode_integer_2 : ∀ e ∈ ([
      ([0x2FFFF800], .popc 127 126), ([0x30FFF800], .clz 127 126), ([0x38FFF800], .mov 127 126),
      ([0x33240438], .icmp .lt 2 1 (.v 7)), ([0x339E05F9], .icmp .geu 7 1 (.s 63)), ([0x340A0418], .sel 5 1 3 false),
      ([0x340A041A], .sel 5 1 3 true), ([0x360A1430], .hmix 5 5 (.v 6)), ([0x37282050], .itrit 20 8 (.v 10)),
      ([0x39120000], .laneid 9)] : List (List Nat × Instr)),
    decode (e.1.flatMap wordBytes) = .ok e.2 [] := by decide

theorem test_decode_immediate : ∀ e ∈ ([
      ([0x40040BFF], .iaddi 2 2 (-1)), ([0x41040DFF], .imuli 2 3 511), ([0x42040E00], .andi 2 3 (-512)),
      ([0x43040C01], .ori 2 3 1), ([0x44040C02], .xori 2 3 2), ([0x45040C3F], .shli 2 3 63),
      ([0x46040C1F], .shri 2 3 31), ([0x47040C20], .sari 2 3 32), ([0x48240400], .icmpi .lt 2 1 0),
      ([0x490203E8], .movi 1 1000), ([0x4A03FFFF], .movhi 1 0x1FFFF), ([0x4B080000, 0x3F800000], .limm 4 0x3F800000)] : List (List Nat × Instr)),
    decode (e.1.flatMap wordBytes) = .ok e.2 [] := by decide

theorem test_decode_uniform_1 : ∀ e ∈ ([
      ([0x50081028], .uadd 4 4 5), ([0x51081430], .usub 4 5 6), ([0x52081430], .umul 4 5 6),
      ([0x53081432], .umulh 4 5 6 true), ([0x54081430], .uand 4 5 6), ([0x55081430], .uor 4 5 6),
      ([0x56081430], .uxor 4 5 6), ([0x57081430], .ushl 4 5 6), ([0x58081430], .ushr 4 5 6),
      ([0x59081430], .usar 4 5 6), ([0x5A081430], .umin 4 5 6 false), ([0x5B081432], .umax 4 5 6 true),
      ([0x5C461430], .ucmp .gt 3 5 6), ([0x5D0C1010], .usel 6 4 2 false), ([0x5E10201C], .ulea 8 8 3 2),
      ([0x5F7EF800], .umov 63 62), ([0x60081001], .uaddi 4 4 1), ([0x61060005], .umovi 3 5)] : List (List Nat × Instr)),
    decode (e.1.flatMap wordBytes) = .ok e.2 [] := by decide

theorem test_decode_uniform_2 : ∀ e ∈ ([
      ([0x62060001], .umovhi 3 1), ([0x630C0000, 0x00012345], .ulimm 6 0x00012345), ([0x64021000], .ucmpi .eq 1 4 0)] : List (List Nat × Instr)),
    decode (e.1.flatMap wordBytes) = .ok e.2 [] := by decide

theorem test_decode_moves : ∀ e ∈ ([
      ([0x68081800], .vbcast 4 6), ([0x69140C10], .vreadl 10 3 2), ([0x6A0A1010], .vwritel 5 4 2),
      ([0x6B181C00], .vfirst 12 7), ([0x6C100400], .pget 8 1 false), ([0x6C100002], .pget 8 0 true),
      ([0x6D042000], .pset 2 8), ([0x98000002], .racq false 0 2), ([0x98020202], .racq true 1 2),
      ([0x99000002], .rrel 2), ([0x9A000002], .wbase 2)] : List (List Nat × Instr)),
    decode (e.1.flatMap wordBytes) = .ok e.2 [] := by decide

theorem test_decode_float_1 : ∀ e ∈ ([
      ([0x70060411], .fadd 3 1 (.s 2)), ([0x71060410], .fsub 3 1 (.v 2)), ([0x72060411], .fmul 3 1 (.s 2)),
      ([0x73121028], .ffma 9 4 (.v 5) false false), ([0x7312102C], .ffma 9 4 (.v 5) false true),
      ([0x74060410], .fmin 3 1 (.v 2)), ([0x75060410], .fmax 3 1 (.v 2)), ([0x76220818], .fcmp .lt 1 2 (.v 3)),
      ([0x77060410], .fdiv 3 1 (.v 2)), ([0x78081400], .fsqrt 4 5), ([0x79081400], .frcp 4 5),
      ([0x7A081400], .frsq 4 5), ([0x7B081400], .fexp2 4 5), ([0x7C081400], .flog2 4 5), ([0x7D081400], .fsin 4 5),
      ([0x7E081400], .fcos 4 5), ([0x7F081400], .ftanh 4 5), ([0x80081400], .fclass 4 5)] : List (List Nat × Instr)),
    decode (e.1.flatMap wordBytes) = .ok e.2 [] := by decide

theorem test_decode_float_2 : ∀ e ∈ ([
      ([0x81081430], .fscale 4 5 (.v 6)), ([0x82040C02], .fmov 2 3 .neg), ([0x83081432], .pkadd 4 5 (.v 6) true),
      ([0x84081431], .pkmul 4 5 (.s 6) false), ([0x85081432], .pkfma 4 5 (.v 6) true)] : List (List Nat × Instr)),
    decode (e.1.flatMap wordBytes) = .ok e.2 [] := by decide

theorem test_decode_conversions : ∀ e ∈ ([
      ([0x880C1540], .cvt 6 5 .e4m3 .f32 false), ([0x880E0CC2], .cvt 7 3 .i32 .f32 true),
      ([0x891018A0], .rqnt 8 6 20 .i8), ([0x8A14100C], .unpk5 10 4 1 2), ([0x8B162800], .pack5 11 10 0),
      ([0x8C06084B], .unpkps 3 2 (.s 9) 1), ([0x90060410], .shfl 3 1 (.v 2) .wrap),
      ([0x91060427], .shflx 3 1 (.s 4) .zero), ([0x920A1000], .scan 5 4 .add false),
      ([0x920A1220], .scan 5 4 .fadd true), ([0x930C1000], .vred 6 4 .add), ([0x94020800], .vote 1 2 .any),
      ([0x94100804], .vote 8 2 .ballot), ([0x950E0C00], .matchV 7 3), ([0x96180852], .rng 12 2 10 1)] : List (List Nat × Instr)),
    decode (e.1.flatMap wordBytes) = .ok e.2 [] := by decide

theorem test_decode_memory : ∀ e ∈ ([
      ([0xA00A0410], .ldg 5 1 0 1), ([0xA11209A0], .stg 9 2 3 2), ([0xA2100920], .lds 8 2 2 2),
      ([0xA3120940], .sts 9 2 2 4), ([0xA4141230], .ldu 10 4 4 3), ([0xA5141200], .stu 10 4 4 0),
      ([0xA00A0418, 0x04000000], .ldgX 5 1 0 1 { order := .plain, scope := .wave, sx := true, offset := 0 }),
      ([0xA11209A8, 0xA000FFFC], .stgX 9 2 3 2 { order := .rel, scope := .device, sx := false, offset := -4 }),
      ([0xA20A0418, 0x04000000], .ldsX 5 1 0 1 { order := .plain, scope := .wave, sx := true, offset := 0 }),
      ([0xA3120928, 0x90000000], .stsX 9 2 2 2 { order := .rel, scope := .cluster, sx := false, offset := 0 }),
      ([0xA4141238, 0x00000010], .lduX 10 4 4 3 { order := .plain, scope := .wave, sx := false, offset := 16 }),
      ([0xA5141228, 0x00000020], .stuX 10 4 4 2 { order := .plain, scope := .wave, sx := false, offset := 32 }),
      ([0xA6142C60], .tmov 10 11 12),
      ([0xA8080988, 0x00000000], .atom 4 2 3 { order := .plain, scope := .wave, op := .add, det := false, wide := false }),
      ([0xA80C0988, 0x65000000], .atom 6 2 3 { order := .acq, scope := .device, op := .cas, det := false, wide := false }),
      ([0xA9101308, 0xED100000], .atomu 8 4 6 { order := .ar, scope := .system, op := .cas, det := false, wide := true }),
      ([0xAA120988, 0x00C00000], .mred 9 2 3 { order := .plain, scope := .wave, op := .fadd, det := true, wide := false })] : List (List Nat × Instr)),
    decode (e.1.flatMap wordBytes) = .ok e.2 [] := by decide

theorem test_decode_queues : ∀ e ∈ ([
      ([0xAC004000], .qpsh 0 16), ([0xAD300400], .qpop 24 1), ([0xAE026048], .qtry .pop 1 24 9),
      ([0xAF125000], .qbind false 9 20 0), ([0xAF120002], .qbind true 9 0 0), ([0xB0001000], .bari 4),
      ([0xB1001028], .barx 4 5), ([0xB2001030], .bara 4 6), ([0xB3001038], .barw 4 7), ([0xB4002000], .phbeg 0 8),
      ([0xB5002000], .phend 8)] : List (List Nat × Instr)),
    decode (e.1.flatMap wordBytes) = .ok e.2 [] := by decide

theorem test_decode_tiles : ∀ e ∈ ([
      ([0xC0200140], .tld 2 10 false), ([0xC0300181], .tld 3 12 true), ([0xC1020140], .tst 2 10 false),
      ([0xC2500000], .tzero 5 false), ([0xC2100001], .tzero 1 true), ([0xC3001280], .tmma 0 0 1 20 false),
      ([0xC3123290], .tmma 1 2 3 20 true), ([0xC4245286], .tmmas 2 4 5 20 6 false),
      ([0xC50003C1], .trdrow 30 0 false true), ([0xC50103C0], .trdrow 30 1 false false),
      ([0xC62000C2], .twrrow 2 6 true false), ([0xC8890002], .tcvt 8 9 false true), ([0xC7760000], .ttrq 7 6),
      ([0xC9410500], .trq 4 1 40 false)] : List (List Nat × Instr)),
    decode (e.1.flatMap wordBytes) = .ok e.2 [] := by decide

theorem test_decode_matrices_1 : ∀ e ∈ ([
      ([0xD0200AD8], .mld 1 10 6 6), ([0xD10C0A00], .mst 3 10), ([0xD24000C4], .mshape 2 6 1),
      ([0xD3408000], .mmul 2 0 1), ([0xD4650000], .mmad 3 1 2), ([0xD5050000], .madd 0 1 2),
      ([0xD6050000], .msub 0 1 2), ([0xD7840000], .mtrn 4 1), ([0xD8240500], .mscl 1 1 (.v 5)),
      ([0xD8240301], .mscl 1 1 (.s 3)), ([0xD9200000], .mchol 1 0), ([0xDA200600], .mlup 1 0 6),
      ([0xDB450000], .msolv 2 1 2 0 .chol), ([0xDB450601], .msolv 2 1 2 6 .lu), ([0xDCA00000], .minv 5 0 false),
      ([0xDCA00001], .minv 5 0 true), ([0xDD080718], .mgete 7 2 3 0), ([0xDE00082D], .msete 0 8 5 5)] : List (List Nat × Instr)),
    decode (e.1.flatMap wordBytes) = .ok e.2 [] := by decide

theorem test_decode_matrices_2 : ∀ e ∈ ([
      ([0xDF000901], .mstat 9 true)] : List (List Nat × Instr)),
    decode (e.1.flatMap wordBytes) = .ok e.2 [] := by decide

theorem test_decode_slots : ∀ e ∈ ([
      ([0xE0005000], .slbind .bind 0 20), ([0xE0025002], .slbind .init 1 20), ([0xE0000004], .slbind .unbind 0 0),
      ([0xE10A0818], .slscor 5 2 3), ([0xE2060800], .slfin 3 2), ([0xE30A0800], .slropn 5 2),
      ([0xE40C0802], .slst 6 2 true), ([0xE50A0800], .slkvc 5 2), ([0xE6100000], .slemit 8), ([0xE8005000], .apxb 20),
      ([0xE9000000], .apxe), ([0xEA284000], .fitcfg 20 16), ([0xEB005000], .fitinv 20 false),
      ([0xEB005002], .fitinv 20 true), ([0xEC305000], .fitst 24 20), ([0xED005080], .fitld 20 16),
      ([0xEE005080], .fitsv 20 16)] : List (List Nat × Instr)),
    decode (e.1.flatMap wordBytes) = .ok e.2 [] := by decide


/-! ## Words that are no instruction -/

/-- R47: opcodes 0x00 and 0xFF and reserved ones; R48: a reserved field of NOP, ENDIF, ULIMM and LOOP; R50: a reserved bit of an
extension word; bytes that end early. -/
theorem test_rejects :
    (∀ w ∈ [0x00000000, 0xFF000000, 0x1C000000, 0x3A000000, 0xBF000000], decode (wordBytes w) = .bad .opcode) ∧
    (∀ w ∈ [0x01000001, 0x04000001, 0x63000001, 0x05000001], decode (wordBytes w) = .bad .firstWord) ∧
    decode (wordBytes 0xA00A0418 ++ wordBytes 0x04010000) = .bad .secondWord ∧
    decode (wordBytes 0x4B080000) = .bad .short ∧ decode [0x00, 0x00, 0x01] = .bad .short := by decide

/-! ## Ill-formed terms, one for each check -/

theorem test_illformed_1 : ∀ i ∈ ([
      .ifP 8 false 0, .brk 8 false 0, .cont 8 true 0, .bru (.k 4 false) 0, .call (.k 4 true) 0, .ret 61, .ret 64,
      .hloop 64 1, .hloop 0 0, .hloop 0 257, .wait 16 0 0 0, .wait 0 16 0 0, .wait 0 0 16 0, .wait 0 0 0 16,
      .waitp 64 .ld, .sysc 57 0, .sysc 0 4096, .trap 65536, .uimask 64 .set 0, .uimask 0 .set 128, .csrr 64 0,
      .csrr 0 4096, .csrw 64 0, .csrw 0 4096, .promote 1 0 0 true, .promote 64 0 0 false, .promote 0 64 0 false,
      .promote 0 0 8 false, .rdclk 1, .spawn true 1 0 0, .spawn true 0 128 0, .spawn true 0 0 64, .spawn false 7 0 0,
      .spawn false 16 0 0, .spawn false 8 128 0, .spawn false 8 0 1, .iadd 128 0 (.v 0), .iadd 0 128 (.v 0),
      .iadd 0 0 (.s 64), .isub 128 0 (.v 0), .isub 0 128 (.v 0), .isub 0 0 (.s 64), .imul 128 0 (.v 0),
      .imul 0 128 (.v 0), .imul 0 0 (.s 64), .imad 128 0 (.v 0), .imad 0 128 (.v 0), .imad 0 0 (.s 64),
      .andV 128 0 (.v 0), .andV 0 128 (.v 0), .andV 0 0 (.s 64), .orV 128 0 (.v 0), .orV 0 128 (.v 0),
      .orV 0 0 (.s 64), .xorV 128 0 (.v 0), .xorV 0 128 (.v 0), .xorV 0 0 (.s 64), .andn 128 0 (.v 0),
      .andn 0 128 (.v 0), .andn 0 0 (.s 64)] : List Instr), i.wf = false := by decide

theorem test_illformed_2 : ∀ i ∈ ([
      .shl 128 0 (.v 0), .shl 0 128 (.v 0), .shl 0 0 (.s 64), .shr 128 0 (.v 0), .shr 0 128 (.v 0), .shr 0 0 (.s 64),
      .sar 128 0 (.v 0), .sar 0 128 (.v 0), .sar 0 0 (.s 64), .bfi 128 0 (.v 0), .bfi 0 128 (.v 0), .bfi 0 0 (.s 64),
      .hmix 128 0 (.v 0), .hmix 0 128 (.v 0), .hmix 0 0 (.s 64), .itrit 128 0 (.v 0), .itrit 0 128 (.v 0),
      .itrit 0 0 (.s 64), .fadd 128 0 (.v 0), .fadd 0 128 (.v 0), .fadd 0 0 (.s 64), .fsub 128 0 (.v 0),
      .fsub 0 128 (.v 0), .fsub 0 0 (.s 64), .fmul 128 0 (.v 0), .fmul 0 128 (.v 0), .fmul 0 0 (.s 64),
      .fmin 128 0 (.v 0), .fmin 0 128 (.v 0), .fmin 0 0 (.s 64), .fmax 128 0 (.v 0), .fmax 0 128 (.v 0),
      .fmax 0 0 (.s 64), .fdiv 128 0 (.v 0), .fdiv 0 128 (.v 0), .fdiv 0 0 (.s 64), .fscale 128 0 (.v 0),
      .fscale 0 128 (.v 0), .fscale 0 0 (.s 64), .imulh 128 0 (.v 0) true, .imulh 0 128 (.v 0) true,
      .imulh 0 0 (.v 128) true, .imin 128 0 (.v 0) true, .imin 0 128 (.v 0) true, .imin 0 0 (.v 128) true,
      .imax 128 0 (.v 0) true, .imax 0 128 (.v 0) true, .imax 0 0 (.v 128) true, .bfx 128 0 (.v 0) true,
      .bfx 0 128 (.v 0) true, .bfx 0 0 (.v 128) true, .iaddsat 128 0 (.v 0) true, .iaddsat 0 128 (.v 0) true,
      .iaddsat 0 0 (.v 128) true, .pkadd 128 0 (.v 0) true, .pkadd 0 128 (.v 0) true, .pkadd 0 0 (.v 128) true,
      .pkmul 128 0 (.v 0) true, .pkmul 0 128 (.v 0) true, .pkmul 0 0 (.v 128) true] : List Instr), i.wf = false := by decide

theorem test_illformed_3 : ∀ i ∈ ([
      .pkfma 128 0 (.v 0) true, .pkfma 0 128 (.v 0) true, .pkfma 0 0 (.v 128) true, .shfl 128 0 (.v 0) .wrap,
      .shfl 0 128 (.v 0) .wrap, .shfl 0 0 (.s 64) .wrap, .shflx 128 0 (.v 0) .wrap, .shflx 0 128 (.v 0) .wrap,
      .shflx 0 0 (.s 64) .wrap, .ffma 128 0 (.v 0) false false, .ffma 0 128 (.v 0) false false,
      .ffma 0 0 (.v 128) false false, .iabs 128 0, .iabs 0 128, .popc 128 0, .popc 0 128, .clz 128 0, .clz 0 128,
      .mov 128 0, .mov 0 128, .fsqrt 128 0, .fsqrt 0 128, .frcp 128 0, .frcp 0 128, .frsq 128 0, .frsq 0 128,
      .fexp2 128 0, .fexp2 0 128, .flog2 128 0, .flog2 0 128, .fsin 128 0, .fsin 0 128, .fcos 128 0, .fcos 0 128,
      .ftanh 128 0, .ftanh 0 128, .fclass 128 0, .fclass 0 128, .matchV 128 0, .matchV 0 128, .fmov 128 0 .neg,
      .fmov 0 128 .neg, .icmp .eq 8 0 (.v 0), .icmp .eq 0 128 (.v 0), .icmp .eq 0 0 (.s 64), .fcmp .eq 8 0 (.v 0),
      .fcmp .eq 0 128 (.v 0), .fcmp .eq 0 0 (.s 64), .sel 128 0 0 false, .sel 0 128 0 false, .sel 0 0 8 false,
      .laneid 128, .iaddi 128 0 0, .iaddi 0 128 0, .imuli 128 0 0, .imuli 0 128 0, .andi 128 0 0, .andi 0 128 0,
      .ori 128 0 0, .ori 0 128 0] : List Instr), i.wf = false := by decide

theorem test_illformed_4 : ∀ i ∈ ([
      .xori 128 0 0, .xori 0 128 0, .shli 128 0 0, .shli 0 128 0, .shli 0 0 64, .shri 128 0 0, .shri 0 128 0,
      .shri 0 0 64, .sari 128 0 0, .sari 0 128 0, .sari 0 0 64, .icmpi .eq 8 0 0, .icmpi .eq 0 128 0, .movi 128 0,
      .movhi 128 0, .limm 128 0, .uadd 64 0 0, .uadd 0 64 0, .uadd 0 0 64, .usub 64 0 0, .usub 0 64 0, .usub 0 0 64,
      .umul 64 0 0, .umul 0 64 0, .umul 0 0 64, .uand 64 0 0, .uand 0 64 0, .uand 0 0 64, .uor 64 0 0, .uor 0 64 0,
      .uor 0 0 64, .uxor 64 0 0, .uxor 0 64 0, .uxor 0 0 64, .ushl 64 0 0, .ushl 0 64 0, .ushl 0 0 64, .ushr 64 0 0,
      .ushr 0 64 0, .ushr 0 0 64, .usar 64 0 0, .usar 0 64 0, .usar 0 0 64, .umulh 64 0 0 true, .umulh 0 64 0 true,
      .umulh 0 0 64 true, .umin 64 0 0 true, .umin 0 64 0 true, .umin 0 0 64 true, .umax 64 0 0 true,
      .umax 0 64 0 true, .umax 0 0 64 true, .ucmp .eq 4 0 0, .ucmp .eq 0 64 0, .ucmp .eq 0 0 64, .usel 64 0 0 false,
      .usel 0 64 0 false, .usel 0 0 4 false, .ulea 1 0 0 0, .ulea 0 1 0 0] : List Instr), i.wf = false := by decide

theorem test_illformed_5 : ∀ i ∈ ([
      .ulea 0 0 64 0, .ulea 0 0 0 4, .umov 64 0, .umov 0 64, .uaddi 64 0 0, .uaddi 0 64 0, .umovi 64 0, .umovhi 64 0,
      .ulimm 64 0, .ucmpi .eq 4 0 0, .ucmpi .eq 0 64 0, .vbcast 128 0, .vbcast 0 64, .vreadl 64 0 0, .vreadl 0 128 0,
      .vreadl 0 0 64, .vwritel 128 0 0, .vwritel 0 64 0, .vwritel 0 0 64, .vfirst 64 0, .vfirst 0 128,
      .pget 1 0 false, .pget 0 8 false, .pget 0 1 true, .pset 8 0, .pset 0 1, .cvt 128 0 .i32 .f32 false,
      .cvt 0 128 .i32 .f32 false, .cvt 0 0 .f32 .f32 false, .cvt 0 0 .f16 .f32 true, .cvt 0 0 .i32 .i8 true,
      .rqnt 128 0 0 .i8, .rqnt 0 128 0 .i8, .rqnt 0 0 62 .i8, .unpk5 124 0 0 0, .unpk5 0 128 0 0, .unpk5 0 0 8 0,
      .unpk5 0 0 0 4, .pack5 128 0 0, .pack5 0 124 0, .pack5 0 0 4, .unpkps 128 0 (.v 0) 0, .unpkps 0 128 (.v 0) 0,
      .unpkps 0 0 (.s 64) 0, .unpkps 0 0 (.v 0) 4, .scan 128 0 .add false, .scan 0 128 .add false, .vred 64 0 .add,
      .vred 0 128 .add, .vote 4 0 .any, .vote 1 0 .ballot, .vote 0 8 .all, .rng 125 0 0 0, .rng 0 128 0 0,
      .rng 0 0 1 0, .rng 0 0 0 4, .racq true 4 1, .racq false 1 1, .racq false 0 0, .racq false 0 16] : List Instr), i.wf = false := by decide

theorem test_illformed_6 : ∀ i ∈ ([
      .rrel 0, .rrel 16, .wbase 16, .ldg 0 0 0 5, .ldg 127 0 0 3, .ldg 125 0 0 4, .ldg 0 128 0 0, .ldg 0 0 8 0,
      .stg 0 0 0 5, .stg 127 0 0 3, .stg 125 0 0 4, .stg 0 128 0 0, .stg 0 0 8 0, .lds 0 0 0 5, .lds 127 0 0 3,
      .lds 125 0 0 4, .lds 0 128 0 0, .lds 0 0 8 0, .sts 0 0 0 5, .sts 127 0 0 3, .sts 125 0 0 4, .sts 0 128 0 0,
      .sts 0 0 8 0, .ldu 0 0 0 5, .ldu 63 0 0 3, .ldu 0 64 0 0, .ldu 0 0 8 0, .stu 0 0 0 5, .stu 63 0 0 3,
      .stu 0 64 0 0, .stu 0 0 8 0, .ldgX 0 0 0 5 { order := .plain, scope := .wave, sx := false, offset := 0 },
      .ldgX 127 0 0 3 { order := .plain, scope := .wave, sx := false, offset := 0 },
      .ldgX 0 128 0 0 { order := .plain, scope := .wave, sx := false, offset := 0 },
      .ldgX 0 0 8 0 { order := .plain, scope := .wave, sx := false, offset := 0 },
      .ldgX 0 0 0 0 { order := .rel, scope := .wave, sx := false, offset := 0 },
      .ldgX 0 0 0 0 { order := .ar, scope := .wave, sx := false, offset := 0 },
      .ldgX 0 0 0 2 { order := .plain, scope := .wave, sx := true, offset := 0 },
      .ldsX 0 0 0 5 { order := .plain, scope := .wave, sx := false, offset := 0 },
      .ldsX 127 0 0 3 { order := .plain, scope := .wave, sx := false, offset := 0 },
      .ldsX 0 128 0 0 { order := .plain, scope := .wave, sx := false, offset := 0 },
      .ldsX 0 0 8 0 { order := .plain, scope := .wave, sx := false, offset := 0 },
      .ldsX 0 0 0 0 { order := .rel, scope := .wave, sx := false, offset := 0 },
      .ldsX 0 0 0 0 { order := .ar, scope := .wave, sx := false, offset := 0 },
      .ldsX 0 0 0 2 { order := .plain, scope := .wave, sx := true, offset := 0 },
      .stgX 0 0 0 5 { order := .plain, scope := .wave, sx := false, offset := 0 },
      .stgX 127 0 0 3 { order := .plain, scope := .wave, sx := false, offset := 0 },
      .stgX 0 128 0 0 { order := .plain, scope := .wave, sx := false, offset := 0 },
      .stgX 0 0 8 0 { order := .plain, scope := .wave, sx := false, offset := 0 },
      .stgX 0 0 0 0 { order := .acq, scope := .wave, sx := false, offset := 0 },
      .stgX 0 0 0 0 { order := .plain, scope := .wave, sx := true, offset := 0 },
      .stsX 0 0 0 5 { order := .plain, scope := .wave, sx := false, offset := 0 },
      .stsX 127 0 0 3 { order := .plain, scope := .wave, sx := false, offset := 0 },
      .stsX 0 128 0 0 { order := .plain, scope := .wave, sx := false, offset := 0 },
      .stsX 0 0 8 0 { order := .plain, scope := .wave, sx := false, offset := 0 },
      .stsX 0 0 0 0 { order := .acq, scope := .wave, sx := false, offset := 0 },
      .stsX 0 0 0 0 { order := .plain, scope := .wave, sx := true, offset := 0 },
      .lduX 63 0 0 3 { order := .plain, scope := .wave, sx := false, offset := 0 },
      .lduX 0 64 0 0 { order := .plain, scope := .wave, sx := false, offset := 0 },
      .lduX 0 0 0 5 { order := .plain, scope := .wave, sx := false, offset := 0 }] : List Instr), i.wf = false := by decide

theorem test_illformed_7 : ∀ i ∈ ([
      .lduX 0 0 8 0 { order := .plain, scope := .wave, sx := false, offset := 0 },
      .lduX 0 0 0 0 { order := .rel, scope := .wave, sx := false, offset := 0 },
      .stuX 63 0 0 3 { order := .plain, scope := .wave, sx := false, offset := 0 },
      .stuX 0 64 0 0 { order := .plain, scope := .wave, sx := false, offset := 0 },
      .stuX 0 0 0 5 { order := .plain, scope := .wave, sx := false, offset := 0 },
      .stuX 0 0 8 0 { order := .plain, scope := .wave, sx := false, offset := 0 },
      .stuX 0 0 0 0 { order := .acq, scope := .wave, sx := false, offset := 0 }, .tmov 64 0 0, .tmov 0 64 0,
      .tmov 0 0 1, .atom 127 0 0 { order := .plain, scope := .wave, op := .add, det := false, wide := true },
      .atom 125 0 0 { order := .plain, scope := .wave, op := .cas, det := false, wide := true },
      .atom 0 128 0 { order := .plain, scope := .wave, op := .add, det := false, wide := false },
      .atom 0 0 8 { order := .plain, scope := .wave, op := .add, det := false, wide := false },
      .atom 0 0 0 { order := .plain, scope := .wave, op := .fadd, det := false, wide := true },
      .atom 0 0 0 { order := .plain, scope := .wave, op := .fmin, det := false, wide := true },
      .atom 0 0 0 { order := .plain, scope := .wave, op := .fmax, det := false, wide := true },
      .atomu 63 0 0 { order := .plain, scope := .wave, op := .cas, det := false, wide := false },
      .atomu 0 64 0 { order := .plain, scope := .wave, op := .add, det := false, wide := false },
      .atomu 0 0 8 { order := .plain, scope := .wave, op := .add, det := false, wide := false },
      .atomu 0 0 0 { order := .plain, scope := .wave, op := .fadd, det := false, wide := true },
      .mred 127 0 0 { order := .plain, scope := .wave, op := .add, det := false, wide := true },
      .mred 0 128 0 { order := .plain, scope := .wave, op := .add, det := false, wide := false },
      .mred 0 0 8 { order := .plain, scope := .wave, op := .add, det := false, wide := false },
      .mred 0 0 0 { order := .plain, scope := .wave, op := .xchg, det := false, wide := false },
      .mred 0 0 0 { order := .plain, scope := .wave, op := .cas, det := false, wide := false },
      .mred 0 0 0 { order := .acq, scope := .wave, op := .add, det := false, wide := false },
      .mred 0 0 0 { order := .plain, scope := .wave, op := .fadd, det := false, wide := true }, .qpsh 1 0, .qpsh 4 0,
      .qpsh 0 57, .qpsh 8 64, .qpop 0 0, .qpop 0 7, .qpop 57 1, .qpop 64 8, .qtry .pop 4 0 1, .qtry .pop 0 0 0,
      .qtry .pop 0 57 1, .qtry .push 0 0 1, .qtry .push 0 57 0, .qtry .query 0 0 5, .qtry .query 0 63 0,
      .qbind false 7 0 0, .qbind false 8 64 0, .qbind false 8 0 4, .qbind true 8 1 0, .qbind true 8 0 1, .bari 64,
      .barx 64 0, .barx 0 64, .bara 64 0, .bara 0 64, .barw 64 0, .barw 0 64, .phbeg 4 0, .phbeg 0 64, .phend 64,
      .tld 16 0 false, .tld 0 128 false] : List Instr), i.wf = false := by decide

theorem test_illformed_8 : ∀ i ∈ ([
      .tld 0 127 true, .tst 16 0 false, .tst 0 127 true, .tzero 8 true, .tzero 16 false, .tmma 8 0 0 0 false,
      .tmma 0 16 0 0 false, .tmma 0 0 16 0 false, .tmma 0 0 0 128 false, .tmmas 8 0 0 0 0 false,
      .tmmas 0 16 0 0 0 false, .tmmas 0 0 16 0 0 false, .tmmas 0 0 0 128 0 false, .tmmas 0 0 0 0 16 false,
      .trdrow 128 0 false false, .trdrow 0 8 false true, .trdrow 0 0 true true, .trdrow 0 16 false false,
      .twrrow 0 127 false false, .twrrow 8 0 false true, .twrrow 0 0 true true, .twrrow 16 0 false false, .ttrq 16 0,
      .ttrq 0 16, .tcvt 16 0 false false, .tcvt 0 16 false false, .trq 16 0 0 false, .trq 0 8 0 false,
      .trq 0 0 126 false, .mld 8 0 1 1, .mld 0 128 1 1, .mld 0 0 0 1, .mld 0 0 7 1, .mld 0 0 1 0, .mld 0 0 1 7,
      .mst 8 0, .mst 0 128, .mshape 8 1 1, .mshape 0 0 1, .mshape 0 1 7, .mmul 8 0 0, .mmul 0 8 0, .mmul 0 0 8,
      .mmad 8 0 0, .mmad 0 8 0, .mmad 0 0 8, .madd 8 0 0, .madd 0 8 0, .madd 0 0 8, .msub 8 0 0, .msub 0 8 0,
      .msub 0 0 8, .mtrn 8 0, .mtrn 0 8, .mscl 8 0 (.v 0), .mscl 0 8 (.v 0), .mscl 0 0 (.s 64), .mchol 8 0,
      .mchol 0 8, .mlup 8 0 0] : List Instr), i.wf = false := by decide

theorem test_illformed_9 : ∀ i ∈ ([
      .mlup 0 8 0, .mlup 0 0 128, .msolv 8 0 0 0 .chol, .msolv 0 8 0 0 .chol, .msolv 0 0 8 0 .chol,
      .msolv 0 0 0 1 .chol, .msolv 0 0 0 128 .lu, .minv 8 0 false, .minv 0 8 false, .mgete 128 0 0 0, .mgete 0 8 0 0,
      .mgete 0 0 6 0, .mgete 0 0 0 6, .msete 8 0 0 0, .msete 0 128 0 0, .msete 0 0 6 0, .msete 0 0 0 6,
      .mstat 128 false, .slbind .bind 4 0, .slbind .init 0 64, .slbind .unbind 1 0, .slbind .unbind 0 1,
      .slscor 128 0 0, .slscor 0 128 0, .slscor 0 0 128, .slfin 8 0, .slfin 0 128, .slropn 128 0, .slropn 0 128,
      .slkvc 128 0, .slkvc 0 128, .slst 127 0 false, .slst 0 128 false, .slemit 64, .apxb 64, .fitcfg 64 0,
      .fitcfg 0 1, .fitinv 64 false, .fitst 61 0, .fitst 0 64, .fitld 64 0, .fitld 0 1, .fitsv 64 0, .fitsv 0 1,
      .shrd 64] : List Instr), i.wf = false := by decide


/-! ## Witnesses: the hypotheses of the statements are met -/

/-- StepRunsTheDecodedInstruction: a slot that issues, one that may not, one with a loop end due, one with a user
interrupt due, and every answer of a fetch. -/
theorem witness_step :
    Stands (State.reset.withFetchWord 32 0x01000000) (fun k => k.mayIssue = true ∧ k.f.endPend = false ∧
      k.w.interruptDue = none ∧ (State.reset.withFetchWord 32 0x01000000).fetch k = .ok .nop) ∧
    Stands (demo fun w => { w with stop := some { trap := { cause := 1 } } }) (fun k => k.mayIssue = false) ∧
    Stands (demo fun w => { w with first := w.first.map fun f => { f with endPend := true } }) (fun k => k.mayIssue = true ∧ k.f.endPend = true) ∧
    Stands (demo fun w => { w with uivec := 1, en := 1, pending := [(3, 9)] }) (fun k => k.mayIssue = true ∧ k.f.endPend = false ∧
      k.second = false ∧ k.det = false ∧ k.w.interruptDue.isSome = true) ∧
    Stands (demo id) (fun k => (demo id).fetch k = .bad 0 0) ∧
    Stands (demo (standAt 0x7000)) (fun k => (demo (standAt 0x7000)).fetch k = .miss 0x7000) ∧
    (let s := demo fun w => { standAt 0x7000 w with walkFaults := [⟨false, 7, 0, 12, 2⟩] }
     Stands s fun k => s.fetch k = .fault 0x7000 0 12) ∧
    (let s := { demo id with cur := (7, true), agenda := [.slot 0 false] }
     Stands { s with agenda := [], cur := (0, false) } fun k => k.mayIssue = true) ∧
    (let s := demo fun w => { standAt 0x7000 w with walkFaults := [⟨false, 7, 6, 12, 2⟩] }
     Stands s fun k => s.fetch k = .error 0x7000 12) ∧
    (let s := (State.reset.withFetchWord 64 0x63000000).modWave 0 fun w => { w with hloops := [⟨0x1000, 0x1000, 0, []⟩] }
     Stands s fun k => k.mayIssue = true ∧ k.f.endPend = false ∧ s.fetch k = .cut ∧ ∃ b ∈ k.w.loopsOf k.f, k.f.pc = b.last) :=
  ⟨stands_of rfl (by decide), stands_of rfl (by decide), stands_of rfl (by decide), stands_of rfl (by decide), stands_of rfl (by decide),
    stands_of rfl (by decide), stands_of rfl (by decide), stands_of rfl (by decide), stands_of rfl (by decide), stands_of rfl (by decide)⟩

/-- The clauses on the fetch from memory and from the loop buffer, on bytes without an unseen code write, on writes in flight, and on
the agenda's other heads. -/
theorem witness_step_parts :
    Stands (State.reset.withFetchWord 64 0x63000000) (fun k => ∃ t p t1 p1,
      (State.reset.withFetchWord 64 0x63000000).codeXlate k k.f.pc = .ok t p ∧
      (State.reset.withFetchWord 64 0x63000000).codeXlate k (k.f.pc + 4) = .ok t1 p1 ∧
      (State.reset.withFetchWord 64 0x63000000).reaches k.l.tenant ((State.reset.withFetchWord 64 0x63000000).placeOf t p) = true) ∧
    Stands (demo fun w => { w with hloops := [⟨0x1000, 0x1008, 0, [(0, 0x01000000)]⟩] }) (fun k =>
      k.w.heldWord 0x1000 = some 0x01000000 ∧ k.w.heldWord 0x1004 = none ∧ ∃ b ∈ k.w.hloops, b.holds 0x1008 = true) ∧
    ((demo id).flight = [] ∧ FenceKind.rel ≠ .acq ∧ FenceKind.full ≠ .acq ∧ (State.reset.withFetchWord 32 0x01000000).slot.isSome = true) ∧
    (∀ e ∈ (demo id).codeLog, e.1 < 0 ∨ e.2.1 ≠ 0) ∧
    (demo id).picked 0 true = none ∧ (({ State.reset.withFetchWord 32 0x01000000 with eol := [] } : State).picked 0 false).isSome = true :=
  ⟨stands_of rfl ⟨0, codeBase, 0, codeBase + 4, by decide, by decide, by decide⟩, stands_of rfl (by decide), by decide, by decide, by decide, by decide⟩

/-- EncodeThenDecode and DecodeThenEncode: a one-word and a two-word instruction. -/
theorem witness_encoding :
    (Instr.nop.wf = true ∧ Instr.nop.isWord = true) ∧
    ((Instr.limm 127 0xFFFFFFFF).wf = true ∧ (Instr.limm 127 0xFFFFFFFF).isWord = true) ∧
    decode [0x00, 0x00, 0x00, 0x01] = .ok .nop [] := by decide

/-- MemoryStaysCanonical and ResetState: a canonical memory with a step, and a wave that is started. -/
theorem witness_memory_and_reset :
    (State.reset.memOk ∧ ∃ t, step State.reset = .next t) ∧
    ∃ w, Map.find (State.reset.startWave 0 0 { tenant := 0 } { launch := 0 } 0 []).waves State.reset.nextWave = some w :=
  ⟨⟨State.memOk_reset, _, rfl⟩, _, rfl⟩

/-- WavesKeepTheirBounds: a wave at its bounds, and a step of it. -/
theorem witness_bounds :
    let s := (State.reset.withFetchWord 32 0x01000000).modWave 0 fun w => { w with
      held := List.replicate 8 { dst := .s 1, val := some 2, level := 1 }, stack := List.replicate 8 (.loopMasks 0 0),
      binds := [(4, ⟨0, 0⟩), (7, ⟨64, 0⟩)],
      outs := (List.range 63).map fun i => { seq := i, path := .ld, tag := [], acq := false, rel := false, done := false, pc := 0, hash := 0, op := .load [] }, q1 := [List.replicate 8 0] }
    s.Bounded ∧ ∃ t, step s = .next t := by
  refine ⟨⟨by decide, fun e h => ?_⟩, _, rfl⟩
  obtain rfl := List.mem_singleton.1 h
  exact ⟨by decide, fun p => by cases p <;> decide, by decide, by decide, by decide⟩

/-- The instructions that compute: registers at both ends of the window, room for their held writes, every operand mode. -/
theorem witness_plain_instructions :
    Meets (demo id) 4 (fun k => k.holds [0, 95, 127] ∧ k.room 9 = true ∧ (k.csr 0x003).toNat = 64 ∧ k.second = false ∧ k.det = false ∧
      k.heldBack = false ∧ k.busy = false ∧ k.mask ≠ 0 ∧ k.on 0 = true ∧ k.w.matrix = true) ∧
    Meets (demo id) 8 (fun k => k.holds [127] ∧ k.room 1 = true) :=
  ⟨meets_of rfl rfl rfl rfl ⟨holds_of rfl, by decide, by decide, rfl, by decide, by decide, by decide, by decide, by decide, rfl⟩,
    meets_of rfl rfl rfl rfl ⟨holds_of rfl, by decide⟩⟩

/-- The same of the second of two slots, with the whole held-write buffer free and with none of it. -/
theorem witness_second_slot :
    Meets (second (demo (split 2))) 4 (fun k => k.second = true ∧ k.room 8 = true ∧ k.room 9 = false) ∧
    Meets (second (demo fun w => { split 2 w with held := List.replicate 8 { dst := .s 1, val := some 2, level := 1 } })) 4
      (fun k => k.room 0 = true ∧ k.room 1 = false) :=
  ⟨meets_of rfl rfl rfl rfl (by decide), meets_of rfl rfl rfl rfl (by decide)⟩

/-- Rounding and FloatSpecialCases: every direction has a value; a value that a format holds; magnitudes beyond the largest, under
FTZ's limit and between; nonzero operands of either sign; a quiet operand. -/
theorem witness_rounding :
    (2 ^ 10 ≤ 1024 ∧ 1024 < 2 ^ (10 + 1) ∧ (fmtF16.bias : Int) + 1 ≤ 6 + (10 : Nat) ∧
      (let r := roundAt 0 false 1024 (-25) false (-24)
       ¬ (fmtF16.bias : Int) + 1 ≤ -25 + (10 : Nat) ∧ 0 < r.1 ∧ r.1 < 2 ^ fmtF16.mb) ∧ 2 ^ fmtF16.mb ≤ (roundAt 0 false 1024 0 false 0).1) ∧
    (fmtF16.decode 0x8001 = .fin true 1 (-24) ∧ 1 < 2 ^ (fmtF16.mb + 1) ∧ fmtF16.operand true 0x3C00 = .fin false 1024 (-10)) ∧
    (0 < 5 ∧ 4 < 5) ∧
    (fmtF16 ∈ [fmtF32, fmtF16, fmtBF16] ∧ 0x3C00 < 2 ^ (1 + fmtF16.eb + fmtF16.mb) ∧ fmtF16.decode 0x3C00 = .fin false 1024 (-10)) ∧
    FVal.signals (.fin false 1 0) = false := by decide

/-- Conversions: U5TRAP clear; set without an illegal byte of five trits, and with one. -/
theorem witness_conversions :
    Meets (demo id) 4 (fun k => (k.csr 0x006).getLsbD 0 = false) ∧
    Meets (demo fun w => { w with u5trap := 1, v := [(0, 242)] }) 4 (fun k => (k.csr 0x006).getLsbD 0 = true ∧
      ∀ l, l < 64 → k.on l = true → (k.w.vget 0 l).toNat % 256 ≤ 242) ∧
    Meets (demo fun w => { w with u5trap := 1, v := [(63, 243)] }) 4 (fun k => (k.csr 0x006).getLsbD 0 = true ∧
      ∃ l, l < 64 ∧ k.on l = true ∧ 242 < (k.w.vget 0 l).toNat % 256) :=
  ⟨meets_of rfl rfl rfl rfl (by decide), meets_of rfl rfl rfl rfl (by decide),
    meets_of rfl rfl rfl rfl ⟨by decide, 63, by decide, by decide, by decide⟩⟩

/-- CrossLaneInstructions: the narrowest subgroup; a first active lane that is the last one. -/
theorem witness_cross_lane :
    Meets (demo fun w => { w with subgrp := 4 }) 4 (fun k => (k.csr 0x003).toNat ∈ [4, 8, 16, 32, 64]) ∧
    Meets (demo (lanesOn 0x8000000000000000)) 4 (fun k => k.on 63 = true ∧ ∀ j, j < 63 → k.on j = false) :=
  ⟨meets_of rfl rfl rfl rfl (by decide), meets_of rfl rfl rfl rfl (by decide)⟩

/-! ### Traps, control registers and control flow -/

/-- TakingATrap: a trap that the wave's own handler takes, and one that stops it; a record with a highest lane only. -/
theorem witness_trap :
    Stands (demo fun w => { w with uivec := 0x101, en := 64 }) (fun k =>
      (demo fun w => { w with uivec := 0x101, en := 64 }).slotOf k.h k.second = some k ∧ k.w.stop = none ∧
      k.w.uivec.getLsbD 0 = true ∧ k.w.inH = false ∧ ∃ b, (0x0D, b) ∈ [(0x12, 0), (0x0D, 6)] ∧ k.w.en / 2 ^ b % 2 = 1) ∧
    Stands (demo id) (fun k => k.w.stop = none ∧ k.w.uivec.getLsbD 0 = false ∧ (0x0D : Nat) ≠ 0x11) ∧
    (0x8000000000000000 : Mask).getLsbD 63 = true :=
  ⟨stands_of rfl ⟨by decide, rfl, rfl, rfl, 6, by decide, by decide⟩, stands_of rfl (by decide), by decide⟩

/-- TrapsBeforeExecution: no instruction at the PC, a fetch that faults, and vector registers on both sides of the window; TRQ with
an integer accumulator, and SPAWN to a node and to a queue. -/
theorem witness_traps_before_execution :
    Stands (demo id) (fun k => k.mayIssue = true ∧ k.f.endPend = false ∧ k.w.interruptDue = none ∧ (demo id).agenda = [] ∧
      (demo id).fetch k = .bad 0 0) ∧
    (let s := demo fun w => { standAt 0x7000 w with walkFaults := [⟨false, 7, 0, 12, 2⟩] }
     Stands s fun k => k.mayIssue = true ∧ k.f.endPend = false ∧ s.agenda = [] ∧ s.fetch k = .fault 0x7000 0 12) ∧
    Meets (demo fun w => { w with blocks := 1 }) (4 * (encode (.iadd 31 32 (.v 0))).length) (fun k => ¬ k.holds [32] ∧ k.heldBack = false ∧
      k.w.outs = [] ∧ k.w.matrix = true ∧ (∀ e ∈ (Instr.iadd 31 32 (.v 0)).gridNames, e.1 < if e.2 then k.g.accs else k.g.tiles) ∧
      ∃ before after, (Instr.iadd 31 32 (.v 0)).vectorNames = before ++ (1, 32) :: after ∧ k.holds (before.map (·.2))) ∧
    (let s := (demo fun w => { w with blocks := 1 }).modGroup 0 fun g => { g with accs := 1, tiles := 1, adesc := [(0, 0x10101)] }
     Meets s 4 fun k => 0 < k.g.tiles ∧ 0 < k.g.accs ∧ adInt (k.groupCsr 0x220) = true ∧ vecRun 3 31 3 = [(3, 31)] ++ (3, 32) :: [(3, 33)]) ∧
    (let s := (demo fun w => { w with blocks := 1 }).modLaunch 0 fun x => { x with block := { x.block with nodes := [{ recw := 2 }] } }
     Meets s 4 fun k => k.det = false ∧ k.l.block.nodes[(k.s 0).toNat]? = some { recw := 2 } ∧ 31 + 2 ≤ 128 ∧ vecRun 1 31 2 = [(1, 31)] ++ (1, 32) :: []) ∧
    (let s := { demo fun w => { lanesOn 1 w with blocks := 1, binds := [(4, ⟨0, 0⟩)] } with queues := [(0, { ctl := 0, cap := 4, itemw := 2, head := 0, tail := 0 })] }
     Meets s 4 fun k => k.det = false ∧ s.boundQueue k 4 = some (0, { ctl := 0, cap := 4, itemw := 2, head := 0, tail := 0 }) ∧
       k.lanes.length ≤ 4 ∧ 31 + 2 ≤ 128) :=
  ⟨stands_of rfl (by decide), stands_of rfl (by decide), meets_of rfl rfl rfl rfl ⟨by intro h; exact absurd (h 32 (by simp)) (by decide),
    by decide, rfl, rfl, by decide, [(0, 31)], _, rfl, holds_of rfl⟩, meets_of rfl rfl rfl rfl (by decide), meets_of rfl rfl rfl rfl (by decide),
    meets_of rfl rfl rfl rfl (by decide)⟩

/-- UserHandlers: TRAP outside and inside a handler, URET outside, at another depth and at its own, UIMASK's largest value, and an
interrupt that is pending. -/
theorem witness_user_handlers :
    Meets (demo fun w => { w with uivec := 1, en := 2 }) 4 (fun k => (k.after 4).endPend = false ∧ k.w.stop = none ∧
      k.w.uivec.getLsbD 0 = true ∧ k.w.inH = false ∧ k.w.en / 2 % 2 = 1) ∧
    Meets (demo id) 4 (fun k => k.w.inH = false ∧ k.second = false ∧ 127 < 128) ∧
    Meets (demo fun w => { w with inH := true, hdepth := 1 }) 4 (fun k => k.w.inH = true ∧ k.w.stack.length ≠ k.w.hdepth) ∧
    Meets (demo fun w => { w with inH := true, uipc := 0xFFFFFFFC }) 4 (fun k => k.w.inH = true ∧ k.w.stack.length = k.w.hdepth ∧
      k.w.hloops.length = k.w.hhloop ∧ (k.l.block.code + (k.csr 0x012).setWidth 64).toNat % 4 = 0) ∧
    (let s := demo fun w => { w with uivec := 1, en := 1, pending := [(1, 0xFFFF)] }
     Stands s fun k => s.slotOf 0 false = some k ∧ k.mayIssue = true ∧ k.det = false ∧ k.w.uivec.getLsbD 0 = true ∧ k.w.en % 2 = 1 ∧
      k.w.inH = false ∧ k.f.endPend = false ∧ k.f.again = none ∧ k.w.pending = [(1, 0xFFFF)]) :=
  ⟨meets_of rfl rfl rfl rfl (by decide), meets_of rfl rfl rfl rfl (by decide), meets_of rfl rfl rfl rfl (by decide), meets_of rfl rfl rfl rfl (by decide),
    stands_of rfl ⟨by decide, rfl, by decide, rfl, rfl, rfl, rfl, rfl, rfl⟩⟩

/-- ControlAndStatusRegisters: the last address, FFLAGS with nothing pending and with a merge pending, and for each register the
largest value that it allows and one that it does not. -/
theorem witness_control_registers :
    Meets (demo id) 4 (fun k => k.room 1 = true ∧ 1023 < 1024 ∧ k.w.flagPend = [] ∧ (∀ o ∈ k.w.outs, o.path ≠ .tl) ∧ k.w.csrPend = [] ∧
      k.second = false ∧ k.det = false) ∧
    Meets (demo fun w => { w with s := [(0, 12), (1, 31), (2, 0xFFFFFFFF), (3, 64), (4, 0x00A04040), (5, 0x00004040), (6, 0x41)] }) 4
      (fun k => (k.s 0).toNat % 8 < 5 ∧ (k.s 1).toNat < 32 ∧ ¬ (k.s 2).toNat < 16 ∧ (k.s 3).toNat ∈ [4, 8, 16, 32, 64] ∧
        (k.s 5).toNat % 128 ≤ 64 ∧ (k.s 5).toNat / 2 ^ 8 % 128 ≤ 64 ∧ 64 < (k.s 6).toNat) ∧
    Meets (second (demo fun w => { split 2 w with held := List.replicate 7 { dst := .s 1, val := some 2, level := 1 } })) 4
      (fun k => k.second = true ∧ k.w.held.length < 8) :=
  ⟨meets_of rfl rfl rfl rfl (by decide), meets_of rfl rfl rfl rfl (by decide), meets_of rfl rfl rfl rfl (by decide)⟩

/-- A body from the code's first word to the third, entered at stack depth 0. -/
def inLoop (w : Wave) : Wave := { w with hloops := [⟨0x1000, 0x1008, 0, []⟩] }

/-- UniformBranches: a target at the body's last word, one just beyond, and none at all to leave; both values of a condition; a pair
that names a word, and one that does not; a next word that strays out of a body and one that does not. -/
theorem witness_branches :
    Meets (demo inLoop) 4 (fun k =>
      (∀ b ∈ k.w.loopsOf k.f, b.first ≤ k.f.pc + BitVec.ofInt 64 (4 * 2) ∧ k.f.pc + BitVec.ofInt 64 (4 * 2) ≤ b.last) ∧
      (¬ ∀ b ∈ k.w.loopsOf k.f, b.first ≤ k.f.pc + BitVec.ofInt 64 (4 * 3) ∧ k.f.pc + BitVec.ofInt 64 (4 * 3) ≤ b.last) ∧
      k.k 0 = !true ∧ ¬ k.k 0 = !false ∧ k.room 2 = true) ∧
    Meets (demo fun w => { inLoop w with s := [(62, 0x1008), (60, 0x100C)] }) 4 (fun k =>
      (BitVec.ofNat 64 ((k.s 62).toNat + 2 ^ 32 * (k.s 63).toNat)) = 0x1008 ∧ (0x1008 : DWord).toNat % 4 = 0 ∧
      (BitVec.ofNat 64 ((k.s 60).toNat + 2 ^ 32 * (k.s 61).toNat)) = 0x100C) ∧
    Meets (demo fun w => { w with s := [(62, 0x1006)] }) 4 (fun k => (BitVec.ofNat 64 ((k.s 62).toNat + 2 ^ 32 * (k.s 63).toNat)).toNat % 4 ≠ 0) ∧
    Stands (demo fun w => { w with hloops := [⟨0x1000, 0x1010, 0, []⟩, ⟨0x1000, 0x1000, 0, []⟩] }) (fun k => k.strays 4 = true ∧ k.placed 4 = true) ∧
    Stands (demo inLoop) (fun k => k.strays 4 = false) :=
  ⟨meets_of rfl rfl rfl rfl (by decide), meets_of rfl rfl rfl rfl (by decide), meets_of rfl rfl rfl rfl (by decide), stands_of rfl (by decide),
    stands_of rfl (by decide)⟩

/-- IfElseAndEndif, its clauses on IF: the second of two slots; both sides have lanes, only one has, a second fragment is there, the stack has its last place, it is full;
a target with an ENDIF, with another word, and without a translation. -/
theorem witness_if :
    Stands (second (demo (split 2))) (fun k => k.placed 4 = true ∧ k.second = true) ∧
    Stands (demo fun w => { w with p := [(1, 5)] }) (fun k => k.placed 4 = true ∧ k.second = false ∧ k.deep 4 (k.w.stack.length + 1) = false ∧
      k.w.second = none ∧ k.f.mask &&& k.w.pget 1 ≠ 0 ∧ k.f.mask &&& ~~~(k.f.mask &&& k.w.pget 1) ≠ 0 ∧
      k.f.mask &&& k.w.pget 0 = 0 ∧ k.f.mask &&& ~~~(k.f.mask &&& ~~~k.w.pget 0) = 0) ∧
    Stands (demo (split 2)) (fun k => k.placed 4 = true ∧ k.second = false ∧ k.deep 4 2 = false ∧ k.w.stack.length + 1 ≤ 8 + k.w.spill ∧
      ∃ f, k.w.second = some f ∧ k.w.stack = .ifL false 0 0 0 0 none :: []) ∧
    Stands (demo fun w => { w with stack := List.replicate 7 (.loopMasks 0 1) }) (fun k => k.w.stack.length + 1 ≤ 8 + k.w.spill) ∧
    Stands (demo fun w => { w with stack := List.replicate 8 (.loopMasks 0 1) }) (fun k => k.deep 4 9 = false ∧ 8 + k.w.spill < k.w.stack.length + 1) ∧
    Stands (demo inLoop) (fun k => k.placed 4 = true ∧ k.deep 4 1 = false ∧ k.strays 4 = false ∧ ¬ ∀ b ∈ k.w.loopsOf k.f, k.f.pc + 64 ≤ b.last) ∧
    (let s := ((demo id).withFetchWord 32 0x04000000).modWave 0 fun w => { standAt 0x1008 w with p := [(1, 5)] }
     Stands s fun k => s.fetchAt k 0x1000 = .ok .endif ∧ s.fetchAt k 0x1004 = .bad 0 0 ∧ s.fetchAt k 0x2000 = .miss 0x2000 ∧ k.w.held = [] ∧
       k.f.pc + BitVec.ofInt 64 (4 * -2) = 0x1000 ∧ k.strays 4 = false) :=
  ⟨stands_of rfl (by decide), stands_of rfl (by decide), stands_of rfl ⟨rfl, rfl, rfl, by decide, _, rfl, rfl⟩, stands_of rfl (by decide),
    stands_of rfl (by decide), stands_of rfl (by decide), stands_of rfl (by decide)⟩

/-- IfElseAndEndif, its clauses on ELSE and ENDIF: each state of the level with and without the other fragment, no IF level, and writes that were held. -/
theorem witness_else_and_endif :
    Stands (demo (split 2)) (fun k => k.placed 4 = true ∧ k.f.mask ≠ 0 ∧ k.w.held = [] ∧ k.w.hloops = [] ∧ k.f.side = false ∧
      k.w.stack = [.ifL false 0 0 0 0 none] ∧ ∃ f, k.w.frag (!k.second) = some f) ∧
    Stands (demo fun w => { w with stack := [.ifL false 0x1000 1 6 0 none] }) (fun k => k.w.frag (!k.second) = none ∧ k.second = false ∧
      suspendedTop [] = false ∧ k.w.stack = [.ifL false 0x1000 1 6 0 none]) ∧
    Stands (demo fun w => { w with stack := [.ifL true 0x1000 2 6 0 none] }) (fun k => k.w.frag (!k.second) = none ∧ (6 : Mask) ≠ 0) ∧
    Stands (demo fun w => { w with stack := [.ifL true 0 0 0 0 none, .ifL false 0x1000 2 6 0 none] }) (fun k => k.w.frag (!k.second) = none ∧
      k.w.stack = .ifL true 0 0 0 0 none :: .ifL false 0x1000 2 6 0 none :: []) ∧
    Stands (demo fun w => { w with first := w.first.map fun f => { f with side := true }, stack := [.ifL false 0 0 0 0 none] }) (fun k =>
      k.f.side = true ∧ k.deep 4 k.w.stack.length = false ∧ k.strays 4 = false) ∧
    Stands (demo id) (fun k => ∀ o pc st m n a r, k.w.stack ≠ .ifL o pc st m n a :: r) ∧
    Stands (demo fun w => { split 2 w with held := [{ dst := .s 3, val := some 9, level := 1 }] }) (fun k =>
      k.w.stack = [.ifL false 0 0 0 0 none] ∧
      k.w.held = [(HDst.s 3, (9 : Word))].map fun e => { dst := e.1, val := some e.2, level := k.w.stack.length }) :=
  ⟨stands_of rfl ⟨rfl, by decide, rfl, rfl, rfl, rfl, _, rfl⟩, stands_of rfl (by decide), stands_of rfl (by decide), stands_of rfl ⟨rfl, rfl⟩,
    stands_of rfl (by decide), stands_of rfl (fun _ _ _ _ _ _ _ h => nomatch (show ([] : List Level) = _ from h)),
    stands_of rfl (by decide)⟩

/-- FragmentsStayApart: two fragments over a loop, of one of which an IF takes some lanes. -/
theorem witness_apart :
    let s := demo fun w => { lanesOn 12 (split 3 w) with stack := [.ifL false 0 0 0 0 none 0, .loopMasks 16 15, .loopAddr 0 false false 0x1000], p := [(1, 4)] }
    Stands s fun k => k.w.Apart ∧ k.f.again = none ∧ ∃ t w, exec (.brk 1 false 5) s = .next t ∧ Map.find t.waves k.h = some w :=
  stands_of rfl ⟨⟨fun b f h => by cases b <;> cases h <;> decide, fun _ => ⟨by decide, _, _, _, _, _, _, _, _, rfl⟩, by decide, rfl, rfl, rfl, trivial⟩, rfl, _, _, rfl, rfl⟩

/-- A loop's two levels, of the lanes `l`, entered at the code's first word. -/
def inLanes (l : Mask) (w : Wave) : Wave := { w with stack := [.loopMasks 0 l, .loopAddr 0 false false 0x1000] }

/-- LoopsOfLanes: LOOP with two places left; BREAK and CONT that take some lanes, none and all, with lanes still in the loop and
without; an end that is known and is another; ENDLOOP at its own loop and at another. LOOP from the second of two slots, from the
first beside a second, and with one place left. -/
theorem witness_loops :
    Stands (second (demo (split 2))) (fun k => k.placed 4 = true ∧ k.w.hloops = [] ∧ k.w.held = [] ∧ k.second = true) ∧
    Stands (demo (split 2)) (fun k => k.w.hloops = [] ∧ k.second = false ∧ k.w.stack.length + 2 ≤ 8 + k.w.spill ∧
      k.w.stack = .ifL false 0 0 0 0 none 0 :: [] ∧ ∃ f, k.w.second = some f) ∧
    Stands (demo fun w => { w with stack := List.replicate 7 (.loopMasks 0 1) }) (fun k => k.second = false ∧ k.placed 4 = true ∧
      8 + k.w.spill < k.w.stack.length + 2) ∧
    Stands (demo fun w => { w with stack := List.replicate 6 (.loopMasks 0 1) }) (fun k => k.placed 4 = true ∧ k.w.hloops = [] ∧ k.w.held = [] ∧
      k.second = false ∧ k.w.second = none ∧ k.w.stack.length + 2 ≤ 8 + k.w.spill) ∧
    Stands (demo fun w => { inLanes (-1) w with p := [(1, 5), (2, -1)] }) (fun k =>
      k.w.stack = [] ++ .loopMasks 0 (-1) :: .loopAddr 0 false false 0x1000 :: [] ∧
      (k.f.mask &&& k.w.pget 1 ≠ 0 ∧ k.f.mask &&& ~~~(k.f.mask &&& k.w.pget 1) ≠ 0) ∧ k.f.mask &&& k.w.pget 0 = 0 ∧
      (k.f.mask &&& ~~~(k.f.mask &&& k.w.pget 2) = 0 ∧ (-1 : Mask) &&& ~~~(k.f.mask &&& k.w.pget 2) = 0) ∧
      (0x1000 : DWord) = k.f.pc + BitVec.ofInt 64 (4 * 0) ∧ (0x1000 : DWord) ≠ k.f.pc + BitVec.ofInt 64 (4 * 1) ∧ suspendedTop [] = false) ∧
    Stands (demo fun w => { inLanes (-1) (lanesOn 5 w) with p := [(1, 5)] }) (fun k =>
      k.f.mask &&& ~~~(k.f.mask &&& k.w.pget 1) = 0 ∧ (-1 : Mask) &&& ~~~(k.f.mask &&& k.w.pget 1) ≠ 0) ∧
    Stands (demo fun w => { w with stack := [.loopMasks 0 (-1), .loopAddr 0x1004 false true 0x1000] }) (fun k =>
      (0x1004 : DWord) = k.f.pc + BitVec.ofInt 64 (4 * 1) ∧ (0x1004 : DWord) ≠ k.f.pc + BitVec.ofInt 64 (4 * 2)) :=
  ⟨stands_of rfl (by decide), stands_of rfl ⟨rfl, rfl, by decide, rfl, _, rfl⟩, stands_of rfl (by decide), stands_of rfl (by decide),
    stands_of rfl (by decide), stands_of rfl (by decide), stands_of rfl (by decide)⟩

/-- HardwareLoops: a count and none, with and without a body around, and beside a second fragment; from the second of two slots; the
fourth loop; a counter at 2, at 1 and at 0, and one that ends a loop which suspended a fragment. -/
theorem witness_hardware_loops :
    Meets (second (demo (split 2))) 4 (fun k => k.second = true) ∧
    Meets (demo fun w => { split 2 w with s := [(1, 2)] }) 4 (fun k => k.second = false ∧ k.w.hloops.length < 3 ∧ k.s 1 ≠ 0 ∧ k.s 0 = 0 ∧
      k.w.stack = .ifL false 0 0 0 0 none 0 :: [] ∧ k.w.loopsOf k.f = [] ∧ ∃ f, k.w.second = some f ∧ f.mask ≠ 0) ∧
    Stands (demo fun w => { inLoop w with lc0 := 1, first := w.first.map fun f => { f with endPend := true }, stack := [.ifL false 0x2000 2 6 0 none 0] })
      (fun k => k.mayIssue = true ∧ k.f.endPend = true ∧ k.w.inH = false ∧ k.w.hloops = ⟨0x1000, 0x1008, 0, []⟩ :: [] ∧
        ([k.w.lc0, k.w.lc1, k.w.lc2].getD 0 0).toNat ≤ 1 ∧ k.second = false ∧ k.w.second = none ∧
        k.w.stack = .ifL false 0x2000 2 6 0 none 0 :: [] ∧ (6 : Mask) ≠ 0) ∧
    Meets (demo fun w => { w with s := [(1, 2)] }) 4 (fun k => k.second = false ∧ k.w.second = none ∧ k.w.hloops.length < 3 ∧
      suspendedTop k.w.stack = false ∧ k.s 1 ≠ 0 ∧ k.s 0 = 0 ∧ ∀ b ∈ k.w.loopsOf k.f, b.first ≤ k.f.pc) ∧
    Meets (demo fun w => { w with hloops := [⟨0x1000, 0x1010, 0, []⟩, ⟨0x1000, 0x1014, 0, []⟩], s := [(1, 1)] }) 4 (fun k => k.w.hloops.length < 3 ∧
      ∀ b ∈ k.w.loopsOf k.f, b.first ≤ k.f.pc + 4 ∧ k.f.pc + 4 ≤ b.last) ∧
    Meets (demo fun w => { w with hloops := List.replicate 3 ⟨0x1000, 0x1010, 0, []⟩ }) 4 (fun k => 3 ≤ k.w.hloops.length) ∧
    Stands (demo fun w => { inLoop w with lc0 := 2, first := w.first.map fun f => { f with endPend := true } }) (fun k => k.mayIssue = true ∧
      k.f.endPend = true ∧ k.w.inH = false ∧ k.w.hloops = ⟨0x1000, 0x1008, 0, []⟩ :: [] ∧ 1 < ([k.w.lc0, k.w.lc1, k.w.lc2].getD 0 0).toNat) ∧
    Stands (demo fun w => { inLoop w with lc0 := 1, first := w.first.map fun f => { f with endPend := true } }) (fun k => k.mayIssue = true ∧
      ([k.w.lc0, k.w.lc1, k.w.lc2].getD 0 0).toNat ≤ 1 ∧ suspendedTop k.w.stack = false) :=
  ⟨meets_of rfl rfl rfl rfl (by decide), meets_of rfl rfl rfl rfl ⟨rfl, by decide, by decide, rfl, rfl, rfl, _, rfl, by decide⟩,
    stands_of rfl (by decide), meets_of rfl rfl rfl rfl (by decide), meets_of rfl rfl rfl rfl (by decide), meets_of rfl rfl rfl rfl (by decide),
    stands_of rfl (by decide), stands_of rfl (by decide)⟩

/-- ExitEndsLanes: the last fragment, one of two, and one whose level still has lanes; in a loop, with lanes still in it and with lanes
that have left it; in an approximable region, with substituted lanes; with a queue of its own, one of another wave's, and a catalogue. -/
theorem witness_exit :
    Stands (demo fun w => { lanesOn 1 w with stack := [.loopMasks 2 5, .loopAddr 0x1010 false true 0x1000] }) (fun k => k.placed 4 = true ∧
      k.f.mask ≠ 0 ∧ k.w.stack = .loopMasks 2 5 :: .loopAddr 0x1010 false true 0x1000 :: [] ∧ (5 : Mask) &&& ~~~k.f.mask ≠ 0) ∧
    Stands (demo fun w => { lanesOn 5 w with stack := [.loopMasks 2 5, .loopAddr 0x1010 false true 0x1000] }) (fun k =>
      (5 : Mask) &&& ~~~k.f.mask = 0 ∧ (2 : Mask) &&& ~~~k.f.mask ≠ 0 ∧ suspendedTop [] = false) ∧
    (let s := { demo fun w => { lanesOn 1 w with stack := [.apxMasks 1 2, .apxAddr 0x1010 false 3 4 5 []] } with
       regions := [(regionKey 0 3, { launch := 0, va := 0, desc := [], openInv := 1, invs := [(5, [])] })] }
     Stands s fun k => k.w.stack = .apxMasks 1 2 :: .apxAddr 0x1010 false 3 4 5 [] :: [] ∧ k.second = false ∧ k.w.second = none ∧
       (2 : Mask) &&& ~~~k.f.mask ≠ 0 ∧ k.det = false ∧ ∃ y, Map.find s.regions (regionKey k.cluster 3) = some y ∧ y.freePend = false) ∧
    (let s := { demo fun w => { w with binds := [(4, ⟨0, 0⟩), (5, ⟨64, 0⟩)], cat := some 128 } with
       queues := [(0, { ctl := 0, cap := 4, itemw := 2, head := 0, tail := 0 })] }
     let s := { s with waves := Map.put s.waves 9 { group := 0, binds := [(4, ⟨64, 0⟩)] } }
     Stands s fun k => k.w.stack = [] ∧ k.second = false ∧ k.w.second = none ∧ s.waves.Pairwise (fun a b => a.1 < b.1) ∧
       k.w.binds.Pairwise (fun a b => a.1 < b.1) ∧ (∃ b ∈ k.w.binds, b.2.queue = 0) ∧ (∃ e ∈ s.waves, e.1 ≠ k.h ∧ ∃ b ∈ e.2.binds, b.2.queue = 64) ∧
       k.w.cat = some 128) ∧
    Stands (demo id) (fun k => k.placed 4 = true ∧ k.f.mask ≠ 0 ∧ k.w.held = [] ∧ k.w.hloops = [] ∧ k.w.binds = [] ∧ k.w.cat = none ∧
      k.w.stack = [] ∧ k.second = false ∧ k.w.second = none) ∧
    Stands (demo (split 2)) (fun k => k.w.stack = .ifL false 0 0 0 0 none :: [] ∧ ∃ f, k.w.frag (!k.second) = some f) ∧
    Stands (demo fun w => { lanesOn 1 w with stack := [.ifL false 0x1000 1 2 0 none] }) (fun k => (2 : Mask) &&& ~~~k.f.mask ≠ 0 ∧
      suspendedTop [] = false ∧ k.w.second = none) :=
  ⟨stands_of rfl (by decide), stands_of rfl (by decide), stands_of rfl ⟨rfl, rfl, rfl, by decide, rfl, _, rfl, rfl⟩,
    stands_of rfl (by decide), stands_of rfl (by decide), stands_of rfl ⟨rfl, _, rfl⟩, stands_of rfl (by decide)⟩

/-- An operation of a wave that has not completed, on a path. -/
def pending (n : Nat) (p : Path) (op : Op) : Out :=
  { seq := n, path := p, tag := [], acq := false, rel := false, done := false, pc := 0x1000, hash := 0, op := op }

/-- WaitingAndReading: counts within their ceilings and one beyond; a threshold asked for and none; a fence that waits, one of each
kind, and one with only a move in flight. -/
theorem witness_waiting :
    Meets (demo fun w => { w with outs := [pending 0 .ld (.load [])], nextSeq := 1, s := [(1, 1)] }) 4 (fun k => k.det = false ∧
      (k.w.outs.filter fun o => o.counted && o.path == .ld).length ≤ 1 ∧ ¬ (k.w.outs.filter fun o => o.counted && o.path == .ld).length ≤ 0 ∧
      (k.w.outs.filter fun o => o.counted && o.path == .ld).length ≤ (k.s 1).toNat ∧
      (k.s 0).toNat < (k.w.outs.filter fun o => o.counted && o.path == .ld).length ∧
      (∀ x ∈ (demo id).waiters, x.wave = k.h → x.side ≠ k.f.side) ∧
      ∃ o, (o ∈ k.w.outs ∧ o.done = false ∧ tagOrdered o.tag k.tag = true) ∧ o.path = .ld) ∧
    (let s := { demo id with waiters := [⟨0, false, .waitp 3⟩] }
     Meets s 4 fun k => ∃ x ∈ s.waiters, x.wave = k.h ∧ x.side = k.f.side ∧ x.on = .waitp 3) ∧
    Meets (demo id) 4 (fun k => k.det = false ∧ k.room 2 = true ∧ ¬ ∃ o, (o ∈ k.w.outs ∧ o.done = false) ∧ o.path ∈ [Path.ld, .st]) :=
  ⟨meets_of rfl rfl rfl rfl ⟨rfl, by decide, by decide, by decide, by decide, by decide, _, ⟨List.mem_singleton.2 rfl, rfl, by decide⟩, rfl⟩,
    meets_of rfl rfl rfl rfl ⟨_, List.mem_singleton.2 rfl, rfl, rfl, rfl⟩,
    meets_of rfl rfl rfl rfl ⟨rfl, by decide, fun ⟨_, h, _⟩ => nomatch (show _ ∈ ([] : List Out) from h.1)⟩⟩

/-- VectorAllocation: the last free block and one more; the sixteenth block and one more; blocks to release and too many; a waiter
that is the oldest, with room and past its time; a deterministic launch. -/
theorem witness_allocation :
    Meets (demo id) 4 (fun k => k.second = false ∧ k.w.blocks + 12 ≤ 16 ∧ 16 < k.w.blocks + 13 ∧ 12 ≤ (demo id).freeBlocks k.core ∧
      (demo id).racqWaiters k.core = [] ∧ 1 ≤ k.w.blocks - k.w.base ∧ k.w.blocks - k.w.base < 2 ∧ k.det = false ∧
      ∀ x ∈ (demo id).waiters, x.wave = k.h → x.side ≠ k.f.side) ∧
    (let s := { demo id with waiters := [⟨9, false, .racq 1 0⟩], waves := Map.put (demo id).waves 9 { group := 0 } }
     Meets s 4 fun k => s.racqWaiters k.core ≠ []) ∧
    (let s := { demo id with waiters := [⟨0, false, .racq 1 0⟩], cycle := 0x10001 }
     Stands s fun k => s.oldestRacq 0 = some (⟨0, false, .racq 1 0⟩, 1, 0) ∧ s.slotOf 0 k.second = some k ∧
       k.w.bySide false = some (k.second, k.f) ∧ 1 ≤ s.freeBlocks 0 ∧ k.g.life = .resident ∧ k.w.stop = none ∧ k.w.racqtmo ≠ 0 ∧
       0 + k.w.racqtmo.toNat < s.cycle ∧ k.det = false) ∧
    Meets ((demo id).modLaunch 0 fun x => { x with block := { x.block with det := true, quantum := 4 } }) 4 (fun k => k.det = true ∧ k.second = false) :=
  ⟨meets_of rfl rfl rfl rfl (by decide), meets_of rfl rfl rfl rfl (by decide),
    stands_of rfl ⟨by decide, rfl, rfl, by decide, rfl, rfl, by decide, by decide, rfl⟩, meets_of rfl rfl rfl rfl ⟨rfl, rfl⟩⟩

/-! ### Memory -/

/-- A scratchpad address names the place `k`. -/
def gives (x : Except Nat Nat) (k : Nat) : Bool := match x with
  | .ok j => j == k
  | .error _ => false

/-- A scratchpad address names nothing, for reason `r`. -/
def fails (x : Except Nat Nat) (r : Nat) : Bool := match x with
  | .ok _ => false
  | .error j => j == r

/-- A wave with the last address of its page in the pair s0:s1, one of its allocation in s2, and the first byte after each in s4 and s6. -/
def placed (w : Wave) : Wave := { w with s := [(0, 0x1FF0), (2, 0xFFF0), (4, 0x2000), (6, 0x10000), (8, 0x1FF1)] }

/-- The address of pair `bp` plus lane `l` of v0. -/
def addrOf (k : Slot) (bp l : Nat) : DWord :=
  BitVec.ofNat 64 ((k.s (2 * bp)).toNat + 2 ^ 32 * (k.s (2 * bp + 1)).toNat + (k.w.vget 0 l).toNat)

/-- A leaf of the wave's own that maps the pages of 0x1000 to the fabric addresses of module 1. -/
def onPod (w : Wave) : Wave :=
  { w with walkLeaves := [(false, { tenant := 0, page := 2, size := 12, tier := 2, pa := 2 ^ 51 + 2 ^ 45, rd := true, w := true, x := false, d := true })] }

/-- LoadsAreSent and StoresAreSent: the widest access at the end of a page and of the allocation, by every lane and by one; one whose
address is a fabric address. -/
theorem witness_accesses_sent :
    Meets (demo fun w => onPod { w with s := [(0, 0x2FF0)] }) 4 (fun k => ∀ acc, acc ∈ [0, 1, 3] →
      (demo id).xlate k.w k.f.side k.core k.l.tenant (addrOf k 0 0) acc = .ok 2 (2 ^ 51 + 2 ^ 45 + 0xFF0) ∧
      (true = ((2 : Nat) == 2 && bitAt (2 ^ 51 + 2 ^ 45 + 0xFF0) 51)) ∧
      Loc.mem (memKey 2 (2 ^ 51 + 2 ^ 45 + 0xFF0)) = (demo id).placeOf 2 (2 ^ 51 + 2 ^ 45 + 0xFF0)) ∧
    Meets (demo placed) 4 (fun k => k.heldBack = false ∧ (k.w.outs.filter fun o => o.counted && o.path == .ld).length < 63 ∧
      (k.w.outs.filter fun o => o.counted && o.path == .st).length < 63 ∧ k.mask ≠ 0 ∧ k.holds [0, 124, 125, 126, 127] ∧
      (∀ l, l < 64 → k.on l = true → (addrOf k 0 l).toNat % 16 = 0 ∧
        (demo placed).xlate k.w k.f.side k.core k.l.tenant (addrOf k 0 l) 0 = .ok 0 0x1FF0 ∧
        (demo placed).xlate k.w k.f.side k.core k.l.tenant (addrOf k 0 l) 1 = .ok 0 0x1FF0) ∧
      (∀ l, l < 64 → k.on l = true → (k.s 2 + k.w.vget 0 l).toNat % 16 = 0 ∧
        gives ((demo placed).scr k.ctx (k.s 2 + k.w.vget 0 l).toNat) (coreKey 0 + 0xFFF0) = true) ∧
      (0x1FF0 % 16 = 0 ∧ (coreKey 0 + 0xFFF0) % 16 = 0) ∧ k.room 4 = true ∧ 4 < 5) ∧
    Meets (demo fun w => { lanesOn 0x8000000000000000 w with s := [(0, 0x1FFF)] }) 8 (fun k => k.mask ≠ 0 ∧ k.on 63 = true ∧
      (demo id).xlate k.w k.f.side k.core k.l.tenant (addrOf k 0 63) 1 = .ok 0 0x1FFF) :=
  ⟨meets_of rfl rfl rfl rfl (by decide),
    meets_of rfl rfl rfl rfl ⟨rfl, by decide, by decide, by decide, holds_of rfl, by decide, by decide, by decide, by decide, by decide⟩,
    meets_of rfl rfl rfl rfl (by decide)⟩

/-- A load of one word of lane 63 to v5 and a store of it, neither performed. -/
def loadOut (n : Nat) : Out :=
  pending n .ld (.load [[{ lane := 63, loc := .mem 0x1FFC, va := 0x1FFC, n := 4, dst := [5 * 64 + 63], sx := false, uni := false }]])

def storeOut (n : Nat) : Out :=
  pending n .st (.store [{ va := 0x1FFC, lanes := 0x8000000000000000, bytes := (List.range 4).map fun i => (.mem (0x1FFC + i), 7) }])

/-- Its bytes when they have performed for the cluster only, and the operation is gone. -/
def flightOf : Flight :=
  { wave := 0, seq := 0, group := 0, idx := 0, core := 0, scope := 2, bytes := (List.range 4).map fun i => (.mem (0x1FFC + i), 7) }

/-- DataReturnsAndStoresPerform: a load's last sector behind the wave's own store to its bytes; a store, plain and release; a write
that has performed for its cluster only, seen by its wave, the last of its bytes; a PROMOTE that reads beside it; a store of which
one sector goes through a fabric address. -/
theorem witness_data_returns :
    (let o := { loadOut 1 with promote := true }
     let s := { demo (fun w => { w with outs := [o], nextSeq := 2 }) with flight := [] ++ flightOf :: [] }
     ∃ w c, Map.find s.waves 0 = some w ∧ w.out 1 = some o ∧ o.op = .load [c] ∧ s.tenantOf flightOf.wave = s.tenantOf 0 ∧
       (flightOf.bytes.reverse.find? fun e => e.1 == Loc.mem 0x1FFF).map (·.2) = some 7 ∧ ∀ p ∈ w.outs, ¬ p.seq < 1) ∧
    (let cs : List StSec := [{ va := 0, lanes := 1, bytes := [(.mem 0x1000, 7)] }, { va := 0, lanes := 2, bytes := [(.mem (memKey 2 (2 ^ 51)), 7)] }]
     let o := { pending 0 .st (.store cs) with sys := 2 }
     o.op = .store cs ∧ (∀ c ∈ cs, ∀ d ∈ cs, ∀ e ∈ c.bytes, ∀ f ∈ d.bytes, e.1 = f.1 →
       decide (c.lanes &&& o.sys ≠ 0) = decide (d.lanes &&& o.sys ≠ 0)) ∧ cs.any (fun c => decide (c.lanes &&& o.sys ≠ 0)) = true) ∧
    (let s := demo fun w => { w with outs := [storeOut 0, loadOut 1], nextSeq := 2 }
     ∃ w c, Map.find s.waves 0 = some w ∧ w.out 1 = some (loadOut 1) ∧ (loadOut 1).op = .load [c] ∧ [c][0]? = some c ∧
       (∀ e ∈ c, e.uni = false ∧ 0 < e.n ∧ e.dst.length = (e.n + 3) / 4) ∧ (c.flatMap fun e => e.dst).Nodup ∧
       (∀ e ∈ c, s.reaches (s.tenantOf 0) e.loc = true) ∧ (storeOut 0).touches (.mem 0x1FFC) 4 = true ∧
       (storeOut 0).supplies (.mem 0x1FFF) = some 7 ∧ (storeOut 0).supplies (.mem 0x1000) = none ∧
       (∀ e ∈ c, w.tstDue 1 e.loc e.n = false) ∧ w.ownByte 1 (.mem 0x1FFF) = none) ∧
    (let s := demo fun w => { w with outs := [storeOut 0], nextSeq := 1 }
     ∃ w, Map.find s.waves 0 = some w ∧ w.out 0 = some (storeOut 0) ∧ s.detWave 0 = false ∧ s.detSeen w = none ∧
       s.flight = [] ∧ s.reaches (s.tenantOf 0) (.mem 0x1FFF) = true ∧ (storeOut 0).scope.code < 4) ∧
    (let o := { storeOut 1 with rel := true, scope := .system }
     let s := { demo (fun w => { w with outs := [o], nextSeq := 2 }) with flight := [flightOf] }
     ∃ w, Map.find s.waves 0 = some w ∧ w.out 1 = some o ∧ (∀ p ∈ w.outs, ¬ p.seq < 1) ∧
       (∀ v, Map.find s.waves 0 = some v → v.out 0 = none) ∧ flightOf.seenBy w (s.coreFor w) = true ∧
       (flightOf.bytes.reverse.find? fun e => e.1 == Loc.mem 0x1FFF).map (·.2) = some 7 ∧ 4 ≤ o.scope.code) :=
  ⟨⟨_, _, rfl, by decide, rfl, by decide, by decide, by decide⟩, by decide,
    ⟨_, _, rfl, by decide, rfl, rfl, by decide, by decide, by decide, by decide, by decide, by decide, by decide, by decide⟩,
    ⟨_, rfl, by decide, by decide, by decide, by decide, by decide, by decide⟩,
    ⟨_, rfl, by decide, by decide, fun _ h => by cases h; decide, by decide, by decide, by decide⟩⟩

/-- A load of four words of lane 0 from the scratchpad, one of a word to s5, and a store of one word beyond the host port. -/
def errOuts : List Out :=
  [{ pending 0 .ld (.load [[{ lane := 0, loc := .scr (coreKey 0), va := 0, n := 16, dst := [0, 64, 128, 192], sx := false, uni := false }]]) with mask := 1 },
   { pending 1 .ld (.load [[{ lane := 0, loc := .mem 0x800, va := 0x800, n := 4, dst := [5], sx := false, uni := true }]]) with mask := 1 },
   pending 2 .st (.store [{ va := 0, lanes := 1, bytes := (List.range 64).map fun i => (.mem (memKey 2 i), 7) }]),
   pending 3 .st (.store [{ va := 0, lanes := 1, bytes := (List.range 64).map fun i => (.mem i, 7) }]), storeOut 4,
   pending 5 .ld (.atomic .add false false false true
     [{ loc := .mem 0x1000, va := 0x1000, parts := [(63, 5, 0, [5 * 64 + 63])], bad := some 0x20 }])]

/-- AccessErrors: the last word of a scratchpad load, a uniform load, a whole sector on the host port, a whole and a part of one in
device memory, an atomic before and after its error is known; the last place of the fabric. -/
theorem witness_access_errors :
    (let s := demo fun w => { w with outs := errOuts, nextSeq := 6 }
     ∃ w f l x, Map.find s.waves 0 = some w ∧ w.stop = none ∧ w.frag false = some f ∧ s.launchOf 0 = some (l, x) ∧
       (∀ i, i < 6 → w.out i = errOuts[i]?) ∧ 4 * 3 < 16 ∧ s.detWave 0 = false ∧
       (Loc.mem (memKey 2 0)).onHost = true ∧ (Loc.mem 0).onHost = false ∧ (List.range 64).eraseDups.length = 64 ∧
       (∀ p ∈ w.outs, p.seq < 4 → ∀ i, i < 4 → p.touches (.mem (0x1FFC + i)) 1 = false) ∧
       x.block.det = false ∧ x.replaying = false ∧
       s.atomicReady w x.tenant (errOuts.getD 5 (storeOut 0)) false false
         { loc := .mem 0x1000, va := 0x1000, parts := [(63, 5, 0, [5 * 64 + 63])], bad := some 0x20 } = true) ∧
    (Loc.mem (memKey 2 (2 ^ 51))).onFabric = true :=
  ⟨⟨_, _, _, _, rfl, rfl, rfl, rfl, by decide, by decide, by decide, by decide, by decide, by decide, by decide,
    rfl, rfl, by decide⟩, by decide⟩

/-- FaultingAccesses: a lane off its alignment, one outside the allocation and one whose translation faults, each the last of the
active lanes, alone and beside a lane that performs. -/
theorem witness_faulting_accesses :
    Meets (demo fun w => { placed w with v := [(63, 1)] }) 4 (fun k => k.heldBack = false ∧ k.holds [0, 1] ∧
      (∀ l, l < 64 → ((0x8000000000000000 : Mask).getLsbD l = true ↔ k.on l = true ∧ (addrOf k 0 l).toNat % 2 ≠ 0)) ∧
      ∀ j, j < 63 → (0x8000000000000000 : Mask).getLsbD j = false) ∧
    Meets (demo fun w => { placed w with v := [(63, 16)] }) 4 (fun k =>
      (∀ l, l < 64 → k.on l = true → (k.s 2 + k.w.vget 0 l).toNat % 4 = 0) ∧
      ∀ l, l < 64 → ((0x8000000000000000 : Mask).getLsbD l = true ↔ k.on l = true ∧
        fails ((demo id).scr k.ctx (k.s 2 + k.w.vget 0 l).toNat) 3 = true)) ∧
    (let s := demo fun w => { placed w with v := [(63, 16)], walkFaults := [⟨false, 2, 0, 12, 0⟩] }
     Meets s 4 fun k => k.w.stop = none ∧
       (∀ l, l < 64 → k.on l = true → (addrOf k 0 l).toNat % 4 = 0 ∧ (match s.xlate k.w k.f.side k.core k.l.tenant (addrOf k 0 l) 0 with
           | .miss | .error _ => false
           | _ => true) = true) ∧
       (∀ l, l < 64 → ((0x8000000000000000 : Mask).getLsbD l = true ↔ k.on l = true ∧
         s.xlate k.w k.f.side k.core k.l.tenant (addrOf k 0 l) 0 = .fault 0 12)) ∧ (0x8000000000000000 : Mask) ≠ k.mask) :=
  ⟨meets_of rfl rfl rfl rfl ⟨rfl, holds_of rfl, by decide, by decide⟩, meets_of rfl rfl rfl rfl (by decide), meets_of rfl rfl rfl rfl (by decide)⟩

/-- An atomic of one word by lane 63, as the instruction sends it. -/
def atomOut (n : Nat) (det : Bool) (res : Option (List DWord)) : Out :=
  pending n .ld (.atomic .add false det false true
    [{ loc := .mem 0x1FFC, va := 0x1FFC, parts := [(63, 5, 0, [5 * 64 + 63])], res := res }])

/-- AtomicsAreSent and AtomicsPerform: lanes that merge at the page's end; a request that is ready, one whose result is back; a
window at its last cycle and before it. -/
theorem witness_atomics :
    Meets (demo fun w => { w with s := [(0, 0x1FF8)] }) 8 (fun k => k.heldBack = false ∧ k.mask ≠ 0 ∧ k.holds [0, 124, 125, 126, 127] ∧ k.room 2 = true ∧
      ∀ l, l < 64 → k.on l = true → (addrOf k 0 l).toNat % 8 = 0 ∧ (demo id).xlate k.w k.f.side k.core k.l.tenant (addrOf k 0 l) 3 = .ok 0 0x1FF8) ∧
    (let s := demo fun w => { w with outs := [atomOut 0 false none], nextSeq := 1 }
     ∃ w l x, Map.find s.waves 0 = some w ∧ w.out 0 = some (atomOut 0 false none) ∧ s.launchOf 0 = some (l, x) ∧ x.block.det = false ∧
       x.replaying = false ∧ x.recording = false ∧ s.reaches x.tenant (.mem 0x1FFC) = true ∧ (atomOut 0 false none).rel = false ∧
       Map.find s.windows (s.homeUnit (.mem 0x1FFC)) = none) ∧
    (let s := demo fun w => { w with outs := [atomOut 0 false (some [9])], nextSeq := 1 }
     ∃ w, Map.find s.waves 0 = some w ∧ w.out 0 = some (atomOut 0 false (some [9]))) ∧
    (let s := { demo id with windows := [(11, { unit := 11, launch := none, n := 0 })], cycle := 63 }
     ∃ v, 11 < homeUnits ∧ Map.find s.windows 11 = some v ∧ 64 * v.n + 63 ≤ s.cycle ∧ v.launch = none) ∧
    (let o := { atomOut 1 false none with rel := true, scope := .system }
     let s := { demo fun w => { w with outs := [o], nextSeq := 2 } with flight := [flightOf] }
     ∃ w l x, Map.find s.waves 0 = some w ∧ w.out 1 = some o ∧ s.launchOf 0 = some (l, x) ∧ x.block.det = false ∧ x.replaying = false ∧
       x.recording = false ∧ s.reaches x.tenant (.mem 0x1FFC) = true ∧ (∀ p ∈ w.outs, ¬ p.seq < 1) ∧ flightOf.seenBy w (s.coreFor w) = true) ∧
    (let s := { demo id with windows := [(0, { unit := 0, launch := none, n := 1 })], cycle := 126 }
     ∃ v, Map.find s.windows 0 = some v ∧ s.cycle < 64 * v.n + 63) ∧
    (let s := { demo fun w => { w with outs := [atomOut 0 true none], nextSeq := 1 } with cycle := 127 }
     ∃ w l x, Map.find s.waves 0 = some w ∧ w.out 0 = some (atomOut 0 true none) ∧ s.launchOf 0 = some (l, x) ∧ x.block.det = false ∧
       x.replaying = false ∧ (∀ p ∈ w.outs, ¬ p.seq < 0) ∧ (Map.find s.windows (s.homeUnit (.mem 0x1FFC))).isNone = true ∧ s.cycle / 64 = 1 ∧
       ({ unit := 0, launch := none, n := 0 } : Window).n ≠ s.cycle / 64) ∧
    (let e : CEntry := { waveid := 0, lane := 0, order := 0, wave := 0, seq := 0, idx := 0 }
     let full : Window := { unit := 0, launch := none, rows := (List.range 64).map fun i => (i, List.replicate 16 e), refused := [e] }
     Map.find full.rows 63 = some (List.replicate 16 e) ∧ Map.find full.rows 64 = none ∧ ¬ full.rows.length < 64 ∧
       (let some : Window := { unit := 0, launch := none, rows := [(0, List.replicate 15 e)] }
        (Map.find some.rows 0).map (·.length) = .some 15 ∧ Map.find some.rows 1 = none ∧ some.rows.length < 64)) ∧
    ((2 ^ 32 - 1 < 2 ^ 32) ∧ AtomOp.add ≠ .fadd ∧ [(1, 0)] = (1, 0) :: ([] : List (Nat × Nat))) :=
  ⟨meets_of rfl rfl rfl rfl ⟨rfl, by decide, holds_of rfl, by decide, by decide⟩,
    ⟨_, _, _, rfl, by decide, rfl, rfl, rfl, rfl, by decide, rfl, rfl⟩, ⟨_, rfl, by decide⟩, ⟨_, by decide, rfl, by decide, rfl⟩,
    ⟨_, _, _, rfl, by decide, rfl, rfl, rfl, rfl, by decide, by decide, by decide⟩, ⟨_, rfl, by decide⟩, ⟨_, _, _, rfl, by decide, rfl, rfl, rfl, by decide, by decide, by decide, by decide⟩, by decide, by decide⟩

/-- A move of two rows of four bytes within the allocation. -/
def moveOut : Out := pending 0 .cp (.tmov (coreKey 0 + 0xFFF8) (coreKey 0) 2 4 8 4 0 1)

/-- RectangleMoves: a rectangle that ends at the allocation's end and an empty one; a move in flight, and one whose first source word,
which both rows share, cannot be read. -/
theorem witness_moves :
    Meets (demo fun w => { w with s := [(0, 0xFFF8), (4, 0x20004), (5, 0x40008)] }) 4 (fun k => k.heldBack = false ∧
      ((k.s 4).toNat % 2 ^ 16 = 4 ∧ (k.s 4).toNat / 2 ^ 16 = 2) ∧ (k.s 2).toNat / 2 ^ 16 = 0 ∧
      gives ((demo id).scrRange k.ctx (k.s 2).toNat 12) (coreKey 0) = true ∧
      gives ((demo id).scrRange k.ctx (k.s 0).toNat 8) (coreKey 0 + 0xFFF8) = true ∧
      ∀ i, i < 2 → ∀ j, j < 2 → coreKey 0 + 0xFFF8 + i * 4 + 4 ≤ coreKey 0 + j * 8 ∨ coreKey 0 + j * 8 + 4 ≤ coreKey 0 + 0xFFF8 + i * 4) ∧
    Meets (demo fun w => { w with s := [(0, 2), (4, 0x20004), (6, 0x0), (8, 0x10004)] }) 4 (fun k =>
      ((k.s 0).toNat % 4 ≠ 0 ∧ (k.s 2).toNat % 4 = 0) ∧ 0 < (k.s 4).toNat ∧
      fails ((demo id).scrRange k.ctx 0xFFFC 8) 3 = true ∧ gives ((demo id).scrRange k.ctx 0 4) (coreKey 0) = true ∧
      ¬ (∀ i, i < 2 → ∀ j, j < 2 → coreKey 0 + i * 4 + 4 ≤ coreKey 0 + j * 8 ∨ coreKey 0 + j * 8 + 4 ≤ coreKey 0 + i * 4) ∧
      1 < 2 ∧ 0 < 4) ∧
    (let s := demo fun w => { w with outs := [moveOut], nextSeq := 1 }
     ∃ w, Map.find s.waves 0 = some w ∧ w.out 0 = some moveOut ∧ s.detWave 0 = false ∧ w.beforeTmov 0 [] = false ∧
       (∀ i j, i < 2 → j < 2 → coreKey 0 + 0xFFF8 + i * 4 + 4 ≤ coreKey 0 + j * 8 ∨ coreKey 0 + j * 8 + 4 ≤ coreKey 0 + 0xFFF8 + i * 4)) ∧
    (let o : Out := { pending 0 .cp (.tmov (coreKey 0 + 0x100) (coreKey 0) 2 4 0 4 0 1) with bad := [(0x20, 0), (0x20, 1)] }
     let s := demo fun w => { w with outs := [o], nextSeq := 1 }
     ∃ w, Map.find s.waves 0 = some w ∧ w.out 0 = some o ∧ s.detWave 0 = false ∧ w.beforeTmov 0 [] = false ∧ 4 % 4 = 0 ∧ 4 ≤ 4 ∧
       ∀ e ∈ o.bad, e.2 / (4 / 4) * 0 + 4 * (e.2 % (4 / 4)) = 0) :=
  ⟨meets_of rfl rfl rfl rfl (by decide), meets_of rfl rfl rfl rfl (by decide),
    ⟨_, rfl, by decide, by decide, by decide, fun i j hi hj => by omega⟩, ⟨_, rfl, by decide, by decide, by decide, by decide, by decide, by decide⟩⟩

/-- PageTables: a miss that waits, every walker taken, a walk that has ended with a leaf that one of its accesses may not use, with a
fault and with an entry that could not be read, for a slot and for an engine command; an invalidation that waits for nothing; table
entries at the first and last level, and a contiguous group. -/
theorem witness_page_tables :
    (let x : Walk := { tenant := 0, cluster := 0, page := 1, waiters := [⟨0, false, 0, none, none⟩] }
     let v : Inval := ⟨0, 0, 4096, [(0, 5)], [(0, 9)], [(0, 0)], [(0, 7)], [(0, 4096)], none⟩
     let s := { demo id with walks := [(0, [x])], invals := [(3, v)] }
     ((Map.find s.walks 0).getD [] = [] ++ x :: [] ∧ x.result = none ∧ (([x].filter fun y => y.result.isSome).length < 512)) ∧
     ∃ v w, Map.find s.invals 3 = some v ∧ v.cmd = none ∧ Map.find s.waves 0 = some w ∧ w.out 5 = none ∧
       (∀ y ∈ (Map.find s.walks 0).getD [], y.page ≠ 9) ∧ w.walkLeaves = [] ∧ w.outs = [] ∧ s.xunits = []) ∧
    (let leaf : Tlb := { tenant := 0, page := 1, size := 12, tier := 0, pa := 0x1000, rd := true, w := false, x := false, d := false }
     let ws : List Walk := [{ tenant := 0, cluster := 0, page := 1, waiters := [⟨0, false, 0, none, none⟩, ⟨0, true, 1, none, none⟩, ⟨0, false, 0, some (2, 0), none⟩], result := some (.leaf leaf 0x4000) },
       { tenant := 0, cluster := 0, page := 2, waiters := [⟨0, false, 0, none, none⟩, ⟨0, false, 0, some (3, 1), none⟩], stale := true, result := some (.fault 0 12) },
       { tenant := 0, cluster := 0, page := 3, waiters := [⟨0, false, 0, none, none⟩], result := some (.error 0x4008) }]
     (ws.filter fun y => y.result.isSome)[2]? = some ws[2] ∧ (Map.find (demo id).waves 0).isSome = true ∧ leaf.permits 0 = true ∧
       leaf.permits 1 = false ∧ (demo id).coreOf 0 = some 0 ∧ ∀ x ∈ ws, ∀ a ∈ x.waiters, a.log = none) ∧
    (let leaf : Tlb := { tenant := 0, page := 1, size := 12, tier := 0, pa := 0x1000, rd := true, w := true, x := false, d := false }
     let x : Walk := { tenant := 0, cluster := 1, page := 1, waiters := [⟨0, false, 0, none, none⟩], stale := true, result := some (.leaf leaf 0x4000) }
     let v : Inval := ⟨0, 0, 4096, [], [(0, 1)], [], [], [], none⟩
     let s := { demo id with walks := [(0, [x])], invals := [(3, v)] }
     Map.find s.invals 3 = some v ∧ v.tenant = x.tenant ∧ (x.cluster / 3, x.page) ∈ v.walks ∧ x.stale = true ∧ leaf.permits 0 = true ∧
       (let y : Walk := { x with waiters := [⟨0, false, 1, none, some (0, 1)⟩] }
        y.waiters = [⟨0, false, 1, none, some (0, 1)⟩] ∧ y.result = some (.leaf leaf 0x4000))) ∧
    (∃ ws : List Walk, 512 ≤ (ws.filter fun y => y.result.isSome).length) ∧
    (let bits := fun (e hi lo : Nat) => e / 2 ^ lo % 2 ^ (hi + 1 - lo)
     bits 0 0 0 = 0 ∧ (bits (2 ^ 52 + 1) 0 0 = 1 ∧ bits (2 ^ 52 + 1) 63 52 ≠ 0 ∧ bits (2 ^ 52 + 1) 5 5 = 0) ∧ (bits 3 1 1 = 1 ∧ 1 < 2) ∧ bits 1 1 1 = 0 ∧
       (bits 0x1007 51 12 * 4096 % 2 ^ 12 = 0 ∧ bits 0x1007 1 1 = 1) ∧ bits (2 ^ 64 - 1) 63 52 = 4095 ∧
       (bits 0x100C7 5 5 = 0 ∧ bits 0x100C7 7 6 = 3 ∧ bits 0x100C7 10 10 = 0) ∧
       ∀ i, i < 16 → bits (0x10027 + i * 4096) 51 12 = bits 0x10027 51 12 + i ∧ bits (0x10027 + i * 4096) 5 5 = 1 ∧ bits 0x10027 51 12 % 16 = 0) :=
  ⟨⟨by decide, _, _, rfl, rfl, rfl, by decide, by decide, by decide, by decide, by decide⟩, by decide, by decide,
    ⟨List.replicate 512 { tenant := 0, cluster := 0, page := 0, waiters := [], result := some (.fault 0 12) }, by
      rw [List.filter_eq_self.2 fun y h => by rw [List.eq_of_mem_replicate h]; rfl]; exact Nat.le_of_eq List.length_replicate.symm⟩, by decide⟩

/-! ### Queues, barriers, phases and engines -/

/-- The machine with a bound queue q8 at offset 0 of the cluster allocation: four items of one word, `tail` of them pushed. -/
def withQueue (tail : Word) (s : State) : State :=
  let s := s.modWave 0 fun w => { w with binds := [(8, ⟨clusterKey 0 0, 0⟩)] }
  { s with queues := [(clusterKey 0 0, { ctl := 0, cap := 4, itemw := 1, head := 0, tail := tail })] }

/-- CommandsAndRecords: the last credit and none, a full intake, a record and none. -/
theorem witness_commands :
    Meets (demo fun w => { w with q1 := [List.replicate 8 0], outs := List.replicate 62 (pending 0 .cp .engine) }) 4 (fun k => k.heldBack = false ∧
      k.det = false ∧ (k.w.outs.filter fun o => o.counted && o.path == .cp).length = 62 ∧ ((Map.find (demo id).intakes 0).getD []).length < 256 ∧
      k.room 9 = true ∧ ∃ r rs, k.w.q1 = r :: rs) ∧
    Meets (demo fun w => { w with outs := List.replicate 63 (pending 0 .cp .engine) }) 4 (fun k =>
      63 ≤ (k.w.outs.filter fun o => o.counted && o.path == .cp).length ∧ k.w.q3 = [] ∧
      ∀ x ∈ (demo id).waiters, x.wave = k.h → x.side ≠ k.f.side) ∧
    (let c : Command := { wave := 0, launch := 0, group := 0, tenant := 0, core := 0, gather := false, words := [], seqNo := 0, out := 0, tag := [] }
     let s := { demo id with intakes := [(0, List.replicate 256 c)] }
     Meets s 4 fun k => 256 ≤ ((Map.find s.intakes (k.g.core / 192 * 2)).getD []).length) :=
  ⟨meets_of rfl rfl rfl rfl ⟨rfl, rfl, by decide, by decide, by decide, _, _, rfl⟩, meets_of rfl rfl rfl rfl (by decide),
    meets_of rfl rfl rfl rfl (by
      show 256 ≤ (List.replicate 256 _).length; exact Nat.le_of_eq List.length_replicate.symm)⟩

/-- BoundQueues: an empty queue, a full one, and the last word of the register file; a register that is not bound, with a sound
header and one that is not; a binding that another wave shares. -/
theorem witness_queues :
    (let s := withQueue 3 (demo id)
     Meets s 4 fun k => k.heldBack = false ∧ k.det = false ∧ 63 + 1 ≤ 64 ∧ (∃ key qu, s.boundQueue k 8 = some (key, qu) ∧ 0 < qu.cap ∧
       (qu.tail - qu.head).toNat < qu.cap ∧ 0 < (qu.tail - qu.head).toNat ∧ s.queueWaiter key true = none ∧ s.queueWaiter key false = none) ∧
       k.busy = false ∧ k.room 3 = true) ∧
    (let s := withQueue 4 (demo id)
     Meets s 4 fun k => ∃ key qu, s.boundQueue k 8 = some (key, qu) ∧ qu.cap ≤ (qu.tail - qu.head).toNat) ∧
    (let s := withQueue 0 (demo id)
     Meets s 4 fun k => ∃ key qu, s.boundQueue k 8 = some (key, qu) ∧ (qu.tail - qu.head).toNat = 0) ∧
    (let s := { demo (fun w => { w with s := [(0, 0x20000000)] }) with scratch := [(clusterKey 0 0, 2), (clusterKey 0 0 + 2, 1)] }
     Meets s 4 fun k => k.w.boundTo 15 = none ∧ (k.s 0).toNat % 32 = 0 ∧ gives (s.scrRange k.ctx (k.s 0).toNat 32) (clusterKey 0 0) = true ∧
       Map.find s.queues (clusterKey 0 0) = none ∧ s.seenNum k (.scr (clusterKey 0 0)) 4 = 0x10002 ∧
       gives (s.scrRange k.ctx (k.s 0).toNat (32 + 4 * 2 * 1)) (clusterKey 0 0) = true ∧ s.waiters = []) ∧
    (let s := withQueue 1 { demo id with waves := Map.put (demo id).waves 1 { group := 0, binds := [(9, ⟨clusterKey 0 0, 0⟩)] } }
     Meets s 4 fun k => ∃ b, Map.find k.w.binds 8 = some b ∧
       ∃ g w, g ≠ k.h ∧ Map.find s.waves g = some w ∧ ∃ r c, Map.find w.binds r = some c ∧ c.queue = b.queue) :=
  ⟨meets_of rfl rfl rfl rfl ⟨rfl, rfl, by decide, ⟨_, _, rfl, by decide, by decide, by decide, by decide, by decide⟩, by decide, by decide⟩,
    meets_of rfl rfl rfl rfl ⟨_, _, rfl, by decide⟩, meets_of rfl rfl rfl rfl ⟨_, _, rfl, by decide⟩, meets_of rfl rfl rfl rfl (by decide),
    meets_of rfl rfl rfl rfl ⟨_, rfl, 1, _, by decide, rfl, 9, _, rfl, rfl⟩⟩

/-- BarrierOperations: a count of the largest size and one beyond; an overrun, the present phase and another; a wait that is over; in a
deterministic launch, the last barrier of the allocation with a tile store to its bytes outstanding and with none. -/
theorem witness_barriers :
    (let det := fun (os : List Out) => (demo fun w => { w with s := [(0, 0xFFF8), (1, 0x7FFFFFFF), (2, 0)], outs := os, nextSeq := 1 }).modLaunch 0 fun x =>
       { x with block := { x.block with det := true, quantum := 4 } }
     let o : Out := pending 0 .tl (.tile (.tst 0 0 false) 0x8000000000000000 [0x68040] [] [(63, .scr (coreKey 0 + 0xFF80), none)] 0 false)
     Meets (det [o]) 4 (fun k => k.heldBack = false ∧ k.det = true ∧ (k.s 0).toNat % 8 = 0 ∧ (k.s 1).toNat < 2 ^ 31 ∧
       gives ((det [o]).scrRange k.ctx (k.s 0).toNat 8) (coreKey 0 + 0xFFF8) = true ∧ k.w.tstDue k.w.nextSeq (.scr (coreKey 0 + 0xFFF8)) 8 = true) ∧
     Meets (det []) 4 (fun k => k.heldBack = false ∧ k.det = true ∧ k.w.tstDue k.w.nextSeq (.scr (coreKey 0 + 0xFFF8)) 8 = false ∧
       (det []).seenNum k (.scr (coreKey 0 + 0xFFF8)) 8 = 0 ∧ 0 ≠ (k.s 1).toNat % 2 ^ 16 ∧ (det []).waiters = [])) ∧
    Meets (demo fun w => { w with s := [(0, 0xFFF8), (1, 0x7FFFFFFF), (2, 0x80000000), (3, 0x10000)] }) 4 (fun k => k.heldBack = false ∧ k.det = false ∧
      (k.s 0).toNat % 8 = 0 ∧ gives ((demo id).scrRange k.ctx (k.s 0).toNat 8) (coreKey 0 + 0xFFF8) = true ∧
      k.conflicts (.scr (coreKey 0 + 0xFFF8)) 8 = false ∧ (k.s 1).toNat < 2 ^ 31 ∧ 2 ^ 31 ≤ (k.s 2).toNat ∧ k.busy = false ∧
      (demo id).seenNum k (.scr (coreKey 0 + 0xFFF8)) 8 = 0 ∧ 0 = (k.s 3).toNat % 2 ^ 16 ∧ 0 ≠ (k.s 1).toNat % 2 ^ 16) ∧
    2 ^ 48 / 2 ^ 48 % 2 = 1 ∧
    (let s := { demo id with waiters := [⟨0, false, .barw (coreKey 0) 0 true⟩] }
     s.waiters = [] ++ ⟨0, false, .barw (coreKey 0) 0 true⟩ :: []) :=
  ⟨⟨meets_of rfl rfl rfl rfl (by decide), meets_of rfl rfl rfl rfl (by decide)⟩, meets_of rfl rfl rfl rfl (by decide), by decide, rfl⟩

/-- A phase header of one entry, that of one event of kind 3 at the first word of the core's allocation. -/
def phaseHeader (s : State) : State :=
  { s with scratch := [(coreKey 0 + 0x100, 1), (coreKey 0 + 0x101, 9), (coreKey 0 + 0x10C, 1), (coreKey 0 + 0x10F, 0x30)] }

/-- DrainedPhases, and the events of BoundQueues: a header that is sound and one that is not; a phase that is registered, complete and
unknown, and one with an entry for pushes into a queue. -/
theorem witness_phases :
    (let s := phaseHeader (demo fun w => { w with s := [(0, 0x100)] })
     Meets s 4 fun k => k.heldBack = false ∧ k.det = false ∧ (k.s 0).toNat % 8 = 0 ∧ k.room 1 = true ∧
       gives (s.scrRange k.ctx (k.s 0).toNat 8) (coreKey 0 + 0x100) = true ∧ s.seenNum k (.scr (coreKey 0 + 0x100)) 4 = 0x901 ∧
       gives (s.scrRange k.ctx (k.s 0).toNat 16) (coreKey 0 + 0x100) = true ∧ s.seenNum k (.scr (coreKey 0 + 0x104)) 4 = 0 ∧
       s.seenNum k (.scr (coreKey 0 + 0x108)) 4 = 0 ∧ s.seenNum k (.scr (coreKey 0 + 0x10C)) 4 = 0x30000001 ∧
       gives (s.scr k.ctx 0) (coreKey 0) = true ∧ (s.phases.filter fun e => e.2.die == k.die && !e.2.complete).length < 16 ∧
       Map.find s.phases (coreKey 0 + 0x100) = none ∧ ∀ y ∈ s.waiters, y.wave = k.h → y.side ≠ k.f.side) ∧
    Meets (demo id) 4 (fun k => (demo id).seenNum k (.scr (coreKey 0)) 4 % 2 ^ 8 = 0) ∧
    (∃ p, Map.find { demo id with phases := [(coreKey 0, { phid := 9, entries := [(3, coreKey 0, 1)] })] }.phases (coreKey 0) = some p ∧ p.complete = false) ∧
    ∃ p, Map.find { demo id with phases := [(coreKey 0, { phid := 9, entries := [], complete := true })] }.phases (coreKey 0) = some p ∧ p.complete = true :=
  ⟨meets_of rfl rfl rfl rfl (by decide), meets_of rfl rfl rfl rfl (by decide), ⟨_, rfl, rfl⟩, _, rfl, rfl⟩

/-- A copy of four bytes from offset 0 of the core's allocation to its last word, `bar` saying which barrier it arrives at. -/
def copyOf (w0 : Word) : Command :=
  { wave := 0, launch := 0, group := 0, tenant := 0, core := 0, gather := false, words := [0x03000000 ||| w0, 4, 0, 0, 0, 0, 0xFFFC, 0],
    seqNo := 0, out := 0, tag := [] }

/-- The machine with that command dispatched to engine 0. -/
def copying (c : Command) : State :=
  { demo (fun w => { w with outs := [pending 0 .cp .engine], nextSeq := 1 }) with engines := [(0, { c with started := true })] }

/-- EngineCommands: a command that waits for its engine; one without a barrier and without a record, one with a barrier, one of no
rows, one off alignment; one whose source is beside its destination, and a gather by an index array. -/
theorem witness_engines :
    (let s := { demo id with intakes := [(0, [copyOf 0])] }
     Map.find s.intakes 0 = some (copyOf 0 :: []) ∧ Map.find s.engines 0 = none ∧ 0 / 2 ^ 26 % 2 = 0 ∧ s.waiters = []) ∧
    (∃ w, Map.find (copying (copyOf 0x00800000)).waves 0 = some w ∧ w.earlier 0 [] = false ∧ w.first.isSome = true ∧ w.q1.length < 64 ∧
      (copying (copyOf 0x00800000)).engCheck (copyOf 0x00800000) = none) ∧
    (let c := copyOf 0
     let s := copying c
     let m := State.engResolve c c.steps { s := s }
     m.fail = none ∧ m.wait = false ∧ m.places = [(.scr (coreKey 0), .scr (coreKey 0 + 0xFFFC))] ∧ c.bar = 0 ∧
       (s.xunit c.wave c.out).faults = [] ∧ gives (s.scrRange c.ctx 0 4) (coreKey 0) = true ∧
       gives (s.scrRange c.ctx 0xFFFC 4) (coreKey 0 + 0xFFFC) = true ∧ c.gather = false) ∧
    (let c := { copyOf 0 with gather := true, words := [0x03000000, 0x10004, 0x40, 4, 0, 0, 0xFFFC, 0] }
     let s := copying c
     let m := State.engResolve c c.steps { s := s }
     m.fail = none ∧ m.wait = false ∧ m.places = [(.scr (coreKey 0), .scr (coreKey 0 + 0xFFFC))] ∧ gives (s.scr c.ctx 0x40) (coreKey 0 + 0x40) = true ∧
       s.num (.scr (coreKey 0 + 0x40)) 4 = 0 ∧ gives (s.scrRange c.ctx 0 4) (coreKey 0) = true) ∧
    (let c := copyOf 0x00200010
     c.bar ≠ 0 ∧ gives ((copying c).scr c.ctx c.barAddr) (coreKey 0 + 0x80) = true ∧ (copying c).engCheck c = none) ∧
    (demo id).engCheck { copyOf 0 with words := [] } = some { status := 1 } ∧
    ({ copyOf 0 with words := [0x03000000, 4, 0, 0, 2, 0, 0, 0] } : Command).malformed = false :=
  ⟨by decide, ⟨_, rfl, by decide, rfl, by decide, by decide⟩, by decide, by decide, by decide, by decide, by decide⟩

/-! ### Tiles, small matrices, catalogue and Fitting Engine -/

/-- The machine whose group has descriptors: t0 of 64 rows of int8, t1 of 64 rows of 64 bytes of kind 0, t2 of 64 by 64 of kind 6,
t3 the same of kind 0, t4 of 64 rows of 32 int4; a0 of 64 by 64 integers, a1 of FP32. -/
def withTiles (s : State) : State :=
  s.modGroup 0 fun g => { g with
    tdesc := [(0, 0x68040), (1, 0x4040), (2, 0x64040), (3, 0x4040), (4, 0x82040)], adesc := [(0, 0x14040), (1, 0x4040)] }

/-- A tile instruction that has been sent. -/
def tileOut (i : Instr) (desc : List Word) (locs : List (Nat × Loc × Option Loc)) : Out :=
  pending 0 .tl (.tile i 0x8000000000000001 desc [] locs 0 false)

/-- TileInstructionsAreSent: the last names of each file; rows at both ends of the allocation; a format word that every lane gives
and one that lane 63 does not; shapes, kinds and descriptors on both sides of each check. -/
theorem witness_tiles_sent :
    (let s := withTiles (demo fun w => { w with v := (List.range 64).map fun l => (l, 0x66) })
     Meets s 4 fun k => (k.w.outs.filter fun o => o.counted && o.path == .tl).length < 63 ∧ (15 < k.g.tiles ∧ 7 < k.g.accs) ∧ k.holds [0, 125, 126, 127] ∧
       k.heldBack = false ∧ (∀ l, l < 64 → k.w.vget 0 l = 0x66) ∧
       mmaReason 0x66 (k.tdesc 0) (k.tdesc 0) (k.adesc 0) false = none ∧ mmaReason 0x66 (k.tdesc 9) 0 0 false = some 1 ∧
       mmaReason 0x166 (k.tdesc 0) (k.tdesc 0) (k.adesc 0) true = none ∧ mmaReason 0x66 (k.tdesc 0) (k.tdesc 0) (k.adesc 0) true = some 3 ∧
       (k.tdesc 3).toNat % 2 ^ 7 = tdK (k.tdesc 1) ∧ tdK (k.tdesc 3) = (k.tdesc 1).toNat % 2 ^ 7 ∧ tdK (k.tdesc 0) ≠ tdK (k.tdesc 1) ∧
       (k.tdesc 2).toNat / 2 ^ 16 % 2 ^ 4 = 6 ∧ tdK (k.tdesc 2) = (k.adesc 0).toNat / 2 ^ 8 % 2 ^ 7 ∧ (k.adesc 0).toNat / 2 ^ 16 % 2 = 1 ∧
       (k.adesc 1).toNat / 2 ^ 16 % 2 = 0 ∧ (k.tdesc 1).toNat / 2 ^ 16 % 2 ^ 4 ≤ 4 ∧ tdK (k.tdesc 4) = 64 ∧ k.tdesc 15 = 0) ∧
    (∀ a, (withTiles (demo id)).accWriters 0 a < 8) ∧
    (let s := { withTiles (demo fun w => { w with outs := (List.range 8).map fun n => { tileOut (.tzero 7 true) [] [] with seq := n } }) with
       waiters := [⟨1, false, .acc 7⟩] }
     Meets s 4 fun k => 7 < k.g.accs ∧ (∀ x ∈ s.waiters, ¬ (x.wave = k.h ∧ x.side = k.f.side)) ∧ 8 ≤ s.accWriters k.w.group 7 ∧
       s.accWriters k.w.group 6 = 0 ∧ s.tilesBefore k.w.group k.w.waveid k.l.block.quantum = false ∧ k.room 1 = true) ∧
    (let s := withTiles (demo fun w => { lanesOn 0x8000000000000000 w with v := [(63, 0xFF80), (127, 0xFFF8)] })
     Meets s 4 fun k => k.on 63 = true ∧ 63 < (k.tdesc 0).toNat % 2 ^ 7 ∧ (k.w.vget 0 63).toNat % 8 = 0 ∧
       gives (s.scrRange k.ctx (k.w.vget 0 63).toNat 128) (coreKey 0 + 0xFF80) = true ∧
       gives (s.scrRange k.ctx (k.w.vget 1 63).toNat 8) (coreKey 0 + 0xFFF8) = true) ∧
    (let s := withTiles (demo fun w => { w with v := [(63, 1)] })
     Meets s 4 fun k => (∀ l, l < 64 → ((0x8000000000000000 : Mask).getLsbD l = true ↔
         k.on l = true ∧ l < (k.tdesc 0).toNat % 2 ^ 7 ∧ (k.w.vget 0 l).toNat % 8 ≠ 0)) ∧
       ∀ l, l < 64 → ((0x8000000000000000 : Mask).getLsbD l = true ↔ k.on l = true ∧ k.w.vget 0 l ≠ k.w.vget 0 0)) :=
  ⟨meets_of rfl rfl rfl rfl ⟨by decide, by decide, holds_of rfl, rfl, by decide, by decide, by decide, by decide, by decide, by decide, by decide,
      by decide, by decide, by decide, by decide, by decide, by decide, by decide, by decide⟩, fun _ => Nat.zero_lt_succ 7,
    meets_of rfl rfl rfl rfl (by decide), meets_of rfl rfl rfl rfl (by decide), meets_of rfl rfl rfl rfl (by decide)⟩

/-- TileInstructionsPerform: the oldest tile instruction of a wave that waits for nothing: a load of row 63 with its scales, a
store of one row, not of a deterministic wave; no held write is filled. -/
theorem witness_tiles_perform :
    (let o := tileOut (.tld 0 0 true) [0x68040] [(63, .scr (coreKey 0), some (.scr (coreKey 0 + 0x100)))]
     let s := withTiles (demo fun w => { w with outs := [o], nextSeq := 1 })
     ∃ w g, Map.find s.waves 0 = some w ∧ w.nextTile = some o ∧ s.tileWaits 0 w o = false ∧ Map.find s.groups w.group = some g ∧
       w.held = [] ∧ 0x68040 / 2 ^ 8 % 2 ^ 8 ≤ 128) ∧
    (let o := tileOut (.tst 0 0 false) [0x68040] [(63, .scr (coreKey 0), none)]
     let s := withTiles (demo fun w => { w with outs := [o], nextSeq := 1 })
     ∃ w g, Map.find s.waves 0 = some w ∧ w.nextTile = some o ∧ s.tileWaits 0 w o = false ∧ Map.find s.groups w.group = some g ∧
       s.detWave 0 = false) ∧
    (mmaOf 7 0 1 0x66 0x68040 0x68040 0x14040 true none).cols ≤ 64 ∧ (15 < 16 ∧ 31 < 32) :=
  ⟨⟨_, _, rfl, by decide, by decide, rfl, by decide⟩, ⟨_, _, rfl, by decide, by decide, rfl, by decide⟩, by decide, by decide⟩

/-- MatrixMultiplyAndTileConversions: integer kinds 6 and 7, dense and sparse with every group; a floating-point multiply with a NaN, an
infinity and a finite element; a value beyond a kind's largest and one within; a block with a greatest value and with none; tiles
whose descriptors fit a conversion, a transpose and a requantisation. -/
theorem witness_matrix_multiply :
    (let m := mmaOf 7 0 1 0x2010 0x4040 0x4040 0x4040 true none
     let g : Group := { launch := 0, waves := [], regs := 0, tiles := 16, accs := 8, mats := 0, scratch := 0, t := [(0, 0x7C), (1, 0x3C)] }
     m.ak = 0 ∧ m.bk = 1 ∧ m.s = true ∧ m.sparse = none ∧ 0 < m.groups ∧ m.groups ≤ 32 ∧ ¬ (m.ak ∈ [6, 7, 8] ∧ m.bk ∈ [6, 7, 8]) ∧
       kindVal 1 (Sparse.get (0 : Byte) g.t 0).toNat = .inf false ∧ kindVal 0 (Sparse.get (0 : Byte) g.t 1).toNat = .fin false 12 (-3) ∧
       kindVal 0 0x7F = .nan false ∧ fmtF32.decode 0xFF800000 = .inf true) ∧
    (let z : Nat × Nat × Nat × Nat × Nat × Nat × Nat × Nat := (0, 4, 3, 7, 8, 14, 0x7E, 0x7F)
     z ∈ [(0, 4, 3, 7, 8, 14, 0x7E, 0x7F), (1, 5, 2, 15, 15, 7, 0x7B, 0x7E)] ∧ 2 ^ 3 ≤ 15 ∧ 15 < 2 ^ (3 + 1) ∧ 14 < (roundAt 0 false 15 5 false 5).1 ∧
       (8 : Int) = 5 + (3 : Nat) ∧ ¬ ((8 : Int) < 4 + (3 : Nat) ∨ (4 : Int) + (3 : Nat) = 8)) ∧
    (let xs : List FVal := [.fin true 0 0, .fin false 8 (-3), .fin true 1 0]
     xs[1]? = some (.fin false 8 (-3)) ∧ 2 ^ 3 ≤ 8 ∧ 8 < 2 ^ (3 + 1) ∧ (-3 : Int) + (3 : Nat) = 0 ∧ (0 : Int) + (0 : Nat) ≤ 0 ∧
       (FVal.inf true) ≠ .fin true 0 0) ∧
    (let bytes := fun (x : Word) => x.toNat / 2 ^ 8 % 2 ^ 8
     bytes 0x4040 * 8 / 8 = 64 ∧ 64 % 32 = 0 ∧ bytes 0x4040 ≤ 128 ∧ (0x4040 : Word).toNat % 2 ^ 7 = 64 ∧ (0x4040 : Word).toNat / 2 ^ 16 % 2 ^ 4 ≤ 4 ∧
       (0x64040 : Word).toNat / 2 ^ 16 % 2 ^ 4 = 6 ∧ (0x14040 : Word).toNat / 2 ^ 8 % 2 ^ 7 = 64 ∧ (0x14040 : Word).toNat / 2 ^ 16 % 2 = 1) ∧
    (let m := mmaOf 7 0 1 0x66 0x68040 0x68040 0x14040 true none
     m.ak ∈ [6, 7] ∧ m.bk ∈ [6, 7] ∧ m.sparse = none) ∧
    (let m := mmaOf 0 0 1 0x1077 0x78040 0x78040 0x14040 false (some 15)
     m.ak ∈ [6, 7] ∧ m.bk ∈ [6, 7] ∧ m.sparse = some (16, 15) ∧ m.groups ≤ 32) :=
  ⟨by decide, by decide, by decide, by decide, by decide, by decide⟩

/-- SmallMatrixArithmetic and SmallMatrixFactorisations: a lane whose condition is enabled, and lanes without one; shapes and
registers at their largest; SmallMatrixMemory: matrices that end with the allocation; a group without the unit. -/
theorem witness_small_matrices :
    Meets (demo fun w => { w with mtrapen := 4, shape := [(63, 9)] }) 4 (fun k => k.w.matrix = true ∧ k.holds [127] ∧ k.w.mshape 0 63 % 8 ≠ k.w.mshape 1 63 / 8 ∧
      4 &&& ((k.csr 0x005).toNat % 16) ≠ 0) ∧
    Meets (demo id) 4 (fun k => (k.csr 0x005).toNat % 16 = 0) ∧ (6 ≤ 6 ∧ (List.replicate 36 0).length = 36) ∧
    Meets (demo fun w => { w with v := (List.range 64).map fun l => (l, 0xFF70) }) 4 (fun k => k.heldBack = false ∧ k.w.matrix = true ∧ k.holds [0] ∧
      k.det = false ∧ k.busy = false ∧ (∀ l, l < 64 → k.on l = true → (k.w.vget 0 l).toNat % 4 = 0 ∧
        gives ((demo id).scrRange k.ctx (k.w.vget 0 l).toNat (4 * (6 * 6))) (coreKey 0 + 0xFF70) = true) ∧
      ∀ l, l < 64 → k.w.mshape 0 l / 8 * (k.w.mshape 0 l % 8) = 36) ∧
    Meets (demo fun w => { w with matrix := false }) 4 (fun k => k.w.matrix = false) ∧
    ∃ w f r, Map.find (demo fun w => { w with flagPend := [1] }).waves 0 = some w ∧ w.flagPend = f :: r :=
  ⟨meets_of rfl rfl rfl rfl ⟨rfl, holds_of rfl, by decide, by decide⟩, meets_of rfl rfl rfl rfl (by decide), by decide,
    meets_of rfl rfl rfl rfl ⟨rfl, rfl, holds_of rfl, rfl, rfl, by decide, by decide⟩, meets_of rfl rfl rfl rfl rfl, _, _, _, rfl, rfl⟩

/-- The machine with a live catalogue of two slots at the start of the cluster's allocation, slot 0 scored. -/
def withCat (s : State) : State :=
  { s.modWave 0 (fun w => { w with cat := some (clusterKey 0 0) }) with
    cats := [(clusterKey 0 0, { hdr := [2, 0, 0, 1, 0, 0, 0, 0, 0], scored := [0] })], scratch := [(clusterKey 0 0 + 64, 1), (clusterKey 0 0 + 72, 0x12)] }

/-- CatalogueBinding: an address off its alignment, one of another level, a header that is sound for .init only and one for both, the
largest catalogue of the allocation; a wave that is bound alone. -/
theorem witness_catalogue_binding :
    (let s := { demo (fun w => { w with s := [(0, 0x20000000), (1, 0x20000020), (2, 0x40)] }) with scratch := [(clusterKey 0 0, 2)] }
     Meets s 4 fun k => k.heldBack = false ∧ k.det = false ∧ k.busy = false ∧ k.room 1 = true ∧ (k.s 1).toNat % 64 ≠ 0 ∧
       ((k.s 2).toNat % 64 = 0 ∧ (k.s 2).toNat / 2 ^ 28 % 16 ≠ 2) ∧ ((k.s 0).toNat % 64 = 0 ∧ (k.s 0).toNat / 2 ^ 28 % 16 = 2) ∧
       gives (s.scrRange k.ctx (k.s 0).toNat 64) (clusterKey 0 0) = true ∧ s.seenNum k (.scr (clusterKey 0 0)) 4 = 2 ∧
       gives (s.scrRange k.ctx (k.s 0).toNat 88) (clusterKey 0 0) = true ∧ Map.find s.cats (clusterKey 0 0) = none ∧
       (fmtF16.decode 0).lt (fmtF16.decode 0) = false ∧ (s.cats.filter fun e => e.1 / 2 ^ 27 / 4 % 16 == k.g.core / 192).length < 16) ∧
    Meets (withCat (demo id)) 4 (fun k => k.w.cat = some (clusterKey 0 0) ∧ ((withCat (demo id)).waves.map (·.1)).Pairwise (· < ·) ∧
      (Map.find (withCat (demo id)).cats (clusterKey 0 0)).isSome = true) ∧
    fails ((demo id).scrRange ⟨0, 0, 0⟩ 0x2000FFC0 (64 + 10 * 2)) 3 = true :=
  ⟨meets_of rfl rfl rfl rfl (by decide), meets_of rfl rfl rfl rfl (by decide), by decide⟩

/-- CatalogueInstructions: no binding; a live catalogue with a scored and a finalised slot, its last slot and one beyond named by
lanes; a store that has not performed; a slot that is due and none. -/
theorem witness_catalogue :
    Meets (demo id) 4 (fun k => k.w.cat = none ∧ k.holds [0, 1, 2, 3]) ∧
    (let s := withCat (demo fun w => { w with v := [(0, 0), (1, 1), (2, 2), (63, 0xFFFF)] })
     Meets s 4 fun k => k.heldBack = false ∧ k.det = false ∧ k.busy = false ∧ k.w.cat = some (clusterKey 0 0) ∧
       (∃ c, Map.find s.cats (clusterKey 0 0) = some c ∧ (c.hdr.getD 0 0).toNat % 2 ^ 13 = 2) ∧ (∀ o ∈ k.w.outs, o.path = .st → o.done = true) ∧
       (k.w.vget 0 1).toNat % 2 ^ 16 < 2 ∧ 2 ≤ (k.w.vget 0 2).toNat % 2 ^ 16 ∧
       (s.byte (.scr (clusterKey 0 0 + 64))).toNat % 4 = 1 ∧ (s.byte (.scr (clusterKey 0 0 + 72))).toNat % 4 = 2) ∧
    (let s := withCat (demo fun w => { w with outs := [storeOut 0], nextSeq := 1 })
     Meets s 4 fun k => ∃ o ∈ k.w.outs, o.path = .st ∧ o.done = false) ∧
    (∃ T, Map.find (demo id).tenants 0 = some T ∧ 64 ≤ 256 - T.intake.length) :=
  ⟨meets_of rfl rfl rfl rfl ⟨rfl, holds_of rfl⟩, meets_of rfl rfl rfl rfl ⟨rfl, rfl, rfl, rfl, ⟨_, rfl, by decide⟩, by decide, by decide, by decide, by decide, by decide⟩,
    meets_of rfl rfl rfl rfl ⟨storeOut 0, List.mem_singleton.2 rfl, rfl, rfl⟩, ⟨_, rfl, by decide⟩⟩

/-- A descriptor of one input v0 and one result v1, a buffer of eight samples and a body of `n` words. -/
def descOf (n : Word) : List Word :=
  [n, 0x70000, 0x3F800000, 0, 0x20000000, 8, 0x10001, 1, 1, 0, 0, 0, 0, 0, 0, 0, 1] ++ List.replicate 15 0

/-- The machine with that region in slot 63 of cluster 0, its launch's. -/
def withRegion (r : Region → Region) (s : State) : State :=
  { s with regions := [(63, r { launch := 0, va := 0x1000, desc := descOf 1, weights := [0, 0, 0, 0] })] }

/-- A transfer of a region's weights to the page's last words. -/
def fitOut (load : Bool) : Out := pending 0 .cp (.fit load 0 63 0x1FF0 ((List.range 4).map fun i => .mem (0x1FF0 + 4 * i)))

/-- FittingRegions: addresses on and off their alignment, a descriptor that is sound, one that is not, no free number and one; a
number that names no region, one beyond and the last; a transfer in flight; a region with a batch, without, and in a step. -/
theorem witness_regions :
    Meets (demo fun w => { w with s := [(0, 0x1080), (2, 0x1004)] }) 4 (fun k => k.heldBack = false ∧ k.det = false ∧ k.room 4 = true ∧
      (k.s64 0).toNat % 128 = 0 ∧ (k.s64 2).toNat % 128 ≠ 0 ∧ (∀ i, i < 32 →
        (demo id).xlate k.w k.f.side k.core k.l.tenant (k.s64 0 + BitVec.ofNat 64 (4 * i)) 0 = .ok 0 (0x1080 + 4 * i) ∧
        (demo id).reaches k.l.tenant ((demo id).placeOf 0 (0x1080 + 4 * i)) = true) ∧
      (regOk (descOf 1) = true ∧ regOk (descOf 0) = false) ∧ gives ((demo id).scrRange k.ctx 0x20000000 64) (clusterKey 0 0) = true ∧
      Map.find (demo id).regions 0 = none) ∧
    (let s := withRegion id (demo fun w => { w with s := [(0, 63), (1, 64), (2, 62), (4, 0x1FF0), (6, 2)] })
     Meets s 4 fun k => (k.s 0).toNat < 64 ∧ 63 < (k.s 1).toNat ∧ Map.find s.regions (k.g.core / 192 * 64 + (k.s 2).toNat) = none ∧
       (∃ r, Map.find s.regions (k.g.core / 192 * 64 + (k.s 0).toNat) = some r ∧ r.launch = k.g.launch ∧ regNW r.desc = 4) ∧
       (k.s64 4).toNat % 4 = 0 ∧ (k.s64 6).toNat % 4 ≠ 0 ∧ ∀ i, i < 4 →
         s.xlate k.w k.f.side k.core k.l.tenant (k.s64 4 + BitVec.ofNat 64 (4 * i)) 1 = .ok 0 (0x1FF0 + 4 * i)) ∧
    (let s := withRegion id (demo fun w => { w with outs := [fitOut false], nextSeq := 1 })
     ∃ w r, Map.find s.waves 0 = some w ∧ w.out 0 = some (fitOut false) ∧ Map.find s.regions 63 = some r ∧ s.detWave 0 = false ∧
       (∀ i, i < 4 → s.reaches (s.tenantOf 0) (.mem (0x1FF0 + 4 * i)) = true) ∧ ∀ p ∈ w.outs, ¬ p.seq < 0) ∧
    (let full := fun r : Region => { r with state := 2, slots := (List.range 8).map fun i => (i, ⟨2, i⟩) }
     ∃ r, Map.find (withRegion full (demo id)).regions 63 = some r ∧ r.state = 2 ∧ r.step = none ∧ regB r.desc ≤ r.samples.length) ∧
    (∃ r, Map.find (withRegion id (demo id)).regions 63 = some r ∧ r.state ≠ 2 ∧ r.step = none) ∧
    ∃ r xs, Map.find (withRegion (fun r => { r with step := some [([0], [0])] }) (demo id)).regions 63 = some r ∧ r.step = some xs :=
  ⟨meets_of rfl rfl rfl rfl (by decide), meets_of rfl rfl rfl rfl ⟨by decide, by decide, by decide, ⟨_, rfl, rfl, by decide⟩, by decide, by decide, by decide⟩,
    ⟨_, _, rfl, by decide, rfl, by decide, by decide, by decide⟩, ⟨_, rfl, by decide⟩, ⟨_, rfl, by decide⟩, _, _, rfl, rfl⟩

/-- ApproximableRegions: APXB with two places left and with one, from the region's entry, from another, in the second slot, with a lane
that is substituted; its body's page with a translation to hand and without; APXE at its region's end with captures, elsewhere, without
a region, and with a result whose block has been released. -/
theorem witness_approximable :
    (let s := withRegion id (demo fun w => { w with s := [(0, 63)] })
     Meets s 4 fun k => k.f.pc.toNat / 4096 = 1 ∧ (k.f.pc.toNat + 4 * regLen (descOf 1)) / 4096 - 1 + 1 = 1 ∧
       s.xlate k.w k.f.side k.g.core k.l.tenant 0x1000 4 = .ok 0 0x1000) ∧
    (let s := withRegion id (demo fun w => { standAt 0x7000 w with s := [(0, 63)] })
     Meets s 4 fun k => s.xlate k.w k.f.side k.g.core k.l.tenant 0x7000 4 = .miss ∧ k.busy = false ∧
       ∃ r, Map.find s.regions 63 = some r ∧ r.entry = none) ∧
    Meets (demo fun w => { w with stack := [.apxMasks 1 0, .apxAddr 0x1000 false 63 7 5 [(1, 64), (2, 8192)]] }) 4 (fun k => k.f.pc = 0x1000 ∧
      [(1, 64), (2, 8192)] = [(1, 64)] ++ (2, 8192) :: [] ∧ 64 / 2048 < k.w.blocks ∧ k.w.blocks ≤ 8192 / 2048) ∧
    (let s := withRegion id (demo fun w => { w with s := [(0, 63)], stack := List.replicate 6 (.loopMasks 0 1) })
     Meets s 4 fun k => k.second = false ∧ k.heldBack = false ∧ k.det = false ∧ (∃ r, Map.find s.regions 63 = some r ∧ r.launch = k.g.launch ∧
         r.entry = none ∧ r.state = 1 ∧ k.holds (regIns r.desc ++ regOuts r.desc)) ∧ k.w.stack.length + 2 ≤ 8 + k.w.spill ∧ k.busy = false ∧
       k.deep 4 (k.w.stack.length + 2) = false ∧ k.on 0 = true) ∧
    Meets (demo fun w => { w with stack := List.replicate 7 (.loopMasks 0 1) }) 4 (fun k => 8 + k.w.spill < k.w.stack.length + 2) ∧
    (let s := withRegion (fun r => { r with entry := some 0x2000 }) (demo id)
     Meets s 4 fun k => ∃ r e, Map.find s.regions 63 = some r ∧ r.entry = some e ∧ e ≠ k.f.pc) ∧
    (let s := withRegion (fun r => { r with entry := some 0x1000 }) (demo id)
     Meets s 4 fun k => ∃ r, Map.find s.regions 63 = some r ∧ r.entry = some k.f.pc) ∧
    (let s := withRegion (fun r => { r with state := 4, desc := r.desc.set 6 0x10002 }) (demo fun w => { w with ic := (List.range 64).map fun l => (l, 1) })
     Meets s 4 fun k => ∃ r, Map.find s.regions 63 = some r ∧ r.state = 4 ∧ (∀ l, l < 64 → (Sparse.get 0 k.w.ic l).toNat % regS r.desc ≠ 0) ∧
       (∀ l, l < 64 → finite (k.w.vget 0 l).toNat = true) ∧ ∀ v ∈ surrogate r.desc r.wts [0], finite v = true) ∧
    Meets (second (demo (split 2))) 4 (fun k => k.second = true) ∧
    (let s := withRegion (fun r => { r with openInv := 1, invs := [(5, [(0, 7), (63, 0)])] })
       (demo fun w => { w with stack := [.apxMasks 0x8000000000000001 0, .apxAddr 0x1000 false 63 7 5 [(1, 64)]] })
     Meets s 4 fun k => k.w.stack = .apxMasks 0x8000000000000001 0 :: .apxAddr 0x1000 false 63 7 5 [(1, 64)] :: [] ∧ k.f.pc = 0x1000 ∧
       (∀ x ∈ [(1, 64)], x.2 / 2048 < k.w.blocks) ∧ k.w.hloops = [] ∧ k.w.frag (!k.second) = none ∧ k.mask ||| 0 ≠ 0 ∧ k.w.held = [] ∧
       ∃ r, Map.find s.regions 63 = some r ∧ [(1, 64)].length = regNout r.desc ∧ r.openInv = 1) ∧
    Meets (demo fun w => { w with stack := [.apxMasks 1 0, .apxAddr 0x1004 false 63 0 0 []] }) 4 (fun k => k.f.pc ≠ 0x1004 ∧
      Map.find (demo id).regions 63 = none) :=
  ⟨meets_of rfl rfl rfl rfl (by decide), meets_of rfl rfl rfl rfl ⟨by decide, rfl, _, rfl, rfl⟩, meets_of rfl rfl rfl rfl (by decide),
    meets_of rfl rfl rfl rfl ⟨rfl, rfl, rfl, ⟨_, rfl, rfl, rfl, rfl, holds_of rfl⟩, by decide, by decide, by decide, by decide⟩, meets_of rfl rfl rfl rfl (by decide),
    meets_of rfl rfl rfl rfl ⟨_, _, rfl, rfl, by decide⟩, meets_of rfl rfl rfl rfl ⟨_, rfl, rfl⟩, meets_of rfl rfl rfl rfl ⟨_, rfl, rfl, by decide, by decide, by decide⟩, meets_of rfl rfl rfl rfl rfl,
    meets_of rfl rfl rfl rfl ⟨rfl, rfl, by decide, rfl, rfl, by decide, rfl, _, rfl, by decide, rfl⟩, meets_of rfl rfl rfl rfl (by decide)⟩

/-! ### Launches, scheduling, determinism and the host -/

/-- A request of wave 0's SYSC for function `fn`, at a status. -/
def callOf (fn : Nat) (args : List Word) (status : Option Word) : Sysc :=
  { wave := 0, side := false, tenant := 0, fn := fn, d := 56, args := args, pc := 0x1000, mask := -1, status := status }

/-- The machine with that request, and a second wave that stands stopped with FID 1. -/
def calling (r : Sysc) (stop : Stop) : State :=
  { demo id with syscs := [(4, r)]
                 waves := Map.put (demo id).waves 1 { group := 0, waveid := 1, first := some { pc := 0x1000, mask := -1 }, stop := some stop } }

/-- A stop that a handler may resolve, and an imprecise one. -/
def stopOf (precise : Bool) : Stop := { trap := { cause := 1, precise := precise }, fid := 1, route := .notified }

/-- SystemCalls: no request and one of the slot's own; a status and none; a function beyond the table; MAP of one page where it is
sound and free, and not; UNMAP of a page that is not mapped; a fault that waits and none; SIGNAL of a wave and of none; INVAL. -/
theorem witness_system_calls :
    Meets (demo id) 4 (fun k => k.heldBack = false ∧ k.det = false ∧ k.busy = false ∧ (demo id).syscs = []) ∧
    (let s := calling (callOf 0 [] (some 0)) (stopOf true)
     Meets s 4 fun k => ∃ e, e ∈ s.syscs ∧ e.2.wave = k.h ∧ e.2.side = k.f.side ∧ e.2.pc = k.f.pc ∧ e.2.inH = k.w.isHandler k.f) ∧
    (let s := calling (callOf 0 [] (some 0)) (stopOf true)
     ∃ r k, Map.find s.syscs 4 = some r ∧ (if 8 < r.fn then some (r.status.getD 1) else r.status) = some 0 ∧ s.caller r = some k ∧ k.room 2 = true ∧
       k.det = false) ∧
    (∃ r, Map.find (calling (callOf 9 [] none) (stopOf true)).syscs 4 = some r ∧
      (if 8 < r.fn then some (r.status.getD 1) else r.status) = some 1) ∧
    (let s := calling (callOf 1 [0x3000, 0, 1, 0xC] none) (stopOf true)
     ∃ r T l, Map.find s.syscs 4 = some r ∧ r.fn = 1 ∧ r.status = none ∧ r.inval = none ∧ r.posting = false ∧ r.fn ≤ 8 ∧
       Map.find s.tenants r.tenant = some T ∧ s.launchOf r.wave = some l ∧ l.2.chain = [] ∧ (0xC : Nat) &&& 0xDC = 0xC ∧
       canonicalRange 0x3000 1 = true ∧ s.lookup T 0 3 = none ∧ s.pagesFree 0 [5, 6, 7, 8, 9] = true ∧ canonicalRange 0x7FFFFFFFFFFFF000 1 = false) ∧
    (∃ T, Map.find (demo id).tenants 0 = some T ∧ ¬ 1 ≤ T.mapped.length) ∧
    (let s := calling (callOf 3 [1] none) (stopOf true)
     s.faulted 0 1 = some (1, ({ group := 0, waveid := 1, first := some { pc := 0x1000, mask := -1 }, stop := some (stopOf true) } : Wave), stopOf true) ∧
       s.faulted 0 2 = none ∧ (stopOf true).retired = false ∧ s.waveByID 0 1 = some 1 ∧ s.waveByID 0 2 = none) ∧
    -- SKIP of a load of a word: an image in a page that is mapped, and one in none
    (let t := stopOf true
     let s := { calling (callOf 4 [1, 0, 0x1800, 0] none) { t with trap := { t.trap with rmask := 1 } } with
       mem := [(0, 1), (8, 7), (9, 0x10), (0x1000, 0x20), (0x1001, 9), (0x1002, 0x10), (0x1003, 0xA2), (0x1800, 5)] }
     ∃ w k, Map.find s.waves 1 = some w ∧ ((w.bySide false).bind fun e => s.slotOf 1 e.1) = some k ∧ w.errs = [] ∧
       (s.codeAt k 3).2 = .ok (.lds 8 2 2 2) ∧ (s.hostRead 0 0x1800 4).2 = some [5, 0, 0, 0] ∧ (s.hostRead 0 0x2800 4).2 = none ∧
       imageReg (.lds 8 2 2 2) = some 8 ∧ imageReg .nop = none) ∧
    ((stopOf false).retired = true ∨ (stopOf false).trap.precise = false) ∧
    ((0x1000 : DWord).toNat % 4096 = 0 ∧ ¬ (0x1001 : DWord).toNat % 4096 = 0) :=
  ⟨meets_of rfl rfl rfl rfl (by decide), meets_of rfl rfl rfl rfl ⟨_, List.mem_singleton.2 rfl, rfl, rfl, rfl, rfl⟩,
    ⟨_, _, rfl, rfl, rfl, by decide, by decide⟩, ⟨_, rfl, rfl⟩,
    ⟨_, _, _, rfl, rfl, rfl, rfl, rfl, by decide, rfl, rfl, rfl, by decide, by decide, by decide, by decide, by decide⟩,
    ⟨_, rfl, by decide⟩, ⟨rfl, by decide, rfl, by decide, by decide⟩,
    ⟨_, _, rfl, rfl, rfl, by decide, by decide, by decide, rfl, rfl⟩, by decide, by decide⟩

/-- The machine whose launch has a node of one-word records, and a batch for it. -/
def withNode (bs : List Batch) (s : State) : State :=
  s.modLaunch 0 fun x => { x with block := { x.block with nodes := [{ recw := 1, backlog := 1, timer := 5 }] }, batches := bs }

/-- The machine whose launch has its grid gang still to place. -/
def unplaced (s : State) : State :=
  { s with groups := [], waves := [], launches := Map.modify s.launches 0 fun x => { x with pend := [{ gang := 0 }] } }

/-- WorkIsSpawnedAndPlaced: an unbound queue, one with room for every lane, one without room, one too small; no node, one that takes
the records and one that does not; no open batch, one with 62 records and one with 63; a timer that has lapsed; a gang that fits; one
past its limit; a slot that is ready, not yet noted, at 256 cycles and before. -/
theorem witness_work :
    Meets (demo id) 4 (fun k => k.heldBack = false ∧ k.det = false ∧ k.w.boundTo 8 = none ∧ k.l.block.nodes.length ≤ (k.s 0).toNat) ∧
    (let s := withQueue 1 (demo (lanesOn 0x8000000000000003))
     Meets s 4 fun k => ∃ key qu, s.boundQueue k 8 = some (key, qu) ∧ k.lanes.length = 3 ∧ k.lanes.length ≤ qu.cap ∧ 127 + qu.itemw ≤ 128 ∧
       128 < 128 + qu.itemw ∧ k.holds [127] ∧ k.busy = false ∧ (qu.tail - qu.head).toNat + 3 ≤ qu.cap ∧ (∃ e, qu.cap = 2 ^ e ∧ e ≤ 32) ∧
       s.queueWaiter key true = none ∧ s.queueWaiter key false = none) ∧
    (let s := withQueue 2 (demo (lanesOn 7))
     Meets s 4 fun k => ∃ key qu, s.boundQueue k 8 = some (key, qu) ∧ qu.cap < (qu.tail - qu.head).toNat + k.lanes.length) ∧
    Meets (withQueue 0 (demo (lanesOn 31))) 4 (fun k => 4 < k.lanes.length) ∧
    Meets (withNode [] (demo id)) 4 (fun k => ∃ nd, k.l.block.nodes[(k.s 0).toNat]? = some nd ∧ 127 + nd.recw ≤ 128 ∧ 128 < 128 + nd.recw ∧
      k.holds [127] ∧ k.l.lapse 0 = k.l ∧ 64 ≤ (nd.backlog - 0) * 64 + 0) ∧
    Meets (withNode [{ node := 0, recs := List.replicate 63 [], since := 0 }] (demo id)) 4 (fun k => k.l.lapse 0 = k.l ∧ k.lanes.length = 64 ∧
      ∃ nd, k.l.block.nodes[(k.s 0).toNat]? = some nd ∧ (nd.backlog - 1) * 64 + (64 - 63) < 64) ∧
    (let s := { withNode [{ node := 0, recs := List.replicate 62 [], since := 0 }] (demo id) with cycle := 6 }
     ∃ x, Map.find s.launches 0 = some x ∧ x.block.det = false ∧ x.killed = none ∧ (x.block.nodes.getD 0 {}).timer ≠ 0 ∧
       ∃ b ∈ x.batches, b.node = 0 ∧ b.launched = false ∧ b.since + (x.block.nodes.getD 0 {}).timer < s.cycle ∧ b.recs.length < 63) ∧
    (∃ w gs, ((unplaced (demo id)).visit 0).2 = some (w, gs) ∧ w.p.saved = false ∧ ((unplaced (demo id)).visit 0).1.permitted gs = true) ∧
    (∃ p : Pend, ({ gang := 0, since := some 7 } : Pend) = p ∧ 7 + 262144 ≤ 262151) ∧
    (let s := { State.reset.withFetchWord 32 0x01000000 with cycle := 256 }
     ∃ k, s.slotOf 0 false = some k ∧ s.fetch k = .ok .nop ∧ k.mayIssue = true ∧ onVPort .nop = false ∧ Map.find k.w.since 0 = none) ∧
    Stands (demo fun w => { w with since := [(0, 0)] }) (fun k => Map.find k.w.since 0 = some 0 ∧ 0 ∉ k.w.boosts ∧ 0 + 256 ≤ 256 ∧ 255 < 0 + 256) :=
  ⟨meets_of rfl rfl rfl rfl (by decide),
    meets_of rfl rfl rfl rfl ⟨_, _, rfl, by decide, by decide, by decide, by decide, holds_of rfl, by decide, by decide, ⟨2, rfl, by decide⟩, by decide, by decide⟩,
    meets_of rfl rfl rfl rfl ⟨_, _, rfl, by decide⟩, meets_of rfl rfl rfl rfl (by decide), meets_of rfl rfl rfl rfl ⟨_, rfl, by decide, by decide, holds_of rfl, by decide, by decide⟩,
    meets_of rfl rfl rfl rfl ⟨by decide, by decide, _, rfl, by decide⟩,
    ⟨_, rfl, rfl, rfl, by decide, _, List.mem_singleton.2 rfl, rfl, rfl, by decide, by decide⟩, ⟨_, _, rfl, by decide, by decide⟩, ⟨_, rfl, by decide⟩,
    ⟨_, rfl, by decide, rfl, rfl, rfl⟩, stands_of rfl (by decide)⟩

/-- The machine whose group stands in a state of its life. -/
def living (l : Life) (s : State) : State := s.modGroup 0 fun g => { g with life := l }

/-- The machine whose launch is changed by `f`. -/
def withLaunch (f : Launch → Launch) (s : State) : State := s.modLaunch 0 f

/-- A partition of the one core that the wave fills, and a second launch of a higher priority whose gang is past its limit. -/
def contended : State :=
  let s := demo fun w => { w with blocks := 64 }
  { s with disabled := (List.range 191).map (· + 1)
           launches := Map.put s.launches 1 { tenant := 0, chain := [{ prio := 7 }], block := { roles := [{ regs := 16 }] }
                                              pend := [{ gang := 0, target := [0], since := some 0, aged := true }] } }

/-- PreemptionFaultsAndEnds: gangs that stop, are saved and restored; a wave whose fault is unsent, of a launch without a handler and
with one; a killed launch; a group whose waves are over; a launch with nothing left. -/
theorem witness_ends :
    (let s := living .stopping (demo id)
     (s.gangOn 0 0).length = 1 ∧ (∀ e ∈ s.gangOn 0 0, e.2.life = .stopping) ∧ (∀ e ∈ s.gangOn 0 0, ∀ w ∈ s.wavesOf e.2, w.flagPend = [] ∧ w.outs = []) ∧
       ((Map.find s.shadows 0).getD []).length < 2) ∧
    (∀ e ∈ (living .restoring (demo id)).gangOn 0 0, e.2.life = .restoring) ∧
    (let s := demo fun w => { w with stop := some { trap := { cause := 1 } } }
     ∃ w t l x X T, Map.find s.waves 0 = some w ∧ s.launchOf 0 = some (l, x) ∧ w.stop = some t ∧ t.route = .unsent ∧ x.handlerOf = none ∧
       Map.find s.launches (x.handlerOf.getD l) = some X ∧ X.killed = none ∧ Map.find s.tenants x.tenant = some T ∧
       T.nextFid = s.freshFid x.tenant T.nextFid (s.waves.length + 1) ∧ s.faulted x.tenant (BitVec.ofNat 32 T.nextFid) = none ∧
       (x.chain.headD {}).handler = none ∧ s.handlersOf l < 16) ∧
    (∃ x, Map.find (withLaunch (fun x => { x with chain := [{ handler := some 0x4000 }] }) (demo id)).launches 0 = some x ∧
      (x.chain.headD {}).handler = some 0x4000) ∧
    (let s := withLaunch (fun x => { x with killed := some 1 }) (demo id)
     ∃ x, Map.find s.launches 0 = some x ∧ x.killed.isSome = true ∧ ∀ e ∈ s.launches, e.2.handlerOf ≠ some 0) ∧
    (let s := demo fun w => { w with first := none }
     ∃ g x, Map.find s.groups 0 = some g ∧ Map.find s.launches g.launch = some x ∧ g.life ≠ .saved ∧ g.life ≠ .restoring ∧ s.groupOver 0 g = true ∧
       s.turnToRetire x g = true) ∧
    (let s := { demo id with groups := [], waves := [] }
     ∃ x, Map.find s.launches 0 = some x ∧ s.launchOver 0 x = true ∧ x.handlerOf = none ∧ x.recording = false ∧ x.log.todo = []) ∧
    (let s := withLaunch (fun x => { x with recording := true, log := { x.log with todo := [⟨none, 0, 0x9000, 1, 4⟩], closed := true } })
       { demo id with groups := [], waves := [] }
     ∃ x y, Map.find s.launches 0 = some x ∧ s.launchOver 0 x = true ∧ x.recording = true ∧ x.log.closed = true ∧
       Map.find (s.pump 0 none).launches 0 = some y ∧ y.log.todo ≠ []) ∧
    (let r := Report.ended 0
     let s := { demo id with reports := [(0, .fault 0), (0, r)] }
     (demo id).reports = [] ∧ (s.reports.find? fun f => f.1 == 0).map (·.2) = some (.fault 0) ∧
       (({ s with reports := [(0, r)] } : State).reports.find? fun f => f.1 == 0).map (·.2) = some r) ∧
    (∃ g, Map.find (living .saved (demo id)).groups 0 = some g ∧ (demo id).permitted [g] = true ∧ g.life = .saved) ∧
    (0xFF < 2 ^ 8 ∧ 7 < 8) :=
  ⟨by decide, by decide, ⟨_, _, _, _, _, _, rfl, rfl, rfl, rfl, rfl, rfl, rfl, rfl, by decide, by decide, rfl, by decide⟩, ⟨_, rfl, rfl⟩,
    ⟨_, rfl, rfl, by decide⟩, ⟨_, _, rfl, rfl, by decide, by decide, by decide, by decide⟩, ⟨_, rfl, by decide, rfl, rfl, rfl⟩, ⟨_, _, rfl, by decide, rfl, rfl, rfl, by decide⟩,
    by decide, ⟨_, rfl, by decide, by decide⟩, by decide⟩

/-- The gangs that PREEMPT and RESTORE find. -/
theorem witness_preemption :
    (contended.victim 0).isSome = true ∧ contended.permitted ((contended.gangOn 0 0).map (·.2)) = true ∧
    (∃ x, Map.find contended.launches 0 = some x ∧ contended.mayStop x (contended.gangOn 0 0) = true) ∧
    (let s := living .saved (withLaunch (fun x => { x with pend := [{ gang := 0, target := [0], since := some 0, saved := true }] }) (demo id))
     ∃ w gs, (s.visit 0).2 = some (w, gs) ∧ w.l = 0 ∧ w.p.gang = 0 ∧ w.p.saved = true ∧ (s.visit 0).1.permitted gs = true) :=
  ⟨by decide, by decide, ⟨_, rfl, by decide⟩, _, _, rfl, by decide, by decide, by decide, by decide⟩

/-- The launch is deterministic, with a quantum of four. -/
def detLaunch (x : Launch) : Launch := { x with block := { x.block with det := true, quantum := 4 } }

/-- A copy whose source has yet to be walked for. -/
def awaited : Command := { copyOf 0 with words := [0x01000000, 4, 0, 0, 0x3000, 0, 0xFFFC, 0] }

/-- DeterministicRounds: a quantum that is used up and one that is not; an instruction that is deferred; a round that has ended and is
committed, one that has not, and each place where a commit can stand; an operation of the turns that is applied, one that has to wait,
and one that is late, that ends or that waits; a system call outstanding. -/
theorem witness_rounds :
    (let s := withLaunch detLaunch (demo fun w => { w with qret := 4 })
     ∃ w l x, Map.find s.waves 0 = some w ∧ s.launchOf 0 = some (l, x) ∧ x.block.det = true ∧ w.qstate = .running ∧ x.block.quantum ≤ w.qret ∧
       x.commit = none ∧ s.roundEnded l x = true ∧ s.windows = [] ∧ w.qops = [] ∧ (s.lastAct 0).isSome = true) ∧
    (let s := withQueue 1 (withLaunch detLaunch (demo fun w => { w with qret := 3 }))
     Meets s 4 fun k => k.heldBack = false ∧ k.det = true ∧ k.second = false ∧ k.w.qstate = .running ∧ k.w.qret < k.l.block.quantum ∧
       (∀ e ∈ s.syscs, e.2.wave ≠ k.h) ∧ (∃ key qu, s.boundQueue k 8 = some (key, qu) ∧ 63 + qu.itemw ≤ 64) ∧ s.roundEnded 0 k.l = false) ∧
    (let s := withCat (withLaunch detLaunch (demo id))
     Meets s 4 fun k => (s.catOf k).isSome = true ∧ k.det = true ∧ k.holds [126, 127]) ∧
    ((demo id).waves.map (·.1)).Pairwise (· < ·) ∧ (demo id).inTurn 0 = [0] ∧
    (∃ e ∈ (calling (callOf 0 [] none) (stopOf true)).syscs, e.2.wave ∈ (calling (callOf 0 [] none) (stopOf true)).inTurn 0) ∧
    (let s := withLaunch detLaunch (demo fun w => { w with outs := [storeOut 0], nextSeq := 1 })
     ∃ w l x, Map.find s.waves 0 = some w ∧ w.out (storeOut 0).seq = some (storeOut 0) ∧ s.launchOf 0 = some (l, x) ∧ s.flight = [] ∧
       (∀ p ∈ w.outs, ¬ p.seq < 0) ∧ s.isLate 0 (.out 0) = false ∧ s.actUnits 0 (.out 0) = [] ∧ (s.applyOp 0 l (.out 0)).2 = true ∧ x.block.det = true) ∧
    (let s := withLaunch detLaunch (demo fun w => { w with outs := [loadOut 0, storeOut 1], nextSeq := 2 })
     ∃ l x, s.launchOf 0 = some (l, x) ∧ (s.applyOp 0 l (.out 1)).2 = false) ∧
    (let s := withLaunch detLaunch (demo fun w => { w with outs := [moveOut], nextSeq := 1 })
     s.isLate 0 (.out 0) = true ∧ (s.applyLate 0 (.out 0)).isOk = true ∧ (s.applyLate 0 (.command awaited)).isOk = false) ∧
    (∀ c ∈ [CommitAt.turns [0], .late [], .calls], ∃ x,
      Map.find (withLaunch (fun x => { x with commit := some c }) (demo id)).launches 0 = some x ∧ x.commit = some c) ∧
    (∃ w, Map.find (demo id).waves 0 = some w ∧ w.pending = [] ∧ ∀ f, w.first = some f → f.endPend = false) ∧
    (let s := withLaunch detLaunch (demo fun w => { w with uivec := 0x101, en := 1, pending := [(3, 9)] })
     ∃ w f x, Map.find s.waves 0 = some w ∧ w.first = some f ∧ Map.find s.launches 0 = some x ∧ s.inTurn 0 = [0] ∧ s.syscs = [] ∧
       f.endPend = false ∧ f.again = none ∧ w.stop = none ∧ w.inH = false ∧ w.uivec.getLsbD 0 = true ∧ w.en % 2 = 1 ∧ w.pending = (3, 9) :: []) :=
  ⟨⟨_, _, _, rfl, rfl, rfl, rfl, by decide, rfl, by decide, rfl, rfl, by decide⟩,
    meets_of rfl rfl rfl rfl ⟨rfl, rfl, rfl, rfl, by decide, by decide, ⟨_, _, rfl, by decide⟩, by decide⟩,
    meets_of rfl rfl rfl rfl ⟨rfl, rfl, holds_of rfl⟩, by decide, by decide, ⟨_, List.mem_singleton.2 rfl, by decide⟩,
    ⟨_, _, _, rfl, by decide, rfl, by decide, by decide, by decide, by decide, by decide⟩, ⟨_, _, rfl, by decide⟩, by decide,
    fun _ _ => ⟨_, rfl, rfl⟩, ⟨_, rfl, rfl, fun _ h => by cases h; rfl⟩,
    ⟨_, _, _, rfl, rfl, rfl, by decide, rfl, rfl, rfl, rfl, rfl, rfl, rfl, rfl⟩⟩

/-- A recording launch, its log's buffer at 0x1400 with room for an address and a chunk, and a replaying one whose gate is at `es`. -/
def recording (f : Log → Log) (s : State) : State :=
  withLaunch (fun x => { x with recording := true, log := f { x.log with buf := 0x1400, acap := 1, ccap := 1 } }) s

def replaying (es : List (Word × Nat × Word)) (begun : Bool) (s : State) : State :=
  withLaunch (fun x => { x with replaying := true, log := { x.log with gate := [(0x1FFC * 2, (es, begun))] } }) s

/-- RecordingAndReplay: a second slot; a write with a translation at hand, one without, and one off the canonical addresses; each area
with a place left and full, an element that is new and one that is known, with a run of its own and of another's; a request that the
log has next, one of another wave, one with another hash, one that no chunk names; the end of what is gated. -/
theorem witness_recording :
    Stands (second (recording id (demo (split 2)))) (fun k => k.l.recording = true ∧ k.second = true) ∧
    (let s := recording id (demo id)
     ∃ x e, Map.find s.launches 0 = some x ∧ x.log.todo = [] ∧ canonical 0x1400 = true ∧ canonical 0x8000000000000000 = false ∧
       ((Map.find s.ctlb 0).getD []).find? (fun e => e.covers x.tenant 0x9000 && (e.w && e.d)) = none ∧
       (let u := { s with ctlb := [(0, (Map.find s.utlb 0).getD [])] }
        ((Map.find u.ctlb 0).getD []).find? (fun e => e.covers x.tenant 0x1400 && (e.w && e.d)) = some e ∧ e.phys 0x1400 < tierCapacity e.tier ∧
          u.reaches x.tenant (u.placeOf e.tier (e.phys 0x1400)) = true ∧ u.reaches x.tenant (.mem (memKey 2 (2 ^ 51))) = false) ∧
       x.log.ovf = false ∧ x.log.nchunk < x.log.ccap ∧ x.log.naddr < x.log.acap ∧ Map.find x.log.elems 0x3FF8 = none) ∧
    (∃ x, Map.find (recording (fun g => { g with ovf := true }) (demo id)).launches 0 = some x ∧ x.log.ovf = true) ∧
    (let s := recording (fun g => { g with naddr := 1, nchunk := 1, elems := [(0x3FF8, 0)], runs := [(0, (7, 2, 9))] }) (demo id)
     ∃ x, Map.find s.launches 0 = some x ∧ x.log.ccap ≤ x.log.nchunk ∧ x.log.acap ≤ x.log.naddr ∧ Map.find x.log.elems 0x3FF8 = some 0 ∧
       Map.find x.log.runs 0 = some (7, 2, 9) ∧ (7 : Word) ≠ 0 ∧ Map.find x.log.runs 1 = none) ∧
    (∀ c ∈ [([], false), ([((0 : Word), 2, (0 : Word))], false), ([(0, 1, 5)], false), ([(0, 1, 5)], true), ([(3, 1, 0)], false)],
      let s := replaying c.1 c.2 (demo fun w => { w with outs := [atomOut 0 false none], nextSeq := 1, gateWait := [(false, 0)] })
      ∃ w x, Map.find s.waves 0 = some w ∧ w.out 0 = some (atomOut 0 false none) ∧ s.launchOf 0 = some (0, x) ∧ x.block.det = false ∧
        x.replaying = true ∧ x.log.ended = false ∧ s.reaches x.tenant (.mem 0x1FFC) = true ∧ (∀ p ∈ w.outs, ¬ p.seq < 0) ∧
        Map.find x.log.gate (0x1FFC * 2) = some c ∧ w.waveid = 0 ∧ (atomOut 0 false none).hash = 0 ∧ w.stop = none ∧ w.ownHandler 0x09 = false ∧
        (w.bySide (((w.gateWait.find? fun e => e.2 == 0).map fun e => e.1).getD false)).isSome = true) :=
  ⟨stands_of rfl (by decide), ⟨_, _, rfl, rfl, by decide, by decide, by decide, ⟨rfl, by decide, by decide, by decide⟩, rfl, by decide, by decide, rfl⟩,
    ⟨_, rfl, rfl⟩, ⟨_, rfl, by decide⟩, fun c h => by
      simp only [List.mem_cons, List.mem_nil_iff, or_false] at h
      rcases h with h | h | h | h | h <;> subst h <;> exact ⟨_, _, rfl, by decide, rfl, rfl, rfl, rfl, by decide, by decide, rfl, rfl, rfl, rfl, rfl, rfl⟩⟩

/-- Words at the start of host memory, for a command's buffer. -/
def hostWords (words : List Word) (s : State) : State :=
  { s with mem := Sparse.setRun Memory.blank s.mem (memKey 2 0) (4 * words.length) fun i =>
             BitVec.ofNat 8 ((words.getD (i / 4) 0).toNat / 2 ^ (8 * (i % 4))) }

/-- The machine with a ring of tenant device 0 on logical queue 1 that holds a command, with a completion buffer of `size` bytes, and
the cursor of that queue at `c`. -/
def ringing (words : List Word) (c size : Nat) : State :=
  hostWords words { demo id with
    devs := [(0, { failed := false, features := 2 ^ 40, vqs := [(3, { enabled := true, lq := 1, avail := [((0, 4 * words.length), (0x800, size))] })] })]
    cursors := [(1, c)], awake := [1] }

/-- The same of the management device's ring, the semaphore held by port 0. -/
def managing (words : List Word) : State :=
  hostWords words { demo id with
    devs := [(32, { failed := false, vqs := [(0, { enabled := true, avail := [((0, 4 * words.length), (0x800, 96))] })] })], psem := 1, awake := [0] }

/-- HostCommands: a command of the next SEQ and of another, with and without a reserved bit and a buffer too small; the semaphore held
and not; the conditions of a partition and of a tenant; a thread that sleeps; a completion whose SEQ follows and one that does not, with
its buffer, and held; the cursor below and at the ring. -/
theorem witness_host_commands :
    (let s := ringing [2, 1, 0x1000, 0, 0x1000, 0] 2 96
     ∃ x, s.nextCmd 1 = some x ∧ x.opc = 2 ∧ known x.dev 2 = true ∧ x.seq = ((s.take 1 x).vq x.dev x.vq).acc + 1 ∧
       x.reserved 6 (fullWords 2 5) = false ∧ x.reserved 6 (fullWords 2 4) = false ∧ x.reserved 7 (fullWords 2 5) = true ∧
       (∃ v, 2 < v ∧ v = x.vq) ∧ s.devs.length = 1 ∧ 96 ≤ x.comp.2 ∧ x.c 2 = 0x1000) ∧
    (∃ x, (ringing [2, 9] 3 95).nextCmd 1 = some x ∧ x.seq ≠ (((ringing [2, 9] 3 95).take 1 x).vq x.dev x.vq).acc + 1 ∧ x.comp.2 < 96) ∧
    (let s := ringing [1, 1, 0, 0, 0, 0, 0, 0, 0, 0] 2 96
     ∃ x T, s.nextCmd 1 = some x ∧ Map.find s.tenants x.dev = some T ∧ s.admitted T.part < 256 ∧ x.opc = 1 ∧
      x.reserved 10 (fullWords 2 6 ++ [(7, 6)] ++ fullWords 8 9) = false) ∧
    (∃ x, (ringing [7, 1] 2 96).nextCmd 1 = some x ∧ known x.dev x.opc = false) ∧
    (let s := managing [0x80, 1, 2, 1]
     ∃ x, s.nextCmd 0 = some x ∧ x.opc = 0x80 ∧ known x.dev 0x80 = true ∧ s.psem = x.port + 1 ∧ s.psem ≠ 2 ∧
      x.reserved 4 [(2, 0xFFF), (3, 31)] = false ∧ (x.c 2).getLsbD 1 = true) ∧
    (1 ∈ (demo id).enabledClusters ∧ 0 ∈ (demo id).enabledClusters ∧ ∃ e ∈ (demo id).parts, 0 ∈ e.2.clusters) ∧
    (let q : Vq := { running := [(5, some (0x800, 96)), (6, none)], cmp := 4 }
     q.running.find? (fun e => e.1 == 5) = some (5, some (0x800, 96)) ∧ q.running.find? (fun e => e.1 == 6) = some (6, none) ∧
       (5 : Word) = q.cmp + 1 ∧ (6 : Word) ≠ q.cmp + 1 ∧ q.bufs = [] ∧ ({ q with bufs := [(0x900, 96)], enabled := true } : Vq).heldUsed = []) ∧
    1 ∉ (demo id).awake ∧ (demo id).nextCmd 1 = none :=
  ⟨⟨_, rfl, by decide, by decide, by decide, by decide, by decide, by decide, ⟨3, by decide, rfl⟩, by decide, by decide, by decide⟩,
    ⟨_, rfl, by decide, by decide⟩, ⟨_, _, rfl, rfl, by decide, by decide, by decide⟩, ⟨_, rfl, by decide⟩,
    ⟨_, rfl, by decide, by decide, rfl, by decide, by decide, by decide⟩,
    ⟨by decide, by decide, _, List.mem_singleton.2 rfl, by decide⟩, by decide, by decide, by decide⟩

/-- HostSide: a queue that is offered, enabled and not, and one that is not offered; a buffer for a record, and one for a completion that
is held; the semaphore free, held and by whom; a link out of L0 at the limit and before; an hour that is over and one that is not; a
module that waits for its image; the ends of each memory; a tenant whose reset goes on, one whose reset is over, and one to be removed. -/
theorem witness_host_side :
    ((∀ e ∈ (demo id).groups, e.2.life ≠ .saved) ∧
      (∃ e ∈ (withLaunch (fun x => { x with killed := some 0 }) (demo id)).launches, e.2.tenant = 0 ∧ e.2.killed = some 0) ∧
      (let s := { demo id with launches := [], tenants := [(0, { part := 0, rootPA := 0, rootTier := 0, removing := some ((32, 0), 5) })] }
       (∀ e ∈ s.launches, e.2.tenant ≠ 0) ∧ ∃ T, Map.find s.tenants 0 = some T ∧ T.removing = some ((32, 0), 5))) ∧
    (let s := ringing [] 0 96
     ∃ d, Map.find s.devs 0 = some d ∧ d.failed = false ∧ (63 < 64 ∧ ¬ 64 < 64) ∧ (s.vq 0 3).enabled = true ∧ (s.vq 0 3).heldUsed = [] ∧
      (s.vq 0 63).enabled = false ∧ d.features.getLsbD 40 = true ∧ s.enabledQueues.length < 1024 ∧ s.queueSize 0 64 = 0 ∧
      (4 % 4 = 0 ∧ 4 / 4 < 64 ∧ 4 / 4 ∈ s.awake) ∧ Map.find s.tenants 0 ≠ none ∧ s.parts ≠ []) ∧
    (let q : Vq := { enabled := true, bufs := [(0, 96)], heldUsed := [completion 0 5 0 []] }
     q.heldUsed = [completion 0 5 0 []] ∧ q.bufs ++ [] = (0, 96) :: []) ∧
    (let s := { demo id with devs := [(0, { failed := false, vqs := [(0, { enabled := true, bufs := [(0, 72)], recs := [(1, List.replicate 16 0)] })] })] }
     ∃ d, Map.find s.devs 0 = some d ∧ d.failed = false ∧ (s.vq 0 0).enabled = true ∧ (s.vq 0 0).bufs = (0, 72) :: [] ∧ (s.vq 0 0).recs ≠ [] ∧
       72 / (8 + 64) = 1) ∧
    ((0 ≤ 1 ∧ 1 ≤ 1) ∧ (demo id).psem = 0 ∧ (managing []).psem = 0 + 1 ∧ ¬ (1 = 1 + 1 ∧ (managing []).psem = 0)) ∧
    (∃ c, ({ managing [] with link0 := some 5, cycle := 12000005 } : State).link0 = some c ∧ c + 12000000 ≤ 12000005 ∧ 12000004 < c + 12000000) ∧
    ((demo id).cycle < (demo id).eolAt + 4320000000000 ∧ (demo id).eolAt + 4320000000000 ≤ ({ demo id with cycle := 4320000000000 } : State).cycle) ∧
    ((demo id).bootOf 0 = some 0 ∧ ({ demo id with bootst := 1 } : State).bootOf 0 ≠ some 0 ∧
      ({ demo id with links := [(1, 0)], wires := [(0, [1]), (1, [0])] } : State).bootOf 1 = some 0) ∧
    ((768 * 10 ^ 9 - 1) + [(0 : Byte)].length ≤ tierCapacity 0 ∧ tierCapacity 0 < 768 * 10 ^ 9 + [(0 : Byte)].length ∧ ¬ (2 = 2 ∧ 2 ^ 51 ≤ 2 ^ 51 - 1) ∧
      ({ demo id with bootst := 1 } : State).bootst = 1 ∧ (demo id).bootst ≠ 1) :=
  ⟨⟨by decide, by decide, by decide, _, rfl, rfl⟩, ⟨_, rfl, rfl, by decide, by decide, by decide, by decide, by decide, by decide, by decide, by decide, by decide, by decide⟩, by decide,
    ⟨_, rfl, rfl, by decide, by decide, by decide, by decide⟩, by decide, ⟨5, rfl, by decide, by decide⟩, by decide,
    by decide, by simp [tierCapacity]; decide⟩

/-! ## One step at a time: the spec's worked examples -/

/-- The wave after one step on an instruction placed at the PC satisfies `P`. -/
def stepped (s : State) (nbits word : Nat) (P : Wave → Bool) : Bool := match step (s.withFetchWord nbits word) with
  | .next t => ((Map.find t.waves 0).map P).getD false
  | _ => false

/-- A wave of one lane, with words of v and s by register. -/
def lane0 (vs ss : List (Nat × Word)) : State := demo fun w => { lanesOn 1 w with v := vs.map fun e => (e.1 * 64, e.2), s := ss }

/-- 09_vector_and_uniform.md: with v8 = -128, v10 = -1 and v20 = 5, ITRIT writes 133; lane 1 is inactive and keeps 0. -/
theorem test_itrit : stepped (lane0 [(8, -128), (10, -1), (20, 5)] []) 32 0x37282050 (fun w => w.vget 20 0 == 133 && w.vget 20 1 == 0) = true := by decide

/-- 09_vector_and_uniform.md, RQNT's table: 1000, 0.5, 2, 3 gives 127; -1000 gives -122. -/
theorem test_rqnt : stepped (lane0 [(6, 1000)] [(20, 0x40000000), (21, 2), (22, 3)]) 32 0x891018A0 (fun w => w.vget 8 0 == 127) = true ∧
    stepped (lane0 [(6, -1000)] [(20, 0x40000000), (21, 2), (22, 3)]) 32 0x891018A0 (fun w => w.vget 8 0 == -122) = true ∧
    stepped (lane0 [(6, 7)] [(20, 0x40000000)]) 32 0x891018A0 (fun w => w.vget 8 0 == 4) = true := by decide

/-- 09_vector_and_uniform.md: CVT.e4m3.f32 of 500.0 is 0x7E with OF and NX; CVT.i32.f32.rtz of -2.7 is -2 with NX. -/
theorem test_cvt : stepped (lane0 [(5, 0x43FA0000)] []) 32 0x880C1540 (fun w => w.vget 6 0 == 0x7E && w.fflags == 5) = true ∧
    stepped (lane0 [(3, 0xC02CCCCD)] []) 32 0x880E0CC2 (fun w => w.vget 7 0 == -2 && w.fflags == 1) = true := by decide

/-- 09_vector_and_uniform.md: with byte 1 = 0x12 and s9 = 0x82, UNPKPS.b1 writes 6.0. -/
theorem test_unpkps : stepped (lane0 [(2, 0x1200)] [(9, 0x82)]) 32 0x8C06084B (fun w => w.vget 3 0 == 0x40C00000) = true := by decide

/-- 09_vector_and_uniform.md: byte 191 decodes to +1, 0, -1, -1, +1; byte 250 writes five zeros and marks the lane; PACK5 gives 191 back. -/
theorem test_unpk5_pack5 :
    stepped (lane0 [(4, 0xBF0000)] []) 32 0x8A14100C (fun w => (List.range 5).map (fun i => w.vget (10 + i) 0) == [1, 0, -1, -1, 1] && w.pget 1 == 0) = true ∧
    stepped (lane0 [(4, 0xFA0000), (10, 7)] []) 32 0x8A14100C (fun w => (List.range 5).map (fun i => w.vget (10 + i) 0) == [0, 0, 0, 0, 0] && w.pget 1 == 1) = true ∧
    stepped (lane0 [(10, 1), (12, -1), (13, -1), (14, 1), (11, 0)] []) 32 0x8B162800 (fun w => w.vget 11 0 == 0xBF) = true := by decide

/-- 02_instruction_words.md: LIMM v4 sets every active lane to FP32 1.0 and the PC moves by 8; ULIMM. -/
theorem test_limm : stepped (lane0 [] []) 64 0x3F8000004B080000 (fun w => w.vget 4 0 == 0x3F800000 && w.vget 4 1 == 0 && (w.first.map (·.pc)) == some 0x1008) = true ∧
    stepped (lane0 [] []) 64 0x00012345630C0000 (fun w => Sparse.get 0 w.s 6 == 0x12345) = true := by decide

/-- By hand from R223 to R225: ISUB wraps, IADDI sign-extends, MOVI writes 1000, SEL keeps the lane whose bit is clear. -/
theorem test_integer : stepped (lane0 [(4, 0), (5, 1)] []) 32 0x210C1028 (fun w => w.vget 6 0 == 0xFFFFFFFF) = true ∧
    stepped (lane0 [(2, 0)] []) 32 0x40040BFF (fun w => w.vget 2 0 == 0xFFFFFFFF) = true ∧
    stepped (lane0 [] []) 32 0x490203E8 (fun w => w.vget 1 0 == 1000) = true ∧
    stepped (lane0 [(5, 9), (1, 4)] []) 32 0x340A0418 (fun w => w.vget 5 0 == 9) = true := by decide

/-- By hand: ICMP.lt compares signed values and sets the bit of the active lane alone. -/
theorem test_icmp : stepped (lane0 [(1, -1), (7, 1)] []) 32 0x33240438 (fun w => w.pget 2 == 1) = true ∧
    stepped (lane0 [(1, 1), (7, -1)] []) 32 0x33240438 (fun w => w.pget 2 == 0) = true := by decide

/-- By hand: UADD wraps; ULEA.x4 of a pair carries into the high word; USEL leaves s6 while k2 is clear. -/
theorem test_uniform : stepped (lane0 [] [(4, -1), (5, 2)]) 32 0x50081028 (fun w => Sparse.get 0 w.s 4 == 1) = true ∧
    stepped (lane0 [] [(8, 0xFFFFFFFC), (3, 1)]) 32 0x5E10201C (fun w => Sparse.get 0 w.s 8 == 0 && Sparse.get 0 w.s 9 == 1) = true ∧
    stepped (lane0 [] [(4, 5), (6, 8)]) 32 0x5D0C1010 (fun w => Sparse.get 0 w.s 6 == 8) = true := by decide

/-- By hand from IEEE 754-2019: 1.5 + 2^-24 rounds to 1.5 with NX; 1 * 2 + 0.5 by FFMA; FMOV.neg of a NaN moves bits and sets no flag. -/
theorem test_float : stepped (lane0 [(1, 0x3FC00000)] [(2, 0x33800000)]) 32 0x70060411 (fun w => w.vget 3 0 == 0x3FC00000 && w.fflags == 1) = true ∧
    stepped (lane0 [(4, 0x3F800000), (5, 0x40000000), (9, 0x3F000000)] []) 32 0x73121028 (fun w => w.vget 9 0 == 0x40200000 && w.fflags == 0) = true ∧
    stepped (lane0 [(3, 0x7F800001)] []) 32 0x82040C02 (fun w => w.vget 2 0 == 0xFF800001 && w.fflags == 0) = true := by decide

/-- Philox4x32-10's published answer for a zero counter and key (the Random123 authors' known answers), stream 0. -/
theorem test_rng : stepped (lane0 [] []) 32 0x96180850 (fun w =>
    (List.range 4).map (fun i => w.vget (12 + i) 0) == [0x6627E8D5, 0xE169C58D, 0xBC57AC4C, 0x9B00DBD8]) = true := by decide

/-- By hand from R241 and R242: SCAN.add and its sum by VRED.add over lanes 0 and 2. -/
theorem test_scan : (let s := demo fun w => { lanesOn 5 w with v := [(256, 3), (257, 100), (258, 4)] }
    stepped s 32 0x920A1000 (fun w => w.vget 5 0 == 3 && w.vget 5 1 == 0 && w.vget 5 2 == 7) &&
    stepped s 32 0x930C1000 (fun w => Sparse.get 0 w.s 6 == 7)) = true := by decide

/-- By hand from R172 to R176: IF p1 over lanes 0 and 1 with only lane 0's bit set leaves two fragments. -/
theorem test_if : stepped (demo fun w => { lanesOn 3 w with p := [(1, 1)] }) 32 0x02200005 (fun w =>
    w.first.map Frag.shape == some (0x1004, 1, false, none) && w.second.map Frag.shape == some (0x1014, 2, true, none)) = true := by decide

/-- By hand from R188: a branch back by three words, and a call that leaves its return address. -/
theorem test_branch : stepped (demo fun w => { w with k := [(2, true)] }) 32 0x0941FFFD (fun w => (w.first.map (·.pc)) == some 0xFF4) = true ∧
    stepped (demo id) 32 0x0BE00064 (fun w => (w.first.map (·.pc)) == some 0x1190 && Sparse.get 0 w.s 62 == 0x1004 && Sparse.get 0 w.s 63 == 0) = true := by decide

/-- 07_waves_and_control_flow.md: HLOOP s4, 16 counts 16 words from the next. -/
theorem test_hloop : stepped (demo fun w => { w with s := [(4, 3)] }) 32 0x0D00100F (fun w =>
    w.hloops == [⟨0x1004, 0x1040, 0, []⟩] && w.lc0 == 3 && (w.first.map (·.pc)) == some 0x1004) = true := by decide

/-- By hand from R164 and R246: CSRW SUBGRP takes 8 and traps on 9. -/
theorem test_csrw : stepped (demo fun w => { w with s := [(3, 8)] }) 32 0x17060003 (fun w => w.subgrp == 8 && w.stop.isNone) = true ∧
    stepped (demo fun w => { w with s := [(3, 9)] }) 32 0x17060003 (fun w => w.subgrp == 64 && (w.stop.map (·.trap.cause)) == some 1) = true := by decide

/-- By hand from R432: TRAP 0x42 retires and stops the wave with User Trap and its code. -/
theorem test_trap : stepped (demo id) 32 0x13000042 (fun w => (w.stop.map fun t => (t.trap.cause, t.trap.w12, t.retired)) == some (0x11, 0x42, true) &&
    (w.first.map (·.pc)) == some 0x1004) = true := by decide

/-- By hand from R50: the word of zeros, a reserved opcode and a nonzero reserved field raise Illegal Instruction. -/
theorem test_illegal : ([0x00000000, 0xFF000000, 0x01000001].all fun x => stepped (demo id) 32 x (fun w =>
    (w.stop.map fun t => (t.trap.cause, t.trap.w12)) == some (1, BitVec.ofNat 32 x) && (w.first.map (·.pc)) == some 0x1000)) = true := by decide

/-- 12_small_matrices.md, MCHOL's worked lane: L = [[2, 0, 0], [1, 2, 0], [1, 1, 2]]. -/
theorem test_mchol : (chol ⟨0, false⟩ 0 ((matOf 3 3 fun i j =>
      (([0x40800000, 0x40000000, 0x40000000, 0x40000000, 0x40A00000, 0x40400000, 0x40000000, 0x40400000, 0x40C00000] : List Nat).getD (3 * i + j) 0, 0)).1) 3).m =
    (matOf 3 3 fun i j => (([0x40000000, 0, 0, 0x3F800000, 0x40000000, 0, 0x3F800000, 0x3F800000, 0x40000000] : List Nat).getD (3 * i + j) 0, 0)).1 := by decide +kernel

/-- 12_small_matrices.md, MCHOL's second lane: NPD with column 1. -/
theorem test_mchol_npd : (chol ⟨0, false⟩ 0 ((matOf 2 2 fun i j =>
      (([0x3F800000, 0x40000000, 0x40000000, 0x40800000] : List Nat).getD (2 * i + j) 0, 0)).1) 2).fail = some 1 := by decide +kernel

/-- 12_small_matrices.md, MLUP's worked lane: the factors and the permutation 1, 0, 2. -/
theorem test_mlup : (let x := lu ⟨0, false⟩ 0 ((matOf 3 3 fun i j =>
      (([0x3F800000, 0x40200000, 0, 0x40000000, 0x3F800000, 0x3F800000, 0xC0000000, 0, 0x3F800000] : List Nat).getD (3 * i + j) 0, 0)).1) 3
    x.perm.take 3 == [1, 0, 2] && x.m == (matOf 3 3 fun i j =>
      (([0x40000000, 0x3F800000, 0x3F800000, 0x3F000000, 0x40000000, 0xBF000000, 0xBF800000, 0x3F000000, 0x40100000] : List Nat).getD (3 * i + j) 0, 0)).1) = true := by decide

/-- 08_number_formats.md: 1.0 and 0.5 in E4M3 against 1.0, scales 2^-24 and 1, on an accumulator of 1.0: one rounding up, with NX. -/
theorem test_tmma_group : (let m := mmaOf 0 0 1 0x2000 0x12001 0x12001 0x101 false none
    let g : Group := { launch := 0, t := [(0, 0x38), (1, 0x30), (8192, 0x38), (8193, 0x38)], side := [(0, 0x67), (512, 0x7F)], a := [(0, 0x3F800000)] }
    m.elem g false 0 0) = (0x3F800001, 1, false) := by decide

/-- 17_atomics.md's arithmetic by hand: two lanes' FADD on one element are summed first, and each reads what stood before it. -/
theorem test_group_step : groupStep .fadd 32 0x3F800000 [(0x3F800000, 0), (0x40000000, 0)] = ([0x3F800000, 0x40000000], 0x40800000) ∧
    groupStep .add 32 5 [(1, 0), (2, 0)] = ([5, 6], 8) ∧ atomStep .cas 32 7 7 9 = 9 := by decide

/-- An element whose store has not performed is read back by the wave's own load (R83): the byte 7 of the store before it. -/
theorem test_store_to_load : (match exec (.loadSectorReturn 0 1 0) (demo fun w => { w with outs := [storeOut 0, loadOut 1], nextSeq := 2 }) with
    | .next t => (Map.find t.waves 0).map fun w => (w.vget 5 63, w.outs.map (·.seq))
    | _ => none) = some (0x07070707, [0]) := by decide

end Sys2Proof.Tests
end

section
/-! Instruction words (spec/02_instruction_words.md): NOP, the long immediates LIMM and ULIMM, and ITRIT (R58, R59, R226). -/

namespace Sys2Proof

/-! ## First words with a bit that must be zero -/

/-- A first word whose opcode has a row, which the row's fields do not fit, is no instruction (R48). -/
theorem firstWord_bad {op w : Nat} (ho : field w 31 24 = op) (hop : isOpcode op = true) (ht : twoWord w = none)
    (hc : candidateAt op w = none) : firstWord w = .bad .firstWord := by
  unfold firstWord candidate
  rw [ho, hop, ht, hc]
  rfl

theorem decode_bad {w : Nat} {e : DecodeError} (h : firstWord w = .bad e) (hw : w < 2 ^ 32) (rest : List Byte) :
    decode (wordBytes w ++ rest) = .bad e := by
  unfold decode
  rw [wordAt_wordBytes hw]
  simp only [h]

/-- Every bit of NOP's word below its opcode must be zero (R58). -/
theorem decode_nop_reserved {x : Nat} (h0 : 0 < x) (hx : x < 2 ^ 24) (rest : List Byte) :
    decode (wordBytes (0x01000000 + x) ++ rest) = .bad .firstWord := by
  have hop : field (0x01000000 + x) 31 24 = 0x01 := by simp only [field, Nat.shiftRight_eq_div_pow]; omega
  have hlow : field (0x01000000 + x) 23 0 = x := by simp only [field, Nat.shiftRight_eq_div_pow]; omega
  have htwo : twoWord (0x01000000 + x) = none := twoWord_none (.inl (by rw [hop]; rfl))
  have hrow : candidateAt 0x01 (0x01000000 + x) = zeros (field (0x01000000 + x) 23 0) .nop := rfl
  refine decode_bad (firstWord_bad hop rfl htwo ?_) (by omega) rest
  rw [hrow, hlow, zeros, if_neg (by omega)]

/-- The first word of a long immediate with bits [16:0] not zero has no meaning (R59). -/
theorem decode_longImmediate_reserved {op d x : Nat} (hop : op = 0x4B ∨ op = 0x63) (hd : d < 128) (h0 : 0 < x)
    (hx : x < 2 ^ 17) (rest : List Byte) : decode (wordBytes (encL op d x) ++ rest) = .bad .firstWord := by
  have hop' : op < 256 := by omega
  obtain ⟨hw, hfield, -, hlow, -⟩ := encL_fields op d x hop' hd hx
  have hx' : x ≠ 0 := by omega
  have htwo : twoWord (encL op d x) = none := by
    rcases hop with rfl | rfl <;> simp [twoWord, hfield, hlow, hx']
  refine decode_bad (firstWord_bad hfield ?_ htwo ?_) hw rest
  · rcases hop with rfl | rfl <;> rfl
  · rcases hop with rfl | rfl <;> rfl

/-- A first word that the rows of two-word instructions fit. -/
theorem firstWord_two {w : Nat} {j : TwoWord} (hop : isOpcode (field w 31 24) = true) (ht : twoWord w = some j) :
    firstWord w = .two j := by
  unfold firstWord
  rw [hop, ht]
  rfl

/-- LIMM takes its second word as it stands (R59). -/
theorem decode_limm {d w1 : Nat} (hd : d < 128) (hw1 : w1 < 2 ^ 32) (rest : List Byte) :
    decode (wordBytes (encL 0x4B d 0) ++ wordBytes w1 ++ rest) = .ok (.limm d (BitVec.ofNat 32 w1)) rest := by
  obtain ⟨hw, hop, hfd, hlow, -⟩ := encL_fields 0x4B d 0 (by decide) hd (by decide)
  have htwo : twoWord (encL 0x4B d 0) = some (.limm d) := by simp [twoWord, hop, hfd, hlow]
  exact decode_two (firstWord_two (by rw [hop]; rfl) htwo) rfl hw hw1 rest

/-- ULIMM takes its second word as it stands (R59). -/
theorem decode_ulimm {d w1 : Nat} (hd : d < 64) (hw1 : w1 < 2 ^ 32) (rest : List Byte) :
    decode (wordBytes (encL 0x63 d 0) ++ wordBytes w1 ++ rest) = .ok (.ulimm d (BitVec.ofNat 32 w1)) rest := by
  obtain ⟨hw, hop, hfd, hlow, -⟩ := encL_fields 0x63 d 0 (by decide) (by omega) (by decide)
  have htwo : twoWord (encL 0x63 d 0) = some (.ulimm d) := by simp [twoWord, hop, hfd, hlow, isS, hd]
  exact decode_two (firstWord_two (by rw [hop]; rfl) htwo) rfl hw hw1 rest

end Sys2Proof

namespace Sys2Proof.Machine

variable {s : State} {k : Slot}

/-! ## The end of an instruction, field by field -/

@[simp] theorem Slot.qret_finished (k : Slot) (len : Nat) (w : Wave) : (k.finished len w).qret = w.qret + 1 := by
  unfold Slot.finished Wave.setFrag; cases k.second <;> rfl

@[simp] theorem Slot.accmode_finished (k : Slot) (len : Nat) (w : Wave) : (k.finished len w).accmode = w.accmode := by
  unfold Slot.finished; simp

@[simp] theorem Slot.held_finished (k : Slot) (len : Nat) (w : Wave) : (k.finished len w).held = w.held := (k.finished_sk len w).2.2

/-! ## NOP and the long immediates -/

/-- NOP only retires: the PC advances, and the quantum counts it (R58). -/
theorem exec_nop (h : Issues s k 4) :
    ∃ t w, exec .nop s = .next t ∧ WaveOnly s t k.h w ∧ Advances k 4 w ∧ w.rewound k = k.w ∧ w.qret = k.w.qret + 1 :=
  ⟨_, _, issue_of h _, s.waveOnly_finish k 4 h.slot, k.advances_finished 4 k.w rfl, k.rewound_finished 4 k.w, k.qret_finished 4 k.w⟩

theorem exec_limm {d : Nat} {imm : Word} (h : Issues s k 8) (hn : k.holds [d]) :
    WritesVec s k 8 d (fun _ => imm) (exec (.limm d imm) s) := by
  show WritesVec s k 8 d _ (execLimm d imm s)
  unfold execLimm
  rw [issue_of h, vnamed_of hn]
  exact writesVec_finish h.slot

theorem exec_ulimm {d : Nat} {imm : Word} (h : Issues s k 8) (hroom : k.room 1 = true) :
    WritesUni s k 8 [(.s d, imm)] (exec (.ulimm d imm) s) :=
  uniOp_of h (by simp [Slot.holds]) hroom (by simp [HDst.isReg])

/-! ## Accumulation under ACCMODE (R210, R211) -/

theorem clip_eq_max_min {lo hi : Int} (h : lo ≤ hi) (x : Int) : clip lo hi x = max lo (min hi x) := by
  unfold clip; split <;> omega

theorem accumulate_eq (m : Word) (x : Int) :
    accumulate m x =
      if m.getLsbD 0 then BitVec.ofInt 32 (max (-(2 ^ 31)) (min (2 ^ 31 - 1) x)) else BitVec.ofInt 32 x := by
  rw [accumulate, clip_eq_max_min (by decide)]

/-- The wave after the slot's accumulation, which sets SAT when it clips: at once, or by a held write of the second of two
slots (R180, R210). -/
def Slot.noteSat (k : Slot) (clips : Bool) (w : Wave) : Wave :=
  { w with
    accmode := if clips && !k.second then w.accmode ||| 0x10000 else w.accmode
    held := if clips && k.second then w.held ++ [{ dst := .sat, val := some 1, level := w.stack.length }] else w.held }

theorem State.write_sat (s : State) (k : Slot) (clips : Bool) (g : Wave → Wave) :
    (s.modWave k.h g).write k (if clips then [(.sat, 1)] else []) = s.modWave k.h fun w => k.noteSat clips (g w) := by
  unfold State.write Slot.noteSat
  cases clips <;> cases k.second <;> simp [State.putDst, State.modWave_modWave]

/-! ## ITRIT -/

/-- A lane's exact sum (R226). -/
def Slot.tritSum (k : Slot) (d a : Nat) (b : Src) (l : Nat) : Int := itritSum (k.w.vget d l) (k.w.vget a l) (k.src b l)

/-- Saturating mode clips the sum of an active lane (R211). -/
def Slot.tritClips (k : Slot) (d a : Nat) (b : Src) : Bool := k.lanes.any fun l => clipped (k.csr 0x002) (k.tritSum d a b l)

theorem Slot.tritClips_eq (k : Slot) (d a : Nat) (b : Src) :
    k.tritClips d a b = (List.range 64).any fun l => k.on l && (k.csr 0x002).getLsbD 0 &&
      (decide (k.tritSum d a b l < -(2 ^ 31)) || decide (2 ^ 31 - 1 < k.tritSum d a b l)) := by
  simp only [Slot.tritClips, lanes_eq, List.any_filter, clipped, Bool.and_assoc]

/-- The wave with ITRIT's results, before its instruction ends. -/
def Slot.tritted (k : Slot) (d a : Nat) (b : Src) (w : Wave) : Wave :=
  k.noteSat (k.tritClips d a b) (w.vput d k.mask fun l => accumulate (k.csr 0x002) (k.tritSum d a b l))

section
variable {d a : Nat} {b : Src} (h : Issues s k 4) (hn : k.holds (d :: a :: b.vecs))
include h hn

/-- An ITRIT that issues waits for room for the SAT that it sets, or writes and ends. -/
theorem exec_itrit : exec (.itrit d a b) s =
    .next (if k.tritClips d a b && !k.room 1 then s else (s.modWave k.h (k.tritted d a b)).finish k 4) := by
  have hnames : (names3 d a b).map (·.2) = d :: a :: b.vecs := by cases b <;> rfl
  show execItrit d a b s = _
  unfold execItrit
  rw [issue_of h, vnamed_of (hnames ▸ hn), State.write_sat]
  rfl

theorem itrit_waits (hc : k.tritClips d a b = true) (hroom : k.room 1 = false) : Waits s (exec (.itrit d a b) s) := by
  rw [Waits, exec_itrit h hn, hc, hroom]
  rfl

theorem itrit_completes (hroom : k.tritClips d a b = true → k.room 1 = true) :
    ∃ t w, exec (.itrit d a b) s = .next t ∧ WaveOnly s t k.h w ∧ Advances k 4 w ∧
      (∀ l, l < 64 → w.vget d l = if k.on l then accumulate (k.csr 0x002) (k.tritSum d a b l) else k.w.vget d l) ∧
      (∀ x, (x < k.w.vkey d ∨ k.w.vkey d + 64 ≤ x) → Sparse.get 0 w.v x = Sparse.get 0 k.w.v x) ∧
      w.accmode = (if k.tritClips d a b && !k.second then k.w.accmode ||| 0x10000 else k.w.accmode) ∧
      w.held = (if k.tritClips d a b && k.second then
        k.w.held ++ [{ dst := .sat, val := some 1, level := k.w.stack.length }] else k.w.held) ∧
      { w.rewound k with v := k.w.v, accmode := k.w.accmode, held := k.w.held } = k.w := by
  have hgoes : (k.tritClips d a b && !k.room 1) = false := by
    cases hc : k.tritClips d a b
    · rfl
    · rw [hroom hc]; rfl
  refine ⟨(s.modWave k.h (k.tritted d a b)).finish k 4, k.finished 4 (k.tritted d a b k.w), ?_, ?_, ?_, fun l hl => ?_, fun x hx => ?_, ?_, ?_, ?_⟩
  · rw [exec_itrit h hn, hgoes]; rfl
  · exact s.waveOnly_modFinish k 4 _ h.slot
  · refine k.advances_finished 4 _ ?_
    cases k.second <;> rfl
  · rw [Slot.vget_finished]; exact k.w.vget_vput d k.mask _ l hl
  · rw [Slot.v_finished]; exact k.w.get_vput_outside d k.mask _ x hx
  · exact k.accmode_finished 4 _
  · exact k.held_finished 4 _
  · rw [k.rewound_finished]; rfl

end

end Sys2Proof.Machine

namespace Sys2Proof
open Machine

/-- Settles O8, by what each instruction comes to when it issues, and by the fields of its first word. -/
theorem nopLongImmediatesAndTrits : Obligations.NopLongImmediatesAndTrits := by
  unfold Obligations.NopLongImmediatesAndTrits
  refine ⟨⟨fun s k h => exec_nop h, rfl, Laws.Roundtrip.nop rfl rfl, fun x rest h0 hx => ⟨_, decode_nop_reserved h0 hx rest⟩⟩,
    ⟨fun s k d imm h => ⟨exec_limm h, exec_ulimm h⟩, fun d w1 rest hd hw => decode_limm hd hw rest,
      fun d w1 rest hd hw => decode_ulimm hd hw rest, fun d x rest hd h0 hx => ⟨?_, ?_⟩⟩,
    Laws.Roundtrip.itrit 20 8 (.v 10) rfl rfl [], fun s k d a b h hn => ?_⟩
  · exact ⟨_, decode_longImmediate_reserved (.inl rfl) hd h0 hx rest⟩
  · exact ⟨_, decode_longImmediate_reserved (.inr rfl) hd h0 hx rest⟩
  · intro sum sat clips
    have hclips : k.tritClips d a b = clips := k.tritClips_eq d a b
    refine ⟨fun hc hroom => itrit_waits h hn (hclips.trans hc) hroom, fun hroom => ?_⟩
    have hends := itrit_completes h hn (hclips ▸ hroom)
    simp only [accumulate_eq, hclips] at hends
    exact hends

end Sys2Proof
end

section
/-! RNG (spec/09_vector_and_uniform.md, R244): runs of vector registers written in the active lanes, and Philox4x32-10. -/

namespace Sys2Proof.Machine

/-! ## Runs of vector registers -/

/-- The wave with its lanes of `m` in `n` registers from `vd` replaced, those of the `i`-th by `f i`. -/
def Wave.vputRun (w : Wave) (d n : Nat) (m : Mask) (f : Nat → Nat → Word) : Wave :=
  (List.range n).foldl (fun w' i => w'.vput (d + i) m (f i)) w

section
variable (w : Wave) (d n : Nat) (m : Mask) (f : Nat → Nat → Word)

theorem Wave.vkey_add (i : Nat) : w.vkey (d + i) = w.vkey d + 64 * i := by unfold Wave.vkey; omega

theorem Wave.vputRun_succ : w.vputRun d (n + 1) m f = (w.vputRun d n m f).vput (d + n) m (f n) := by
  simp only [Wave.vputRun, List.range_succ, List.foldl_append, List.foldl_cons, List.foldl_nil]

/-- A run of writes changes the vector file alone. -/
theorem Wave.vputRun_frame : w.vputRun d n m f = { w with v := (w.vputRun d n m f).v } := by
  induction n with
  | zero => rfl
  | succ n ih => rw [Wave.vputRun_succ, ih]; rfl

@[simp] theorem Wave.vkey_vputRun (j : Nat) : (w.vputRun d n m f).vkey j = w.vkey j := by rw [Wave.vputRun_frame]; rfl

theorem Wave.get_vputRun_outside {x : Nat} (h : x < w.vkey d ∨ w.vkey d + 64 * n ≤ x) :
    Sparse.get 0 (w.vputRun d n m f).v x = Sparse.get 0 w.v x := by
  induction n with
  | zero => rfl
  | succ n ih =>
    rw [Wave.vputRun_succ, Wave.get_vput_outside, ih (by omega)]
    rw [Wave.vkey_vputRun, Wave.vkey_add]
    omega

/-- The registers from the end of a run on keep their lanes. -/
theorem Wave.vget_vputRun_beyond {j : Nat} (h : n ≤ j) (l : Nat) : (w.vputRun d n m f).vget (d + j) l = w.vget (d + j) l := by
  show Sparse.get 0 _ ((w.vputRun d n m f).vkey (d + j) + l) = Sparse.get 0 _ (w.vkey (d + j) + l)
  rw [Wave.vkey_vputRun]
  exact w.get_vputRun_outside d n m f (.inr (by rw [Wave.vkey_add]; omega))

theorem Wave.vget_vputRun {i l : Nat} (hi : i < n) (hl : l < 64) :
    (w.vputRun d n m f).vget (d + i) l = if m.getLsbD l then f i l else w.vget (d + i) l := by
  induction n with
  | zero => omega
  | succ n ih =>
    rw [Wave.vputRun_succ]
    by_cases hin : i = n
    · rw [hin, Wave.vget_vput _ _ _ _ _ hl, Wave.vget_vputRun_beyond _ _ _ _ _ (Nat.le_refl n)]
    · rw [Wave.vget_vput_of_ne _ _ _ _ _ _ hl (by omega), ih (by omega)]

end

variable {s : State} {k : Slot}

theorem map_snd_runNames (fld d n : Nat) : (runNames fld d n).map (·.2) = (List.range n).map (d + ·) := by
  rw [runNames, List.map_map]
  rfl

/-- A run of writes in the active lanes, which may read the wave, and the end of the instruction. -/
theorem writesRun_finish {len d n : Nat} (f : Wave → Nat → Nat → Word) (e : s.slot = some k) :
    WritesRun s k len d n (f k.w) (.next ((s.modWave k.h fun w => w.vputRun d n k.mask (f w)).finish k len)) := by
  refine ⟨_, _, rfl, s.waveOnly_modFinish k len _ e, k.advances_finished len _ ?_, fun i l hi hl => ?_, fun x hx => ?_, ?_⟩
  · rw [Wave.vputRun_frame]
    cases k.second <;> rfl
  · rw [Slot.vget_finished]
    exact k.w.vget_vputRun d n k.mask (f k.w) hi hl
  · rw [Slot.v_finished]
    exact k.w.get_vputRun_outside d n k.mask (f k.w) hx
  · rw [k.rewound_finished, Wave.vputRun_frame]
    rfl

/-- Only what fills the registers of the run counts. -/
theorem WritesRun.congr {len d n : Nat} {f g : Nat → Nat → Word} {r : Res} (h : WritesRun s k len d n f r)
    (hfg : ∀ i l, i < n → f i l = g i l) : WritesRun s k len d n g r := by
  obtain ⟨t, w, hr, hwave, hadv, hrun, hrest⟩ := h
  exact ⟨t, w, hr, hwave, hadv, fun i l hi hl => hfg i l hi ▸ hrun i l hi hl, hrest⟩

/-! ## Philox4x32-10 -/

/-- The counter's four words beside the key's two, which the rounds work on (R244). -/
abbrev PhiloxState := (Word × Word × Word × Word) × Word × Word

/-- One round, and the step of the key schedule after it (R244). -/
def philoxRound (z : PhiloxState) : PhiloxState :=
  let p := mulhilo 0xD2511F53 z.1.1
  let q := mulhilo 0xCD9E8D57 z.1.2.2.1
  ((q.1 ^^^ z.1.2.1 ^^^ z.2.1, q.2, p.1 ^^^ z.1.2.2.2 ^^^ z.2.2, p.2), z.2.1 + 0x9E3779B9, z.2.2 + 0xBB67AE85)

/-- The first of the rounds. `delta` opens `philox` here: Lean's own equations for it do not come to an end, over its constants. -/
theorem philox_succ (n : Nat) (c : Word × Word × Word × Word) (k0 k1 : Word) :
    philox (n + 1) c k0 k1 =
      philox n (philoxRound (c, k0, k1)).1 (philoxRound (c, k0, k1)).2.1 (philoxRound (c, k0, k1)).2.2 := by
  delta philox
  rfl

/-- The rounds as a fold over any list of their number, whose elements no round reads. -/
theorem philox_length_eq_foldl {α : Type} (xs : List α) (c : Word × Word × Word × Word) (k0 k1 : Word) :
    philox xs.length c k0 k1 = (xs.foldl (fun z _ => philoxRound z) (c, k0, k1)).1 := by
  induction xs generalizing c k0 k1 with
  | nil =>
    delta philox
    rfl
  | cons x xs ih => rw [List.length_cons, philox_succ, ih, List.foldl_cons]

theorem philox_eq_foldl (n : Nat) (c : Word × Word × Word × Word) (k0 k1 : Word) :
    philox n c k0 k1 = ((List.range n).foldl (fun z _ => philoxRound z) (c, k0, k1)).1 := by
  rw [← philox_length_eq_foldl, List.length_range]

theorem philoxWord_eq_getD {a : Word} {stream : Nat} {k0 k1 : Word} {i : Nat} (hi : i < 4) :
    philoxWord a stream k0 k1 i =
      let c := philox 10 (a, BitVec.ofNat 32 stream, 0, 0) k0 k1
      [c.1, c.2.1, c.2.2.1, c.2.2.2].getD i 0 := by
  unfold philoxWord
  generalize philox 10 (a, BitVec.ofNat 32 stream, 0, 0) k0 k1 = c
  match i, hi with
  | 0, _ | 1, _ | 2, _ | 3, _ => rfl

/-! ## RNG -/

/-- An RNG that issues fills its four registers with its lanes' outputs (R244). -/
theorem exec_rng {d a b stream : Nat} (h : Issues s k 4) (hn : k.holds (a :: (List.range 4).map (d + ·))) :
    WritesRun s k 4 d 4 (fun i l => philoxWord (k.w.vget a l) stream (k.s b) (k.s (b + 1)) i) (exec (.rng d a b stream) s) := by
  have hnames : k.holds ((runNames 0 d 4 ++ [(1, a)]).map fun e : Nat × Nat => e.2) := by
    rw [List.map_append, map_snd_runNames]
    exact fun j hj => hn j ((List.perm_append_singleton a _).subset hj)
  show WritesRun s k 4 d 4 _ (execRng d a b stream s)
  unfold execRng
  rw [issue_of h, vnamed_of hnames]
  exact writesRun_finish (fun w i l => philoxWord (w.vget a l) stream (k.s b) (k.s (b + 1)) i) h.slot

end Sys2Proof.Machine

namespace Sys2Proof
open Machine

/-- Settles O17, by what an RNG that issues writes, and by its rounds as a fold of `philoxRound`, which is the statement's round. -/
theorem randomNumbersArePhilox : Obligations.RandomNumbersArePhilox := by
  unfold Obligations.RandomNumbersArePhilox
  refine ⟨fun s k d a b stream h hn => ?_, Laws.Roundtrip.rng 12 2 10 1 rfl rfl⟩
  refine (exec_rng h hn).congr fun i l hi => ?_
  rw [philoxWord_eq_getD hi, philox_eq_foldl]
  rfl

end Sys2Proof
end
